-- ==== Sys2Proof/Word.lean ====
section
/-!
DEFINITION. The word types of the block: every operand is 64 bits, an instruction 32, a physical
address 44, a register index 5 (00_scope R7, R12; 20_memory R70; 10_state R25).
-/

namespace Sys2Proof

/-- A 64-bit operand, register or virtual address (`XLEN`, 00_scope R7). -/
abbrev Word := BitVec 64

/-- One byte of memory or of a cache line. -/
abbrev Byte := BitVec 8

/-- One instruction word (`ILEN`, 00_scope R7). -/
abbrev InstrWord := BitVec 32

/-- A physical address (`PA_BITS`, 00_scope R7). -/
abbrev PhysAddr := BitVec 44

/-- A 5-bit architectural register index (10_state R25). -/
abbrev RegIdx := BitVec 5

/-- The 64 bytes of one cache line (`LINE_BYTES`, 00_scope R7). -/
abbrev Block := Vector Byte 64

/-- `SIGN_BIT` of 00_scope R14. -/
def signBit : Word := 0x8000000000000000#64

end Sys2Proof
end

