-- ==== Sys2Proof/Syntax.lean ====
section
/-!
DEFINITION. The instructions: one constructor per row of spec/opcode_table.json, named by the row's
mnemonic in lower case (30_encoding R141). Each constructor's docstring names the rule that gives its
meaning. BNE is no row and no constructor: the sequencer evaluates it (70_reset_and_hazards R540).
-/

namespace Sys2Proof

/-- The second operand of the `Opr` format: a register, or the 8-bit literal (30_encoding R135). -/
inductive Opnd where
  | reg (rb : RegIdx)
  | lit (v : BitVec 8)
  deriving DecidableEq, Repr

/-- The instruction set (30_encoding R141). Arguments are the fields of the format: `Mem` has Ra, Rb and
the displacement (R133); `Mfc` has Ra and Rb (R134); `Opr` has Ra, the second operand and Rc (R135); `FPo`
has Fa, Fb, Fc, and for the arithmetic rows the qualifiers TRP and RND (R136, R140). -/
inductive Instr where
  /-- LDA: R323. -/
  | lda (ra rb : RegIdx) (disp : BitVec 16)
  /-- LDAH: R324. -/
  | ldah (ra rb : RegIdx) (disp : BitVec 16)
  /-- LDBU: R325. -/
  | ldbu (ra rb : RegIdx) (disp : BitVec 16)
  /-- LDQ_U: R329. -/
  | ldq_u (ra rb : RegIdx) (disp : BitVec 16)
  /-- LDWU: R326. -/
  | ldwu (ra rb : RegIdx) (disp : BitVec 16)
  /-- STW: R331. -/
  | stw (ra rb : RegIdx) (disp : BitVec 16)
  /-- STB: R330. -/
  | stb (ra rb : RegIdx) (disp : BitVec 16)
  /-- STQ_U: R334. -/
  | stq_u (ra rb : RegIdx) (disp : BitVec 16)
  /-- LDL: R327. -/
  | ldl (ra rb : RegIdx) (disp : BitVec 16)
  /-- LDQ: R328. -/
  | ldq (ra rb : RegIdx) (disp : BitVec 16)
  /-- LDL_L: R338. -/
  | ldl_l (ra rb : RegIdx) (disp : BitVec 16)
  /-- LDQ_L: R339. -/
  | ldq_l (ra rb : RegIdx) (disp : BitVec 16)
  /-- STL: R332. -/
  | stl (ra rb : RegIdx) (disp : BitVec 16)
  /-- STQ: R333. -/
  | stq (ra rb : RegIdx) (disp : BitVec 16)
  /-- STL_C: R340. -/
  | stl_c (ra rb : RegIdx) (disp : BitVec 16)
  /-- STQ_C: R341. -/
  | stq_c (ra rb : RegIdx) (disp : BitVec 16)
  /-- ADDL: R181. -/
  | addl (ra : RegIdx) (b : Opnd) (rc : RegIdx)
  /-- S4ADDL: R189. -/
  | s4addl (ra : RegIdx) (b : Opnd) (rc : RegIdx)
  /-- SUBL: R185. -/
  | subl (ra : RegIdx) (b : Opnd) (rc : RegIdx)
  /-- S4SUBL: R191. -/
  | s4subl (ra : RegIdx) (b : Opnd) (rc : RegIdx)
  /-- CMPBGE: R276. -/
  | cmpbge (ra : RegIdx) (b : Opnd) (rc : RegIdx)
  /-- S8ADDL: R190. -/
  | s8addl (ra : RegIdx) (b : Opnd) (rc : RegIdx)
  /-- S8SUBL: R192. -/
  | s8subl (ra : RegIdx) (b : Opnd) (rc : RegIdx)
  /-- CMPULT: R200. -/
  | cmpult (ra : RegIdx) (b : Opnd) (rc : RegIdx)
  /-- ADDQ: R183. -/
  | addq (ra : RegIdx) (b : Opnd) (rc : RegIdx)
  /-- S4ADDQ: R193. -/
  | s4addq (ra : RegIdx) (b : Opnd) (rc : RegIdx)
  /-- SUBQ: R187. -/
  | subq (ra : RegIdx) (b : Opnd) (rc : RegIdx)
  /-- S4SUBQ: R195. -/
  | s4subq (ra : RegIdx) (b : Opnd) (rc : RegIdx)
  /-- CMPEQ: R197. -/
  | cmpeq (ra : RegIdx) (b : Opnd) (rc : RegIdx)
  /-- S8ADDQ: R194. -/
  | s8addq (ra : RegIdx) (b : Opnd) (rc : RegIdx)
  /-- S8SUBQ: R196. -/
  | s8subq (ra : RegIdx) (b : Opnd) (rc : RegIdx)
  /-- CMPULE: R201. -/
  | cmpule (ra : RegIdx) (b : Opnd) (rc : RegIdx)
  /-- ADDL_V: R182. -/
  | addl_v (ra : RegIdx) (b : Opnd) (rc : RegIdx)
  /-- SUBL_V: R186. -/
  | subl_v (ra : RegIdx) (b : Opnd) (rc : RegIdx)
  /-- CMPLT: R198. -/
  | cmplt (ra : RegIdx) (b : Opnd) (rc : RegIdx)
  /-- ADDQ_V: R184. -/
  | addq_v (ra : RegIdx) (b : Opnd) (rc : RegIdx)
  /-- SUBQ_V: R188. -/
  | subq_v (ra : RegIdx) (b : Opnd) (rc : RegIdx)
  /-- CMPLE: R199. -/
  | cmple (ra : RegIdx) (b : Opnd) (rc : RegIdx)
  /-- AND: R221. -/
  | and (ra : RegIdx) (b : Opnd) (rc : RegIdx)
  /-- BIC: R222. -/
  | bic (ra : RegIdx) (b : Opnd) (rc : RegIdx)
  /-- CMOVLBS: R237. -/
  | cmovlbs (ra : RegIdx) (b : Opnd) (rc : RegIdx)
  /-- CMOVLBC: R238. -/
  | cmovlbc (ra : RegIdx) (b : Opnd) (rc : RegIdx)
  /-- BIS: R223. -/
  | bis (ra : RegIdx) (b : Opnd) (rc : RegIdx)
  /-- CMOVEQ: R231. -/
  | cmoveq (ra : RegIdx) (b : Opnd) (rc : RegIdx)
  /-- CMOVNE: R232. -/
  | cmovne (ra : RegIdx) (b : Opnd) (rc : RegIdx)
  /-- ORNOT: R224. -/
  | ornot (ra : RegIdx) (b : Opnd) (rc : RegIdx)
  /-- XOR: R225. -/
  | xor (ra : RegIdx) (b : Opnd) (rc : RegIdx)
  /-- CMOVLT: R233. -/
  | cmovlt (ra : RegIdx) (b : Opnd) (rc : RegIdx)
  /-- CMOVGE: R234. -/
  | cmovge (ra : RegIdx) (b : Opnd) (rc : RegIdx)
  /-- EQV: R226. -/
  | eqv (ra : RegIdx) (b : Opnd) (rc : RegIdx)
  /-- CMOVLE: R235. -/
  | cmovle (ra : RegIdx) (b : Opnd) (rc : RegIdx)
  /-- CMOVGT: R236. -/
  | cmovgt (ra : RegIdx) (b : Opnd) (rc : RegIdx)
  /-- MSKBL: R267. -/
  | mskbl (ra : RegIdx) (b : Opnd) (rc : RegIdx)
  /-- EXTBL: R253. -/
  | extbl (ra : RegIdx) (b : Opnd) (rc : RegIdx)
  /-- INSBL: R260. -/
  | insbl (ra : RegIdx) (b : Opnd) (rc : RegIdx)
  /-- MSKWL: R268. -/
  | mskwl (ra : RegIdx) (b : Opnd) (rc : RegIdx)
  /-- EXTWL: R254. -/
  | extwl (ra : RegIdx) (b : Opnd) (rc : RegIdx)
  /-- INSWL: R261. -/
  | inswl (ra : RegIdx) (b : Opnd) (rc : RegIdx)
  /-- MSKLL: R269. -/
  | mskll (ra : RegIdx) (b : Opnd) (rc : RegIdx)
  /-- EXTLL: R255. -/
  | extll (ra : RegIdx) (b : Opnd) (rc : RegIdx)
  /-- INSLL: R262. -/
  | insll (ra : RegIdx) (b : Opnd) (rc : RegIdx)
  /-- ZAP: R274. -/
  | zap (ra : RegIdx) (b : Opnd) (rc : RegIdx)
  /-- ZAPNOT: R275. -/
  | zapnot (ra : RegIdx) (b : Opnd) (rc : RegIdx)
  /-- MSKQL: R270. -/
  | mskql (ra : RegIdx) (b : Opnd) (rc : RegIdx)
  /-- SRL: R228. -/
  | srl (ra : RegIdx) (b : Opnd) (rc : RegIdx)
  /-- EXTQL: R256. -/
  | extql (ra : RegIdx) (b : Opnd) (rc : RegIdx)
  /-- SLL: R227. -/
  | sll (ra : RegIdx) (b : Opnd) (rc : RegIdx)
  /-- INSQL: R263. -/
  | insql (ra : RegIdx) (b : Opnd) (rc : RegIdx)
  /-- SRA: R229. -/
  | sra (ra : RegIdx) (b : Opnd) (rc : RegIdx)
  /-- MSKWH: R271. -/
  | mskwh (ra : RegIdx) (b : Opnd) (rc : RegIdx)
  /-- INSWH: R264. -/
  | inswh (ra : RegIdx) (b : Opnd) (rc : RegIdx)
  /-- EXTWH: R257. -/
  | extwh (ra : RegIdx) (b : Opnd) (rc : RegIdx)
  /-- MSKLH: R272. -/
  | msklh (ra : RegIdx) (b : Opnd) (rc : RegIdx)
  /-- INSLH: R265. -/
  | inslh (ra : RegIdx) (b : Opnd) (rc : RegIdx)
  /-- EXTLH: R258. -/
  | extlh (ra : RegIdx) (b : Opnd) (rc : RegIdx)
  /-- MSKQH: R273. -/
  | mskqh (ra : RegIdx) (b : Opnd) (rc : RegIdx)
  /-- INSQH: R266. -/
  | insqh (ra : RegIdx) (b : Opnd) (rc : RegIdx)
  /-- EXTQH: R259. -/
  | extqh (ra : RegIdx) (b : Opnd) (rc : RegIdx)
  /-- MULL: R202. -/
  | mull (ra : RegIdx) (b : Opnd) (rc : RegIdx)
  /-- MULQ: R204. -/
  | mulq (ra : RegIdx) (b : Opnd) (rc : RegIdx)
  /-- UMULH: R206. -/
  | umulh (ra : RegIdx) (b : Opnd) (rc : RegIdx)
  /-- MULL_V: R203. -/
  | mull_v (ra : RegIdx) (b : Opnd) (rc : RegIdx)
  /-- MULQ_V: R205. -/
  | mulq_v (ra : RegIdx) (b : Opnd) (rc : RegIdx)
  /-- SEXTB: R277. -/
  | sextb (ra : RegIdx) (b : Opnd) (rc : RegIdx)
  /-- SEXTW: R278. -/
  | sextw (ra : RegIdx) (b : Opnd) (rc : RegIdx)
  /-- PERR: R309. -/
  | perr (ra : RegIdx) (b : Opnd) (rc : RegIdx)
  /-- CTLZ: R279. -/
  | ctlz (ra : RegIdx) (b : Opnd) (rc : RegIdx)
  /-- CTTZ: R280. -/
  | cttz (ra : RegIdx) (b : Opnd) (rc : RegIdx)
  /-- UNPKBW: R313. -/
  | unpkbw (ra : RegIdx) (b : Opnd) (rc : RegIdx)
  /-- UNPKBL: R312. -/
  | unpkbl (ra : RegIdx) (b : Opnd) (rc : RegIdx)
  /-- PKWB: R311. -/
  | pkwb (ra : RegIdx) (b : Opnd) (rc : RegIdx)
  /-- PKLB: R310. -/
  | pklb (ra : RegIdx) (b : Opnd) (rc : RegIdx)
  /-- MINSB8: R302. -/
  | minsb8 (ra : RegIdx) (b : Opnd) (rc : RegIdx)
  /-- MINSW4: R304. -/
  | minsw4 (ra : RegIdx) (b : Opnd) (rc : RegIdx)
  /-- MINUB8: R301. -/
  | minub8 (ra : RegIdx) (b : Opnd) (rc : RegIdx)
  /-- MINUW4: R303. -/
  | minuw4 (ra : RegIdx) (b : Opnd) (rc : RegIdx)
  /-- MAXUB8: R305. -/
  | maxub8 (ra : RegIdx) (b : Opnd) (rc : RegIdx)
  /-- MAXUW4: R307. -/
  | maxuw4 (ra : RegIdx) (b : Opnd) (rc : RegIdx)
  /-- MAXSB8: R306. -/
  | maxsb8 (ra : RegIdx) (b : Opnd) (rc : RegIdx)
  /-- MAXSW4: R308. -/
  | maxsw4 (ra : RegIdx) (b : Opnd) (rc : RegIdx)
  /-- ADDF: R384. -/
  | addf (fa fb fc : RegIdx) (trp : BitVec 3) (rnd : BitVec 2)
  /-- MULF: R386. -/
  | mulf (fa fb fc : RegIdx) (trp : BitVec 3) (rnd : BitVec 2)
  /-- ADDG: R385. -/
  | addg (fa fb fc : RegIdx) (trp : BitVec 3) (rnd : BitVec 2)
  /-- MULG: R387. -/
  | mulg (fa fb fc : RegIdx) (trp : BitVec 3) (rnd : BitVec 2)
  /-- ADDS: R380. -/
  | adds (fa fb fc : RegIdx) (trp : BitVec 3) (rnd : BitVec 2)
  /-- MULS: R382. -/
  | muls (fa fb fc : RegIdx) (trp : BitVec 3) (rnd : BitVec 2)
  /-- ADDT: R381. -/
  | addt (fa fb fc : RegIdx) (trp : BitVec 3) (rnd : BitVec 2)
  /-- MULT: R383. -/
  | mult (fa fb fc : RegIdx) (trp : BitVec 3) (rnd : BitVec 2)
  /-- CVTLQ: R393. -/
  | cvtlq (fa fb fc : RegIdx)
  /-- CPYS: R390. -/
  | cpys (fa fb fc : RegIdx)
  /-- CPYSN: R391. -/
  | cpysn (fa fb fc : RegIdx)
  /-- CPYSE: R392. -/
  | cpyse (fa fb fc : RegIdx)
  /-- MT_FPCR: R404. -/
  | mt_fpcr (fa fb fc : RegIdx)
  /-- MF_FPCR: R405. -/
  | mf_fpcr (fa fb fc : RegIdx)
  /-- FCMOVEQ: R398. -/
  | fcmoveq (fa fb fc : RegIdx)
  /-- FCMOVNE: R399. -/
  | fcmovne (fa fb fc : RegIdx)
  /-- FCMOVLT: R400. -/
  | fcmovlt (fa fb fc : RegIdx)
  /-- FCMOVGE: R401. -/
  | fcmovge (fa fb fc : RegIdx)
  /-- FCMOVLE: R402. -/
  | fcmovle (fa fb fc : RegIdx)
  /-- FCMOVGT: R403. -/
  | fcmovgt (fa fb fc : RegIdx)
  /-- CVTQL: R394. -/
  | cvtql (fa fb fc : RegIdx)
  /-- CVTQL_V: R395. -/
  | cvtql_v (fa fb fc : RegIdx)
  /-- CVTQL_SV: R396. -/
  | cvtql_sv (fa fb fc : RegIdx)
  /-- RC: R420. -/
  | rc (ra rb : RegIdx)
  /-- RS: R421. -/
  | rs (ra rb : RegIdx)
  deriving DecidableEq, Repr

end Sys2Proof
end

