-- ==== Sys2Proof/WellFormed.lean ====
section
/-!
DEFINITION. Which instruction terms are instructions: the qualifier fields of the eight floating
arithmetic rows must hold a defined value (30_encoding R140, R143). Every other field admits every value.
-/

namespace Sys2Proof

/-- `TRP` values defined for opcode `0x16`: none, `/U`, `/SU`, `/SUI` (30_encoding R140). -/
def ieeeTrpOk (trp : BitVec 3) : Bool := trp == 0b000 || trp == 0b001 || trp == 0b101 || trp == 0b111

/-- `TRP` values defined for opcode `0x15`: none, `/U`, `/S`, `/SU` (30_encoding R140). -/
def vaxTrpOk (trp : BitVec 3) : Bool := trp == 0b000 || trp == 0b001 || trp == 0b100 || trp == 0b101

/-- `RND` values defined for opcode `0x15`: chopped and normal (30_encoding R140). -/
def vaxRndOk (rnd : BitVec 2) : Bool := rnd == 0b00 || rnd == 0b10

/-- The well-formedness check. Only floating arithmetic can fail it. -/
def Instr.wellFormed : Instr → Bool
  | .adds _ _ _ trp _ | .addt _ _ _ trp _ | .muls _ _ _ trp _ | .mult _ _ _ trp _ => ieeeTrpOk trp
  | .addf _ _ _ trp rnd | .addg _ _ _ trp rnd | .mulf _ _ _ trp rnd | .mulg _ _ _ trp rnd =>
    vaxTrpOk trp && vaxRndOk rnd
  | .lda .. | .ldah .. | .ldbu .. | .ldq_u .. | .ldwu .. | .stw .. | .stb .. | .stq_u .. | .ldl ..
  | .ldq .. | .ldl_l .. | .ldq_l .. | .stl .. | .stq .. | .stl_c .. | .stq_c .. | .addl ..
  | .s4addl .. | .subl .. | .s4subl .. | .cmpbge .. | .s8addl .. | .s8subl .. | .cmpult .. | .addq ..
  | .s4addq .. | .subq .. | .s4subq .. | .cmpeq .. | .s8addq .. | .s8subq .. | .cmpule ..
  | .addl_v .. | .subl_v .. | .cmplt .. | .addq_v .. | .subq_v .. | .cmple .. | .and .. | .bic ..
  | .cmovlbs .. | .cmovlbc .. | .bis .. | .cmoveq .. | .cmovne .. | .ornot .. | .xor .. | .cmovlt ..
  | .cmovge .. | .eqv .. | .cmovle .. | .cmovgt .. | .mskbl .. | .extbl .. | .insbl .. | .mskwl ..
  | .extwl .. | .inswl .. | .mskll .. | .extll .. | .insll .. | .zap .. | .zapnot .. | .mskql ..
  | .srl .. | .extql .. | .sll .. | .insql .. | .sra .. | .mskwh .. | .inswh .. | .extwh ..
  | .msklh .. | .inslh .. | .extlh .. | .mskqh .. | .insqh .. | .extqh .. | .mull .. | .mulq ..
  | .umulh .. | .mull_v .. | .mulq_v .. | .sextb .. | .sextw .. | .perr .. | .ctlz .. | .cttz ..
  | .unpkbw .. | .unpkbl .. | .pkwb .. | .pklb .. | .minsb8 .. | .minsw4 .. | .minub8 .. | .minuw4 ..
  | .maxub8 .. | .maxuw4 .. | .maxsb8 .. | .maxsw4 .. | .cvtlq .. | .cpys .. | .cpysn .. | .cpyse ..
  | .mt_fpcr .. | .mf_fpcr .. | .fcmoveq .. | .fcmovne .. | .fcmovlt .. | .fcmovge .. | .fcmovle ..
  | .fcmovgt .. | .cvtql .. | .cvtql_v .. | .cvtql_sv .. | .rc .. | .rs .. => true

end Sys2Proof
end

