-- ==== Sys2Proof/Decode.lean ====
section
/-!
DEFINITION. From words to instructions and back (30_encoding R131 to R144). Decoding is total: a word that
matches no row, or an arithmetic row with an undefined qualifier, is rejected by name (R143). The encoder is
written from the same format tables.
-/

namespace Sys2Proof

/-- Why a word is no instruction of the block. -/
inductive DecodeError where
  /-- The bytes are not one 32-bit word (R131). -/
  | wrongLength (bytes : Nat)
  /-- No row has this major opcode (R143). -/
  | undefinedOpcode (opcode : BitVec 6)
  /-- The opcode is known, the function is not (R143). -/
  | undefinedFunction (opcode : BitVec 6) (function : BitVec 16)
  /-- A floating arithmetic row with an undefined `TRP` or `RND` (R140, R143). -/
  | undefinedQualifier (trp : BitVec 3) (rnd : BitVec 2)
  deriving DecidableEq, Repr

/-! ### Fields (R132 to R136) -/

def opcodeField (w : InstrWord) : BitVec 6 := w.extractLsb' 26 6
def raField (w : InstrWord) : RegIdx := w.extractLsb' 21 5
def rbField (w : InstrWord) : RegIdx := w.extractLsb' 16 5
def dispField (w : InstrWord) : BitVec 16 := w.extractLsb' 0 16
def literalField (w : InstrWord) : BitVec 8 := w.extractLsb' 13 8
def useLiteralField (w : InstrWord) : BitVec 1 := w.extractLsb' 12 1
def oprFunctionField (w : InstrWord) : BitVec 7 := w.extractLsb' 5 7
def rcField (w : InstrWord) : RegIdx := w.extractLsb' 0 5
def fpFunctionField (w : InstrWord) : BitVec 11 := w.extractLsb' 5 11
def trpField (w : InstrWord) : BitVec 3 := w.extractLsb' 13 3
def rndField (w : InstrWord) : BitVec 2 := w.extractLsb' 11 2
/-- `SRC` and `FNC` together: the six function bits the table matches for opcodes `0x15`, `0x16` (R142). -/
def srcFncField (w : InstrWord) : BitVec 6 := w.extractLsb' 5 6

/-- The second operand of the `Opr` format: bit 12 chooses (R135). Bits 15:13 of the register form are
not looked at (R144). -/
def opndField (w : InstrWord) : Opnd :=
  if useLiteralField w = 1#1 then .lit (literalField w) else .reg (rbField w)

/-! ### The opcode map (R141) -/

/-- Opcode `0x10` (`Opr` format, R135). -/
def decodeOp10 (w : InstrWord) : Except DecodeError Instr :=
  match oprFunctionField w with
  | 0x00#7 => .ok (.addl (raField w) (opndField w) (rcField w))
  | 0x02#7 => .ok (.s4addl (raField w) (opndField w) (rcField w))
  | 0x09#7 => .ok (.subl (raField w) (opndField w) (rcField w))
  | 0x0B#7 => .ok (.s4subl (raField w) (opndField w) (rcField w))
  | 0x0F#7 => .ok (.cmpbge (raField w) (opndField w) (rcField w))
  | 0x12#7 => .ok (.s8addl (raField w) (opndField w) (rcField w))
  | 0x1B#7 => .ok (.s8subl (raField w) (opndField w) (rcField w))
  | 0x1D#7 => .ok (.cmpult (raField w) (opndField w) (rcField w))
  | 0x20#7 => .ok (.addq (raField w) (opndField w) (rcField w))
  | 0x22#7 => .ok (.s4addq (raField w) (opndField w) (rcField w))
  | 0x29#7 => .ok (.subq (raField w) (opndField w) (rcField w))
  | 0x2B#7 => .ok (.s4subq (raField w) (opndField w) (rcField w))
  | 0x2D#7 => .ok (.cmpeq (raField w) (opndField w) (rcField w))
  | 0x32#7 => .ok (.s8addq (raField w) (opndField w) (rcField w))
  | 0x3B#7 => .ok (.s8subq (raField w) (opndField w) (rcField w))
  | 0x3D#7 => .ok (.cmpule (raField w) (opndField w) (rcField w))
  | 0x40#7 => .ok (.addl_v (raField w) (opndField w) (rcField w))
  | 0x49#7 => .ok (.subl_v (raField w) (opndField w) (rcField w))
  | 0x4D#7 => .ok (.cmplt (raField w) (opndField w) (rcField w))
  | 0x60#7 => .ok (.addq_v (raField w) (opndField w) (rcField w))
  | 0x69#7 => .ok (.subq_v (raField w) (opndField w) (rcField w))
  | 0x6D#7 => .ok (.cmple (raField w) (opndField w) (rcField w))
  | _ => .error (.undefinedFunction (opcodeField w) ((oprFunctionField w).setWidth 16))

/-- Opcode `0x11` (`Opr` format, R135). -/
def decodeOp11 (w : InstrWord) : Except DecodeError Instr :=
  match oprFunctionField w with
  | 0x00#7 => .ok (.and (raField w) (opndField w) (rcField w))
  | 0x08#7 => .ok (.bic (raField w) (opndField w) (rcField w))
  | 0x14#7 => .ok (.cmovlbs (raField w) (opndField w) (rcField w))
  | 0x16#7 => .ok (.cmovlbc (raField w) (opndField w) (rcField w))
  | 0x20#7 => .ok (.bis (raField w) (opndField w) (rcField w))
  | 0x24#7 => .ok (.cmoveq (raField w) (opndField w) (rcField w))
  | 0x26#7 => .ok (.cmovne (raField w) (opndField w) (rcField w))
  | 0x28#7 => .ok (.ornot (raField w) (opndField w) (rcField w))
  | 0x40#7 => .ok (.xor (raField w) (opndField w) (rcField w))
  | 0x44#7 => .ok (.cmovlt (raField w) (opndField w) (rcField w))
  | 0x46#7 => .ok (.cmovge (raField w) (opndField w) (rcField w))
  | 0x48#7 => .ok (.eqv (raField w) (opndField w) (rcField w))
  | 0x64#7 => .ok (.cmovle (raField w) (opndField w) (rcField w))
  | 0x66#7 => .ok (.cmovgt (raField w) (opndField w) (rcField w))
  | _ => .error (.undefinedFunction (opcodeField w) ((oprFunctionField w).setWidth 16))

/-- Opcode `0x12` (`Opr` format, R135). -/
def decodeOp12 (w : InstrWord) : Except DecodeError Instr :=
  match oprFunctionField w with
  | 0x02#7 => .ok (.mskbl (raField w) (opndField w) (rcField w))
  | 0x06#7 => .ok (.extbl (raField w) (opndField w) (rcField w))
  | 0x0B#7 => .ok (.insbl (raField w) (opndField w) (rcField w))
  | 0x12#7 => .ok (.mskwl (raField w) (opndField w) (rcField w))
  | 0x16#7 => .ok (.extwl (raField w) (opndField w) (rcField w))
  | 0x1B#7 => .ok (.inswl (raField w) (opndField w) (rcField w))
  | 0x22#7 => .ok (.mskll (raField w) (opndField w) (rcField w))
  | 0x26#7 => .ok (.extll (raField w) (opndField w) (rcField w))
  | 0x2B#7 => .ok (.insll (raField w) (opndField w) (rcField w))
  | 0x30#7 => .ok (.zap (raField w) (opndField w) (rcField w))
  | 0x31#7 => .ok (.zapnot (raField w) (opndField w) (rcField w))
  | 0x32#7 => .ok (.mskql (raField w) (opndField w) (rcField w))
  | 0x34#7 => .ok (.srl (raField w) (opndField w) (rcField w))
  | 0x36#7 => .ok (.extql (raField w) (opndField w) (rcField w))
  | 0x39#7 => .ok (.sll (raField w) (opndField w) (rcField w))
  | 0x3B#7 => .ok (.insql (raField w) (opndField w) (rcField w))
  | 0x3C#7 => .ok (.sra (raField w) (opndField w) (rcField w))
  | 0x52#7 => .ok (.mskwh (raField w) (opndField w) (rcField w))
  | 0x57#7 => .ok (.inswh (raField w) (opndField w) (rcField w))
  | 0x5A#7 => .ok (.extwh (raField w) (opndField w) (rcField w))
  | 0x62#7 => .ok (.msklh (raField w) (opndField w) (rcField w))
  | 0x67#7 => .ok (.inslh (raField w) (opndField w) (rcField w))
  | 0x6A#7 => .ok (.extlh (raField w) (opndField w) (rcField w))
  | 0x72#7 => .ok (.mskqh (raField w) (opndField w) (rcField w))
  | 0x77#7 => .ok (.insqh (raField w) (opndField w) (rcField w))
  | 0x7A#7 => .ok (.extqh (raField w) (opndField w) (rcField w))
  | _ => .error (.undefinedFunction (opcodeField w) ((oprFunctionField w).setWidth 16))

/-- Opcode `0x13` (`Opr` format, R135). -/
def decodeOp13 (w : InstrWord) : Except DecodeError Instr :=
  match oprFunctionField w with
  | 0x00#7 => .ok (.mull (raField w) (opndField w) (rcField w))
  | 0x20#7 => .ok (.mulq (raField w) (opndField w) (rcField w))
  | 0x30#7 => .ok (.umulh (raField w) (opndField w) (rcField w))
  | 0x40#7 => .ok (.mull_v (raField w) (opndField w) (rcField w))
  | 0x60#7 => .ok (.mulq_v (raField w) (opndField w) (rcField w))
  | _ => .error (.undefinedFunction (opcodeField w) ((oprFunctionField w).setWidth 16))

/-- Opcode `0x1C` (`Opr` format, R135). -/
def decodeOp1C (w : InstrWord) : Except DecodeError Instr :=
  match oprFunctionField w with
  | 0x00#7 => .ok (.sextb (raField w) (opndField w) (rcField w))
  | 0x01#7 => .ok (.sextw (raField w) (opndField w) (rcField w))
  | 0x31#7 => .ok (.perr (raField w) (opndField w) (rcField w))
  | 0x32#7 => .ok (.ctlz (raField w) (opndField w) (rcField w))
  | 0x33#7 => .ok (.cttz (raField w) (opndField w) (rcField w))
  | 0x34#7 => .ok (.unpkbw (raField w) (opndField w) (rcField w))
  | 0x35#7 => .ok (.unpkbl (raField w) (opndField w) (rcField w))
  | 0x36#7 => .ok (.pkwb (raField w) (opndField w) (rcField w))
  | 0x37#7 => .ok (.pklb (raField w) (opndField w) (rcField w))
  | 0x38#7 => .ok (.minsb8 (raField w) (opndField w) (rcField w))
  | 0x39#7 => .ok (.minsw4 (raField w) (opndField w) (rcField w))
  | 0x3A#7 => .ok (.minub8 (raField w) (opndField w) (rcField w))
  | 0x3B#7 => .ok (.minuw4 (raField w) (opndField w) (rcField w))
  | 0x3C#7 => .ok (.maxub8 (raField w) (opndField w) (rcField w))
  | 0x3D#7 => .ok (.maxuw4 (raField w) (opndField w) (rcField w))
  | 0x3E#7 => .ok (.maxsb8 (raField w) (opndField w) (rcField w))
  | 0x3F#7 => .ok (.maxsw4 (raField w) (opndField w) (rcField w))
  | _ => .error (.undefinedFunction (opcodeField w) ((oprFunctionField w).setWidth 16))

/-- Opcode `0x15` (VAX arithmetic, R136: the row is chosen by `SRC` and `FNC`). -/
def decodeOp15 (w : InstrWord) : Except DecodeError Instr :=
  match srcFncField w with
  | 0x00#6 => .ok (.addf (raField w) (rbField w) (rcField w) (trpField w) (rndField w))
  | 0x02#6 => .ok (.mulf (raField w) (rbField w) (rcField w) (trpField w) (rndField w))
  | 0x20#6 => .ok (.addg (raField w) (rbField w) (rcField w) (trpField w) (rndField w))
  | 0x22#6 => .ok (.mulg (raField w) (rbField w) (rcField w) (trpField w) (rndField w))
  | _ => .error (.undefinedFunction (opcodeField w) ((fpFunctionField w).setWidth 16))

/-- Opcode `0x16` (IEEE arithmetic, R136: the row is chosen by `SRC` and `FNC`). -/
def decodeOp16 (w : InstrWord) : Except DecodeError Instr :=
  match srcFncField w with
  | 0x00#6 => .ok (.adds (raField w) (rbField w) (rcField w) (trpField w) (rndField w))
  | 0x02#6 => .ok (.muls (raField w) (rbField w) (rcField w) (trpField w) (rndField w))
  | 0x20#6 => .ok (.addt (raField w) (rbField w) (rcField w) (trpField w) (rndField w))
  | 0x22#6 => .ok (.mult (raField w) (rbField w) (rcField w) (trpField w) (rndField w))
  | _ => .error (.undefinedFunction (opcodeField w) ((fpFunctionField w).setWidth 16))

/-- Opcode `0x17` (`FPo` format with all eleven function bits, R136). -/
def decodeOp17 (w : InstrWord) : Except DecodeError Instr :=
  match fpFunctionField w with
  | 0x010#11 => .ok (.cvtlq (raField w) (rbField w) (rcField w))
  | 0x020#11 => .ok (.cpys (raField w) (rbField w) (rcField w))
  | 0x021#11 => .ok (.cpysn (raField w) (rbField w) (rcField w))
  | 0x022#11 => .ok (.cpyse (raField w) (rbField w) (rcField w))
  | 0x024#11 => .ok (.mt_fpcr (raField w) (rbField w) (rcField w))
  | 0x025#11 => .ok (.mf_fpcr (raField w) (rbField w) (rcField w))
  | 0x02A#11 => .ok (.fcmoveq (raField w) (rbField w) (rcField w))
  | 0x02B#11 => .ok (.fcmovne (raField w) (rbField w) (rcField w))
  | 0x02C#11 => .ok (.fcmovlt (raField w) (rbField w) (rcField w))
  | 0x02D#11 => .ok (.fcmovge (raField w) (rbField w) (rcField w))
  | 0x02E#11 => .ok (.fcmovle (raField w) (rbField w) (rcField w))
  | 0x02F#11 => .ok (.fcmovgt (raField w) (rbField w) (rcField w))
  | 0x030#11 => .ok (.cvtql (raField w) (rbField w) (rcField w))
  | 0x130#11 => .ok (.cvtql_v (raField w) (rbField w) (rcField w))
  | 0x530#11 => .ok (.cvtql_sv (raField w) (rbField w) (rcField w))
  | _ => .error (.undefinedFunction (opcodeField w) ((fpFunctionField w).setWidth 16))

/-- Opcode `0x18` (`Mfc` format, R134). -/
def decodeOp18 (w : InstrWord) : Except DecodeError Instr :=
  match dispField w with
  | 0xE000#16 => .ok (.rc (raField w) (rbField w))
  | 0xF000#16 => .ok (.rs (raField w) (rbField w))
  | _ => .error (.undefinedFunction (opcodeField w) (dispField w))

/-- Keeps an arithmetic instruction only if its qualifiers are defined (R140, R143). -/
def checkQualifiers (w : InstrWord) (i : Instr) : Except DecodeError Instr :=
  if i.wellFormed then .ok i else .error (.undefinedQualifier (trpField w) (rndField w))

/-- Decoding of one word (R141, R143). -/
def decodeWord (w : InstrWord) : Except DecodeError Instr :=
  match opcodeField w with
  | 0x08#6 => .ok (.lda (raField w) (rbField w) (dispField w))
  | 0x09#6 => .ok (.ldah (raField w) (rbField w) (dispField w))
  | 0x0A#6 => .ok (.ldbu (raField w) (rbField w) (dispField w))
  | 0x0B#6 => .ok (.ldq_u (raField w) (rbField w) (dispField w))
  | 0x0C#6 => .ok (.ldwu (raField w) (rbField w) (dispField w))
  | 0x0D#6 => .ok (.stw (raField w) (rbField w) (dispField w))
  | 0x0E#6 => .ok (.stb (raField w) (rbField w) (dispField w))
  | 0x0F#6 => .ok (.stq_u (raField w) (rbField w) (dispField w))
  | 0x28#6 => .ok (.ldl (raField w) (rbField w) (dispField w))
  | 0x29#6 => .ok (.ldq (raField w) (rbField w) (dispField w))
  | 0x2A#6 => .ok (.ldl_l (raField w) (rbField w) (dispField w))
  | 0x2B#6 => .ok (.ldq_l (raField w) (rbField w) (dispField w))
  | 0x2C#6 => .ok (.stl (raField w) (rbField w) (dispField w))
  | 0x2D#6 => .ok (.stq (raField w) (rbField w) (dispField w))
  | 0x2E#6 => .ok (.stl_c (raField w) (rbField w) (dispField w))
  | 0x2F#6 => .ok (.stq_c (raField w) (rbField w) (dispField w))
  | 0x10#6 => decodeOp10 w
  | 0x11#6 => decodeOp11 w
  | 0x12#6 => decodeOp12 w
  | 0x13#6 => decodeOp13 w
  | 0x1C#6 => decodeOp1C w
  | 0x15#6 => (decodeOp15 w).bind (checkQualifiers w)
  | 0x16#6 => (decodeOp16 w).bind (checkQualifiers w)
  | 0x17#6 => decodeOp17 w
  | 0x18#6 => decodeOp18 w
  | op => .error (.undefinedOpcode op)

/-- The little-endian longword of four bytes, the first at the lowest address (R131). -/
def wordOfBytes (b0 b1 b2 b3 : Byte) : InstrWord := b3 ++ b2 ++ b1 ++ b0

/-- Byte `k` of a word in that order. -/
def byteOfWord (w : InstrWord) (k : Nat) : Byte := w.extractLsb' (8 * k) 8

/-- Decoding of the bytes of one instruction, total on any byte list (R131). -/
def decodeBytes : List Byte → Except DecodeError Instr
  | [b0, b1, b2, b3] => decodeWord (wordOfBytes b0 b1 b2 b3)
  | bytes => .error (.wrongLength bytes.length)

/-- What the decoder reads from an instruction whose bits are `w`, of which the table gives `nbits` and the
rest are zero: the word is laid out in memory order and decoded. -/
def decodeTableWord (nbits w : Nat) : Option Instr :=
  let word : InstrWord := BitVec.ofNat 32 (w % 2 ^ nbits)
  (decodeBytes [byteOfWord word 0, byteOfWord word 1, byteOfWord word 2, byteOfWord word 3]).toOption

/-! ### Encoding (R133 to R136) -/

/-- The `Mem` and `Mfc` formats. -/
def encodeMem (op : BitVec 6) (ra rb : RegIdx) (low : BitVec 16) : InstrWord := op ++ ra ++ rb ++ low

/-- The two forms of the `Opr` format; the should-be-zero bits are zero. -/
def encodeOpr (op : BitVec 6) (fn : BitVec 7) (ra : RegIdx) (b : Opnd) (rc : RegIdx) : InstrWord :=
  match b with
  | .reg rb => op ++ ra ++ rb ++ 0#3 ++ 0#1 ++ fn ++ rc
  | .lit v => op ++ ra ++ v ++ 1#1 ++ fn ++ rc

/-- The `FPo` format. -/
def encodeFp (op : BitVec 6) (fn : BitVec 11) (fa fb fc : RegIdx) : InstrWord := op ++ fa ++ fb ++ fn ++ fc

/-- The eleven function bits of an arithmetic row: `TRP`, `RND`, then `SRC` and `FNC` (R136). -/
def fpFunction (trp : BitVec 3) (rnd : BitVec 2) (srcFnc : BitVec 6) : BitVec 11 := trp ++ rnd ++ srcFnc

/-- The word of an instruction. -/
def encode : Instr → InstrWord
  | .lda ra rb disp => encodeMem 0x08#6 ra rb disp
  | .ldah ra rb disp => encodeMem 0x09#6 ra rb disp
  | .ldbu ra rb disp => encodeMem 0x0A#6 ra rb disp
  | .ldq_u ra rb disp => encodeMem 0x0B#6 ra rb disp
  | .ldwu ra rb disp => encodeMem 0x0C#6 ra rb disp
  | .stw ra rb disp => encodeMem 0x0D#6 ra rb disp
  | .stb ra rb disp => encodeMem 0x0E#6 ra rb disp
  | .stq_u ra rb disp => encodeMem 0x0F#6 ra rb disp
  | .ldl ra rb disp => encodeMem 0x28#6 ra rb disp
  | .ldq ra rb disp => encodeMem 0x29#6 ra rb disp
  | .ldl_l ra rb disp => encodeMem 0x2A#6 ra rb disp
  | .ldq_l ra rb disp => encodeMem 0x2B#6 ra rb disp
  | .stl ra rb disp => encodeMem 0x2C#6 ra rb disp
  | .stq ra rb disp => encodeMem 0x2D#6 ra rb disp
  | .stl_c ra rb disp => encodeMem 0x2E#6 ra rb disp
  | .stq_c ra rb disp => encodeMem 0x2F#6 ra rb disp
  | .addl ra b rc => encodeOpr 0x10#6 0x00#7 ra b rc
  | .s4addl ra b rc => encodeOpr 0x10#6 0x02#7 ra b rc
  | .subl ra b rc => encodeOpr 0x10#6 0x09#7 ra b rc
  | .s4subl ra b rc => encodeOpr 0x10#6 0x0B#7 ra b rc
  | .cmpbge ra b rc => encodeOpr 0x10#6 0x0F#7 ra b rc
  | .s8addl ra b rc => encodeOpr 0x10#6 0x12#7 ra b rc
  | .s8subl ra b rc => encodeOpr 0x10#6 0x1B#7 ra b rc
  | .cmpult ra b rc => encodeOpr 0x10#6 0x1D#7 ra b rc
  | .addq ra b rc => encodeOpr 0x10#6 0x20#7 ra b rc
  | .s4addq ra b rc => encodeOpr 0x10#6 0x22#7 ra b rc
  | .subq ra b rc => encodeOpr 0x10#6 0x29#7 ra b rc
  | .s4subq ra b rc => encodeOpr 0x10#6 0x2B#7 ra b rc
  | .cmpeq ra b rc => encodeOpr 0x10#6 0x2D#7 ra b rc
  | .s8addq ra b rc => encodeOpr 0x10#6 0x32#7 ra b rc
  | .s8subq ra b rc => encodeOpr 0x10#6 0x3B#7 ra b rc
  | .cmpule ra b rc => encodeOpr 0x10#6 0x3D#7 ra b rc
  | .addl_v ra b rc => encodeOpr 0x10#6 0x40#7 ra b rc
  | .subl_v ra b rc => encodeOpr 0x10#6 0x49#7 ra b rc
  | .cmplt ra b rc => encodeOpr 0x10#6 0x4D#7 ra b rc
  | .addq_v ra b rc => encodeOpr 0x10#6 0x60#7 ra b rc
  | .subq_v ra b rc => encodeOpr 0x10#6 0x69#7 ra b rc
  | .cmple ra b rc => encodeOpr 0x10#6 0x6D#7 ra b rc
  | .and ra b rc => encodeOpr 0x11#6 0x00#7 ra b rc
  | .bic ra b rc => encodeOpr 0x11#6 0x08#7 ra b rc
  | .cmovlbs ra b rc => encodeOpr 0x11#6 0x14#7 ra b rc
  | .cmovlbc ra b rc => encodeOpr 0x11#6 0x16#7 ra b rc
  | .bis ra b rc => encodeOpr 0x11#6 0x20#7 ra b rc
  | .cmoveq ra b rc => encodeOpr 0x11#6 0x24#7 ra b rc
  | .cmovne ra b rc => encodeOpr 0x11#6 0x26#7 ra b rc
  | .ornot ra b rc => encodeOpr 0x11#6 0x28#7 ra b rc
  | .xor ra b rc => encodeOpr 0x11#6 0x40#7 ra b rc
  | .cmovlt ra b rc => encodeOpr 0x11#6 0x44#7 ra b rc
  | .cmovge ra b rc => encodeOpr 0x11#6 0x46#7 ra b rc
  | .eqv ra b rc => encodeOpr 0x11#6 0x48#7 ra b rc
  | .cmovle ra b rc => encodeOpr 0x11#6 0x64#7 ra b rc
  | .cmovgt ra b rc => encodeOpr 0x11#6 0x66#7 ra b rc
  | .mskbl ra b rc => encodeOpr 0x12#6 0x02#7 ra b rc
  | .extbl ra b rc => encodeOpr 0x12#6 0x06#7 ra b rc
  | .insbl ra b rc => encodeOpr 0x12#6 0x0B#7 ra b rc
  | .mskwl ra b rc => encodeOpr 0x12#6 0x12#7 ra b rc
  | .extwl ra b rc => encodeOpr 0x12#6 0x16#7 ra b rc
  | .inswl ra b rc => encodeOpr 0x12#6 0x1B#7 ra b rc
  | .mskll ra b rc => encodeOpr 0x12#6 0x22#7 ra b rc
  | .extll ra b rc => encodeOpr 0x12#6 0x26#7 ra b rc
  | .insll ra b rc => encodeOpr 0x12#6 0x2B#7 ra b rc
  | .zap ra b rc => encodeOpr 0x12#6 0x30#7 ra b rc
  | .zapnot ra b rc => encodeOpr 0x12#6 0x31#7 ra b rc
  | .mskql ra b rc => encodeOpr 0x12#6 0x32#7 ra b rc
  | .srl ra b rc => encodeOpr 0x12#6 0x34#7 ra b rc
  | .extql ra b rc => encodeOpr 0x12#6 0x36#7 ra b rc
  | .sll ra b rc => encodeOpr 0x12#6 0x39#7 ra b rc
  | .insql ra b rc => encodeOpr 0x12#6 0x3B#7 ra b rc
  | .sra ra b rc => encodeOpr 0x12#6 0x3C#7 ra b rc
  | .mskwh ra b rc => encodeOpr 0x12#6 0x52#7 ra b rc
  | .inswh ra b rc => encodeOpr 0x12#6 0x57#7 ra b rc
  | .extwh ra b rc => encodeOpr 0x12#6 0x5A#7 ra b rc
  | .msklh ra b rc => encodeOpr 0x12#6 0x62#7 ra b rc
  | .inslh ra b rc => encodeOpr 0x12#6 0x67#7 ra b rc
  | .extlh ra b rc => encodeOpr 0x12#6 0x6A#7 ra b rc
  | .mskqh ra b rc => encodeOpr 0x12#6 0x72#7 ra b rc
  | .insqh ra b rc => encodeOpr 0x12#6 0x77#7 ra b rc
  | .extqh ra b rc => encodeOpr 0x12#6 0x7A#7 ra b rc
  | .mull ra b rc => encodeOpr 0x13#6 0x00#7 ra b rc
  | .mulq ra b rc => encodeOpr 0x13#6 0x20#7 ra b rc
  | .umulh ra b rc => encodeOpr 0x13#6 0x30#7 ra b rc
  | .mull_v ra b rc => encodeOpr 0x13#6 0x40#7 ra b rc
  | .mulq_v ra b rc => encodeOpr 0x13#6 0x60#7 ra b rc
  | .sextb ra b rc => encodeOpr 0x1C#6 0x00#7 ra b rc
  | .sextw ra b rc => encodeOpr 0x1C#6 0x01#7 ra b rc
  | .perr ra b rc => encodeOpr 0x1C#6 0x31#7 ra b rc
  | .ctlz ra b rc => encodeOpr 0x1C#6 0x32#7 ra b rc
  | .cttz ra b rc => encodeOpr 0x1C#6 0x33#7 ra b rc
  | .unpkbw ra b rc => encodeOpr 0x1C#6 0x34#7 ra b rc
  | .unpkbl ra b rc => encodeOpr 0x1C#6 0x35#7 ra b rc
  | .pkwb ra b rc => encodeOpr 0x1C#6 0x36#7 ra b rc
  | .pklb ra b rc => encodeOpr 0x1C#6 0x37#7 ra b rc
  | .minsb8 ra b rc => encodeOpr 0x1C#6 0x38#7 ra b rc
  | .minsw4 ra b rc => encodeOpr 0x1C#6 0x39#7 ra b rc
  | .minub8 ra b rc => encodeOpr 0x1C#6 0x3A#7 ra b rc
  | .minuw4 ra b rc => encodeOpr 0x1C#6 0x3B#7 ra b rc
  | .maxub8 ra b rc => encodeOpr 0x1C#6 0x3C#7 ra b rc
  | .maxuw4 ra b rc => encodeOpr 0x1C#6 0x3D#7 ra b rc
  | .maxsb8 ra b rc => encodeOpr 0x1C#6 0x3E#7 ra b rc
  | .maxsw4 ra b rc => encodeOpr 0x1C#6 0x3F#7 ra b rc
  | .addf fa fb fc trp rnd => encodeFp 0x15#6 (fpFunction trp rnd 0x00#6) fa fb fc
  | .mulf fa fb fc trp rnd => encodeFp 0x15#6 (fpFunction trp rnd 0x02#6) fa fb fc
  | .addg fa fb fc trp rnd => encodeFp 0x15#6 (fpFunction trp rnd 0x20#6) fa fb fc
  | .mulg fa fb fc trp rnd => encodeFp 0x15#6 (fpFunction trp rnd 0x22#6) fa fb fc
  | .adds fa fb fc trp rnd => encodeFp 0x16#6 (fpFunction trp rnd 0x00#6) fa fb fc
  | .muls fa fb fc trp rnd => encodeFp 0x16#6 (fpFunction trp rnd 0x02#6) fa fb fc
  | .addt fa fb fc trp rnd => encodeFp 0x16#6 (fpFunction trp rnd 0x20#6) fa fb fc
  | .mult fa fb fc trp rnd => encodeFp 0x16#6 (fpFunction trp rnd 0x22#6) fa fb fc
  | .cvtlq fa fb fc => encodeFp 0x17#6 0x010#11 fa fb fc
  | .cpys fa fb fc => encodeFp 0x17#6 0x020#11 fa fb fc
  | .cpysn fa fb fc => encodeFp 0x17#6 0x021#11 fa fb fc
  | .cpyse fa fb fc => encodeFp 0x17#6 0x022#11 fa fb fc
  | .mt_fpcr fa fb fc => encodeFp 0x17#6 0x024#11 fa fb fc
  | .mf_fpcr fa fb fc => encodeFp 0x17#6 0x025#11 fa fb fc
  | .fcmoveq fa fb fc => encodeFp 0x17#6 0x02A#11 fa fb fc
  | .fcmovne fa fb fc => encodeFp 0x17#6 0x02B#11 fa fb fc
  | .fcmovlt fa fb fc => encodeFp 0x17#6 0x02C#11 fa fb fc
  | .fcmovge fa fb fc => encodeFp 0x17#6 0x02D#11 fa fb fc
  | .fcmovle fa fb fc => encodeFp 0x17#6 0x02E#11 fa fb fc
  | .fcmovgt fa fb fc => encodeFp 0x17#6 0x02F#11 fa fb fc
  | .cvtql fa fb fc => encodeFp 0x17#6 0x030#11 fa fb fc
  | .cvtql_v fa fb fc => encodeFp 0x17#6 0x130#11 fa fb fc
  | .cvtql_sv fa fb fc => encodeFp 0x17#6 0x530#11 fa fb fc
  | .rc ra rb => encodeMem 0x18#6 ra rb 0xE000#16
  | .rs ra rb => encodeMem 0x18#6 ra rb 0xF000#16

end Sys2Proof
end

