-- ==== Sys2Proof/Config.lean ====
section
/-!
DEFINITION. What is fixed for one machine: the constants of 00_scope R7 and the one free value. The
OPEN parameters of that rule are fields of State (`Cfg`), because the configuration input drives them
(10_state R34).
-/

namespace Sys2Proof.Config

/-- `LQ_DEPTH` and `SQ_DEPTH` (00_scope R7). -/
def queueDepth : Nat := 32

/-- `ITB_ENTRIES` and `DTB_ENTRIES` (00_scope R7). -/
def tlbEntries : Nat := 128

/-- log2 of `IC_SETS` and `DC_SETS` (00_scope R7). -/
def cacheSetBits : Nat := 9

/-- Address bits above the line offset: `PA_BITS - 6` (49_cache R451). -/
def lineBits : Nat := 38

/-- FREE VALUE. The shared bit the system bus returns with its `n`-th reply while `MP` is true
(49_cache R455, R460): whatever the collaborator says. Nothing evaluates it (log 13). -/
opaque sharedReply : Nat → Bool

end Sys2Proof.Config
end

