-- ==== Sys2Proof/Machine/Table.lean ====
section
/-!
DEFINITION. Sparse data by key: a list of key and value pairs with rising keys. An absent key stands for a
free slot, an invalid entry, or the table's default value, as the field that uses it says (log 9).
-/

namespace Sys2Proof.Machine

/-- A finite map with natural keys, kept as pairs in rising key order. -/
abbrev Table (α : Type) := List (Nat × α)

variable {α : Type}

/-- The value at a key. -/
def Table.at? : Table α → Nat → Option α
  | [], _ => none
  | (k', v) :: rest, k => if k' = k then some v else Table.at? rest k

/-- Set the value at a key, keeping the keys rising. -/
def Table.put : Table α → Nat → α → Table α
  | [], k, v => [(k, v)]
  | (k', v') :: rest, k, v =>
    if k < k' then (k, v) :: (k', v') :: rest
    else if k = k' then (k, v) :: rest
    else (k', v') :: Table.put rest k v

/-- Remove a key. -/
def Table.del : Table α → Nat → Table α
  | [], _ => []
  | (k', v) :: rest, k => if k' = k then Table.del rest k else (k', v) :: Table.del rest k

/-- The value at a key of a table whose absent keys read as `d`. -/
def Table.atD (t : Table α) (d : α) (k : Nat) : α := (Table.at? t k).getD d

/-- Set the value at a key of such a table: writing the default removes the entry, so that equal tables are
equal lists. -/
def Table.putD [DecidableEq α] (t : Table α) (d : α) (k : Nat) (v : α) : Table α :=
  if v = d then Table.del t k else Table.put t k v

/-- The least key below `n` that the table does not hold. `fuel` counts the keys still to try. -/
def Table.freeFrom (t : Table α) : Nat → Nat → Option Nat
  | 0, _ => none
  | fuel + 1, k => if (Table.at? t k).isNone then some k else Table.freeFrom t fuel (k + 1)

/-- The smallest free key among `0 .. n - 1`. -/
def Table.firstFree (t : Table α) (n : Nat) : Option Nat := Table.freeFrom t n 0

/-- The keys are strictly rising. -/
abbrev Table.Sorted (t : Table α) : Prop := List.Pairwise (fun a b => a.1 < b.1) t

end Sys2Proof.Machine
end

