-- ==== Sys2Proof/Machine/State.lean ====
section
/-!
DEFINITION. Everything the spec gives the machine, as plain data (10_state.md), with the reasons a step can
stop and the state after reset (10_state R44, 70_reset_and_hazards R520). INVENTORY.md lists every field with
its rule and its reset value.
-/

namespace Sys2Proof.Machine

/-! ### The instruction record (10_state, section 1) -/

/-- The register file an index names (10_state R20). -/
inductive RegFile where
  | int
  | fp
  deriving DecidableEq, Repr

/-- An architectural register: a file tag and a 5-bit index (10_state R20). -/
structure RegRef where
  file : RegFile
  idx : RegIdx
  deriving DecidableEq, Repr

/-- The type tag of an operand value (10_state R23). -/
inductive TypeTag where
  | intQuad | fpS | fpT | fpF | fpG | fpD | fpX
  deriving DecidableEq, Repr

/-- A 64-bit operand value with its tag (10_state R23). The tag never changes the bits. -/
structure Tagged where
  bits : Word
  tag : TypeTag
  deriving DecidableEq, Repr

/-- `I.state` (10_state R21). -/
inductive RecordState where
  | retired | executing | waitingRetirement
  deriving DecidableEq, Repr

/-- `I.completion` (10_state R22). -/
inductive Completion where
  | none | zeroExtendByte | zeroExtendWord | signExtendLong
  deriving DecidableEq, Repr

/-- The detail set of `ArithmeticTraps` (60_exceptions R482). -/
structure TrapDetail where
  integerOverflow : Bool := false
  invalidOperation : Bool := false
  overflow : Bool := false
  underflow : Bool := false
  inexact : Bool := false
  deriving DecidableEq, Repr

/-- The outcome of a dispatch, in the order of its numeric codes (60_exceptions R480). -/
inductive ExceptionOutcome where
  | noException
  | arithmeticTraps (detail : TrapDetail)
  | illegalOperand
  | accessViolation
  | translationNotValid
  | singleMiss
  | doubleMiss
  deriving DecidableEq, Repr

/-- The instruction record (10_state R20). The physical register indices, whose width the spec does not give, are
natural numbers (DESIGN CHOICE, log 21). -/
structure Record where
  id : Nat
  opcode : BitVec 6
  function : BitVec 16
  aSrc1 : RegRef
  aSrc2 : RegRef
  aDest : RegRef
  pSrc1 : Nat
  pSrc2 : Nat
  pDest : Nat
  src1v : Tagged
  src2v : Tagged
  destv : Tagged
  disp : BitVec 16
  literal : BitVec 8
  useLiteral : Bool
  slot : Nat
  state : RecordState
  completion : Completion
  lockPending : Bool
  lockVa : Word
  lockPa : Word
  clearLockPending : Bool
  /-- MODEL's own: what `dispatch` answered, so that `retire` can check it (log 31). -/
  outcome : Option ExceptionOutcome
  deriving DecidableEq, Repr

/-! ### CPU state and configuration (10_state, section 3) -/

/-- `cpu.mode` (10_state R28). -/
inductive Mode where
  | kernel | user
  deriving DecidableEq, Repr

/-- The CPU state (10_state R28). -/
structure Cpu where
  bigEndian : Bool
  intrFlag : Bool
  lockFlag : Bool
  lockVa : Word
  lockPa : Word
  fpcr : Word
  mode : Mode
  asn : BitVec 8
  spe : BitVec 3
  predMode : Nat
  deriving DecidableEq, Repr

/-- Enabled ways of the Icache or the Dcache (49_cache R452). -/
inductive Ways where
  | one | two
  deriving DecidableEq, Repr

/-- `CTR3_UPDATE` (48_branch_predictor R433). -/
inductive Ctr3Update where
  | plain | hysteresis
  deriving DecidableEq, Repr

/-- `BE_SHIFT_XFORM` (43_byte_manipulation R251). -/
inductive ShiftXform where
  | byWidth | xor7All
  deriving DecidableEq, Repr

/-- `VAX_TIE` (46_floating_point R376). -/
inductive VaxTie where
  | away | even
  deriving DecidableEq, Repr

/-- The parameters of 00_scope R7 that are not constants and not fields of the CPU state. -/
structure Cfg where
  icWays : Ways
  dcWays : Ways
  bcPresent : Bool
  bcSetBits : Nat
  mp : Bool
  fpcrReset : Word
  ctr3 : Ctr3Update
  shiftXform : ShiftXform
  vaxTie : VaxTie
  deriving DecidableEq, Repr

/-- All the configuration input drives (10_state R34). -/
structure ConfigInput where
  cfg : Cfg
  bigEndian : Bool
  asn : BitVec 8
  spe : BitVec 3
  predMode : Nat
  deriving DecidableEq, Repr

/-! ### Branch predictor (10_state, section 4) -/

/-- The predictor's tables and history (10_state R35). An absent entry reads 0; the widths bound every
entry (R36). -/
structure Predictor where
  lht : Table (BitVec 10)
  lpt : Table (BitVec 3)
  gpt : Table (BitVec 2)
  cpt : Table (BitVec 2)
  gph : BitVec 12
  deriving DecidableEq, Repr

/-! ### Translation buffers (10_state, section 5) -/

/-- Which translation buffer (20_memory R85). -/
inductive Side where
  | instr | data
  deriving DecidableEq, Repr

/-- The kind of an access (20_memory R85). -/
inductive AccessKind where
  | read | write | fetch
  deriving DecidableEq, Repr

/-- A valid TLB entry (10_state R37). -/
structure TlbEntry where
  vpn : BitVec 35
  ppn : BitVec 31
  kre : Bool
  ure : Bool
  kwe : Bool
  uwe : Bool
  asm : Bool
  asn : BitVec 8
  gh : BitVec 2
  deriving DecidableEq, Repr

/-- A translation buffer: the valid entries by index, the replacement pointer and the miss flag
(10_state R37, R38). -/
structure Tlb where
  entries : Table TlbEntry
  next : BitVec 7
  missPending : Bool
  deriving DecidableEq, Repr

/-- What `translate` answers (20_memory R85). -/
inductive Translation where
  | ok (pa : PhysAddr)
  | fault (o : ExceptionOutcome)
  deriving DecidableEq, Repr

/-! ### Caches, queues and the backing store (10_state, sections 6 and 7) -/

/-- A valid cache line (10_state R39). An Icache line has no dirty or shared state: both stay false. -/
structure Line where
  tag : Nat
  dirty : Bool
  shared : Bool
  data : Block
  deriving DecidableEq, Repr

/-- A cache: the valid lines by `2 * set + way`, and the pointer `rr` of each set, 0 when absent
(10_state R40). -/
structure Cache where
  lines : Table Line
  rr : Table Nat
  deriving DecidableEq, Repr

/-- Which cache. -/
inductive CacheId where
  | icache | dcache | bcache
  deriving DecidableEq, Repr

/-- An access width: 1, 2, 4 or 8 bytes (20_memory R81). -/
inductive Width where
  | byte | word | long | quad
  deriving DecidableEq, Repr

/-- The state of a queue slot (10_state R42). -/
inductive SlotState where
  | idle | pending | completed
  deriving DecidableEq, Repr

/-- An allocated load-queue slot (10_state R42). The reference `instr` is the record of `instrId`. -/
structure LqSlot where
  va : Word
  pa : PhysAddr
  paValid : Bool
  width : Width
  state : SlotState
  instrId : Nat
  deriving DecidableEq, Repr

/-- An allocated store-queue slot (10_state R42). -/
structure SqSlot where
  va : Word
  pa : PhysAddr
  paValid : Bool
  width : Width
  state : SlotState
  instrId : Nat
  value : Word
  doWrite : Bool
  deriving DecidableEq, Repr

/-- A use of the backing-store port (20_memory R73); `line` is the line number, the address divided by 64. -/
inductive BusEvent where
  | readBlock (line : Nat)
  | writeBlock (line : Nat) (data : Block)
  deriving DecidableEq, Repr

/-- The backing store's bytes, by physical address, in canonical form. -/
abbrev Memory := List Host.Cell

/-- The cache hierarchy and what stands behind it. -/
structure MemSys where
  icache : Cache
  dcache : Cache
  bcache : Cache
  store : Memory
  /-- MODEL's own: the port's traffic, newest first (log 26). -/
  bus : List BusEvent
  /-- MODEL's own: replies the system bus has given, the argument of `Config.sharedReply` (log 13). -/
  replies : Nat
  deriving DecidableEq, Repr

/-! ### The collaborators -/

/-- The sequencer's id counter, and the ids the preconditions of 20_memory R105 and R115 compare with:
every retired or discarded id is below `doneBelow`, every dispatched memory instruction's below `memBelow`. -/
structure Ids where
  next : Nat
  doneBelow : Nat
  memBelow : Nat
  deriving DecidableEq, Repr

/-- One transaction on a port of the block (00_scope R9), or one act of a collaborator the spec names. The
agenda of State lists those still to come (log 2). -/
inductive Transaction where
  /-- `dispatch(I)`. -/
  | dispatch (r : Record)
  | getLqSlot
  | getSqSlot
  | putLqSlot (s : Nat)
  | putSqSlot (s : Nat)
  /-- `lq_complete(s)`, the Mbox's own step (20_memory R108). -/
  | lqComplete (s : Nat)
  /-- `retire(I)`, by id. -/
  | retire (id : Nat)
  /-- `discard(I)`, by id. -/
  | discard (id : Nat)
  | predict (pc : Word)
  | train (pc : Word) (taken localPredicted globalPredicted : Bool)
  | translate (va : Word) (side : Side) (kind : AccessKind)
  | addEntry (side : Side) (e : TlbEntry)
  | icacheFetch (pa : PhysAddr)
  | icacheFill (la : PhysAddr)
  | lookup (c : CacheId) (la : PhysAddr)
  | fill (c : CacheId) (la : PhysAddr) (data : Block) (dirty shared : Bool)
  | write (la : PhysAddr) (off : Nat) (width : Width) (value : Word)
  | flush (c : CacheId)
  | invalidate (c : CacheId) (pa : PhysAddr)
  /-- The configuration loader (10_state R34). -/
  | configure (input : ConfigInput)
  /-- The Ibox or PALcode drives `cpu.mode` (10_state R28). -/
  | setMode (m : Mode)
  /-- The configuration input or PALcode drives `cpu.asn` (10_state R28). -/
  | setAsn (asn : BitVec 8)
  /-- The system bus clears the lock flag (45_load_store R342). -/
  | clearLock
  /-- The backing-store collaborator writes memory behind the block's back (49_cache R464). -/
  | storeWrite (pa : PhysAddr) (bytes : List Byte)
  /-- The retirement collaborator gives a register a value (70 R523). -/
  | writeReg (r : RegRef) (v : Word)
  /-- After PALcode has serviced an outcome the sequencer goes on (60_exceptions R492). -/
  | resume (pc : Word)
  /-- The reset event (70 R520). -/
  | reset
  /-- The sequencer runs one instruction before the next transaction (70 R540). -/
  | sequence
  deriving DecidableEq, Repr

/-- What a port transaction answered. MODEL's own field of State (log 34). -/
inductive PortResult where
  | none
  | slot (n : Nat)
  | outcome (o : ExceptionOutcome)
  | prediction (overall localTaken globalTaken choice : Bool)
  | translation (t : Translation)
  | word (w : Option InstrWord)
  | line (l : Option Line)
  deriving DecidableEq, Repr

/-! ### The machine -/

/-- The state of the block, of the sequencer that drives it, and of the backing store. -/
structure State where
  cfg : Cfg
  cpu : Cpu
  /-- Integer registers; index 31 is never read or written (10_state R25). -/
  x : Vector Word 32
  /-- Floating registers; index 31 is never read or written (10_state R25). -/
  f : Vector Word 32
  pc : Word
  ids : Ids
  /-- The sequencer's list of instruction words, by address (70 R540). -/
  program : Table InstrWord
  /-- The outcome the sequencer stopped with (70 R540). -/
  stopped : Option ExceptionOutcome
  /-- The records dispatched by transaction and not yet retired or discarded, by id. -/
  inflight : Table Record
  pred : Predictor
  itb : Tlb
  dtb : Tlb
  lq : Table LqSlot
  sq : Table SqSlot
  mem : MemSys
  agenda : List Transaction
  result : PortResult
  deriving DecidableEq, Repr

/-- Why the machine stops with a fault. -/
inductive Fault where
  /-- Raised by `step` at the turn of a sequencer that has stopped with an outcome, no load-queue slot `Pending`: with
  no transaction pending the run has ended (70 R534, R540); at a `sequence` it is ended (DESIGN CHOICE, log 11).
  Safe: nothing follows. -/
  | sequencerStopped (o : ExceptionOutcome)
  /-- Raised by `step` at the turn of a sequencer that has stopped, when load-queue slots are `Pending` and no
  completion is enabled: with no transaction pending the run is not finished (70 R534) and waits for an agent that has
  nothing to do; at a `sequence` it is ended (DESIGN CHOICE, log 11). Safe: nothing follows. -/
  | loadsPending (o : ExceptionOutcome)
  deriving DecidableEq, Repr

/-- Why the model gives no meaning: the spec's `refuse` (00_scope R13, 93_implementation_defined), by name. All
are safe: the model says nothing about what follows. -/
inductive Refusal where
  /-- Raised by an arm of `exec` whose instruction has no meaning yet. -/
  | notModelled (mnemonic : String)
  /-- Raised by the sequencer: the word at the program counter is no instruction (30_encoding R143). -/
  | undecodable (w : InstrWord)
  /-- Raised by `dispatch`: opcode and function select no executor (30_encoding R143). -/
  | noExecutor (opcode : BitVec 6) (function : BitVec 16)
  /-- Raised by `dispatch`: the record is not in state `Executing` (10_state R21). -/
  | recordNotExecuting
  /-- Raised by `dispatch`: a record of this id is in flight (10_state R20). -/
  | duplicateId (id : Nat)
  /-- Raised by `retire` and `discard`: no record of this id is in flight. -/
  | unknownRecord (id : Nat)
  /-- Raised by `dispatch`: an operand is tagged `FpX` (46_floating_point R366). -/
  | fpXOperand
  /-- Raised by `dispatch`, and by the sequencer beside records of the agenda: the destination value was not
  pre-loaded (42 R239, 70 R525, log 38). -/
  | destNotPreloaded
  /-- Raised by `dispatch`: a memory instruction out of id order (20_memory R105). -/
  | memoryOutOfOrder
  /-- Raised by `dispatch`: a store-conditional while an older lock instruction is in flight (45 R337). -/
  | storeConditionalTooEarly
  /-- Raised by slot allocation: no free slot (20_memory R104). -/
  | noFreeSlot
  /-- Raised by a memory executor: its slot is not allocated and `Idle` (20_memory R106, R112). -/
  | slotNotIdle
  /-- Raised by slot release: the slot is `Pending` (20_memory R104) or free (log 39). -/
  | slotNotReleasable
  /-- Raised by a memory executor: the address is not naturally aligned (20_memory R79). -/
  | misaligned
  /-- Raised by `translate`: two entries match (20_memory R90). -/
  | tlbMultiHit
  /-- Raised by `translate`: the kind does not belong to the side (20_memory R85). -/
  | badAccessKind
  /-- Raised by a cache lookup: two ways hold the line (49_cache R453). -/
  | cacheMultiHit
  /-- Raised by a fill of a line that is present (49_cache R455). -/
  | fillPresent
  /-- Raised by a write to an invalid line or past its end (49_cache R457). -/
  | writeInvalid
  /-- Raised by `lq_complete`: the slot is not `Pending`, or must wait for a store (20_memory R108, R109). -/
  | completionNotEnabled
  /-- Raised by `retire` and `discard`: the record is not `WaitingRetirement` (20_memory R115, R116). -/
  | recordNotWaiting
  /-- Raised by `retire`: an id not above every retired or discarded one (20_memory R115). -/
  | retireOutOfOrder
  /-- Raised by `retire`: the record's outcome was not `NoException` (20_memory R115). -/
  | retireOfException
  /-- Raised by `retire` of a load whose slot is not `Completed` (20_memory R115). -/
  | loadNotCompleted
  /-- Raised by `configure`: a parameter outside its range, or a geometry change over valid lines
  (49_cache R467). -/
  | configRejected
  /-- Raised by the lock clear, and by a fill with the shared bit, when `MP` is false (45 R342, 10_state R41). -/
  | notMultiprocessor
  /-- Raised by the backing-store write: bytes outside the physical address space (20_memory R70). -/
  | outsideMemory
  /-- Raised by a fill of the Bcache when there is none (00_scope R7, 49_cache R458). -/
  | noBcache
  /-- Raised by a fill from outside that would make a line dirty without a `write` (49_cache R455, R464 d). -/
  | fillDirty
  /-- Raised by a fill from outside, with `MP` false, of bytes that are not the backing store's (49_cache R464 e). -/
  | fillMismatch
  deriving DecidableEq, Repr

/-! ### Reset (10_state R44, 70 R520) -/

/-- The parameters at the defaults of 00_scope R7; `FPCR_RESET` has none (DESIGN CHOICE 0, log 6). -/
def Cfg.default : Cfg where
  icWays := .two
  dcWays := .two
  bcPresent := true
  bcSetBits := 15
  mp := false
  fpcrReset := 0
  ctr3 := .plain
  shiftXform := .byWidth
  vaxTie := .away

def Predictor.reset : Predictor := { lht := [], lpt := [], gpt := [], cpt := [], gph := 0 }

def Tlb.reset : Tlb := { entries := [], next := 0, missPending := false }

def Cache.reset : Cache := { lines := [], rr := [] }

/-- The machine right after reset: the values of 10_state R44; where it gives none, the values of the log
(registers log 4, program counter log 5, FPCR log 6, lock addresses log 7, memory log 3). -/
def State.reset : State where
  cfg := Cfg.default
  cpu := { bigEndian := false, intrFlag := false, lockFlag := false, lockVa := 0, lockPa := 0, fpcr := 0,
           mode := .kernel, asn := 0, spe := 0, predMode := 0 }
  x := Vector.replicate 32 0
  f := Vector.replicate 32 0
  pc := 0
  ids := { next := 0, doneBelow := 0, memBelow := 0 }
  program := []
  stopped := none
  inflight := []
  pred := Predictor.reset
  itb := Tlb.reset
  dtb := Tlb.reset
  lq := []
  sq := []
  mem := { icache := Cache.reset, dcache := Cache.reset, bcache := Cache.reset, store := [], bus := [],
           replies := 0 }
  agenda := []
  result := .none

end Sys2Proof.Machine
end

