-- ==== Sys2Proof/Machine/Primitives.lean ====
section
/-!
DEFINITION. The pure functions of 40_primitives: extension, byte, word and longword lanes, `BYTE_ZAP`, the
load completions, the multiplier and the bit scans.
-/

namespace Sys2Proof.Machine

/-! ### Extension (R161) -/

def sext8 (v : Word) : Word := (v.setWidth 8).signExtend 64
def sext16 (v : Word) : Word := (v.setWidth 16).signExtend 64
def sext32 (v : Word) : Word := (v.setWidth 32).signExtend 64
def zext8 (v : Word) : Word := (v.setWidth 8).setWidth 64
def zext16 (v : Word) : Word := (v.setWidth 16).setWidth 64
def zext32 (v : Word) : Word := (v.setWidth 32).setWidth 64

/-- A truth value as the 64-bit value 0 or 1 (41 R197). -/
def boolWord (b : Bool) : Word := if b then 1 else 0

/-! ### Lanes (R163) -/

def byteOf (v : Word) (i : Nat) : Byte := v.extractLsb' (8 * i) 8
def wordOf (v : Word) (j : Nat) : BitVec 16 := v.extractLsb' (16 * j) 16
def longOf (v : Word) (k : Nat) : BitVec 32 := v.extractLsb' (32 * k) 32

/-- The quadword of eight byte lanes, lane 0 least significant. -/
def ofBytes (g : Nat → Byte) : Word := g 7 ++ g 6 ++ g 5 ++ g 4 ++ g 3 ++ g 2 ++ g 1 ++ g 0

/-- The quadword of four word lanes. -/
def ofWords (g : Nat → BitVec 16) : Word := g 3 ++ g 2 ++ g 1 ++ g 0

/-- The quadword of two longword lanes. -/
def ofLongs (g : Nat → BitVec 32) : Word := g 1 ++ g 0

/-- `BYTE_ZAP(v, m)`: byte `i` cleared where `m[i] = 1` (R164). -/
def byteZap (v : Word) (m : BitVec 8) : Word := ofBytes fun i => if m.getLsbD i then 0 else byteOf v i

/-! ### Access widths and byte order (20_memory R74, R81) -/

def Width.bytes : Width → Nat
  | .byte => 1
  | .word => 2
  | .long => 4
  | .quad => 8

/-- The little-endian value of the first `w.bytes` bytes of `g`, zero-extended (R74). -/
def assemble (g : Nat → Byte) : Width → Word
  | .byte => (g 0).setWidth 64
  | .word => (g 1 ++ g 0).setWidth 64
  | .long => (g 3 ++ g 2 ++ g 1 ++ g 0).setWidth 64
  | .quad => ofBytes g

/-- The low `w.bytes` bytes of a value, the rest zero: the value field of a store as a load of the same width
sees it (20_memory R109). -/
def truncate (v : Word) (w : Width) : Word := assemble (byteOf v) w

/-- `complete(tag, v)` (R165). -/
def complete : Completion → Word → Word
  | .none, v => v
  | .zeroExtendByte, v => zext8 v
  | .zeroExtendWord, v => zext16 v
  | .signExtendLong, v => sext32 v

/-! ### Lines -/

/-- Byte `k` of a line; bytes past the end do not exist and read zero. -/
def blockByte (d : Block) (k : Nat) : Byte := if h : k < 64 then d[k] else 0

/-- The `w.bytes` bytes from offset `off`, assembled (49_cache R456). -/
def blockRead (d : Block) (off : Nat) (w : Width) : Word := assemble (fun k => blockByte d (off + k)) w

/-- The line with the low `w.bytes` bytes of `v` stored from offset `off` (49_cache R457). -/
def blockWrite (d : Block) (off : Nat) (w : Width) (v : Word) : Block :=
  Vector.ofFn fun i : Fin 64 =>
    if off ≤ i.val ∧ i.val < off + w.bytes then byteOf v (i.val - off) else d[i.val]

/-! ### The multiplier (R168, R169) -/

/-- `multiply64` by its contract: the high and the low word of the exact product (R168). -/
def multiply64 (a b : Word) : Word × Word :=
  (BitVec.ofNat 64 (a.toNat * b.toNat / 2 ^ 64), BitVec.ofNat 64 (a.toNat * b.toNat))

/-- The source's algorithm for `multiply64`: four partial products, the carries found by comparing each sum
with its addend (R168). -/
def multiply64Algorithm (a b : Word) : Word × Word :=
  let al := a &&& 0xFFFFFFFF#64
  let ah := a >>> 32
  let bl := b &&& 0xFFFFFFFF#64
  let bh := b >>> 32
  let p0 := al * bl
  let p1 := al * bh
  let p2 := ah * bl
  let p3 := ah * bh
  let t1 := p0 + (p1 <<< 32)
  let c1 := boolWord (t1.ult p0)
  let low := t1 + (p2 <<< 32)
  let c2 := boolWord (low.ult t1)
  (p3 + (p1 >>> 32) + (p2 >>> 32) + c1 + c2, low)

/-- The high word of the signed 128-bit product (R169). -/
def signedHigh (a b : Word) : Word :=
  (multiply64 a b).1 - (if a.msb then b else 0) - (if b.msb then a else 0)

/-! ### Bit scans (43 R279, R280) -/

/-- Zero bits from bit `n - 1` downward. -/
def leadingZeros (v : Word) : Nat → Nat
  | 0 => 0
  | n + 1 => if v.getLsbD n then 0 else leadingZeros v n + 1

/-- Zero bits from bit `i` upward, at most `n` of them. -/
def trailingZeros (v : Word) : Nat → Nat → Nat
  | 0, _ => 0
  | n + 1, i => if v.getLsbD i then 0 else trailingZeros v n (i + 1) + 1

end Sys2Proof.Machine
end

