-- ==== Sys2Proof/Machine/Memory.lean ====
section
/-!
DEFINITION. The backing store: bytes by physical address in canonical form (20_memory R70, R73).
-/

namespace Sys2Proof.Machine

/-- What a byte of memory that nothing has written reads as (DESIGN CHOICE, log 3). -/
def unlistedByte : Byte := 0

/-- Reading one byte. -/
def Memory.read (m : Memory) (a : Nat) : Byte := Table.atD m unlistedByte a

/-- Writing one byte; the canonical form is kept. -/
def Memory.write (m : Memory) (a : Nat) (b : Byte) : Memory := Table.putD m unlistedByte a b

/-- Writing bytes at rising addresses. -/
def Memory.writeBytes (m : Memory) (a : Nat) : List Byte → Memory
  | [] => m
  | b :: rest => Memory.writeBytes (Memory.write m a b) (a + 1) rest

/-- `read_block(64 * line, 64)` (R73). -/
def Memory.readBlock (m : Memory) (line : Nat) : Block :=
  Vector.ofFn fun i : Fin 64 => Memory.read m (64 * line + i.val)

/-- `write_block(64 * line, data)` (R73). -/
def Memory.writeBlock (m : Memory) (line : Nat) (data : Block) : Memory :=
  Memory.writeBytes m (64 * line) data.toList

/-- The canonical form: addresses strictly rising and inside the physical address space, no entry equal to
what an unlisted address reads as. -/
abbrev Memory.wf (m : Memory) : Prop :=
  Table.Sorted m ∧ ∀ c ∈ m, c.1 < 2 ^ 44 ∧ c.2 ≠ unlistedByte

end Sys2Proof.Machine
end

