-- ==== Sys2Proof/Machine/Cache.lean ====
section
/-!
DEFINITION. The Icache, the Dcache, the Bcache and the backing-store port (49_cache). Addresses are line
numbers: the physical address divided by 64 (R451).
-/

namespace Sys2Proof.Machine

/-! ### Addressing (R451, R452) -/

/-- The line number of a physical address. -/
def lineOf (pa : PhysAddr) : Nat := pa.toNat / 64

/-- The byte offset inside the line. -/
def offsetOf (pa : PhysAddr) : Nat := pa.toNat % 64

/-- The set of a line in a cache of `2^b` sets. -/
def setIndex (b line : Nat) : Nat := line % 2 ^ b

/-- The tag of a line in such a cache. -/
def tagIndex (b line : Nat) : Nat := line / 2 ^ b

/-- The table key of way `way` of the line's set. -/
def wayKey (b line way : Nat) : Nat := 2 * setIndex b line + way

/-- The line number held under a key with a tag: `tag ‖ set`. -/
def heldLine (b key tag : Nat) : Nat := tag * 2 ^ b + key / 2

def Ways.count : Ways → Nat
  | .one => 1
  | .two => 2

/-- Set bits of a cache: 512 sets for Icache and Dcache, `BC_SETS` for the Bcache. -/
def Cfg.setBits (cfg : Cfg) : CacheId → Nat
  | .icache | .dcache => Config.cacheSetBits
  | .bcache => cfg.bcSetBits

/-- Enabled ways of a cache (R452). -/
def Cfg.ways (cfg : Cfg) : CacheId → Nat
  | .icache => cfg.icWays.count
  | .dcache => cfg.dcWays.count
  | .bcache => 1

/-! ### Lookup (R453) -/

/-- The line in one way, if the way is enabled, valid and of this tag. -/
def Cache.inWay (c : Cache) (b ways line way : Nat) : Option (Nat × Line) :=
  if way < ways then
    match Table.at? c.lines (wayKey b line way) with
    | some l => if l.tag = tagIndex b line then some (wayKey b line way, l) else none
    | none => none
  else none

/-- The line and its key, way 0 first. -/
def Cache.find (c : Cache) (b ways line : Nat) : Option (Nat × Line) :=
  match c.inWay b ways line 0 with
  | some r => some r
  | none => c.inWay b ways line 1

/-- `lookup(C, la)` (R453): two ways of one tag are refused. -/
def Cache.lookup (c : Cache) (b ways line : Nat) : Except Refusal (Option (Nat × Line)) :=
  if (c.inWay b ways line 0).isSome && (c.inWay b ways line 1).isSome then .error .cacheMultiHit
  else .ok (c.find b ways line)

/-! ### Replacement (R454) -/

/-- The victim way of a fill: an invalid way, else the pointer if it names an enabled way, else way 0. -/
def Cache.victimWay (c : Cache) (b ways line : Nat) : Nat :=
  if (Table.at? c.lines (wayKey b line 0)).isNone then 0
  else if 1 < ways ∧ (Table.at? c.lines (wayKey b line 1)).isNone then 1
  else if Table.atD c.rr 0 (setIndex b line) < ways then Table.atD c.rr 0 (setIndex b line)
  else 0

/-- The line installed in a way, the pointer moved past it (R454, R455). -/
def Cache.install (c : Cache) (b ways line way : Nat) (l : Line) : Cache where
  lines := Table.put c.lines (wayKey b line way) l
  rr := Table.putD c.rr 0 (setIndex b line) ((way + 1) % ways)

/-- A line made invalid. -/
def Cache.drop (c : Cache) (key : Nat) : Cache := { c with lines := Table.del c.lines key }

/-! ### The backing-store port (20_memory R73) -/

def MemSys.cache (m : MemSys) : CacheId → Cache
  | .icache => m.icache
  | .dcache => m.dcache
  | .bcache => m.bcache

def MemSys.withCache (m : MemSys) (id : CacheId) (c : Cache) : MemSys :=
  match id with
  | .icache => { m with icache := c }
  | .dcache => { m with dcache := c }
  | .bcache => { m with bcache := c }

/-- `write_block` of one line. -/
def MemSys.writeBlock (m : MemSys) (line : Nat) (data : Block) : MemSys :=
  { m with store := Memory.writeBlock m.store line data, bus := .writeBlock line data :: m.bus }

/-- A line written to the backing store if it is dirty. -/
def MemSys.writeBack (m : MemSys) (line : Nat) (l : Line) : MemSys :=
  if l.dirty then m.writeBlock line l.data else m

/-- The trace of a `read_block` of one line. -/
def MemSys.noteRead (m : MemSys) (line : Nat) : MemSys := { m with bus := .readBlock line :: m.bus }

/-- Lookup of a line in one of the three caches. -/
def MemSys.lookup (cfg : Cfg) (m : MemSys) (id : CacheId) (line : Nat) : Except Refusal (Option (Nat × Line)) :=
  (m.cache id).lookup (cfg.setBits id) (cfg.ways id) line

/-! ### Fill and evict (R455, R458) -/

/-- `fill(Bcache, …)`: direct mapped; a dirty occupant is written to the backing store (R455, R458). -/
def MemSys.fillB (cfg : Cfg) (m : MemSys) (line : Nat) (data : Block) (dirty shared : Bool) :
    Except Refusal MemSys := do
  match ← m.lookup cfg .bcache line with
  | some _ => .error .fillPresent
  | none =>
    let b := cfg.bcSetBits
    let key := wayKey b line 0
    let m1 := match Table.at? m.bcache.lines key with
      | some v => m.writeBack (heldLine b key v.tag) v
      | none => m
    .ok { m1 with bcache := { m1.bcache with lines := Table.put m1.bcache.lines key
                                               ⟨tagIndex b line, dirty, shared, data⟩ } }

/-- `evict(Dcache, s, w)` of the line under a key (R458). -/
def MemSys.evictD (cfg : Cfg) (m : MemSys) (key : Nat) : Except Refusal MemSys :=
  match Table.at? m.dcache.lines key with
  | none => .ok m
  | some v =>
    let m1 := { m with dcache := m.dcache.drop key }
    let held := heldLine Config.cacheSetBits key v.tag
    if cfg.bcPresent then m1.fillB cfg held v.data v.dirty v.shared else .ok (m1.writeBack held v)

/-- `fill(Dcache, …)` (R455). -/
def MemSys.fillD (cfg : Cfg) (m : MemSys) (line : Nat) (data : Block) (dirty shared : Bool) :
    Except Refusal MemSys := do
  match ← m.lookup cfg .dcache line with
  | some _ => .error .fillPresent
  | none =>
    let b := Config.cacheSetBits
    let way := m.dcache.victimWay b cfg.dcWays.count line
    let m1 ← m.evictD cfg (wayKey b line way)
    .ok { m1 with dcache := m1.dcache.install b cfg.dcWays.count line way ⟨tagIndex b line, dirty, shared, data⟩ }

/-- `fill(Icache, …)`: the victim is dropped (R455, R458). -/
def MemSys.fillI (cfg : Cfg) (m : MemSys) (line : Nat) (data : Block) : Except Refusal MemSys := do
  match ← m.lookup cfg .icache line with
  | some _ => .error .fillPresent
  | none =>
    let b := Config.cacheSetBits
    let way := m.icache.victimWay b cfg.icWays.count line
    .ok { m with icache := m.icache.install b cfg.icWays.count line way ⟨tagIndex b line, false, false, data⟩ }

/-! ### Fill paths (R460, R461) -/

/-- The shared bit that comes with a block from the backing store: false, or the system bus's answer when `MP`
is true (R455, R460; FREE VALUE, log 13). -/
def MemSys.replyShared (cfg : Cfg) (m : MemSys) : Bool := cfg.mp && Config.sharedReply m.replies

/-- `dcache_fill(la)` (R460): a Bcache line moves, dirty bit and all; else the backing store is read. -/
def MemSys.dcacheFill (cfg : Cfg) (m : MemSys) (line : Nat) : Except Refusal MemSys := do
  match ← m.lookup cfg .bcache line with
  | some (key, l) =>
    MemSys.fillD cfg { m with bcache := m.bcache.drop key } line l.data l.dirty l.shared
  | none =>
    let m1 := m.noteRead line
    MemSys.fillD cfg { m1 with replies := m1.replies + 1 } line (Memory.readBlock m.store line) false
      (m.replyShared cfg)

/-- `icache_fill(la)` (R461): a Bcache line is copied and stays; the Dcache is not looked at. -/
def MemSys.icacheFill (cfg : Cfg) (m : MemSys) (line : Nat) : Except Refusal MemSys := do
  match ← m.lookup cfg .bcache line with
  | some (_, l) => m.fillI cfg line l.data
  | none => MemSys.fillI cfg (m.noteRead line) line (Memory.readBlock m.store line)

/-- `icache_fetch(pa)` (R461, 20_memory R77): the longword at `pa AND NOT 3`, or none on a miss. -/
def MemSys.icacheFetch (cfg : Cfg) (m : MemSys) (pa : PhysAddr) : Except Refusal (Option InstrWord) := do
  match ← m.lookup cfg .icache (lineOf pa) with
  | some (_, l) => .ok (some ((blockRead l.data (offsetOf pa / 4 * 4) .long).setWidth 32))
  | none => .ok none

/-! ### The data path (20_memory R110, R114) -/

/-- The Dcache line of an address, filled if it is absent. -/
def MemSys.ensureD (cfg : Cfg) (m : MemSys) (line : Nat) : Except Refusal (Nat × Line × MemSys) := do
  match ← m.lookup cfg .dcache line with
  | some (key, l) => .ok (key, l, m)
  | none =>
    let m1 ← m.dcacheFill cfg line
    match ← m1.lookup cfg .dcache line with
    | some (key, l) => .ok (key, l, m1)
    | none => .error .writeInvalid

/-- `MemRead(pa, n)` (20_memory R110). -/
def MemSys.read (cfg : Cfg) (m : MemSys) (pa : PhysAddr) (w : Width) : Except Refusal (Word × MemSys) := do
  let (_, l, m1) ← m.ensureD cfg (lineOf pa)
  .ok (blockRead l.data (offsetOf pa) w, m1)

/-- `write(line, offset, width, value)` on the Dcache line under a key (R457). -/
def MemSys.writeLine (m : MemSys) (key : Nat) (l : Line) (off : Nat) (w : Width) (v : Word) : MemSys :=
  { m with dcache := { m.dcache with lines := Table.put m.dcache.lines key
                                        { l with data := blockWrite l.data off w v, dirty := true } } }

/-- `MemWrite(pa, n, v)` (20_memory R114). -/
def MemSys.write (cfg : Cfg) (m : MemSys) (pa : PhysAddr) (w : Width) (v : Word) : Except Refusal MemSys := do
  let (key, l, m1) ← m.ensureD cfg (lineOf pa)
  .ok (m1.writeLine key l (offsetOf pa) w v)

/-! ### Maintenance (R462, R463) -/

/-- The dirty lines of a table written to the backing store in key order: sets rising, ways rising. -/
def writeBackAll (b : Nat) : Table Line → MemSys → MemSys
  | [], m => m
  | (key, l) :: rest, m => writeBackAll b rest (m.writeBack (heldLine b key l.tag) l)

/-- `flush(C)` (R462). -/
def MemSys.flush (cfg : Cfg) (m : MemSys) (id : CacheId) : MemSys :=
  (writeBackAll (cfg.setBits id) (m.cache id).lines m).withCache id Cache.reset

/-- `invalidate(C, addr)` (R463). -/
def MemSys.invalidate (cfg : Cfg) (m : MemSys) (id : CacheId) (line : Nat) : Except Refusal MemSys := do
  match ← m.lookup cfg id line with
  | some (key, l) => .ok ((m.writeBack line l).withCache id ((m.cache id).drop key))
  | none => .ok m

/-! ### What a load sees (R464) -/

/-- The byte of a line a cache holds. -/
def Cache.byte? (c : Cache) (b ways a : Nat) : Option Byte :=
  (c.find b ways (a / 64)).map fun r => blockByte r.2.data (a % 64)

/-- `mem(pa)`: the Dcache's byte, else the Bcache's, else the backing store's (R464). -/
def MemSys.byteAt (cfg : Cfg) (m : MemSys) (a : Nat) : Byte :=
  match m.dcache.byte? Config.cacheSetBits cfg.dcWays.count a with
  | some v => v
  | none =>
    match m.bcache.byte? cfg.bcSetBits 1 a with
    | some v => v
    | none => Memory.read m.store a

end Sys2Proof.Machine
end

