-- ==== Sys2Proof/Machine/Flags.lean ====
section
/-!
DEFINITION. The machine has no condition codes (10_state R33). What it has of flags: the integer overflow
tests of the `/V` forms (41 R208, R209), and the FPCR's fields and sticky status bits (10_state R31, 46 R372).
-/

namespace Sys2Proof.Machine

/-! ### Integer overflow -/

/-- The longword test: the full result differs from its sign-extended low half (R209). -/
def longOverflow (full : Word) : Bool := full != sext32 full

/-- The quadword add test `((~a^b) & (a^r)) & SIGN_BIT` (R184). -/
def addOverflow (a b r : Word) : Bool := (~~~(a ^^^ b) &&& (a ^^^ r) &&& signBit) != 0

/-- The quadword subtract test `(a^b) & (a^r) & SIGN_BIT` (R188). -/
def subOverflow (a b r : Word) : Bool := ((a ^^^ b) &&& (a ^^^ r) &&& signBit) != 0

/-- The quadword multiply test: the high word of the signed product is not the sign of the low (R205). -/
def mulOverflow (a b : Word) : Bool :=
  signedHigh a b != (if (multiply64 a b).2.msb then BitVec.allOnes 64 else 0)

/-- The detail set `{IntegerOverflow}` (60_exceptions R482). -/
def TrapDetail.integerOverflowOnly : TrapDetail := { integerOverflow := true }

/-! ### FPCR (10_state R31) -/

def fpcrSUM : Nat := 63
def fpcrINED : Nat := 62
def fpcrUNFD : Nat := 61
def fpcrUNDZ : Nat := 60
def fpcrIOV : Nat := 57
def fpcrINE : Nat := 56
def fpcrUNF : Nat := 55
def fpcrOVF : Nat := 54
def fpcrINV : Nat := 52
def fpcrOVFD : Nat := 51
def fpcrINVD : Nat := 49
def fpcrDNZ : Nat := 48
def fpcrDNOD : Nat := 47

/-- One bit of the FPCR. -/
def fpcrBit (fpcr : Word) (n : Nat) : Bool := fpcr.getLsbD n

/-- `DYN` (bits 59:58). -/
def fpcrDyn (fpcr : Word) : BitVec 2 := fpcr.extractLsb' 58 2

/-- The bits MT_FPCR writes: 63 to 47; the others stay zero (46 R404). -/
def fpcrWritable : Word := 0xFFFF800000000000#64

/-- Whether a condition set has a member. -/
def TrapDetail.any (d : TrapDetail) : Bool :=
  d.integerOverflow || d.invalidOperation || d.overflow || d.underflow || d.inexact

/-- A one-bit mask, or zero. -/
def bitIf (b : Bool) (n : Nat) : Word := if b then 1#64 <<< n else 0

/-- The status bits of a set of conditions (R372). -/
def statusBits (st : TrapDetail) : Word :=
  bitIf st.integerOverflow fpcrIOV ||| bitIf st.inexact fpcrINE ||| bitIf st.underflow fpcrUNF |||
    bitIf st.overflow fpcrOVF ||| bitIf st.invalidOperation fpcrINV

/-- The sticky update: the bits of `st` and SUM, if `st` has a member (R372). -/
def fpcrWithStatus (fpcr : Word) (st : TrapDetail) : Word :=
  if st.any then fpcr ||| statusBits st ||| (1#64 <<< fpcrSUM) else fpcr

end Sys2Proof.Machine
end

