-- ==== Sys2Proof/Machine/Float.lean ====
section
/-!
DEFINITION. Floating point as pure functions (46_floating_point): register formats, classification, exact
values, rounding, and the bodies `ieee_arith` and `vax_arith`. No host arithmetic: values are exact dyadic
numbers.
-/

namespace Sys2Proof.Machine

/-! ### Formats (R361 to R365) -/

inductive FpFormat where
  | s | t | f | g | d
  deriving DecidableEq, Repr

inductive FpOp where
  | add | mul
  deriving DecidableEq, Repr

/-- Rounding modes (R368, R373); `vaxAway` is `vaxnear` with `VAX_TIE = away`. -/
inductive RoundMode where
  | chop | minf | near | pinf | vaxAway
  deriving DecidableEq, Repr

/-- Fraction bits; the precision `p` is one more. -/
def FpFormat.fracBits : FpFormat → Nat
  | .s => 23 | .t => 52 | .f => 23 | .g => 52 | .d => 55

/-- Exponent bits `EB`. -/
def FpFormat.expBits : FpFormat → Nat
  | .s => 8 | .t => 11 | .f => 8 | .g => 11 | .d => 8

def FpFormat.bias : FpFormat → Int
  | .s => 127 | .t => 1023 | .f => 128 | .g => 1024 | .d => 128

/-- The largest exponent field, `2^EB - 1`. -/
def FpFormat.maxField (fmt : FpFormat) : Nat := 2 ^ fmt.expBits - 1

def FpFormat.isIeee : FpFormat → Bool
  | .s => true | .t => true | .f => false | .g => false | .d => false

/-- Sign, biased exponent and fraction of a register value. -/
structure FpFields where
  sign : Bool
  exp : Nat
  frac : Nat
  deriving DecidableEq, Repr

/-- Reading a register value in the view of a format; the bits a format does not have are ignored. -/
def fieldsOf (fmt : FpFormat) (v : Word) : FpFields :=
  match fmt with
  | .s | .f => ⟨v.msb, (v.extractLsb' 62 1 ++ v.extractLsb' 52 7).toNat, (v.extractLsb' 29 23).toNat⟩
  | .t | .g => ⟨v.msb, (v.extractLsb' 52 11).toNat, (v.extractLsb' 0 52).toNat⟩
  | .d => ⟨v.msb, (v.extractLsb' 55 8).toNat, (v.extractLsb' 0 55).toNat⟩

/-- The 8-bit exponent of an S or F value spread over bits 62:52: its top bit, three copies of the complement,
the low seven bits (R362). -/
def spreadExponent (e : BitVec 8) : BitVec 11 :=
  e.extractLsb' 7 1 ++ (if e.getLsbD 7 then 0#3 else 7#3) ++ e.extractLsb' 0 7

/-- Writing a register value from fields. -/
def encodeFields (fmt : FpFormat) (x : FpFields) : Word :=
  let sign := BitVec.ofBool x.sign
  match fmt with
  | .s =>
    let e := BitVec.ofNat 8 x.exp
    let e11 := if e = 0xFF#8 then 0x7FF#11 else if e = 0 then 0 else spreadExponent e
    sign ++ e11 ++ BitVec.ofNat 23 x.frac ++ 0#29
  | .f =>
    let e := BitVec.ofNat 8 x.exp
    let e11 := if e = 0 then 0 else spreadExponent e
    sign ++ e11 ++ BitVec.ofNat 23 x.frac ++ 0#29
  | .t | .g => sign ++ BitVec.ofNat 11 x.exp ++ BitVec.ofNat 52 x.frac
  | .d => sign ++ BitVec.ofNat 8 x.exp ++ BitVec.ofNat 55 x.frac

/-! ### Classification (40_primitives R170 to R172) -/

inductive FpClass where
  | finite | zero | denormal | reserved | dirtyZero | infinity | notANumber
  deriving DecidableEq, Repr

/-- The classifier: R172 for S and T, R171 for F, G and D. -/
def classify (fmt : FpFormat) (x : FpFields) : FpClass :=
  if fmt.isIeee then
    if x.exp = 0 then (if x.frac = 0 then .zero else .denormal)
    else if x.exp = fmt.maxField then (if x.frac = 0 then .infinity else .notANumber)
    else .finite
  else if x.exp = 0 then
    if x.sign then .reserved else if x.frac = 0 then .zero else .dirtyZero
  else .finite

/-! ### Exact values -/

/-- The exact number `m * 2^e`. -/
structure Dyadic where
  m : Int
  e : Int
  deriving DecidableEq, Repr

def Dyadic.zero : Dyadic := ⟨0, 0⟩

/-- `val_fmt` (R361 to R365, R367): zero for every class but `Finite` and `Denormal`. -/
def valueOf (fmt : FpFormat) (x : FpFields) : Dyadic :=
  let signed (n : Nat) : Int := if x.sign then -(n : Int) else n
  match classify fmt x with
  | .finite =>
    ⟨signed (2 ^ fmt.fracBits + x.frac),
     x.exp - fmt.bias - fmt.fracBits - (if fmt.isIeee then 0 else 1)⟩
  | .denormal => ⟨signed x.frac, 1 - fmt.bias - fmt.fracBits⟩
  | _ => Dyadic.zero

/-- The exact sum. -/
def Dyadic.add (x y : Dyadic) : Dyadic :=
  let e := min x.e y.e
  ⟨x.m * (2 ^ (x.e - e).toNat : Nat) + y.m * (2 ^ (y.e - e).toNat : Nat), e⟩

/-- The exact product. -/
def Dyadic.mul (x y : Dyadic) : Dyadic := ⟨x.m * y.m, x.e + y.e⟩

/-- `floor(log2 |x|)` of a non-zero number. -/
def Dyadic.exponent (x : Dyadic) : Int := x.m.natAbs.log2 + x.e

/-- The exact result of an operation. -/
def exactResult (op : FpOp) (x y : Dyadic) : Dyadic :=
  match op with
  | .add => x.add y
  | .mul => x.mul y

/-! ### Rounding (R373) -/

/-- A magnitude `n * 2^q` and whether rounding to it lost something. -/
structure Rounded where
  n : Nat
  q : Int
  inexact : Bool
  deriving DecidableEq, Repr

/-- `rint(n / d, mode)` for a number of the given sign (R373). -/
def rint (mode : RoundMode) (negative : Bool) (n d : Nat) : Nat :=
  let k := n / d
  let r := n % d
  let up : Bool :=
    match mode with
    | .chop => false
    | .minf => negative && r != 0
    | .pinf => !negative && r != 0
    | .near => decide (d < 2 * r) || (decide (2 * r = d) && k % 2 == 1)
    | .vaxAway => decide (d ≤ 2 * r)
  if up then k + 1 else k

/-- Rounding of a magnitude to the grid of multiples of `2^q` (R373). -/
def roundGrid (mode : RoundMode) (x : Dyadic) (q : Int) : Rounded :=
  if q ≤ x.e then ⟨x.m.natAbs * 2 ^ (x.e - q).toNat, q, false⟩
  else
    let d := 2 ^ (q - x.e).toNat
    ⟨rint mode (decide (x.m < 0)) x.m.natAbs d, q, x.m.natAbs % d != 0⟩

/-- `round(x, p, mode)` of a non-zero number (R373). -/
def roundPrec (mode : RoundMode) (p : Nat) (x : Dyadic) : Rounded :=
  roundGrid mode x (x.exponent - (p - 1))

/-- `floor(log2)` of a non-zero rounded magnitude. -/
def Rounded.exponent (r : Rounded) : Int := r.n.log2 + r.q

/-- The fraction field of a rounded magnitude of `p` bits, or of `2^p` (R373). -/
def Rounded.fraction (r : Rounded) (fracBits : Nat) : Nat :=
  r.n * 2 ^ fracBits / 2 ^ r.n.log2 - 2 ^ fracBits

/-! ### Qualifiers (R368, R369) -/

/-- `TRP` of the eleven function bits. -/
def trpOf (fn : BitVec 11) : BitVec 3 := fn.extractLsb' 8 3
/-- `RND` of the eleven function bits. -/
def rndOf (fn : BitVec 11) : BitVec 2 := fn.extractLsb' 6 2
/-- `U`: underflow trap enable. -/
def underflowQualifier (fn : BitVec 11) : Bool := fn.getLsbD 8
/-- `I`: inexact trap enable, only in the combination 111 (R140, R369). -/
def inexactQualifier (fn : BitVec 11) : Bool := trpOf fn == 0b111

/-- The mode a two-bit code names when it is not the dynamic code (R368, 10_state R31). -/
def dynMode (dyn : BitVec 2) : RoundMode :=
  if dyn = 0b00 then .chop else if dyn = 0b01 then .minf else if dyn = 0b10 then .near else .pinf

/-- Rounding mode of an IEEE instruction (R368). -/
def ieeeMode (fpcr : Word) (fn : BitVec 11) : RoundMode :=
  if rndOf fn = 0b11 then dynMode (fpcrDyn fpcr) else dynMode (rndOf fn)

/-- Rounding mode of a VAX instruction (R368, R376); the codes 01 and 11 never reach it (R140). -/
def vaxMode (tie : VaxTie) (fn : BitVec 11) : RoundMode :=
  if rndOf fn = 0b00 then .chop
  else match tie with
    | .away => .vaxAway
    | .even => .near

/-! ### The bodies -/

/-- How an arithmetic body ends: the common exit of R372, or the reserved-operand exit. -/
inductive FpAnswer where
  | exit (st en : TrapDetail) (dest : Word)
  | illegal
  deriving DecidableEq, Repr

/-- The canonical quiet NaN (R374). -/
def canonicalNan : Word := 0xFFF8000000000000#64

/-- Invalid operation with a default result (R374). -/
def invalidExit (fpcr dest : Word) : FpAnswer :=
  .exit { invalidOperation := true } { invalidOperation := !fpcrBit fpcr fpcrINVD } dest

/-- A NaN made quiet and written in the format's register layout (R362, R374, log 17). -/
def quiet (fmt : FpFormat) (x : FpFields) : Word :=
  encodeFields fmt { x with frac := x.frac ||| 2 ^ (fmt.fracBits - 1) }

/-- A NaN is signaling when its fraction's top bit is 0 (R374). -/
def isSignaling (fmt : FpFormat) (x : FpFields) : Bool :=
  classify fmt x == .notANumber && !x.frac.testBit (fmt.fracBits - 1)

/-- A zero of the given sign. -/
def signedZero (sign : Bool) : Word := if sign then signBit else 0

/-- An infinity of the given sign. -/
def signedInfinity (fmt : FpFormat) (sign : Bool) : Word := encodeFields fmt ⟨sign, fmt.maxField, 0⟩

/-- The largest finite number of the given sign. -/
def largestFinite (fmt : FpFormat) (sign : Bool) : Word :=
  encodeFields fmt ⟨sign, fmt.maxField - 1, 2 ^ fmt.fracBits - 1⟩

/-- The default result of an overflow (R375). -/
def overflowDefault (fmt : FpFormat) (mode : RoundMode) (sign : Bool) : Word :=
  if mode = .near ∨ (mode = .pinf ∧ sign = false) ∨ (mode = .minf ∧ sign = true)
  then signedInfinity fmt sign else largestFinite fmt sign

/-- IEEE underflow of the exact result `r`, whose rounding to `p` bits was `inexact` or not (R371; the order
of inexact and the sign of a denormal result that rounds to zero: log 16, log 18). -/
def ieeeUnderflow (fpcr : Word) (fn : BitVec 11) (fmt : FpFormat) (mode : RoundMode) (r : Dyadic)
    (inexact : Bool) : FpAnswer :=
  let inexactOn := inexactQualifier fn && !fpcrBit fpcr fpcrINED
  if underflowQualifier fn && !fpcrBit fpcr fpcrUNFD then
    .exit { underflow := true, inexact := inexact } { underflow := true, inexact := inexact && inexactOn } 0
  else if underflowQualifier fn && !fpcrBit fpcr fpcrUNDZ then
    let g := roundGrid mode r (1 - fmt.bias - fmt.fracBits)
    .exit { underflow := true, inexact := g.inexact } { inexact := g.inexact && inexactOn }
      (encodeFields fmt ⟨decide (r.m < 0), g.n / 2 ^ fmt.fracBits, g.n % 2 ^ fmt.fracBits⟩)
  else .exit { underflow := true, inexact := true } { inexact := inexactOn } 0

/-- The finite part of `ieee_arith`: both operands are finite, denormal or zero (R375). `sa`, `sb` are the
operands' signs. -/
def ieeeFinite (fpcr : Word) (fn : BitVec 11) (fmt : FpFormat) (op : FpOp) (sa sb : Bool) (x y : Dyadic) :
    FpAnswer :=
  let mode := ieeeMode fpcr fn
  let r := exactResult op x y
  let inexactOn := inexactQualifier fn && !fpcrBit fpcr fpcrINED
  let sign := decide (r.m < 0)
  if r.m = 0 then
    let zeroSign :=
      match op with
      | .mul => xor sa sb
      | .add => if x.m = 0 ∧ y.m = 0 ∧ sa = sb then sa else decide (mode = .minf)
    .exit {} {} (signedZero zeroSign)
  else
    let r' := roundPrec mode (fmt.fracBits + 1) r
    if fmt.bias + 1 ≤ r'.exponent then
      .exit { overflow := true, inexact := true }
        { overflow := !fpcrBit fpcr fpcrOVFD, inexact := inexactOn } (overflowDefault fmt mode sign)
    else if r'.exponent < 1 - fmt.bias then ieeeUnderflow fpcr fn fmt mode r r'.inexact
    else
      .exit { inexact := r'.inexact } { inexact := r'.inexact && inexactOn }
        (encodeFields fmt ⟨sign, (r'.exponent + fmt.bias).toNat, r'.fraction fmt.fracBits⟩)

/-- An IEEE denormal operand that must trap (R370). -/
def denormalTraps (fpcr : Word) (fmt : FpFormat) (x : FpFields) : Bool :=
  classify fmt x == .denormal && !fpcrBit fpcr fpcrDNZ && !fpcrBit fpcr fpcrDNOD

/-- A denormal operand replaced by zero of the same sign when `DNZ` says so (R370). -/
def denormalFlushed (fpcr : Word) (fmt : FpFormat) (x : FpFields) : FpFields :=
  if classify fmt x == .denormal && fpcrBit fpcr fpcrDNZ then { x with frac := 0 } else x

/-- The special operands of `ieee_arith`, then the finite part (R374, R375). -/
def ieeeSpecial (fpcr : Word) (fn : BitVec 11) (fmt : FpFormat) (op : FpOp) (xa xb : FpFields) : FpAnswer :=
  let ca := classify fmt xa
  let cb := classify fmt xb
  if ca = .notANumber ∨ cb = .notANumber then
    let dest := if cb = .notANumber then quiet fmt xb else quiet fmt xa
    if isSignaling fmt xa || isSignaling fmt xb then invalidExit fpcr dest else .exit {} {} dest
  else if ca = .infinity ∨ cb = .infinity then
    match op with
    | .add =>
      if ca = .infinity ∧ cb = .infinity ∧ xa.sign ≠ xb.sign then invalidExit fpcr canonicalNan
      else .exit {} {} (signedInfinity fmt (if ca = .infinity then xa.sign else xb.sign))
    | .mul =>
      if ca = .zero ∨ cb = .zero then invalidExit fpcr canonicalNan
      else .exit {} {} (signedInfinity fmt (xor xa.sign xb.sign))
  else ieeeFinite fpcr fn fmt op xa.sign xb.sign (valueOf fmt xa) (valueOf fmt xb)

/-- `ieee_arith(fmt, op, A, B)` (R375). -/
def ieeeArith (fpcr : Word) (fn : BitVec 11) (fmt : FpFormat) (op : FpOp) (a b : Word) : FpAnswer :=
  let xa := fieldsOf fmt a
  let xb := fieldsOf fmt b
  if denormalTraps fpcr fmt xa || denormalTraps fpcr fmt xb then
    .exit { invalidOperation := true } { invalidOperation := true } 0
  else ieeeSpecial fpcr fn fmt op (denormalFlushed fpcr fmt xa) (denormalFlushed fpcr fmt xb)

/-- The finite part of `vax_arith` (R376). -/
def vaxFinite (tie : VaxTie) (fn : BitVec 11) (fmt : FpFormat) (op : FpOp) (x y : Dyadic) : FpAnswer :=
  let r := exactResult op x y
  if r.m = 0 then .exit {} {} 0
  else
    let r' := roundPrec (vaxMode tie fn) (fmt.fracBits + 1) r
    let eb := r'.exponent + 1 + fmt.bias
    if (fmt.maxField : Int) < eb then .exit { overflow := true } { overflow := true } 0
    else if eb < 1 then
      if underflowQualifier fn then .exit { underflow := true } { underflow := true } 0 else .exit {} {} 0
    else .exit {} {} (encodeFields fmt ⟨decide (r.m < 0), eb.toNat, r'.fraction fmt.fracBits⟩)

/-- A VAX operand that makes the instruction illegal (R376, 60_exceptions R483). -/
def vaxIllegal (fmt : FpFormat) (x : FpFields) : Bool :=
  classify fmt x == .reserved || classify fmt x == .dirtyZero

/-- `vax_arith(fmt, op, A, B)` (R376). -/
def vaxArith (tie : VaxTie) (fn : BitVec 11) (fmt : FpFormat) (op : FpOp) (a b : Word) : FpAnswer :=
  let xa := fieldsOf fmt a
  let xb := fieldsOf fmt b
  if vaxIllegal fmt xa || vaxIllegal fmt xb then .illegal
  else vaxFinite tie fn fmt op (valueOf fmt xa) (valueOf fmt xb)

/-! ### Longword layout and conditional-move tests (R393, R394, R397) -/

/-- CVTLQ's reading of the longword register layout (R393). -/
def longwordOfLayout (b : Word) : Word := sext32 ((b.extractLsb' 62 2 ++ b.extractLsb' 29 30).setWidth 64)

/-- CVTQL's writing of it (R394). -/
def layoutOfLongword (b : Word) : Word :=
  ((b.extractLsb' 30 2).setWidth 64 <<< 62) ||| ((b.extractLsb' 0 30).setWidth 64 <<< 29)

/-- `z(A)`: plus or minus zero (R397). -/
def fpIsZero (a : Word) : Bool := a.extractLsb' 0 63 == 0

/-- `n(A)`: the sign bit (R397). -/
def fpIsNegative (a : Word) : Bool := a.msb

end Sys2Proof.Machine
end

