-- ==== Sys2Proof/Machine/Update.lean ====
section
/-!
DEFINITION. One update per field of State. Every later operation goes through them; Laws/State.lean says once
what each leaves alone.
-/

namespace Sys2Proof.Machine

def State.withCfg (s : State) (v : Cfg) : State := { s with cfg := v }
def State.withCpu (s : State) (v : Cpu) : State := { s with cpu := v }
def State.withX (s : State) (v : Vector Word 32) : State := { s with x := v }
def State.withF (s : State) (v : Vector Word 32) : State := { s with f := v }
def State.withPc (s : State) (v : Word) : State := { s with pc := v }
def State.withIds (s : State) (v : Ids) : State := { s with ids := v }
def State.withProgram (s : State) (v : Table InstrWord) : State := { s with program := v }
def State.withStopped (s : State) (v : Option ExceptionOutcome) : State := { s with stopped := v }
def State.withInflight (s : State) (v : Table Record) : State := { s with inflight := v }
def State.withPred (s : State) (v : Predictor) : State := { s with pred := v }
def State.withItb (s : State) (v : Tlb) : State := { s with itb := v }
def State.withDtb (s : State) (v : Tlb) : State := { s with dtb := v }
def State.withLq (s : State) (v : Table LqSlot) : State := { s with lq := v }
def State.withSq (s : State) (v : Table SqSlot) : State := { s with sq := v }
def State.withMem (s : State) (v : MemSys) : State := { s with mem := v }
def State.withAgenda (s : State) (v : List Transaction) : State := { s with agenda := v }
def State.withResult (s : State) (v : PortResult) : State := { s with result := v }

end Sys2Proof.Machine
end

