-- ==== Sys2Proof/Machine/Operands.lean ====
section
/-!
DEFINITION. Registers, operand selection and the forming of instruction records (10_state R20 to R25,
30_encoding R137, 40_primitives R166, 43 R251, 45 R321 and R322).
-/

namespace Sys2Proof.Machine

/-! ### Register access: index 31 reads zero and discards writes (10_state R25) -/

def State.readX (s : State) (i : RegIdx) : Word := if i = 31 then 0 else s.x[i.toNat]'i.isLt

def State.readF (s : State) (i : RegIdx) : Word := if i = 31 then 0 else s.f[i.toNat]'i.isLt

def State.writeX (s : State) (i : RegIdx) (v : Word) : State :=
  if i = 31 then s else s.withX (s.x.set i.toNat v i.isLt)

def State.writeF (s : State) (i : RegIdx) (v : Word) : State :=
  if i = 31 then s else s.withF (s.f.set i.toNat v i.isLt)

def State.readReg (s : State) (r : RegRef) : Word :=
  match r.file with
  | .int => s.readX r.idx
  | .fp => s.readF r.idx

def State.writeReg (s : State) (r : RegRef) (v : Word) : State :=
  match r.file with
  | .int => s.writeX r.idx v
  | .fp => s.writeF r.idx v

/-- The value of an `Opr` second operand: the register, or the literal zero-extended (R139, R166). -/
def State.operand (s : State) : Opnd → Word
  | .reg rb => s.readX rb
  | .lit v => v.setWidth 64

/-! ### Operands of a record -/

/-- The major opcodes of the `Opr` format (30_encoding R135). -/
def isOprOpcode (op : BitVec 6) : Bool := op == 0x10 || op == 0x11 || op == 0x12 || op == 0x13 || op == 0x1C

/-- `B`: `opnd2(I)` in the `Opr` format; in the `FPo` and `Mem` formats there is no literal and `B = I.src2v`,
whatever `use_literal` holds (R166, 46 R360). -/
def Record.b (r : Record) : Word :=
  if isOprOpcode r.opcode && r.useLiteral then r.literal.setWidth 64 else r.src2v.bits

/-- `A = I.src1v`. -/
def Record.a (r : Record) : Word := r.src1v.bits

/-- `D`, the sign-extended displacement (R138). -/
def Record.d (r : Record) : Word := r.disp.signExtend 64

/-- `A + D` (45 R321). -/
def Record.effectiveAddress (r : Record) : Word := r.a + r.d

/-- The write of `I.destv`; the tag stays. -/
def Record.setDest (r : Record) (v : Word) : Record := { r with destv := { r.destv with bits := v } }

/-- The eleven function bits of an `FPo` instruction (30_encoding R136). -/
def Record.fpFunction (r : Record) : BitVec 11 := r.function.setWidth 11

/-- `xf(ea, n)`: the big-endian address transform (45 R322). -/
def endianAddress (bigEndian : Bool) (ea : Word) (w : Width) : Word :=
  if bigEndian then
    match w with
    | .byte => ea ^^^ 7
    | .word => ea ^^^ 6
    | .long => ea ^^^ 4
    | .quad => ea
  else ea

/-- LDQ_U and STQ_U clear the low three address bits (45 R321). -/
def alignQuad (ea : Word) : Word := ea &&& ~~~7#64

/-- `k(W)` of the shift-count transform (43 R251). -/
def shiftXor (x : ShiftXform) (w : Width) : Word :=
  match x, w with
  | .xor7All, _ => 7
  | .byWidth, .byte => 7
  | .byWidth, .word => 6
  | .byWidth, .long => 4
  | .byWidth, .quad => 0

/-- `sh`: transform the second operand, then take bits 2:0 (43 R251). -/
def shiftCount (bigEndian : Bool) (x : ShiftXform) (w : Width) (b : Word) : Nat :=
  ((if bigEndian then b ^^^ shiftXor x w else b).extractLsb' 0 3).toNat

/-! ### Forming the record (30_encoding R137, 70 R540)

The sequencer tags operands by the instruction's format and makes the physical indices equal to the
architectural ones; no rule reads either (log 21). -/

/-- A record with no operands. `lock_pending` and `clear_lock_pending` start false (DESIGN CHOICE, log 37). -/
def blankRecord (id : Nat) (opcode : BitVec 6) (function : BitVec 16) : Record where
  id := id
  opcode := opcode
  function := function
  aSrc1 := ⟨.int, 31⟩
  aSrc2 := ⟨.int, 31⟩
  aDest := ⟨.int, 31⟩
  pSrc1 := 31
  pSrc2 := 31
  pDest := 31
  src1v := ⟨0, .intQuad⟩
  src2v := ⟨0, .intQuad⟩
  destv := ⟨0, .intQuad⟩
  disp := 0
  literal := 0
  useLiteral := false
  slot := 0
  state := .executing
  completion := .none
  lockPending := false
  lockVa := 0
  lockPa := 0
  clearLockPending := false
  outcome := none

/-- The first source port. -/
def Record.withSrc1 (r : Record) (s : State) (ref : RegRef) (tag : TypeTag) : Record :=
  { r with aSrc1 := ref, pSrc1 := ref.idx.toNat, src1v := ⟨s.readReg ref, tag⟩ }

/-- The second source port. -/
def Record.withSrc2 (r : Record) (s : State) (ref : RegRef) (tag : TypeTag) : Record :=
  { r with aSrc2 := ref, pSrc2 := ref.idx.toNat, src2v := ⟨s.readReg ref, tag⟩ }

/-- The destination, pre-loaded with its current value (10_state R24): the register's. `lifeOf` refuses it where a
record of the agenda still in flight is to write another (70 R525, log 38). -/
def Record.withDest (r : Record) (s : State) (ref : RegRef) (tag : TypeTag) : Record :=
  { r with aDest := ref, pDest := ref.idx.toNat, destv := ⟨s.readReg ref, tag⟩ }

/-- `Opr` format. -/
def oprRecord (s : State) (opcode : BitVec 6) (fn : BitVec 7) (ra : RegIdx) (b : Opnd) (rc : RegIdx) : Record :=
  let r := ((blankRecord s.ids.next opcode (fn.setWidth 16)).withSrc1 s ⟨.int, ra⟩ .intQuad).withDest s
    ⟨.int, rc⟩ .intQuad
  match b with
  | .reg rb => r.withSrc2 s ⟨.int, rb⟩ .intQuad
  | .lit v => { r with literal := v, useLiteral := true }

/-- `FPo` format. -/
def fpRecord (s : State) (opcode : BitVec 6) (fn : BitVec 11) (tag : TypeTag) (fa fb fc : RegIdx) : Record :=
  (((blankRecord s.ids.next opcode (fn.setWidth 16)).withSrc1 s ⟨.fp, fa⟩ tag).withSrc2 s ⟨.fp, fb⟩ tag).withDest
    s ⟨.fp, fc⟩ tag

/-- `Mem` format, LDA, LDAH and loads: base Rb, destination Ra. -/
def loadRecord (s : State) (opcode : BitVec 6) (ra rb : RegIdx) (disp : BitVec 16) : Record :=
  { ((blankRecord s.ids.next opcode 0).withSrc1 s ⟨.int, rb⟩ .intQuad).withDest s ⟨.int, ra⟩ .intQuad with
    disp := disp }

/-- `Mem` format, ordinary stores: base Rb, data Ra, no destination. -/
def storeRecord (s : State) (opcode : BitVec 6) (ra rb : RegIdx) (disp : BitVec 16) : Record :=
  { ((blankRecord s.ids.next opcode 0).withSrc1 s ⟨.int, rb⟩ .intQuad).withSrc2 s ⟨.int, ra⟩ .intQuad with
    disp := disp }

/-- `Mem` format, STx_C: base Rb, data Ra, success value to Ra. -/
def condStoreRecord (s : State) (opcode : BitVec 6) (ra rb : RegIdx) (disp : BitVec 16) : Record :=
  (storeRecord s opcode ra rb disp).withDest s ⟨.int, ra⟩ .intQuad

/-- `Mfc` format: destination Ra only. -/
def mfcRecord (s : State) (opcode : BitVec 6) (fn : BitVec 16) (ra : RegIdx) : Record :=
  (blankRecord s.ids.next opcode fn).withDest s ⟨.int, ra⟩ .intQuad

end Sys2Proof.Machine
end

