-- ==== Sys2Proof/Machine/Tlb.lean ====
section
/-!
DEFINITION. Address translation and protection (20_memory R85 to R98).
-/

namespace Sys2Proof.Machine

/-- `va[47:13]` (R86). -/
def vpnOf (va : Word) : BitVec 35 := va.extractLsb' 13 35

/-- The entry matches the page under the current ASN (R87). -/
def TlbEntry.hits (e : TlbEntry) (asn : BitVec 8) (va : Word) : Bool :=
  vpnOf va >>> (3 * e.gh.toNat) == e.vpn >>> (3 * e.gh.toNat) && (e.asm || e.asn == asn)

/-- The access is permitted (R88). A fetch needs the read enable. -/
def TlbEntry.permits (e : TlbEntry) (mode : Mode) (kind : AccessKind) : Bool :=
  match kind, mode with
  | .write, .kernel => e.kwe
  | .write, .user => e.uwe
  | .read, .kernel | .fetch, .kernel => e.kre
  | .read, .user | .fetch, .user => e.ure

/-- The low `3 * gh` page-number bits, which come from the virtual address (R92). -/
def ghMask (gh : BitVec 2) : BitVec 31 := (1#31 <<< (3 * gh.toNat)) - 1

/-- The physical address of a hit (R92). -/
def TlbEntry.physical (e : TlbEntry) (va : Word) : PhysAddr :=
  let page := (e.ppn &&& ~~~(ghMask e.gh)) ||| ((vpnOf va).setWidth 31 &&& ghMask e.gh)
  page ++ va.extractLsb' 0 13

/-- The superpage windows, kernel mode only, the first enabled match wins (R89). -/
def superpage (cpu : Cpu) (va : Word) : Option PhysAddr :=
  if cpu.mode = .user then none
  else if cpu.spe.getLsbD 2 && va.extractLsb' 46 2 == 0b10#2 then some (va.extractLsb' 0 44)
  else if cpu.spe.getLsbD 1 && va.extractLsb' 41 7 == 0b1111110#7 then
    some ((va.extractLsb' 0 41).signExtend 44)
  else if cpu.spe.getLsbD 0 && va.extractLsb' 30 18 == 0x3FFFE#18 then
    some ((va.extractLsb' 0 30).setWidth 44)
  else none

/-- The entries that match (the set `M` of R90). -/
def Tlb.matching (t : Tlb) (asn : BitVec 8) (va : Word) : List TlbEntry :=
  (t.entries.map Prod.snd).filter fun e => e.hits asn va

/-- `translate` on one buffer: superpage, lookup, miss or protection, address (R85, R89 to R93). -/
def translateOn (cpu : Cpu) (t : Tlb) (va : Word) (kind : AccessKind) : Except Refusal (Translation × Tlb) :=
  match superpage cpu va with
  | some pa => .ok (.ok pa, t)
  | none =>
    match t.matching cpu.asn va with
    | [] => .ok (.fault (if t.missPending then .doubleMiss else .singleMiss), { t with missPending := true })
    | [e] => if e.permits cpu.mode kind then .ok (.ok (e.physical va), t) else .ok (.fault .accessViolation, t)
    | _ :: _ :: _ => .error .tlbMultiHit

/-- The same key (R96). -/
def TlbEntry.sameKey (a b : TlbEntry) : Bool :=
  a.vpn == b.vpn && a.gh == b.gh && a.asm == b.asm && a.asn == b.asn

/-- `add_entry` (R96, R97): in place over the first entry of the same key, else at `next`. -/
def Tlb.addEntry (t : Tlb) (e : TlbEntry) : Tlb :=
  match t.entries.find? fun p => p.2.sameKey e with
  | some p => { entries := Table.put t.entries p.1 e, next := t.next, missPending := false }
  | none => { entries := Table.put t.entries t.next.toNat e, next := t.next + 1, missPending := false }

end Sys2Proof.Machine
end

