-- ==== Sys2Proof/Machine/Ops.lean ====
section
/-!
DEFINITION. The shared operations: slots, translation, the Mbox transactions, dispatch, retirement, taking an
exception and returning from one, and the life of one instruction under the reference sequencer.
-/

namespace Sys2Proof.Machine

/-! ### Kinds of instruction, by major opcode -/

/-- LDBU, LDQ_U, LDWU, LDL, LDQ, LDL_L, LDQ_L (20_memory R71). -/
def isLoadOpcode (op : BitVec 6) : Bool :=
  op == 0x0A || op == 0x0B || op == 0x0C || op == 0x28 || op == 0x29 || op == 0x2A || op == 0x2B

/-- STW, STB, STQ_U, STL, STQ, STL_C, STQ_C (20_memory R71). -/
def isStoreOpcode (op : BitVec 6) : Bool :=
  op == 0x0D || op == 0x0E || op == 0x0F || op == 0x2C || op == 0x2D || op == 0x2E || op == 0x2F

/-- STL_C, STQ_C. -/
def isCondStoreOpcode (op : BitVec 6) : Bool := op == 0x2E || op == 0x2F

/-- LDL_L, LDQ_L, STL_C, STQ_C: what a store-conditional must wait for (45 R337). -/
def isLockOpcode (op : BitVec 6) : Bool := op == 0x2A || op == 0x2B || isCondStoreOpcode op

/-- Which queue an instruction uses. -/
inductive QueueUse where
  | none | load | store
  deriving DecidableEq, Repr

/-! ### Small updates of the CPU state -/

def State.setFpcr (s : State) (v : Word) : State := s.withCpu { s.cpu with fpcr := v }
def State.setIntrFlag (s : State) (v : Bool) : State := s.withCpu { s.cpu with intrFlag := v }
def State.setLock (s : State) (flag : Bool) (va pa : Word) : State :=
  s.withCpu { s.cpu with lockFlag := flag, lockVa := va, lockPa := pa }
def State.clearLockFlag (s : State) : State := s.withCpu { s.cpu with lockFlag := false }

/-! ### Queue slots (20_memory R104) -/

/-- A slot as `get_lq_slot` leaves it; the fields the spec does not set are zero (log 27). -/
def freshLqSlot : LqSlot where
  va := 0
  pa := 0
  paValid := false
  width := .byte
  state := .idle
  instrId := 0

/-- A slot as `get_sq_slot` leaves it. -/
def freshSqSlot : SqSlot where
  va := 0
  pa := 0
  paValid := false
  width := .byte
  state := .idle
  instrId := 0
  value := 0
  doWrite := false

/-- `get_lq_slot()`. -/
def getLqSlot (s : State) : Except Refusal (Nat × State) :=
  match Table.firstFree s.lq Config.queueDepth with
  | some n => .ok (n, s.withLq (Table.put s.lq n freshLqSlot))
  | none => .error .noFreeSlot

/-- `get_sq_slot()`. -/
def getSqSlot (s : State) : Except Refusal (Nat × State) :=
  match Table.firstFree s.sq Config.queueDepth with
  | some n => .ok (n, s.withSq (Table.put s.sq n freshSqSlot))
  | none => .error .noFreeSlot

/-- `put_lq_slot(s)`. A slot that is free is refused as well as a `Pending` one (DESIGN CHOICE, log 39). -/
def putLqSlot (s : State) (n : Nat) : Except Refusal State :=
  match Table.at? s.lq n with
  | some q => if q.state = .pending then .error .slotNotReleasable else .ok (s.withLq (Table.del s.lq n))
  | none => .error .slotNotReleasable

/-- `put_sq_slot(s)`. A slot that is free is refused as well as a `Pending` one (DESIGN CHOICE, log 39). -/
def putSqSlot (s : State) (n : Nat) : Except Refusal State :=
  match Table.at? s.sq n with
  | some q => if q.state = .pending then .error .slotNotReleasable else .ok (s.withSq (Table.del s.sq n))
  | none => .error .slotNotReleasable

/-! ### Translation (20_memory R85) -/

/-- `translate(va, side, kind)`. `Fetch` belongs to side `I`, `Read` and `Write` to side `D`. -/
def translate (s : State) (va : Word) (side : Side) (kind : AccessKind) : Except Refusal (Translation × State) :=
  match side, kind with
  | .instr, .fetch => do
    let (t, b) ← translateOn s.cpu s.itb va .fetch
    .ok (t, s.withItb b)
  | .data, .read => do
    let (t, b) ← translateOn s.cpu s.dtb va .read
    .ok (t, s.withDtb b)
  | .data, .write => do
    let (t, b) ← translateOn s.cpu s.dtb va .write
    .ok (t, s.withDtb b)
  | _, _ => .error .badAccessKind

/-! ### Executors and their frame (00_scope R10, 40_primitives R167) -/

/-- What an executor leaves: the state, the record and the outcome. -/
structure ExecResult where
  st : State
  record : Record
  out : ExceptionOutcome
  deriving DecidableEq, Repr

/-- `execute(cpu_state, instruction) -> ExceptionOutcome` (00_scope R10). -/
abbrev Executor := State → Record → Except Refusal ExecResult

/-- The numeric code of an outcome (60_exceptions R480). -/
def ExceptionOutcome.code : ExceptionOutcome → Nat
  | .noException => 0
  | .arithmeticTraps _ => 1
  | .illegalOperand => 2
  | .accessViolation => 3
  | .translationNotValid => 4
  | .singleMiss => 5
  | .doubleMiss => 6

/-- `done(o)` (R167). -/
def done (s : State) (r : Record) (o : ExceptionOutcome) : Except Refusal ExecResult :=
  .ok ⟨s, { r with state := .waitingRetirement, outcome := some o }, o⟩

/-- `I.destv <- v; done(NoException)`. -/
def doneWith (s : State) (r : Record) (v : Word) : Except Refusal ExecResult := done s (r.setDest v) .noException

/-- The frame of an executor that computes its result from `A` and `B` alone. -/
def pureExec (f : Word → Word → Word) : Executor := fun s r => doneWith s r (f r.a r.b)

/-- The frame of a conditional move: `I.destv` is written only if the condition holds (42 R230). -/
def cmovExec (cond : Word → Bool) : Executor := fun s r =>
  if cond r.a then doneWith s r r.b else done s r .noException

/-- The frame of an overflow-checked form: validate, then write (41 R208). -/
def checkedExec (overflow : Word → Word → Bool) (f : Word → Word → Word) : Executor := fun s r =>
  if overflow r.a r.b then done s r (.arithmeticTraps .integerOverflowOnly) else doneWith s r (f r.a r.b)

/-- The common exit of the floating arithmetic executors (46 R372). -/
def fpExit (s : State) (r : Record) (answer : FpAnswer) : Except Refusal ExecResult :=
  match answer with
  | .exit st en dest =>
    let s' := s.setFpcr (fpcrWithStatus s.cpu.fpcr st)
    if en.any then done s' r (.arithmeticTraps en) else doneWith s' r dest
  | .illegal => done (s.setFpcr (fpcrWithStatus s.cpu.fpcr { invalidOperation := true })) r .illegalOperand

/-! ### Mbox: loads (20_memory R106 to R111) -/

/-- The address is a multiple of the access width (20_memory R78). -/
def aligned (va : Word) (w : Width) : Bool := va.toNat % w.bytes == 0

/-- `read_mem(I, va, n)` (R106): the outcome, and the state with the slot filled in. -/
def readMem (s : State) (r : Record) (va : Word) (w : Width) : Except Refusal (ExceptionOutcome × State) :=
  match Table.at? s.lq r.slot with
  | none => .error .slotNotIdle
  | some q =>
    if q.state ≠ .idle then .error .slotNotIdle
    else if !aligned va w then .error .misaligned
    else do
      let (t, s1) ← translate s va .data .read
      let q1 := { q with va := va, width := w, instrId := r.id }
      match t with
      | .fault o => .ok (o, s1.withLq (Table.put s1.lq r.slot { q1 with state := .completed }))
      | .ok pa => .ok (.noException,
          s1.withLq (Table.put s1.lq r.slot { q1 with pa := pa, paValid := true, state := .pending }))

/-- The byte ranges of two accesses intersect (R109). -/
def overlaps (pa : PhysAddr) (w : Width) (pa' : PhysAddr) (w' : Width) : Bool :=
  decide (pa.toNat < pa'.toNat + w'.bytes) && decide (pa'.toNat < pa.toNat + w.bytes)

/-- A store-queue slot the load must take account of (the set `F` of R109). -/
def forwards (q : LqSlot) (p : SqSlot) : Bool :=
  p.state == .pending && p.doWrite && decide (p.instrId < q.instrId) && overlaps p.pa p.width q.pa q.width

/-- The member with the largest instruction id. -/
def youngest : List SqSlot → Option SqSlot
  | [] => none
  | p :: rest =>
    match youngest rest with
    | none => some p
    | some p' => if p.instrId < p'.instrId then some p' else some p

/-- `load_value(s)` (R109): forwarded from the youngest older overlapping store if it matches exactly, else
from the cache; not enabled while such a store overlaps otherwise. -/
def loadValue (s : State) (q : LqSlot) : Except Refusal (Word × MemSys) :=
  match youngest ((s.sq.map Prod.snd).filter (forwards q)) with
  | none => s.mem.read s.cfg q.pa q.width
  | some p => if p.pa = q.pa ∧ p.width = q.width then .ok (truncate p.value q.width, s.mem)
              else .error .completionNotEnabled

/-- `lq_complete(s)` up to the write of `destv` (R108): the loaded value, and the state with the slot
completed. -/
def completeSlot (s : State) (n : Nat) : Except Refusal (Word × State) :=
  match Table.at? s.lq n with
  | none => .error .completionNotEnabled
  | some q =>
    if q.state ≠ .pending then .error .completionNotEnabled
    else do
      let (v, m) ← loadValue s q
      .ok (v, (s.withMem m).withLq (Table.put s.lq n { q with state := .completed }))

/-! ### Mbox: stores (R112 to R114) -/

/-- `write_mem(I, va, n, v, do_write)` (R112). -/
def writeMem (s : State) (r : Record) (va : Word) (w : Width) (v : Word) (doWrite : Bool) :
    Except Refusal (ExceptionOutcome × State) :=
  match Table.at? s.sq r.slot with
  | none => .error .slotNotIdle
  | some q =>
    if q.state ≠ .idle then .error .slotNotIdle
    else if !aligned va w then .error .misaligned
    else do
      let (t, s1) ← translate s va .data .write
      let q1 := { q with va := va, width := w, instrId := r.id, value := v, doWrite := doWrite }
      match t with
      | .fault o => .ok (o, s1.withSq (Table.put s1.sq r.slot { q1 with doWrite := false, state := .completed }))
      | .ok pa => .ok (.noException,
          s1.withSq (Table.put s1.sq r.slot
            { q1 with pa := pa, paValid := true, state := if doWrite then .pending else .completed }))

/-- `sq_drain(q)` (R113). -/
def drainSlot (s : State) (n : Nat) (q : SqSlot) : Except Refusal State := do
  let m ← s.mem.write s.cfg q.pa q.width q.value
  .ok ((s.withMem m).withSq (Table.put s.sq n { q with state := .completed }))

/-! ### Dispatch (00_scope R9, 10_state R21) -/

/-- An older lock instruction that is dispatched and neither retired nor discarded (45 R337). -/
def olderLockInFlight (s : State) (id : Nat) : Bool :=
  s.inflight.any fun p => decide (p.2.id < id) && isLockOpcode p.2.opcode

/-- `dispatch(I)` with the executor its opcode selects. The preconditions come first (60_exceptions R488). The tag
`FpX` is refused on the two source operands, and not looked at on `destv` (DESIGN CHOICE, log 20). -/
def dispatchRecord (ex : Executor) (s : State) (r : Record) : Except Refusal ExecResult :=
  if r.state ≠ .executing then .error .recordNotExecuting
  else if r.src1v.tag = .fpX ∨ r.src2v.tag = .fpX then .error .fpXOperand
  else if isCondStoreOpcode r.opcode && olderLockInFlight s r.id then .error .storeConditionalTooEarly
  else if isLoadOpcode r.opcode || isStoreOpcode r.opcode then
    if r.id < s.ids.memBelow then .error .memoryOutOfOrder
    else ex (s.withIds { s.ids with memBelow := r.id + 1 }) r
  else ex s r

/-! ### Retirement (20_memory R115, R116) -/

/-- The commit of the lock fields. -/
def commitLock (s : State) (r : Record) : State :=
  let s1 := if r.lockPending then s.setLock true r.lockVa r.lockPa else s
  if r.clearLockPending then s1.clearLockFlag else s1

/-- The drain of the record's own store-queue slot, if it is `Pending` (R113). -/
def commitStore (s : State) (r : Record) : Except Refusal State :=
  if isStoreOpcode r.opcode then
    match Table.at? s.sq r.slot with
    | some q => if q.instrId = r.id ∧ q.state = .pending then drainSlot s r.slot q else .ok s
    | none => .ok s
  else .ok s

/-- The record's own load-queue slot is `Completed`; true of an instruction that is no load. -/
def loadIsComplete (s : State) (r : Record) : Bool :=
  if isLoadOpcode r.opcode then
    match Table.at? s.lq r.slot with
    | some q => decide (q.instrId = r.id) && q.state == .completed
    | none => false
  else true

/-- The program-order previous writer of a register for an instruction `id`, while its value is not yet committed:
the youngest older record in flight that names the register as its destination and is not below a retired or
discarded id (such a record can retire no more, 20_memory R115; log 14). Records stand in id order. One whose outcome
was exceptional counts too, with the `destv` it was pre-loaded with (DESIGN CHOICE, log 44). Only records dispatched
before are seen: an older one dispatched later is no previous writer (DESIGN CHOICE, log 43). -/
def previousWriter (s : State) (id : Nat) (d : RegRef) : Option Record :=
  ((s.inflight.map Prod.snd).filter fun p =>
    decide (p.id < id) && decide (p.aDest = d) && decide (s.ids.doneBelow ≤ p.id)).getLast?

/-- `I.destv` holds the current value of the destination (10_state R24, 42 R239, 70 R525): the previous writer's, else
the register file's (log 14). The destination 31 has no value to hold. -/
def destPreloaded (s : State) (r : Record) : Bool :=
  if r.aDest.idx = 31 then true
  else match previousWriter s r.id r.aDest with
    | none => r.destv.bits == s.readReg r.aDest
    | some p => loadIsComplete s p && r.destv.bits == p.destv.bits

/-- Every retired or discarded id stays below `doneBelow`. -/
def noteDone (s : State) (id : Nat) : State := s.withIds { s.ids with doneBelow := max s.ids.doneBelow (id + 1) }

/-- `retire(I)` (R115): register file, lock, store, in this order. An older record whose outcome was exceptional,
waiting or discarded, is no obstacle (DESIGN CHOICE, log 45: 60_exceptions R490 forbids it to the Ibox and names no
refusal). -/
def retireRecord (s : State) (r : Record) : Except Refusal State :=
  if r.state ≠ .waitingRetirement then .error .recordNotWaiting
  else if r.outcome ≠ some .noException then .error .retireOfException
  else if r.id < s.ids.doneBelow then .error .retireOutOfOrder
  else if !loadIsComplete s r then .error .loadNotCompleted
  else do
    let s1 ← commitStore (commitLock (s.writeReg r.aDest r.destv.bits) r) r
    .ok (noteDone s1 r.id)

/-- The record's own store-queue slot becomes `Completed` without being written. -/
def cancelStore (s : State) (r : Record) : State :=
  if isStoreOpcode r.opcode then
    match Table.at? s.sq r.slot with
    | some q => if q.instrId = r.id then s.withSq (Table.put s.sq r.slot { q with state := .completed }) else s
    | none => s
  else s

/-- `discard(I)` (R116): nothing is committed. -/
def discardRecord (s : State) (r : Record) : Except Refusal State :=
  if r.state ≠ .waitingRetirement then .error .recordNotWaiting
  else .ok (noteDone (cancelStore s r) r.id)

/-! ### The life of one instruction (70 R540) -/

/-- The slot a memory instruction needs. -/
def allocateSlot (q : QueueUse) (s : State) : Except Refusal (Nat × State) :=
  match q with
  | .none => .ok (0, s)
  | .load => getLqSlot s
  | .store => getSqSlot s

/-- Its release. -/
def releaseSlot (q : QueueUse) (s : State) (n : Nat) : Except Refusal State :=
  match q with
  | .none => .ok s
  | .load => putLqSlot s n
  | .store => putSqSlot s n

/-- A load's completion at once (70 R540, log 25): the record with the loaded value in `destv`. Where an older store of
the agenda is `Pending` and overlaps only partly, the instruction is refused and does not wait for its drain (DESIGN
CHOICE, log 42: R109 names a wait, but of two Iboxes taking turns the spec says nothing). -/
def completeAtOnce (q : QueueUse) (s : State) (r : Record) : Except Refusal (State × Record) :=
  match q with
  | .load => do
    let (v, s1) ← completeSlot s r.slot
    .ok (s1, r.setDest (complete r.completion v))
  | _ => .ok (s, r)

/-- TAKING AN EXCEPTION: the instruction is discarded, its slot released, and the sequencer stops at this `pc`
with the outcome (60_exceptions R489, R491; 70 R540). Nothing else is saved: the block has no exception
registers (R487). -/
def takeException (q : QueueUse) (s : State) (r : Record) (o : ExceptionOutcome) : Except Refusal State := do
  let s1 ← discardRecord s r
  let s2 ← releaseSlot q s1 r.slot
  .ok (s2.withStopped (some o))

/-- RETURNING FROM ONE: the block has no return instruction; after PALcode has serviced the outcome the
sequencer goes on at a program counter (60_exceptions R492). The retry is a new record with a new id. A sequencer that
has not stopped only moves to the program counter (DESIGN CHOICE, log 11). -/
def returnFromException (s : State) (pc : Word) : State := (s.withPc pc).withStopped none

/-- The end of an instruction whose outcome was `NoException`. At the top of the address space the program counter
wraps modulo 2^64 (10_state R27 leaves it outside the block; DESIGN CHOICE, log 5). -/
def commitInstruction (q : QueueUse) (s : State) (r : Record) : Except Refusal State := do
  let (s1, r1) ← completeAtOnce q s r
  let s2 ← retireRecord s1 r1
  let s3 ← releaseSlot q s2 r1.slot
  .ok (s3.withPc (s3.pc + 4))

/-- One instruction from its formed record to its end (70 R540). With records of the agenda in flight, its destination
must hold what the previous writer left (70 R525), its sources are the register file's, and it retires past them
(DESIGN CHOICE, log 38). -/
def lifeOf (q : QueueUse) (form : Record) (ex : Executor) (s : State) : Except Refusal State :=
  if !destPreloaded s form then .error .destNotPreloaded
  else do
    let (slot, s1) ← allocateSlot q s
    let s2 := s1.withIds { s1.ids with next := s1.ids.next + 1 }
    let res ← dispatchRecord ex s2 { form with slot := slot }
    if res.out = .noException then commitInstruction q res.st res.record
    else takeException q res.st res.record res.out

/-- A refusal stops the model; anything else is the next state. -/
def toOutcome (e : Except Refusal State) : Host.Outcome State Fault Refusal :=
  match e with
  | .ok s => .next s
  | .error r => .refused r

/-- The meaning of an instruction: its record and its executor, run by the sequencer. -/
def runInstr (q : QueueUse) (form : Record) (ex : Executor) (s : State) : Host.Outcome State Fault Refusal :=
  toOutcome (lifeOf q form ex s)

end Sys2Proof.Machine
end

