-- ==== Sys2Proof/Machine/ByteManip.lean ====
section
/-!
DEFINITION. Byte and word manipulation, sign-extend and count instructions (43_byte_manipulation).
-/

namespace Sys2Proof.Machine

/-! ### Result functions (R252 to R276) -/

/-- `mask(W)` (R252). -/
def widthMask : Width → Word
  | .byte => 0xFF#64
  | .word => 0xFFFF#64
  | .long => 0xFFFFFFFF#64
  | .quad => 0xFFFFFFFFFFFFFFFF#64

/-- `bm(W)`, with room for the shift (R252). -/
def byteMask : Width → BitVec 16
  | .byte => 0x01#16
  | .word => 0x03#16
  | .long => 0x0F#16
  | .quad => 0xFF#16

def extractLow (w : Width) (sh : Nat) (a : Word) : Word := (a >>> (8 * sh)) &&& widthMask w
def extractHigh (w : Width) (sh : Nat) (a : Word) : Word := (a <<< ((64 - 8 * sh) % 64)) &&& widthMask w
def insertLow (w : Width) (sh : Nat) (a : Word) : Word := (a &&& widthMask w) <<< (8 * sh)
def insertHigh (w : Width) (sh : Nat) (a : Word) : Word :=
  if sh = 0 then 0 else (a &&& widthMask w) >>> (64 - 8 * sh)
def maskLow (w : Width) (sh : Nat) (a : Word) : Word := byteZap a ((byteMask w <<< sh).setWidth 8)
def maskHigh (w : Width) (sh : Nat) (a : Word) : Word := byteZap a (((byteMask w <<< sh) >>> 8).setWidth 8)

/-- `CMPBGE`: bit `i` compares byte `i` (R276). -/
def compareBytes (a b : Word) : Word :=
  let bit (i : Nat) : BitVec 1 := BitVec.ofBool ((byteOf b i).ule (byteOf a i))
  (bit 7 ++ bit 6 ++ bit 5 ++ bit 4 ++ bit 3 ++ bit 2 ++ bit 1 ++ bit 0).setWidth 64

/-- `sh` of an instruction of width `w` in the current mode (R251). -/
def State.shiftCountOf (s : State) (w : Width) (b : Word) : Nat := shiftCount s.cpu.bigEndian s.cfg.shiftXform w b

/-- The frame of EXT, INS and MSK: the count from `B`, the result from `A`. -/
def countExec (w : Width) (f : Width → Nat → Word → Word) : Executor := fun s r =>
  doneWith s r (f w (s.shiftCountOf w r.b) r.a)

/-! ### Extract -/

/-- EXTBL (R253). -/
def exExtbl : Executor := countExec .byte extractLow

/-- EXTBL under the sequencer. -/
def execExtbl (ra : RegIdx) (b : Opnd) (rc : RegIdx) (s : State) : Host.Outcome State Fault Refusal :=
  runInstr .none (oprRecord s 0x12#6 0x06#7 ra b rc) exExtbl s

/-- EXTWL (R254). -/
def exExtwl : Executor := countExec .word extractLow

/-- EXTWL under the sequencer. -/
def execExtwl (ra : RegIdx) (b : Opnd) (rc : RegIdx) (s : State) : Host.Outcome State Fault Refusal :=
  runInstr .none (oprRecord s 0x12#6 0x16#7 ra b rc) exExtwl s

/-- EXTLL (R255). -/
def exExtll : Executor := countExec .long extractLow

/-- EXTLL under the sequencer. -/
def execExtll (ra : RegIdx) (b : Opnd) (rc : RegIdx) (s : State) : Host.Outcome State Fault Refusal :=
  runInstr .none (oprRecord s 0x12#6 0x26#7 ra b rc) exExtll s

/-- EXTQL (R256). -/
def exExtql : Executor := countExec .quad extractLow

/-- EXTQL under the sequencer. -/
def execExtql (ra : RegIdx) (b : Opnd) (rc : RegIdx) (s : State) : Host.Outcome State Fault Refusal :=
  runInstr .none (oprRecord s 0x12#6 0x36#7 ra b rc) exExtql s

/-- EXTWH (R257). -/
def exExtwh : Executor := countExec .word extractHigh

/-- EXTWH under the sequencer. -/
def execExtwh (ra : RegIdx) (b : Opnd) (rc : RegIdx) (s : State) : Host.Outcome State Fault Refusal :=
  runInstr .none (oprRecord s 0x12#6 0x5A#7 ra b rc) exExtwh s

/-- EXTLH (R258). -/
def exExtlh : Executor := countExec .long extractHigh

/-- EXTLH under the sequencer. -/
def execExtlh (ra : RegIdx) (b : Opnd) (rc : RegIdx) (s : State) : Host.Outcome State Fault Refusal :=
  runInstr .none (oprRecord s 0x12#6 0x6A#7 ra b rc) exExtlh s

/-- EXTQH (R259). -/
def exExtqh : Executor := countExec .quad extractHigh

/-- EXTQH under the sequencer. -/
def execExtqh (ra : RegIdx) (b : Opnd) (rc : RegIdx) (s : State) : Host.Outcome State Fault Refusal :=
  runInstr .none (oprRecord s 0x12#6 0x7A#7 ra b rc) exExtqh s

/-! ### Insert -/

/-- INSBL (R260). -/
def exInsbl : Executor := countExec .byte insertLow

/-- INSBL under the sequencer. -/
def execInsbl (ra : RegIdx) (b : Opnd) (rc : RegIdx) (s : State) : Host.Outcome State Fault Refusal :=
  runInstr .none (oprRecord s 0x12#6 0x0B#7 ra b rc) exInsbl s

/-- INSWL (R261). -/
def exInswl : Executor := countExec .word insertLow

/-- INSWL under the sequencer. -/
def execInswl (ra : RegIdx) (b : Opnd) (rc : RegIdx) (s : State) : Host.Outcome State Fault Refusal :=
  runInstr .none (oprRecord s 0x12#6 0x1B#7 ra b rc) exInswl s

/-- INSLL (R262). -/
def exInsll : Executor := countExec .long insertLow

/-- INSLL under the sequencer. -/
def execInsll (ra : RegIdx) (b : Opnd) (rc : RegIdx) (s : State) : Host.Outcome State Fault Refusal :=
  runInstr .none (oprRecord s 0x12#6 0x2B#7 ra b rc) exInsll s

/-- INSQL (R263). -/
def exInsql : Executor := countExec .quad insertLow

/-- INSQL under the sequencer. -/
def execInsql (ra : RegIdx) (b : Opnd) (rc : RegIdx) (s : State) : Host.Outcome State Fault Refusal :=
  runInstr .none (oprRecord s 0x12#6 0x3B#7 ra b rc) exInsql s

/-- INSWH (R264). -/
def exInswh : Executor := countExec .word insertHigh

/-- INSWH under the sequencer. -/
def execInswh (ra : RegIdx) (b : Opnd) (rc : RegIdx) (s : State) : Host.Outcome State Fault Refusal :=
  runInstr .none (oprRecord s 0x12#6 0x57#7 ra b rc) exInswh s

/-- INSLH (R265). -/
def exInslh : Executor := countExec .long insertHigh

/-- INSLH under the sequencer. -/
def execInslh (ra : RegIdx) (b : Opnd) (rc : RegIdx) (s : State) : Host.Outcome State Fault Refusal :=
  runInstr .none (oprRecord s 0x12#6 0x67#7 ra b rc) exInslh s

/-- INSQH (R266). -/
def exInsqh : Executor := countExec .quad insertHigh

/-- INSQH under the sequencer. -/
def execInsqh (ra : RegIdx) (b : Opnd) (rc : RegIdx) (s : State) : Host.Outcome State Fault Refusal :=
  runInstr .none (oprRecord s 0x12#6 0x77#7 ra b rc) exInsqh s

/-! ### Mask -/

/-- MSKBL (R267). -/
def exMskbl : Executor := countExec .byte maskLow

/-- MSKBL under the sequencer. -/
def execMskbl (ra : RegIdx) (b : Opnd) (rc : RegIdx) (s : State) : Host.Outcome State Fault Refusal :=
  runInstr .none (oprRecord s 0x12#6 0x02#7 ra b rc) exMskbl s

/-- MSKWL (R268). -/
def exMskwl : Executor := countExec .word maskLow

/-- MSKWL under the sequencer. -/
def execMskwl (ra : RegIdx) (b : Opnd) (rc : RegIdx) (s : State) : Host.Outcome State Fault Refusal :=
  runInstr .none (oprRecord s 0x12#6 0x12#7 ra b rc) exMskwl s

/-- MSKLL (R269). -/
def exMskll : Executor := countExec .long maskLow

/-- MSKLL under the sequencer. -/
def execMskll (ra : RegIdx) (b : Opnd) (rc : RegIdx) (s : State) : Host.Outcome State Fault Refusal :=
  runInstr .none (oprRecord s 0x12#6 0x22#7 ra b rc) exMskll s

/-- MSKQL (R270). -/
def exMskql : Executor := countExec .quad maskLow

/-- MSKQL under the sequencer. -/
def execMskql (ra : RegIdx) (b : Opnd) (rc : RegIdx) (s : State) : Host.Outcome State Fault Refusal :=
  runInstr .none (oprRecord s 0x12#6 0x32#7 ra b rc) exMskql s

/-- MSKWH (R271). -/
def exMskwh : Executor := countExec .word maskHigh

/-- MSKWH under the sequencer. -/
def execMskwh (ra : RegIdx) (b : Opnd) (rc : RegIdx) (s : State) : Host.Outcome State Fault Refusal :=
  runInstr .none (oprRecord s 0x12#6 0x52#7 ra b rc) exMskwh s

/-- MSKLH (R272). -/
def exMsklh : Executor := countExec .long maskHigh

/-- MSKLH under the sequencer. -/
def execMsklh (ra : RegIdx) (b : Opnd) (rc : RegIdx) (s : State) : Host.Outcome State Fault Refusal :=
  runInstr .none (oprRecord s 0x12#6 0x62#7 ra b rc) exMsklh s

/-- MSKQH (R273). -/
def exMskqh : Executor := countExec .quad maskHigh

/-- MSKQH under the sequencer. -/
def execMskqh (ra : RegIdx) (b : Opnd) (rc : RegIdx) (s : State) : Host.Outcome State Fault Refusal :=
  runInstr .none (oprRecord s 0x12#6 0x72#7 ra b rc) exMskqh s

/-! ### Zap, byte compare, sign-extend -/

/-- ZAP (R274). -/
def exZap : Executor := pureExec fun a b => byteZap a (b.setWidth 8)

/-- ZAP under the sequencer. -/
def execZap (ra : RegIdx) (b : Opnd) (rc : RegIdx) (s : State) : Host.Outcome State Fault Refusal :=
  runInstr .none (oprRecord s 0x12#6 0x30#7 ra b rc) exZap s

/-- ZAPNOT (R275). -/
def exZapnot : Executor := pureExec fun a b => byteZap a (~~~b.setWidth 8)

/-- ZAPNOT under the sequencer. -/
def execZapnot (ra : RegIdx) (b : Opnd) (rc : RegIdx) (s : State) : Host.Outcome State Fault Refusal :=
  runInstr .none (oprRecord s 0x12#6 0x31#7 ra b rc) exZapnot s

/-- CMPBGE (R276). -/
def exCmpbge : Executor := pureExec fun a b => compareBytes a b

/-- CMPBGE under the sequencer. -/
def execCmpbge (ra : RegIdx) (b : Opnd) (rc : RegIdx) (s : State) : Host.Outcome State Fault Refusal :=
  runInstr .none (oprRecord s 0x10#6 0x0F#7 ra b rc) exCmpbge s

/-- SEXTB (R277). -/
def exSextb : Executor := pureExec fun _ b => sext8 b

/-- SEXTB under the sequencer. -/
def execSextb (ra : RegIdx) (b : Opnd) (rc : RegIdx) (s : State) : Host.Outcome State Fault Refusal :=
  runInstr .none (oprRecord s 0x1C#6 0x00#7 ra b rc) exSextb s

/-- SEXTW (R278). -/
def exSextw : Executor := pureExec fun _ b => sext16 b

/-- SEXTW under the sequencer. -/
def execSextw (ra : RegIdx) (b : Opnd) (rc : RegIdx) (s : State) : Host.Outcome State Fault Refusal :=
  runInstr .none (oprRecord s 0x1C#6 0x01#7 ra b rc) exSextw s

/-! ### Count -/

/-- CTLZ (R279). -/
def exCtlz : Executor := pureExec fun _ b => BitVec.ofNat 64 (leadingZeros b 64)

/-- CTLZ under the sequencer. -/
def execCtlz (ra : RegIdx) (b : Opnd) (rc : RegIdx) (s : State) : Host.Outcome State Fault Refusal :=
  runInstr .none (oprRecord s 0x1C#6 0x32#7 ra b rc) exCtlz s

/-- CTTZ (R280). -/
def exCttz : Executor := pureExec fun _ b => BitVec.ofNat 64 (trailingZeros b 64 0)

/-- CTTZ under the sequencer. -/
def execCttz (ra : RegIdx) (b : Opnd) (rc : RegIdx) (s : State) : Host.Outcome State Fault Refusal :=
  runInstr .none (oprRecord s 0x1C#6 0x33#7 ra b rc) exCttz s

end Sys2Proof.Machine
end

