-- ==== Sys2Proof/Machine/FloatingPoint.lean ====
section
/-!
DEFINITION. Floating-point instructions (46_floating_point).
-/

namespace Sys2Proof.Machine

/-- The frame of IEEE arithmetic (R375, R372). The format is the executor's, whatever the operands' tags: only
the VAX executors look for `FpD` (R388; DESIGN CHOICE, log 19). -/
def ieeeExec (fmt : FpFormat) (op : FpOp) : Executor := fun s r =>
  fpExit s r (ieeeArith s.cpu.fpcr r.fpFunction fmt op r.a r.b)

/-- A record whose two operands are tagged `FpD` is D-format arithmetic (R388, log 19). -/
def vaxFormat (fmt : FpFormat) (r : Record) : FpFormat :=
  if r.src1v.tag = .fpD ∧ r.src2v.tag = .fpD then .d else fmt

/-- The frame of VAX arithmetic (R376, R372). -/
def vaxExec (fmt : FpFormat) (op : FpOp) : Executor := fun s r =>
  fpExit s r (vaxArith s.cfg.vaxTie r.fpFunction (vaxFormat fmt r) op r.a r.b)

/-- The frame of the overflow-checked CVTQL: validate, then write; IOV is sticky (R395). -/
def checkedConvert : Executor := fun s r =>
  fpExit s r (.exit { integerOverflow := longOverflow r.b } { integerOverflow := longOverflow r.b }
    (layoutOfLongword r.b))

/-! ### Add and multiply -/

/-- ADDS (R380). -/
def exAdds : Executor := ieeeExec .s .add

/-- ADDS under the sequencer. -/
def execAdds (fa fb fc : RegIdx) (trp : BitVec 3) (rnd : BitVec 2) (s : State) :
    Host.Outcome State Fault Refusal :=
  runInstr .none (fpRecord s 0x16#6 (fpFunction trp rnd 0x00#6) .fpS fa fb fc) exAdds s

/-- ADDT (R381). -/
def exAddt : Executor := ieeeExec .t .add

/-- ADDT under the sequencer. -/
def execAddt (fa fb fc : RegIdx) (trp : BitVec 3) (rnd : BitVec 2) (s : State) :
    Host.Outcome State Fault Refusal :=
  runInstr .none (fpRecord s 0x16#6 (fpFunction trp rnd 0x20#6) .fpT fa fb fc) exAddt s

/-- MULS (R382). -/
def exMuls : Executor := ieeeExec .s .mul

/-- MULS under the sequencer. -/
def execMuls (fa fb fc : RegIdx) (trp : BitVec 3) (rnd : BitVec 2) (s : State) :
    Host.Outcome State Fault Refusal :=
  runInstr .none (fpRecord s 0x16#6 (fpFunction trp rnd 0x02#6) .fpS fa fb fc) exMuls s

/-- MULT (R383). -/
def exMult : Executor := ieeeExec .t .mul

/-- MULT under the sequencer. -/
def execMult (fa fb fc : RegIdx) (trp : BitVec 3) (rnd : BitVec 2) (s : State) :
    Host.Outcome State Fault Refusal :=
  runInstr .none (fpRecord s 0x16#6 (fpFunction trp rnd 0x22#6) .fpT fa fb fc) exMult s

/-- ADDF (R384). -/
def exAddf : Executor := vaxExec .f .add

/-- ADDF under the sequencer. -/
def execAddf (fa fb fc : RegIdx) (trp : BitVec 3) (rnd : BitVec 2) (s : State) :
    Host.Outcome State Fault Refusal :=
  runInstr .none (fpRecord s 0x15#6 (fpFunction trp rnd 0x00#6) .fpF fa fb fc) exAddf s

/-- ADDG (R385). -/
def exAddg : Executor := vaxExec .g .add

/-- ADDG under the sequencer. -/
def execAddg (fa fb fc : RegIdx) (trp : BitVec 3) (rnd : BitVec 2) (s : State) :
    Host.Outcome State Fault Refusal :=
  runInstr .none (fpRecord s 0x15#6 (fpFunction trp rnd 0x20#6) .fpG fa fb fc) exAddg s

/-- MULF (R386). -/
def exMulf : Executor := vaxExec .f .mul

/-- MULF under the sequencer. -/
def execMulf (fa fb fc : RegIdx) (trp : BitVec 3) (rnd : BitVec 2) (s : State) :
    Host.Outcome State Fault Refusal :=
  runInstr .none (fpRecord s 0x15#6 (fpFunction trp rnd 0x02#6) .fpF fa fb fc) exMulf s

/-- MULG (R387). -/
def exMulg : Executor := vaxExec .g .mul

/-- MULG under the sequencer. -/
def execMulg (fa fb fc : RegIdx) (trp : BitVec 3) (rnd : BitVec 2) (s : State) :
    Host.Outcome State Fault Refusal :=
  runInstr .none (fpRecord s 0x15#6 (fpFunction trp rnd 0x22#6) .fpG fa fb fc) exMulg s

/-! ### Sign copy -/

/-- CPYS (R390). -/
def exCpys : Executor := pureExec fun a b => (a &&& signBit) ||| (b &&& ~~~signBit)

/-- CPYS under the sequencer. -/
def execCpys (fa fb fc : RegIdx) (s : State) : Host.Outcome State Fault Refusal :=
  runInstr .none (fpRecord s 0x17#6 0x020#11 .fpT fa fb fc) exCpys s

/-- CPYSN (R391). -/
def exCpysn : Executor := pureExec fun a b => (~~~a &&& signBit) ||| (b &&& ~~~signBit)

/-- CPYSN under the sequencer. -/
def execCpysn (fa fb fc : RegIdx) (s : State) : Host.Outcome State Fault Refusal :=
  runInstr .none (fpRecord s 0x17#6 0x021#11 .fpT fa fb fc) exCpysn s

/-- CPYSE (R392). -/
def exCpyse : Executor := pureExec fun a b => (a &&& 0xFFF0000000000000#64) ||| (b &&& 0x000FFFFFFFFFFFFF#64)

/-- CPYSE under the sequencer. -/
def execCpyse (fa fb fc : RegIdx) (s : State) : Host.Outcome State Fault Refusal :=
  runInstr .none (fpRecord s 0x17#6 0x022#11 .fpT fa fb fc) exCpyse s

/-! ### Longword and quadword conversion -/

/-- CVTLQ (R393). -/
def exCvtlq : Executor := pureExec fun _ b => longwordOfLayout b

/-- CVTLQ under the sequencer. -/
def execCvtlq (fa fb fc : RegIdx) (s : State) : Host.Outcome State Fault Refusal :=
  runInstr .none (fpRecord s 0x17#6 0x010#11 .fpT fa fb fc) exCvtlq s

/-- CVTQL (R394). -/
def exCvtql : Executor := pureExec fun _ b => layoutOfLongword b

/-- CVTQL under the sequencer. -/
def execCvtql (fa fb fc : RegIdx) (s : State) : Host.Outcome State Fault Refusal :=
  runInstr .none (fpRecord s 0x17#6 0x030#11 .fpT fa fb fc) exCvtql s

/-- CVTQL/V (R395). -/
def exCvtqlV : Executor := fun s r => checkedConvert s r

/-- CVTQL/V under the sequencer. -/
def execCvtqlV (fa fb fc : RegIdx) (s : State) : Host.Outcome State Fault Refusal :=
  runInstr .none (fpRecord s 0x17#6 0x130#11 .fpT fa fb fc) exCvtqlV s

/-- CVTQL/SV (R396). -/
def exCvtqlSv : Executor := fun s r => checkedConvert s r

/-- CVTQL/SV under the sequencer. -/
def execCvtqlSv (fa fb fc : RegIdx) (s : State) : Host.Outcome State Fault Refusal :=
  runInstr .none (fpRecord s 0x17#6 0x530#11 .fpT fa fb fc) exCvtqlSv s

/-! ### Floating conditional moves -/

/-- FCMOVEQ (R398). -/
def exFcmoveq : Executor := cmovExec fun a => fpIsZero a

/-- FCMOVEQ under the sequencer. -/
def execFcmoveq (fa fb fc : RegIdx) (s : State) : Host.Outcome State Fault Refusal :=
  runInstr .none (fpRecord s 0x17#6 0x02A#11 .fpT fa fb fc) exFcmoveq s

/-- FCMOVNE (R399). -/
def exFcmovne : Executor := cmovExec fun a => !fpIsZero a

/-- FCMOVNE under the sequencer. -/
def execFcmovne (fa fb fc : RegIdx) (s : State) : Host.Outcome State Fault Refusal :=
  runInstr .none (fpRecord s 0x17#6 0x02B#11 .fpT fa fb fc) exFcmovne s

/-- FCMOVLT (R400). -/
def exFcmovlt : Executor := cmovExec fun a => fpIsNegative a && !fpIsZero a

/-- FCMOVLT under the sequencer. -/
def execFcmovlt (fa fb fc : RegIdx) (s : State) : Host.Outcome State Fault Refusal :=
  runInstr .none (fpRecord s 0x17#6 0x02C#11 .fpT fa fb fc) exFcmovlt s

/-- FCMOVGE (R401). -/
def exFcmovge : Executor := cmovExec fun a => !fpIsNegative a || fpIsZero a

/-- FCMOVGE under the sequencer. -/
def execFcmovge (fa fb fc : RegIdx) (s : State) : Host.Outcome State Fault Refusal :=
  runInstr .none (fpRecord s 0x17#6 0x02D#11 .fpT fa fb fc) exFcmovge s

/-- FCMOVLE (R402). -/
def exFcmovle : Executor := cmovExec fun a => fpIsNegative a || fpIsZero a

/-- FCMOVLE under the sequencer. -/
def execFcmovle (fa fb fc : RegIdx) (s : State) : Host.Outcome State Fault Refusal :=
  runInstr .none (fpRecord s 0x17#6 0x02E#11 .fpT fa fb fc) exFcmovle s

/-- FCMOVGT (R403). -/
def exFcmovgt : Executor := cmovExec fun a => !fpIsNegative a && !fpIsZero a

/-- FCMOVGT under the sequencer. -/
def execFcmovgt (fa fb fc : RegIdx) (s : State) : Host.Outcome State Fault Refusal :=
  runInstr .none (fpRecord s 0x17#6 0x02F#11 .fpT fa fb fc) exFcmovgt s

/-! ### FPCR moves -/

/-- MT_FPCR (R404). -/
def exMtFpcr : Executor := fun s r => done (s.setFpcr (r.a &&& fpcrWritable)) r .noException

/-- MT_FPCR under the sequencer. -/
def execMtFpcr (fa fb fc : RegIdx) (s : State) : Host.Outcome State Fault Refusal :=
  runInstr .none (fpRecord s 0x17#6 0x024#11 .fpT fa fb fc) exMtFpcr s

/-- MF_FPCR (R405). -/
def exMfFpcr : Executor := fun s r => doneWith s r s.cpu.fpcr

/-- MF_FPCR under the sequencer. -/
def execMfFpcr (fa fb fc : RegIdx) (s : State) : Host.Outcome State Fault Refusal :=
  runInstr .none (fpRecord s 0x17#6 0x025#11 .fpT fa fb fc) exMfFpcr s

end Sys2Proof.Machine
end

