-- ==== Sys2Proof/Machine/IntegerArith.lean ====
section
/-!
DEFINITION. Integer arithmetic, compare and multiply (41_integer_arithmetic).
-/

namespace Sys2Proof.Machine

/-! ### Add and subtract -/

/-- ADDL (R181). -/
def exAddl : Executor := pureExec fun a b => sext32 (a + b)

/-- ADDL under the sequencer. -/
def execAddl (ra : RegIdx) (b : Opnd) (rc : RegIdx) (s : State) : Host.Outcome State Fault Refusal :=
  runInstr .none (oprRecord s 0x10#6 0x00#7 ra b rc) exAddl s

/-- ADDL/V (R182). -/
def exAddlV : Executor := checkedExec (fun a b => longOverflow (a + b)) fun a b => a + b

/-- ADDL/V under the sequencer. -/
def execAddlV (ra : RegIdx) (b : Opnd) (rc : RegIdx) (s : State) : Host.Outcome State Fault Refusal :=
  runInstr .none (oprRecord s 0x10#6 0x40#7 ra b rc) exAddlV s

/-- ADDQ (R183). -/
def exAddq : Executor := pureExec fun a b => a + b

/-- ADDQ under the sequencer. -/
def execAddq (ra : RegIdx) (b : Opnd) (rc : RegIdx) (s : State) : Host.Outcome State Fault Refusal :=
  runInstr .none (oprRecord s 0x10#6 0x20#7 ra b rc) exAddq s

/-- ADDQ/V (R184). -/
def exAddqV : Executor := checkedExec (fun a b => addOverflow a b (a + b)) fun a b => a + b

/-- ADDQ/V under the sequencer. -/
def execAddqV (ra : RegIdx) (b : Opnd) (rc : RegIdx) (s : State) : Host.Outcome State Fault Refusal :=
  runInstr .none (oprRecord s 0x10#6 0x60#7 ra b rc) exAddqV s

/-- SUBL (R185). -/
def exSubl : Executor := pureExec fun a b => sext32 (a - b)

/-- SUBL under the sequencer. -/
def execSubl (ra : RegIdx) (b : Opnd) (rc : RegIdx) (s : State) : Host.Outcome State Fault Refusal :=
  runInstr .none (oprRecord s 0x10#6 0x09#7 ra b rc) exSubl s

/-- SUBL/V (R186). -/
def exSublV : Executor := checkedExec (fun a b => longOverflow (a - b)) fun a b => a - b

/-- SUBL/V under the sequencer. -/
def execSublV (ra : RegIdx) (b : Opnd) (rc : RegIdx) (s : State) : Host.Outcome State Fault Refusal :=
  runInstr .none (oprRecord s 0x10#6 0x49#7 ra b rc) exSublV s

/-- SUBQ (R187). -/
def exSubq : Executor := pureExec fun a b => a - b

/-- SUBQ under the sequencer. -/
def execSubq (ra : RegIdx) (b : Opnd) (rc : RegIdx) (s : State) : Host.Outcome State Fault Refusal :=
  runInstr .none (oprRecord s 0x10#6 0x29#7 ra b rc) exSubq s

/-- SUBQ/V (R188). -/
def exSubqV : Executor := checkedExec (fun a b => subOverflow a b (a - b)) fun a b => a - b

/-- SUBQ/V under the sequencer. -/
def execSubqV (ra : RegIdx) (b : Opnd) (rc : RegIdx) (s : State) : Host.Outcome State Fault Refusal :=
  runInstr .none (oprRecord s 0x10#6 0x69#7 ra b rc) exSubqV s

/-! ### Scaled add and subtract -/

/-- S4ADDL (R189). -/
def exS4addl : Executor := pureExec fun a b => sext32 ((a <<< 2) + b)

/-- S4ADDL under the sequencer. -/
def execS4addl (ra : RegIdx) (b : Opnd) (rc : RegIdx) (s : State) : Host.Outcome State Fault Refusal :=
  runInstr .none (oprRecord s 0x10#6 0x02#7 ra b rc) exS4addl s

/-- S8ADDL (R190). -/
def exS8addl : Executor := pureExec fun a b => sext32 ((a <<< 3) + b)

/-- S8ADDL under the sequencer. -/
def execS8addl (ra : RegIdx) (b : Opnd) (rc : RegIdx) (s : State) : Host.Outcome State Fault Refusal :=
  runInstr .none (oprRecord s 0x10#6 0x12#7 ra b rc) exS8addl s

/-- S4SUBL (R191). -/
def exS4subl : Executor := pureExec fun a b => sext32 ((a <<< 2) - b)

/-- S4SUBL under the sequencer. -/
def execS4subl (ra : RegIdx) (b : Opnd) (rc : RegIdx) (s : State) : Host.Outcome State Fault Refusal :=
  runInstr .none (oprRecord s 0x10#6 0x0B#7 ra b rc) exS4subl s

/-- S8SUBL (R192). -/
def exS8subl : Executor := pureExec fun a b => sext32 ((a <<< 3) - b)

/-- S8SUBL under the sequencer. -/
def execS8subl (ra : RegIdx) (b : Opnd) (rc : RegIdx) (s : State) : Host.Outcome State Fault Refusal :=
  runInstr .none (oprRecord s 0x10#6 0x1B#7 ra b rc) exS8subl s

/-- S4ADDQ (R193). -/
def exS4addq : Executor := pureExec fun a b => (a <<< 2) + b

/-- S4ADDQ under the sequencer. -/
def execS4addq (ra : RegIdx) (b : Opnd) (rc : RegIdx) (s : State) : Host.Outcome State Fault Refusal :=
  runInstr .none (oprRecord s 0x10#6 0x22#7 ra b rc) exS4addq s

/-- S8ADDQ (R194). -/
def exS8addq : Executor := pureExec fun a b => (a <<< 3) + b

/-- S8ADDQ under the sequencer. -/
def execS8addq (ra : RegIdx) (b : Opnd) (rc : RegIdx) (s : State) : Host.Outcome State Fault Refusal :=
  runInstr .none (oprRecord s 0x10#6 0x32#7 ra b rc) exS8addq s

/-- S4SUBQ (R195). -/
def exS4subq : Executor := pureExec fun a b => (a <<< 2) - b

/-- S4SUBQ under the sequencer. -/
def execS4subq (ra : RegIdx) (b : Opnd) (rc : RegIdx) (s : State) : Host.Outcome State Fault Refusal :=
  runInstr .none (oprRecord s 0x10#6 0x2B#7 ra b rc) exS4subq s

/-- S8SUBQ (R196). -/
def exS8subq : Executor := pureExec fun a b => (a <<< 3) - b

/-- S8SUBQ under the sequencer. -/
def execS8subq (ra : RegIdx) (b : Opnd) (rc : RegIdx) (s : State) : Host.Outcome State Fault Refusal :=
  runInstr .none (oprRecord s 0x10#6 0x3B#7 ra b rc) exS8subq s

/-! ### Compare -/

/-- CMPEQ (R197). -/
def exCmpeq : Executor := pureExec fun a b => boolWord (a == b)

/-- CMPEQ under the sequencer. -/
def execCmpeq (ra : RegIdx) (b : Opnd) (rc : RegIdx) (s : State) : Host.Outcome State Fault Refusal :=
  runInstr .none (oprRecord s 0x10#6 0x2D#7 ra b rc) exCmpeq s

/-- CMPLT (R198). -/
def exCmplt : Executor := pureExec fun a b => boolWord (a.slt b)

/-- CMPLT under the sequencer. -/
def execCmplt (ra : RegIdx) (b : Opnd) (rc : RegIdx) (s : State) : Host.Outcome State Fault Refusal :=
  runInstr .none (oprRecord s 0x10#6 0x4D#7 ra b rc) exCmplt s

/-- CMPLE (R199). -/
def exCmple : Executor := pureExec fun a b => boolWord (a.sle b)

/-- CMPLE under the sequencer. -/
def execCmple (ra : RegIdx) (b : Opnd) (rc : RegIdx) (s : State) : Host.Outcome State Fault Refusal :=
  runInstr .none (oprRecord s 0x10#6 0x6D#7 ra b rc) exCmple s

/-- CMPULT (R200). -/
def exCmpult : Executor := pureExec fun a b => boolWord (a.ult b)

/-- CMPULT under the sequencer. -/
def execCmpult (ra : RegIdx) (b : Opnd) (rc : RegIdx) (s : State) : Host.Outcome State Fault Refusal :=
  runInstr .none (oprRecord s 0x10#6 0x1D#7 ra b rc) exCmpult s

/-- CMPULE (R201). -/
def exCmpule : Executor := pureExec fun a b => boolWord (a.ule b)

/-- CMPULE under the sequencer. -/
def execCmpule (ra : RegIdx) (b : Opnd) (rc : RegIdx) (s : State) : Host.Outcome State Fault Refusal :=
  runInstr .none (oprRecord s 0x10#6 0x3D#7 ra b rc) exCmpule s

/-! ### Multiply -/

/-- MULL (R202). -/
def exMull : Executor := pureExec fun a b => sext32 (a * b)

/-- MULL under the sequencer. -/
def execMull (ra : RegIdx) (b : Opnd) (rc : RegIdx) (s : State) : Host.Outcome State Fault Refusal :=
  runInstr .none (oprRecord s 0x13#6 0x00#7 ra b rc) exMull s

/-- MULL/V (R203). -/
def exMullV : Executor := checkedExec (fun a b => longOverflow (a * b)) fun a b => a * b

/-- MULL/V under the sequencer. -/
def execMullV (ra : RegIdx) (b : Opnd) (rc : RegIdx) (s : State) : Host.Outcome State Fault Refusal :=
  runInstr .none (oprRecord s 0x13#6 0x40#7 ra b rc) exMullV s

/-- MULQ (R204). -/
def exMulq : Executor := pureExec fun a b => (multiply64 a b).2

/-- MULQ under the sequencer. -/
def execMulq (ra : RegIdx) (b : Opnd) (rc : RegIdx) (s : State) : Host.Outcome State Fault Refusal :=
  runInstr .none (oprRecord s 0x13#6 0x20#7 ra b rc) exMulq s

/-- MULQ/V (R205). -/
def exMulqV : Executor := checkedExec mulOverflow fun a b => (multiply64 a b).2

/-- MULQ/V under the sequencer. -/
def execMulqV (ra : RegIdx) (b : Opnd) (rc : RegIdx) (s : State) : Host.Outcome State Fault Refusal :=
  runInstr .none (oprRecord s 0x13#6 0x60#7 ra b rc) exMulqV s

/-- UMULH (R206). -/
def exUmulh : Executor := pureExec fun a b => (multiply64 a b).1

/-- UMULH under the sequencer. -/
def execUmulh (ra : RegIdx) (b : Opnd) (rc : RegIdx) (s : State) : Host.Outcome State Fault Refusal :=
  runInstr .none (oprRecord s 0x13#6 0x30#7 ra b rc) exUmulh s

end Sys2Proof.Machine
end

