-- ==== Sys2Proof/Machine/LoadStore.lean ====
section
/-!
DEFINITION. Address, load, store, load-locked and store-conditional instructions (45_load_store).
-/

namespace Sys2Proof.Machine

/-! ### Common rules (R335, R336, R338, R340) -/

/-- The address a memory executor hands to the Mbox: effective address, `adjust` (LDQ_U and STQ_U align it),
big-endian transform (R321, R322). -/
def accessAddress (s : State) (r : Record) (w : Width) (adjust : Word → Word) : Word :=
  endianAddress s.cpu.bigEndian (adjust r.effectiveAddress) w

/-- The common rule of the loads (R335). -/
def loadExec (w : Width) (tag : Completion) (adjust : Word → Word) : Executor := fun s r => do
  let r1 := { r with completion := tag }
  let (o, s1) ← readMem s r1 (accessAddress s r w adjust) w
  done s1 r1 o

/-- The physical address a load's slot holds. -/
def slotPhysical (s : State) (n : Nat) : Word :=
  match Table.at? s.lq n with
  | some q => q.pa.setWidth 64
  | none => 0

/-- The common rule of LDx_L: as a load, and the pending lock is set if it has no exception (R338). -/
def loadLockedExec (w : Width) (tag : Completion) : Executor := fun s r => do
  let va := accessAddress s r w id
  let r1 := { r with completion := tag }
  let (o, s1) ← readMem s r1 va w
  let r2 := if o = .noException then
      { r1 with lockPending := true, lockVa := va, lockPa := slotPhysical s1 r.slot }
    else r1
  done s1 r2 o

/-- The common rule of the ordinary stores (R336). -/
def storeExec (w : Width) (adjust : Word → Word) : Executor := fun s r => do
  let (o, s1) ← writeMem s r (accessAddress s r w adjust) w r.src2v.bits true
  done s1 r o

/-- The common rule of STx_C: conditioned on the committed lock flag at dispatch (R340). -/
def condStoreExec (w : Width) : Executor := fun s r => do
  let ok := s.cpu.lockFlag
  let (o, s1) ← writeMem s r (accessAddress s r w id) w r.src2v.bits ok
  let r1 := { r with lockPending := false, clearLockPending := true }
  if o = .noException then doneWith s1 r1 (boolWord ok) else done s1 r1 o

/-! ### Address computation -/

/-- LDA (R323). -/
def exLda : Executor := fun s r => doneWith s r (r.a + r.d)

/-- LDA under the sequencer. -/
def execLda (ra rb : RegIdx) (disp : BitVec 16) (s : State) : Host.Outcome State Fault Refusal :=
  runInstr .none (loadRecord s 0x08#6 ra rb disp) exLda s

/-- LDAH (R324). -/
def exLdah : Executor := fun s r => doneWith s r (r.a + (r.d <<< 16))

/-- LDAH under the sequencer. -/
def execLdah (ra rb : RegIdx) (disp : BitVec 16) (s : State) : Host.Outcome State Fault Refusal :=
  runInstr .none (loadRecord s 0x09#6 ra rb disp) exLdah s

/-! ### Loads -/

/-- LDBU (R325). -/
def exLdbu : Executor := loadExec .byte .zeroExtendByte id

/-- LDBU under the sequencer. -/
def execLdbu (ra rb : RegIdx) (disp : BitVec 16) (s : State) : Host.Outcome State Fault Refusal :=
  runInstr .load (loadRecord s 0x0A#6 ra rb disp) exLdbu s

/-- LDWU (R326). -/
def exLdwu : Executor := loadExec .word .zeroExtendWord id

/-- LDWU under the sequencer. -/
def execLdwu (ra rb : RegIdx) (disp : BitVec 16) (s : State) : Host.Outcome State Fault Refusal :=
  runInstr .load (loadRecord s 0x0C#6 ra rb disp) exLdwu s

/-- LDL (R327). -/
def exLdl : Executor := loadExec .long .signExtendLong id

/-- LDL under the sequencer. -/
def execLdl (ra rb : RegIdx) (disp : BitVec 16) (s : State) : Host.Outcome State Fault Refusal :=
  runInstr .load (loadRecord s 0x28#6 ra rb disp) exLdl s

/-- LDQ (R328). -/
def exLdq : Executor := loadExec .quad .none id

/-- LDQ under the sequencer. -/
def execLdq (ra rb : RegIdx) (disp : BitVec 16) (s : State) : Host.Outcome State Fault Refusal :=
  runInstr .load (loadRecord s 0x29#6 ra rb disp) exLdq s

/-- LDQ_U (R329). -/
def exLdqU : Executor := loadExec .quad .none alignQuad

/-- LDQ_U under the sequencer. -/
def execLdqU (ra rb : RegIdx) (disp : BitVec 16) (s : State) : Host.Outcome State Fault Refusal :=
  runInstr .load (loadRecord s 0x0B#6 ra rb disp) exLdqU s

/-! ### Stores -/

/-- STB (R330). -/
def exStb : Executor := storeExec .byte id

/-- STB under the sequencer. -/
def execStb (ra rb : RegIdx) (disp : BitVec 16) (s : State) : Host.Outcome State Fault Refusal :=
  runInstr .store (storeRecord s 0x0E#6 ra rb disp) exStb s

/-- STW (R331). -/
def exStw : Executor := storeExec .word id

/-- STW under the sequencer. -/
def execStw (ra rb : RegIdx) (disp : BitVec 16) (s : State) : Host.Outcome State Fault Refusal :=
  runInstr .store (storeRecord s 0x0D#6 ra rb disp) exStw s

/-- STL (R332). -/
def exStl : Executor := storeExec .long id

/-- STL under the sequencer. -/
def execStl (ra rb : RegIdx) (disp : BitVec 16) (s : State) : Host.Outcome State Fault Refusal :=
  runInstr .store (storeRecord s 0x2C#6 ra rb disp) exStl s

/-- STQ (R333). -/
def exStq : Executor := storeExec .quad id

/-- STQ under the sequencer. -/
def execStq (ra rb : RegIdx) (disp : BitVec 16) (s : State) : Host.Outcome State Fault Refusal :=
  runInstr .store (storeRecord s 0x2D#6 ra rb disp) exStq s

/-- STQ_U (R334). -/
def exStqU : Executor := storeExec .quad alignQuad

/-- STQ_U under the sequencer. -/
def execStqU (ra rb : RegIdx) (disp : BitVec 16) (s : State) : Host.Outcome State Fault Refusal :=
  runInstr .store (storeRecord s 0x0F#6 ra rb disp) exStqU s

/-! ### Load-locked and store-conditional -/

/-- LDL_L (R338). -/
def exLdlL : Executor := loadLockedExec .long .signExtendLong

/-- LDL_L under the sequencer. -/
def execLdlL (ra rb : RegIdx) (disp : BitVec 16) (s : State) : Host.Outcome State Fault Refusal :=
  runInstr .load (loadRecord s 0x2A#6 ra rb disp) exLdlL s

/-- LDQ_L (R339). -/
def exLdqL : Executor := loadLockedExec .quad .none

/-- LDQ_L under the sequencer. -/
def execLdqL (ra rb : RegIdx) (disp : BitVec 16) (s : State) : Host.Outcome State Fault Refusal :=
  runInstr .load (loadRecord s 0x2B#6 ra rb disp) exLdqL s

/-- STL_C (R340). -/
def exStlC : Executor := condStoreExec .long

/-- STL_C under the sequencer. -/
def execStlC (ra rb : RegIdx) (disp : BitVec 16) (s : State) : Host.Outcome State Fault Refusal :=
  runInstr .store (condStoreRecord s 0x2E#6 ra rb disp) exStlC s

/-- STQ_C (R341). -/
def exStqC : Executor := condStoreExec .quad

/-- STQ_C under the sequencer. -/
def execStqC (ra rb : RegIdx) (disp : BitVec 16) (s : State) : Host.Outcome State Fault Refusal :=
  runInstr .store (condStoreRecord s 0x2F#6 ra rb disp) exStqC s

end Sys2Proof.Machine
end

