-- ==== Sys2Proof/Machine/Logical.lean ====
section
/-!
DEFINITION. Logical, shift and integer conditional-move instructions (42_logical_shift_cmov).
-/

namespace Sys2Proof.Machine

/-- The shift count: `B[5:0]` (R227). -/
def shiftAmount (b : Word) : Nat := (b.extractLsb' 0 6).toNat

/-! ### Logical operations -/

/-- AND (R221). -/
def exAnd : Executor := pureExec fun a b => a &&& b

/-- AND under the sequencer. -/
def execAnd (ra : RegIdx) (b : Opnd) (rc : RegIdx) (s : State) : Host.Outcome State Fault Refusal :=
  runInstr .none (oprRecord s 0x11#6 0x00#7 ra b rc) exAnd s

/-- BIC (R222). -/
def exBic : Executor := pureExec fun a b => a &&& ~~~b

/-- BIC under the sequencer. -/
def execBic (ra : RegIdx) (b : Opnd) (rc : RegIdx) (s : State) : Host.Outcome State Fault Refusal :=
  runInstr .none (oprRecord s 0x11#6 0x08#7 ra b rc) exBic s

/-- BIS (R223). -/
def exBis : Executor := pureExec fun a b => a ||| b

/-- BIS under the sequencer. -/
def execBis (ra : RegIdx) (b : Opnd) (rc : RegIdx) (s : State) : Host.Outcome State Fault Refusal :=
  runInstr .none (oprRecord s 0x11#6 0x20#7 ra b rc) exBis s

/-- ORNOT (R224). -/
def exOrnot : Executor := pureExec fun a b => a ||| ~~~b

/-- ORNOT under the sequencer. -/
def execOrnot (ra : RegIdx) (b : Opnd) (rc : RegIdx) (s : State) : Host.Outcome State Fault Refusal :=
  runInstr .none (oprRecord s 0x11#6 0x28#7 ra b rc) exOrnot s

/-- XOR (R225). -/
def exXor : Executor := pureExec fun a b => a ^^^ b

/-- XOR under the sequencer. -/
def execXor (ra : RegIdx) (b : Opnd) (rc : RegIdx) (s : State) : Host.Outcome State Fault Refusal :=
  runInstr .none (oprRecord s 0x11#6 0x40#7 ra b rc) exXor s

/-- EQV (R226). -/
def exEqv : Executor := pureExec fun a b => a ^^^ ~~~b

/-- EQV under the sequencer. -/
def execEqv (ra : RegIdx) (b : Opnd) (rc : RegIdx) (s : State) : Host.Outcome State Fault Refusal :=
  runInstr .none (oprRecord s 0x11#6 0x48#7 ra b rc) exEqv s

/-! ### Shifts -/

/-- SLL (R227). -/
def exSll : Executor := pureExec fun a b => a <<< shiftAmount b

/-- SLL under the sequencer. -/
def execSll (ra : RegIdx) (b : Opnd) (rc : RegIdx) (s : State) : Host.Outcome State Fault Refusal :=
  runInstr .none (oprRecord s 0x12#6 0x39#7 ra b rc) exSll s

/-- SRL (R228). -/
def exSrl : Executor := pureExec fun a b => a >>> shiftAmount b

/-- SRL under the sequencer. -/
def execSrl (ra : RegIdx) (b : Opnd) (rc : RegIdx) (s : State) : Host.Outcome State Fault Refusal :=
  runInstr .none (oprRecord s 0x12#6 0x34#7 ra b rc) exSrl s

/-- SRA (R229). -/
def exSra : Executor := pureExec fun a b => a.sshiftRight (shiftAmount b)

/-- SRA under the sequencer. -/
def execSra (ra : RegIdx) (b : Opnd) (rc : RegIdx) (s : State) : Host.Outcome State Fault Refusal :=
  runInstr .none (oprRecord s 0x12#6 0x3C#7 ra b rc) exSra s

/-! ### Conditional moves -/

/-- CMOVEQ (R231). -/
def exCmoveq : Executor := cmovExec fun a => a == 0

/-- CMOVEQ under the sequencer. -/
def execCmoveq (ra : RegIdx) (b : Opnd) (rc : RegIdx) (s : State) : Host.Outcome State Fault Refusal :=
  runInstr .none (oprRecord s 0x11#6 0x24#7 ra b rc) exCmoveq s

/-- CMOVNE (R232). -/
def exCmovne : Executor := cmovExec fun a => a != 0

/-- CMOVNE under the sequencer. -/
def execCmovne (ra : RegIdx) (b : Opnd) (rc : RegIdx) (s : State) : Host.Outcome State Fault Refusal :=
  runInstr .none (oprRecord s 0x11#6 0x26#7 ra b rc) exCmovne s

/-- CMOVLT (R233). -/
def exCmovlt : Executor := cmovExec fun a => a.msb

/-- CMOVLT under the sequencer. -/
def execCmovlt (ra : RegIdx) (b : Opnd) (rc : RegIdx) (s : State) : Host.Outcome State Fault Refusal :=
  runInstr .none (oprRecord s 0x11#6 0x44#7 ra b rc) exCmovlt s

/-- CMOVGE (R234). -/
def exCmovge : Executor := cmovExec fun a => !a.msb

/-- CMOVGE under the sequencer. -/
def execCmovge (ra : RegIdx) (b : Opnd) (rc : RegIdx) (s : State) : Host.Outcome State Fault Refusal :=
  runInstr .none (oprRecord s 0x11#6 0x46#7 ra b rc) exCmovge s

/-- CMOVLE (R235). -/
def exCmovle : Executor := cmovExec fun a => a.msb || a == 0

/-- CMOVLE under the sequencer. -/
def execCmovle (ra : RegIdx) (b : Opnd) (rc : RegIdx) (s : State) : Host.Outcome State Fault Refusal :=
  runInstr .none (oprRecord s 0x11#6 0x64#7 ra b rc) exCmovle s

/-- CMOVGT (R236). -/
def exCmovgt : Executor := cmovExec fun a => !a.msb && a != 0

/-- CMOVGT under the sequencer. -/
def execCmovgt (ra : RegIdx) (b : Opnd) (rc : RegIdx) (s : State) : Host.Outcome State Fault Refusal :=
  runInstr .none (oprRecord s 0x11#6 0x66#7 ra b rc) exCmovgt s

/-- CMOVLBS (R237). -/
def exCmovlbs : Executor := cmovExec fun a => a.getLsbD 0

/-- CMOVLBS under the sequencer. -/
def execCmovlbs (ra : RegIdx) (b : Opnd) (rc : RegIdx) (s : State) : Host.Outcome State Fault Refusal :=
  runInstr .none (oprRecord s 0x11#6 0x14#7 ra b rc) exCmovlbs s

/-- CMOVLBC (R238). -/
def exCmovlbc : Executor := cmovExec fun a => !a.getLsbD 0

/-- CMOVLBC under the sequencer. -/
def execCmovlbc (ra : RegIdx) (b : Opnd) (rc : RegIdx) (s : State) : Host.Outcome State Fault Refusal :=
  runInstr .none (oprRecord s 0x11#6 0x16#7 ra b rc) exCmovlbc s

end Sys2Proof.Machine
end

