-- ==== Sys2Proof/Machine/Misc.lean ====
section
/-!
DEFINITION. RC and RS (47_misc). The flag is read and written at dispatch (R420, R421).
-/

namespace Sys2Proof.Machine

/-! ### The VAX compatibility flag -/

/-- RC (R420). -/
def exRc : Executor := fun s r => doneWith (s.setIntrFlag false) r (boolWord s.cpu.intrFlag)

/-- RC under the sequencer. -/
def execRc (ra _rb : RegIdx) (s : State) : Host.Outcome State Fault Refusal :=
  runInstr .none (mfcRecord s 0x18#6 0xE000#16 ra) exRc s

/-- RS (R421). -/
def exRs : Executor := fun s r => doneWith (s.setIntrFlag true) r (boolWord s.cpu.intrFlag)

/-- RS under the sequencer. -/
def execRs (ra _rb : RegIdx) (s : State) : Host.Outcome State Fault Refusal :=
  runInstr .none (mfcRecord s 0x18#6 0xF000#16 ra) exRs s

end Sys2Proof.Machine
end

