-- ==== Sys2Proof/Machine/Multimedia.lean ====
section
/-!
DEFINITION. Lane-wise instructions (44_multimedia). Lane 0 is the least significant.
-/

namespace Sys2Proof.Machine

/-! ### Lane functions (R300) -/

/-- The lane that a comparison picks, `a`'s if it holds (R301 to R308). -/
def pick {n : Nat} (le : BitVec n → BitVec n → Bool) (a b : BitVec n) : BitVec n := if le a b then a else b

def byteLanes (le : Byte → Byte → Bool) (a b : Word) : Word := ofBytes fun i => pick le (byteOf a i) (byteOf b i)
def wordLanes (le : BitVec 16 → BitVec 16 → Bool) (a b : Word) : Word :=
  ofWords fun j => pick le (wordOf a j) (wordOf b j)

/-- `|byte(A, i) - byte(B, i)|`, exact (R309). -/
def byteDistance (a b : Word) (i : Nat) : Nat :=
  ((byteOf a i).toNat - (byteOf b i).toNat) + ((byteOf b i).toNat - (byteOf a i).toNat)

/-- The sum of the eight byte distances (R309). -/
def pixelError (a b : Word) : Word :=
  BitVec.ofNat 64 (byteDistance a b 0 + byteDistance a b 1 + byteDistance a b 2 + byteDistance a b 3 +
    byteDistance a b 4 + byteDistance a b 5 + byteDistance a b 6 + byteDistance a b 7)

/-! ### Minimum and maximum -/

/-- MINUB8 (R301). -/
def exMinub8 : Executor := pureExec fun a b => byteLanes (fun u v => u.ule v) a b

/-- MINUB8 under the sequencer. -/
def execMinub8 (ra : RegIdx) (b : Opnd) (rc : RegIdx) (s : State) : Host.Outcome State Fault Refusal :=
  runInstr .none (oprRecord s 0x1C#6 0x3A#7 ra b rc) exMinub8 s

/-- MINSB8 (R302). -/
def exMinsb8 : Executor := pureExec fun a b => byteLanes (fun u v => u.sle v) a b

/-- MINSB8 under the sequencer. -/
def execMinsb8 (ra : RegIdx) (b : Opnd) (rc : RegIdx) (s : State) : Host.Outcome State Fault Refusal :=
  runInstr .none (oprRecord s 0x1C#6 0x38#7 ra b rc) exMinsb8 s

/-- MINUW4 (R303). -/
def exMinuw4 : Executor := pureExec fun a b => wordLanes (fun u v => u.ule v) a b

/-- MINUW4 under the sequencer. -/
def execMinuw4 (ra : RegIdx) (b : Opnd) (rc : RegIdx) (s : State) : Host.Outcome State Fault Refusal :=
  runInstr .none (oprRecord s 0x1C#6 0x3B#7 ra b rc) exMinuw4 s

/-- MINSW4 (R304). -/
def exMinsw4 : Executor := pureExec fun a b => wordLanes (fun u v => u.sle v) a b

/-- MINSW4 under the sequencer. -/
def execMinsw4 (ra : RegIdx) (b : Opnd) (rc : RegIdx) (s : State) : Host.Outcome State Fault Refusal :=
  runInstr .none (oprRecord s 0x1C#6 0x39#7 ra b rc) exMinsw4 s

/-- MAXUB8 (R305). -/
def exMaxub8 : Executor := pureExec fun a b => byteLanes (fun u v => v.ule u) a b

/-- MAXUB8 under the sequencer. -/
def execMaxub8 (ra : RegIdx) (b : Opnd) (rc : RegIdx) (s : State) : Host.Outcome State Fault Refusal :=
  runInstr .none (oprRecord s 0x1C#6 0x3C#7 ra b rc) exMaxub8 s

/-- MAXSB8 (R306). -/
def exMaxsb8 : Executor := pureExec fun a b => byteLanes (fun u v => v.sle u) a b

/-- MAXSB8 under the sequencer. -/
def execMaxsb8 (ra : RegIdx) (b : Opnd) (rc : RegIdx) (s : State) : Host.Outcome State Fault Refusal :=
  runInstr .none (oprRecord s 0x1C#6 0x3E#7 ra b rc) exMaxsb8 s

/-- MAXUW4 (R307). -/
def exMaxuw4 : Executor := pureExec fun a b => wordLanes (fun u v => v.ule u) a b

/-- MAXUW4 under the sequencer. -/
def execMaxuw4 (ra : RegIdx) (b : Opnd) (rc : RegIdx) (s : State) : Host.Outcome State Fault Refusal :=
  runInstr .none (oprRecord s 0x1C#6 0x3D#7 ra b rc) exMaxuw4 s

/-- MAXSW4 (R308). -/
def exMaxsw4 : Executor := pureExec fun a b => wordLanes (fun u v => v.sle u) a b

/-- MAXSW4 under the sequencer. -/
def execMaxsw4 (ra : RegIdx) (b : Opnd) (rc : RegIdx) (s : State) : Host.Outcome State Fault Refusal :=
  runInstr .none (oprRecord s 0x1C#6 0x3F#7 ra b rc) exMaxsw4 s

/-! ### Pixel error -/

/-- PERR (R309). -/
def exPerr : Executor := pureExec fun a b => pixelError a b

/-- PERR under the sequencer. -/
def execPerr (ra : RegIdx) (b : Opnd) (rc : RegIdx) (s : State) : Host.Outcome State Fault Refusal :=
  runInstr .none (oprRecord s 0x1C#6 0x31#7 ra b rc) exPerr s

/-! ### Pack and unpack -/

/-- PKLB (R310). -/
def exPklb : Executor := pureExec fun _ b => ofBytes fun i => if i < 2 then byteOf b (4 * i) else 0

/-- PKLB under the sequencer. -/
def execPklb (ra : RegIdx) (b : Opnd) (rc : RegIdx) (s : State) : Host.Outcome State Fault Refusal :=
  runInstr .none (oprRecord s 0x1C#6 0x37#7 ra b rc) exPklb s

/-- PKWB (R311). -/
def exPkwb : Executor := pureExec fun _ b => ofBytes fun i => if i < 4 then byteOf b (2 * i) else 0

/-- PKWB under the sequencer. -/
def execPkwb (ra : RegIdx) (b : Opnd) (rc : RegIdx) (s : State) : Host.Outcome State Fault Refusal :=
  runInstr .none (oprRecord s 0x1C#6 0x36#7 ra b rc) exPkwb s

/-- UNPKBL (R312). -/
def exUnpkbl : Executor := pureExec fun _ b => ofLongs fun k => (byteOf b k).setWidth 32

/-- UNPKBL under the sequencer. -/
def execUnpkbl (ra : RegIdx) (b : Opnd) (rc : RegIdx) (s : State) : Host.Outcome State Fault Refusal :=
  runInstr .none (oprRecord s 0x1C#6 0x35#7 ra b rc) exUnpkbl s

/-- UNPKBW (R313). -/
def exUnpkbw : Executor := pureExec fun _ b => ofWords fun j => (byteOf b j).setWidth 16

/-- UNPKBW under the sequencer. -/
def execUnpkbw (ra : RegIdx) (b : Opnd) (rc : RegIdx) (s : State) : Host.Outcome State Fault Refusal :=
  runInstr .none (oprRecord s 0x1C#6 0x34#7 ra b rc) exUnpkbw s

end Sys2Proof.Machine
end

