-- ==== Sys2Proof/Machine/Dispatch.lean ====
section
/-!
DEFINITION. One arm per instruction, each one direct call of its meaning.
-/

namespace Sys2Proof.Machine

def exec (i : Instr) (s : State) : Host.Outcome State Fault Refusal :=
  match i with
  | .lda ra rb disp => Sys2Proof.Machine.execLda ra rb disp s
  | .ldah ra rb disp => Sys2Proof.Machine.execLdah ra rb disp s
  | .ldbu ra rb disp => Sys2Proof.Machine.execLdbu ra rb disp s
  | .ldq_u ra rb disp => Sys2Proof.Machine.execLdqU ra rb disp s
  | .ldwu ra rb disp => Sys2Proof.Machine.execLdwu ra rb disp s
  | .stw ra rb disp => Sys2Proof.Machine.execStw ra rb disp s
  | .stb ra rb disp => Sys2Proof.Machine.execStb ra rb disp s
  | .stq_u ra rb disp => Sys2Proof.Machine.execStqU ra rb disp s
  | .ldl ra rb disp => Sys2Proof.Machine.execLdl ra rb disp s
  | .ldq ra rb disp => Sys2Proof.Machine.execLdq ra rb disp s
  | .ldl_l ra rb disp => Sys2Proof.Machine.execLdlL ra rb disp s
  | .ldq_l ra rb disp => Sys2Proof.Machine.execLdqL ra rb disp s
  | .stl ra rb disp => Sys2Proof.Machine.execStl ra rb disp s
  | .stq ra rb disp => Sys2Proof.Machine.execStq ra rb disp s
  | .stl_c ra rb disp => Sys2Proof.Machine.execStlC ra rb disp s
  | .stq_c ra rb disp => Sys2Proof.Machine.execStqC ra rb disp s
  | .addl ra b rc => Sys2Proof.Machine.execAddl ra b rc s
  | .s4addl ra b rc => Sys2Proof.Machine.execS4addl ra b rc s
  | .subl ra b rc => Sys2Proof.Machine.execSubl ra b rc s
  | .s4subl ra b rc => Sys2Proof.Machine.execS4subl ra b rc s
  | .cmpbge ra b rc => Sys2Proof.Machine.execCmpbge ra b rc s
  | .s8addl ra b rc => Sys2Proof.Machine.execS8addl ra b rc s
  | .s8subl ra b rc => Sys2Proof.Machine.execS8subl ra b rc s
  | .cmpult ra b rc => Sys2Proof.Machine.execCmpult ra b rc s
  | .addq ra b rc => Sys2Proof.Machine.execAddq ra b rc s
  | .s4addq ra b rc => Sys2Proof.Machine.execS4addq ra b rc s
  | .subq ra b rc => Sys2Proof.Machine.execSubq ra b rc s
  | .s4subq ra b rc => Sys2Proof.Machine.execS4subq ra b rc s
  | .cmpeq ra b rc => Sys2Proof.Machine.execCmpeq ra b rc s
  | .s8addq ra b rc => Sys2Proof.Machine.execS8addq ra b rc s
  | .s8subq ra b rc => Sys2Proof.Machine.execS8subq ra b rc s
  | .cmpule ra b rc => Sys2Proof.Machine.execCmpule ra b rc s
  | .addl_v ra b rc => Sys2Proof.Machine.execAddlV ra b rc s
  | .subl_v ra b rc => Sys2Proof.Machine.execSublV ra b rc s
  | .cmplt ra b rc => Sys2Proof.Machine.execCmplt ra b rc s
  | .addq_v ra b rc => Sys2Proof.Machine.execAddqV ra b rc s
  | .subq_v ra b rc => Sys2Proof.Machine.execSubqV ra b rc s
  | .cmple ra b rc => Sys2Proof.Machine.execCmple ra b rc s
  | .and ra b rc => Sys2Proof.Machine.execAnd ra b rc s
  | .bic ra b rc => Sys2Proof.Machine.execBic ra b rc s
  | .cmovlbs ra b rc => Sys2Proof.Machine.execCmovlbs ra b rc s
  | .cmovlbc ra b rc => Sys2Proof.Machine.execCmovlbc ra b rc s
  | .bis ra b rc => Sys2Proof.Machine.execBis ra b rc s
  | .cmoveq ra b rc => Sys2Proof.Machine.execCmoveq ra b rc s
  | .cmovne ra b rc => Sys2Proof.Machine.execCmovne ra b rc s
  | .ornot ra b rc => Sys2Proof.Machine.execOrnot ra b rc s
  | .xor ra b rc => Sys2Proof.Machine.execXor ra b rc s
  | .cmovlt ra b rc => Sys2Proof.Machine.execCmovlt ra b rc s
  | .cmovge ra b rc => Sys2Proof.Machine.execCmovge ra b rc s
  | .eqv ra b rc => Sys2Proof.Machine.execEqv ra b rc s
  | .cmovle ra b rc => Sys2Proof.Machine.execCmovle ra b rc s
  | .cmovgt ra b rc => Sys2Proof.Machine.execCmovgt ra b rc s
  | .mskbl ra b rc => Sys2Proof.Machine.execMskbl ra b rc s
  | .extbl ra b rc => Sys2Proof.Machine.execExtbl ra b rc s
  | .insbl ra b rc => Sys2Proof.Machine.execInsbl ra b rc s
  | .mskwl ra b rc => Sys2Proof.Machine.execMskwl ra b rc s
  | .extwl ra b rc => Sys2Proof.Machine.execExtwl ra b rc s
  | .inswl ra b rc => Sys2Proof.Machine.execInswl ra b rc s
  | .mskll ra b rc => Sys2Proof.Machine.execMskll ra b rc s
  | .extll ra b rc => Sys2Proof.Machine.execExtll ra b rc s
  | .insll ra b rc => Sys2Proof.Machine.execInsll ra b rc s
  | .zap ra b rc => Sys2Proof.Machine.execZap ra b rc s
  | .zapnot ra b rc => Sys2Proof.Machine.execZapnot ra b rc s
  | .mskql ra b rc => Sys2Proof.Machine.execMskql ra b rc s
  | .srl ra b rc => Sys2Proof.Machine.execSrl ra b rc s
  | .extql ra b rc => Sys2Proof.Machine.execExtql ra b rc s
  | .sll ra b rc => Sys2Proof.Machine.execSll ra b rc s
  | .insql ra b rc => Sys2Proof.Machine.execInsql ra b rc s
  | .sra ra b rc => Sys2Proof.Machine.execSra ra b rc s
  | .mskwh ra b rc => Sys2Proof.Machine.execMskwh ra b rc s
  | .inswh ra b rc => Sys2Proof.Machine.execInswh ra b rc s
  | .extwh ra b rc => Sys2Proof.Machine.execExtwh ra b rc s
  | .msklh ra b rc => Sys2Proof.Machine.execMsklh ra b rc s
  | .inslh ra b rc => Sys2Proof.Machine.execInslh ra b rc s
  | .extlh ra b rc => Sys2Proof.Machine.execExtlh ra b rc s
  | .mskqh ra b rc => Sys2Proof.Machine.execMskqh ra b rc s
  | .insqh ra b rc => Sys2Proof.Machine.execInsqh ra b rc s
  | .extqh ra b rc => Sys2Proof.Machine.execExtqh ra b rc s
  | .mull ra b rc => Sys2Proof.Machine.execMull ra b rc s
  | .mulq ra b rc => Sys2Proof.Machine.execMulq ra b rc s
  | .umulh ra b rc => Sys2Proof.Machine.execUmulh ra b rc s
  | .mull_v ra b rc => Sys2Proof.Machine.execMullV ra b rc s
  | .mulq_v ra b rc => Sys2Proof.Machine.execMulqV ra b rc s
  | .sextb ra b rc => Sys2Proof.Machine.execSextb ra b rc s
  | .sextw ra b rc => Sys2Proof.Machine.execSextw ra b rc s
  | .perr ra b rc => Sys2Proof.Machine.execPerr ra b rc s
  | .ctlz ra b rc => Sys2Proof.Machine.execCtlz ra b rc s
  | .cttz ra b rc => Sys2Proof.Machine.execCttz ra b rc s
  | .unpkbw ra b rc => Sys2Proof.Machine.execUnpkbw ra b rc s
  | .unpkbl ra b rc => Sys2Proof.Machine.execUnpkbl ra b rc s
  | .pkwb ra b rc => Sys2Proof.Machine.execPkwb ra b rc s
  | .pklb ra b rc => Sys2Proof.Machine.execPklb ra b rc s
  | .minsb8 ra b rc => Sys2Proof.Machine.execMinsb8 ra b rc s
  | .minsw4 ra b rc => Sys2Proof.Machine.execMinsw4 ra b rc s
  | .minub8 ra b rc => Sys2Proof.Machine.execMinub8 ra b rc s
  | .minuw4 ra b rc => Sys2Proof.Machine.execMinuw4 ra b rc s
  | .maxub8 ra b rc => Sys2Proof.Machine.execMaxub8 ra b rc s
  | .maxuw4 ra b rc => Sys2Proof.Machine.execMaxuw4 ra b rc s
  | .maxsb8 ra b rc => Sys2Proof.Machine.execMaxsb8 ra b rc s
  | .maxsw4 ra b rc => Sys2Proof.Machine.execMaxsw4 ra b rc s
  | .addf fa fb fc trp rnd => Sys2Proof.Machine.execAddf fa fb fc trp rnd s
  | .mulf fa fb fc trp rnd => Sys2Proof.Machine.execMulf fa fb fc trp rnd s
  | .addg fa fb fc trp rnd => Sys2Proof.Machine.execAddg fa fb fc trp rnd s
  | .mulg fa fb fc trp rnd => Sys2Proof.Machine.execMulg fa fb fc trp rnd s
  | .adds fa fb fc trp rnd => Sys2Proof.Machine.execAdds fa fb fc trp rnd s
  | .muls fa fb fc trp rnd => Sys2Proof.Machine.execMuls fa fb fc trp rnd s
  | .addt fa fb fc trp rnd => Sys2Proof.Machine.execAddt fa fb fc trp rnd s
  | .mult fa fb fc trp rnd => Sys2Proof.Machine.execMult fa fb fc trp rnd s
  | .cvtlq fa fb fc => Sys2Proof.Machine.execCvtlq fa fb fc s
  | .cpys fa fb fc => Sys2Proof.Machine.execCpys fa fb fc s
  | .cpysn fa fb fc => Sys2Proof.Machine.execCpysn fa fb fc s
  | .cpyse fa fb fc => Sys2Proof.Machine.execCpyse fa fb fc s
  | .mt_fpcr fa fb fc => Sys2Proof.Machine.execMtFpcr fa fb fc s
  | .mf_fpcr fa fb fc => Sys2Proof.Machine.execMfFpcr fa fb fc s
  | .fcmoveq fa fb fc => Sys2Proof.Machine.execFcmoveq fa fb fc s
  | .fcmovne fa fb fc => Sys2Proof.Machine.execFcmovne fa fb fc s
  | .fcmovlt fa fb fc => Sys2Proof.Machine.execFcmovlt fa fb fc s
  | .fcmovge fa fb fc => Sys2Proof.Machine.execFcmovge fa fb fc s
  | .fcmovle fa fb fc => Sys2Proof.Machine.execFcmovle fa fb fc s
  | .fcmovgt fa fb fc => Sys2Proof.Machine.execFcmovgt fa fb fc s
  | .cvtql fa fb fc => Sys2Proof.Machine.execCvtql fa fb fc s
  | .cvtql_v fa fb fc => Sys2Proof.Machine.execCvtqlV fa fb fc s
  | .cvtql_sv fa fb fc => Sys2Proof.Machine.execCvtqlSv fa fb fc s
  | .rc ra rb => Sys2Proof.Machine.execRc ra rb s
  | .rs ra rb => Sys2Proof.Machine.execRs ra rb s

end Sys2Proof.Machine
end

