-- ==== Sys2Proof/Machine/Fetch.lean ====
section
/-!
DEFINITION. Where the sequencer takes its next word from: its list of words, else the instruction side of the
block (70_reset_and_hazards R540, 49_cache R461, 20_memory R71, R77).
-/

namespace Sys2Proof.Machine

/-- What a fetch yields: a word, or the outcome of the instruction-side translation. -/
inductive Fetched where
  | word (w : InstrWord)
  | fault (o : ExceptionOutcome)
  deriving DecidableEq, Repr

/-- The address fetched from: bits 1:0 are ignored (20_memory R80). -/
def fetchAddress (pc : Word) : Word := pc &&& ~~~3#64

/-- `icache_fetch`, with an `icache_fill` between if it misses (49_cache R461). -/
def fetchThroughIcache (s : State) (pa : PhysAddr) : Except Refusal (Fetched × State) := do
  match ← s.mem.icacheFetch s.cfg pa with
  | some w => .ok (.word w, s)
  | none =>
    let m ← s.mem.icacheFill s.cfg (lineOf pa)
    match ← m.icacheFetch s.cfg pa with
    | some w => .ok (.word w, s.withMem m)
    | none => .error .writeInvalid

/-- The word at `pc` (70 R540): the list's, and where the list has none, also past its end, the instruction side's
(DESIGN CHOICE, log 10). -/
def fetchWord (s : State) : Except Refusal (Fetched × State) :=
  match Table.at? s.program (fetchAddress s.pc).toNat with
  | some w => .ok (.word w, s)
  | none => do
    let (t, s1) ← translate s (fetchAddress s.pc) .instr .fetch
    match t with
    | .fault o => .ok (.fault o, s1)
    | .ok pa => fetchThroughIcache s1 pa

end Sys2Proof.Machine
end

