-- ==== Sys2Proof/Machine/Predictor.lean ====
section
/-!
DEFINITION. The two-level branch predictor (48_branch_predictor).
-/

namespace Sys2Proof.Machine

/-! ### Counters (R432, R433) -/

def inc2 (v : BitVec 2) : BitVec 2 := if v = 3 then 3 else v + 1
def dec2 (v : BitVec 2) : BitVec 2 := if v = 0 then 0 else v - 1
def taken2 (v : BitVec 2) : Bool := decide (2 ≤ v.toNat)

/-- `inc3`; under `hysteresis` 3 goes to 7 (R433). -/
def inc3 (u : Ctr3Update) (v : BitVec 3) : BitVec 3 :=
  if v = 7 then 7 else if u = .hysteresis ∧ v = 3 then 7 else v + 1

/-- `dec3`; under `hysteresis` 4 goes to 0 (R433). -/
def dec3 (u : Ctr3Update) (v : BitVec 3) : BitVec 3 :=
  if v = 0 then 0 else if u = .hysteresis ∧ v = 4 then 0 else v - 1

def taken3 (v : BitVec 3) : Bool := decide (4 ≤ v.toNat)

/-- `shift(h, t, n)` (R435). -/
def shiftHistory {n : Nat} (h : BitVec n) (taken : Bool) : BitVec n := (h <<< 1) ||| (BitVec.ofBool taken).setWidth n

/-! ### Indices and entries (R431) -/

/-- `PC_INDEX`: `pc[11:2]`. -/
def localIndex (pc : Word) : Nat := (pc.extractLsb' 2 10).toNat

/-- The local history of a branch. -/
def Predictor.history (p : Predictor) (pc : Word) : BitVec 10 := Table.atD p.lht 0 (localIndex pc)

def Predictor.localCounter (p : Predictor) (pc : Word) : BitVec 3 := Table.atD p.lpt 0 (p.history pc).toNat
def Predictor.globalCounter (p : Predictor) : BitVec 2 := Table.atD p.gpt 0 p.gph.toNat
def Predictor.choiceCounter (p : Predictor) : BitVec 2 := Table.atD p.cpt 0 p.gph.toNat

/-! ### Predict and train -/

/-- The four outputs of `predict` (R436). -/
structure Prediction where
  overall : Bool
  localTaken : Bool
  globalTaken : Bool
  choice : Bool
  deriving DecidableEq, Repr

/-- `overall` by the predictor mode (R437). -/
def arbitrate (predMode : Nat) (localTaken globalTaken choice : Bool) : Bool :=
  match predMode with
  | 0 => if localTaken == globalTaken then localTaken else if choice then globalTaken else localTaken
  | 1 => localTaken
  | _ => false

/-- `predict(pc)` (R436). -/
def Predictor.predict (p : Predictor) (predMode : Nat) (pc : Word) : Prediction :=
  let l := taken3 (p.localCounter pc)
  let g := taken2 p.globalCounter
  let c := taken2 p.choiceCounter
  ⟨arbitrate predMode l g c, l, g, c⟩

/-- The choice counter after a branch (R438): touched only when the two predictions differ. -/
def trainedChoice (v : BitVec 2) (taken localPredicted globalPredicted : Bool) : BitVec 2 :=
  if localPredicted == globalPredicted then v
  else if globalPredicted == taken then inc2 v
  else dec2 v

/-- `train(pc, taken, local, global)` (R438): every index is read before any update. -/
def Predictor.train (p : Predictor) (u : Ctr3Update) (pc : Word) (taken localPredicted globalPredicted : Bool) :
    Predictor where
  lht := Table.putD p.lht 0 (localIndex pc) (shiftHistory (p.history pc) taken)
  lpt := Table.putD p.lpt 0 (p.history pc).toNat
    (if taken then inc3 u (p.localCounter pc) else dec3 u (p.localCounter pc))
  gpt := Table.putD p.gpt 0 p.gph.toNat (if taken then inc2 p.globalCounter else dec2 p.globalCounter)
  cpt := Table.putD p.cpt 0 p.gph.toNat (trainedChoice p.choiceCounter taken localPredicted globalPredicted)
  gph := shiftHistory p.gph taken

end Sys2Proof.Machine
end

