-- ==== Sys2Proof/Machine/Select.lean ====
section
/-!
DEFINITION. "Each opcode maps to one function" (00_scope R10): the executor a record's opcode and function
select, through the decoder (30_encoding R130, R143).
-/

namespace Sys2Proof.Machine

/-- The executor of an instruction. -/
def executorOf : Instr → Executor
  | .lda .. => exLda
  | .ldah .. => exLdah
  | .ldbu .. => exLdbu
  | .ldq_u .. => exLdqU
  | .ldwu .. => exLdwu
  | .stw .. => exStw
  | .stb .. => exStb
  | .stq_u .. => exStqU
  | .ldl .. => exLdl
  | .ldq .. => exLdq
  | .ldl_l .. => exLdlL
  | .ldq_l .. => exLdqL
  | .stl .. => exStl
  | .stq .. => exStq
  | .stl_c .. => exStlC
  | .stq_c .. => exStqC
  | .addl .. => exAddl
  | .s4addl .. => exS4addl
  | .subl .. => exSubl
  | .s4subl .. => exS4subl
  | .cmpbge .. => exCmpbge
  | .s8addl .. => exS8addl
  | .s8subl .. => exS8subl
  | .cmpult .. => exCmpult
  | .addq .. => exAddq
  | .s4addq .. => exS4addq
  | .subq .. => exSubq
  | .s4subq .. => exS4subq
  | .cmpeq .. => exCmpeq
  | .s8addq .. => exS8addq
  | .s8subq .. => exS8subq
  | .cmpule .. => exCmpule
  | .addl_v .. => exAddlV
  | .subl_v .. => exSublV
  | .cmplt .. => exCmplt
  | .addq_v .. => exAddqV
  | .subq_v .. => exSubqV
  | .cmple .. => exCmple
  | .and .. => exAnd
  | .bic .. => exBic
  | .cmovlbs .. => exCmovlbs
  | .cmovlbc .. => exCmovlbc
  | .bis .. => exBis
  | .cmoveq .. => exCmoveq
  | .cmovne .. => exCmovne
  | .ornot .. => exOrnot
  | .xor .. => exXor
  | .cmovlt .. => exCmovlt
  | .cmovge .. => exCmovge
  | .eqv .. => exEqv
  | .cmovle .. => exCmovle
  | .cmovgt .. => exCmovgt
  | .mskbl .. => exMskbl
  | .extbl .. => exExtbl
  | .insbl .. => exInsbl
  | .mskwl .. => exMskwl
  | .extwl .. => exExtwl
  | .inswl .. => exInswl
  | .mskll .. => exMskll
  | .extll .. => exExtll
  | .insll .. => exInsll
  | .zap .. => exZap
  | .zapnot .. => exZapnot
  | .mskql .. => exMskql
  | .srl .. => exSrl
  | .extql .. => exExtql
  | .sll .. => exSll
  | .insql .. => exInsql
  | .sra .. => exSra
  | .mskwh .. => exMskwh
  | .inswh .. => exInswh
  | .extwh .. => exExtwh
  | .msklh .. => exMsklh
  | .inslh .. => exInslh
  | .extlh .. => exExtlh
  | .mskqh .. => exMskqh
  | .insqh .. => exInsqh
  | .extqh .. => exExtqh
  | .mull .. => exMull
  | .mulq .. => exMulq
  | .umulh .. => exUmulh
  | .mull_v .. => exMullV
  | .mulq_v .. => exMulqV
  | .sextb .. => exSextb
  | .sextw .. => exSextw
  | .perr .. => exPerr
  | .ctlz .. => exCtlz
  | .cttz .. => exCttz
  | .unpkbw .. => exUnpkbw
  | .unpkbl .. => exUnpkbl
  | .pkwb .. => exPkwb
  | .pklb .. => exPklb
  | .minsb8 .. => exMinsb8
  | .minsw4 .. => exMinsw4
  | .minub8 .. => exMinub8
  | .minuw4 .. => exMinuw4
  | .maxub8 .. => exMaxub8
  | .maxuw4 .. => exMaxuw4
  | .maxsb8 .. => exMaxsb8
  | .maxsw4 .. => exMaxsw4
  | .addf .. => exAddf
  | .mulf .. => exMulf
  | .addg .. => exAddg
  | .mulg .. => exMulg
  | .adds .. => exAdds
  | .muls .. => exMuls
  | .addt .. => exAddt
  | .mult .. => exMult
  | .cvtlq .. => exCvtlq
  | .cpys .. => exCpys
  | .cpysn .. => exCpysn
  | .cpyse .. => exCpyse
  | .mt_fpcr .. => exMtFpcr
  | .mf_fpcr .. => exMfFpcr
  | .fcmoveq .. => exFcmoveq
  | .fcmovne .. => exFcmovne
  | .fcmovlt .. => exFcmovlt
  | .fcmovge .. => exFcmovge
  | .fcmovle .. => exFcmovle
  | .fcmovgt .. => exFcmovgt
  | .cvtql .. => exCvtql
  | .cvtql_v .. => exCvtqlV
  | .cvtql_sv .. => exCvtqlSv
  | .rc .. => exRc
  | .rs .. => exRs

/-- A word with this opcode and function and no operands, or none where the function has bits its format does
not carry (30_encoding R135, R136). -/
def selectWord (opcode : BitVec 6) (function : BitVec 16) : Option InstrWord :=
  if opcode = 0x10 ∨ opcode = 0x11 ∨ opcode = 0x12 ∨ opcode = 0x13 ∨ opcode = 0x1C then
    if function.toNat < 2 ^ 7 then some (encodeOpr opcode (function.setWidth 7) 31 (.reg 31) 31) else none
  else if opcode = 0x15 ∨ opcode = 0x16 ∨ opcode = 0x17 then
    if function.toNat < 2 ^ 11 then some (encodeFp opcode (function.setWidth 11) 31 31 31) else none
  else some (encodeMem opcode 31 31 function)

/-- The executor that `dispatch` selects (00_scope R10, 30_encoding R130). -/
def selectExecutor (opcode : BitVec 6) (function : BitVec 16) : Except Refusal Executor :=
  match selectWord opcode function with
  | none => .error (.noExecutor opcode function)
  | some w =>
    match decodeWord w with
    | .ok i => .ok (executorOf i)
    | .error _ => .error (.noExecutor opcode function)

end Sys2Proof.Machine
end

