-- ==== Sys2Proof/Machine/Transactions.lean ====
section
/-!
DEFINITION. The ports of the block and the acts of its collaborators, one function for each transaction
(00_scope R9). Each is atomic (70 R534).
-/

namespace Sys2Proof.Machine

/-! ### `dispatch` (00_scope R9, R10) -/

/-- `dispatch(I)` as a transaction: the record stays in flight until it is retired or discarded. Its
`lock_pending` and `clear_lock_pending` are the caller's, on any opcode, and `retire` commits them (DESIGN CHOICE,
log 37). Its register indices are the caller's too, whatever 30_encoding R137 gives for the opcode, and `retire`
commits `destv` to `a_dest` (DESIGN CHOICE, log 40). An id in flight is refused; one that was retired or discarded
before is accepted (DESIGN CHOICE, log 23). -/
def dispatchPort (s : State) (r : Record) : Except Refusal State := do
  if (Table.at? s.inflight r.id).isSome then .error (.duplicateId r.id)
  else if !destPreloaded s r then .error .destNotPreloaded
  else
    let ex ← selectExecutor r.opcode r.function
    let res ← dispatchRecord ex (s.withIds { s.ids with next := max s.ids.next (r.id + 1) }) r
    .ok ((res.st.withInflight (Table.put res.st.inflight r.id res.record)).withResult (.outcome res.out))

/-- The record of an id in flight. -/
def recordOf (s : State) (id : Nat) : Except Refusal Record :=
  match Table.at? s.inflight id with
  | some r => .ok r
  | none => .error (.unknownRecord id)

/-- `retire(I)` (20_memory R115): the record ceases to exist. -/
def retirePort (s : State) (id : Nat) : Except Refusal State := do
  let r ← recordOf s id
  let s1 ← retireRecord s r
  .ok (s1.withInflight (Table.del s1.inflight id))

/-- `discard(I)` (20_memory R116). -/
def discardPort (s : State) (id : Nat) : Except Refusal State := do
  let r ← recordOf s id
  let s1 ← discardRecord s r
  .ok (s1.withInflight (Table.del s1.inflight id))

/-! ### The Mbox's own step (20_memory R108, 70 R534) -/

/-- `lq_complete(s)`: the loaded value goes to the `destv` of the slot's record, if it still exists (log 33). -/
def lqCompletePort (s : State) (n : Nat) : Except Refusal State := do
  let (v, s1) ← completeSlot s n
  match (Table.at? s.lq n).bind fun q => Table.at? s.inflight q.instrId with
  | some r => .ok (s1.withInflight (Table.put s1.inflight r.id (r.setDest (complete r.completion v))))
  | none => .ok s1

/-- The step the block takes on its own (70 R534): of the slots of a load queue, the first that is `Pending` and
whose completion is enabled is completed; none if there is no such slot (which slot: DESIGN CHOICE, log 11). -/
def mboxStep (s : State) : Table LqSlot → Except Refusal (Option State)
  | [] => .ok none
  | (n, q) :: rest =>
    if q.state = .pending then
      match lqCompletePort s n with
      | .ok t => .ok (some t)
      | .error .completionNotEnabled => mboxStep s rest
      | .error e => .error e
    else mboxStep s rest

/-! ### Caches (49_cache) -/

/-- A data-side fill from outside keeps R464: (d) the line is clean, and (e) with `MP` false its bytes are the
backing store's (R455 gives a fill from the backing store `dirty` = 0; log 36). -/
def fillKeeps (s : State) (line : Nat) (data : Block) (dirty : Bool) : Except Refusal Unit :=
  if dirty then .error .fillDirty
  else if !s.cfg.mp && decide (data ≠ Memory.readBlock s.mem.store line) then .error .fillMismatch
  else .ok ()

/-- `fill` from outside. The Dcache and the Bcache stay exclusive (R464 b). -/
def fillPort (s : State) (c : CacheId) (line : Nat) (data : Block) (dirty shared : Bool) :
    Except Refusal State := do
  if shared && !s.cfg.mp then .error .notMultiprocessor
  else match c with
    | .icache =>
      let m ← s.mem.fillI s.cfg line data
      .ok (s.withMem m)
    | .dcache =>
      match ← s.mem.lookup s.cfg .bcache line with
      | some _ => .error .fillPresent
      | none =>
        fillKeeps s line data dirty
        let m ← s.mem.fillD s.cfg line data dirty shared
        .ok (s.withMem m)
    | .bcache =>
      if !s.cfg.bcPresent then .error .noBcache
      else match ← s.mem.lookup s.cfg .dcache line with
        | some _ => .error .fillPresent
        | none =>
          fillKeeps s line data dirty
          let m ← s.mem.fillB s.cfg line data dirty shared
          .ok (s.withMem m)

/-- `write` from outside, on a valid Dcache line (R457). -/
def writePort (s : State) (line off : Nat) (w : Width) (v : Word) : Except Refusal State := do
  match ← s.mem.lookup s.cfg .dcache line with
  | none => .error .writeInvalid
  | some (key, l) =>
    if off + w.bytes ≤ 64 then .ok (s.withMem (s.mem.writeLine key l off w v)) else .error .writeInvalid

/-! ### Configuration and reset (10_state R34, 49_cache R467, 70 R520) -/

/-- The input is in range, and a parameter that shapes a cache changes only while that cache holds no line
(R467; the Bcache's and `MP`'s share of this is DEDUCED, log 8). -/
def configAccepted (s : State) (c : Cfg) : Bool :=
  decide (c.bcSetBits ≤ Config.lineBits) &&
  (decide (c.icWays = s.cfg.icWays) || s.mem.icache.lines.isEmpty) &&
  (decide (c.dcWays = s.cfg.dcWays) || s.mem.dcache.lines.isEmpty) &&
  (decide (c.bcPresent = s.cfg.bcPresent ∧ c.bcSetBits = s.cfg.bcSetBits) || s.mem.bcache.lines.isEmpty) &&
  (decide (c.mp = s.cfg.mp) || (s.mem.dcache.lines.isEmpty && s.mem.bcache.lines.isEmpty))

/-- The configuration loader's transaction (R34). The spec has the input set before the first transaction (00_scope
R8); here it may come at any time (DESIGN CHOICE, log 8), and a new `FPCR_RESET` reaches `cpu.fpcr` at the next reset
transaction only (DESIGN CHOICE, log 6). -/
def configurePort (s : State) (c : ConfigInput) : Except Refusal State :=
  if configAccepted s c.cfg then
    .ok ((s.withCfg c.cfg).withCpu
      { s.cpu with bigEndian := c.bigEndian, asn := c.asn, spe := c.spe, predMode := c.predMode })
  else .error .configRejected

/-- The reset event (70 R520): block state only. Configuration, the sequencer, the register files, the backing
store and the model's own fields are not the block's (log 24). The lock addresses stay, unspecified. -/
def resetPort (s : State) : State where
  cfg := s.cfg
  cpu := { s.cpu with intrFlag := false, lockFlag := false, fpcr := s.cfg.fpcrReset &&& fpcrWritable,
                      mode := .kernel, asn := 0 }
  x := s.x
  f := s.f
  pc := s.pc
  ids := { next := s.ids.next, doneBelow := 0, memBelow := 0 }
  program := s.program
  stopped := s.stopped
  inflight := []
  pred := Predictor.reset
  itb := Tlb.reset
  dtb := Tlb.reset
  lq := []
  sq := []
  mem := { s.mem with icache := Cache.reset, dcache := Cache.reset, bcache := Cache.reset }
  agenda := s.agenda
  result := s.result

/-! ### All transactions -/

/-- The effect of one transaction other than `sequence`; an answer goes to `result`. With `BC_PRESENT` false, `lookup`,
`flush` and `invalidate` of the Bcache act as on a cache with no valid line, and are not refused (DESIGN CHOICE,
log 46). -/
def transact (t : Transaction) (s : State) : Except Refusal State :=
  match t with
  | .dispatch r => dispatchPort s r
  | .getLqSlot => do
    let (n, s1) ← getLqSlot s
    .ok (s1.withResult (.slot n))
  | .getSqSlot => do
    let (n, s1) ← getSqSlot s
    .ok (s1.withResult (.slot n))
  | .putLqSlot n => putLqSlot s n
  | .putSqSlot n => putSqSlot s n
  | .lqComplete n => lqCompletePort s n
  | .retire id => retirePort s id
  | .discard id => discardPort s id
  | .predict pc =>
    let p := s.pred.predict s.cpu.predMode pc
    .ok (s.withResult (.prediction p.overall p.localTaken p.globalTaken p.choice))
  | .train pc taken lp gp => .ok (s.withPred (s.pred.train s.cfg.ctr3 pc taken lp gp))
  -- from outside on side D too, with the DTB's miss flag (00_scope R9 names the instruction side; log 29); on side I
  -- bits 1:0 of the address pass into the answer (20_memory R92; log 29)
  | .translate va side kind => do
    let (a, s1) ← translate s va side kind
    .ok (s1.withResult (.translation a))
  | .addEntry .instr e => .ok (s.withItb (s.itb.addEntry e))
  | .addEntry .data e => .ok (s.withDtb (s.dtb.addEntry e))
  | .icacheFetch pa => do
    let w ← s.mem.icacheFetch s.cfg pa
    .ok (s.withResult (.word w))
  | .icacheFill la => do
    let m ← s.mem.icacheFill s.cfg (lineOf la)
    .ok (s.withMem m)
  | .lookup c la => do
    let l ← s.mem.lookup s.cfg c (lineOf la)
    .ok (s.withResult (.line (l.map Prod.snd)))
  | .fill c la data dirty shared => fillPort s c (lineOf la) data dirty shared
  | .write la off w v => writePort s (lineOf la) off w v
  | .flush c => .ok (s.withMem (s.mem.flush s.cfg c))
  -- whatever `MP` is (DESIGN CHOICE, log 41: 20_memory R123 and 49_cache R464 (e) set no condition, R468 and 93 U12 do)
  | .invalidate c pa => do
    let m ← s.mem.invalidate s.cfg c (lineOf pa)
    .ok (s.withMem m)
  | .configure input => configurePort s input
  | .setMode m => .ok (s.withCpu { s.cpu with mode := m })
  | .setAsn a => .ok (s.withCpu { s.cpu with asn := a })
  | .clearLock => if s.cfg.mp then .ok s.clearLockFlag else .error .notMultiprocessor
  | .storeWrite pa bytes =>
    if pa.toNat + bytes.length ≤ 2 ^ 44 then
      .ok (s.withMem { s.mem with store := Memory.writeBytes s.mem.store pa.toNat bytes })
    else .error .outsideMemory
  | .writeReg r v => .ok (s.writeReg r v)
  | .resume pc => .ok (returnFromException s pc)
  | .reset => .ok (resetPort s)
  | .sequence => .ok s

end Sys2Proof.Machine
end

