-- ==== Sys2Proof/Machine/Sequencer.lean ====
section
/-!
DEFINITION. The reference sequencer (70_reset_and_hazards R540): fetch, decode, run. BNE is evaluated here,
outside the block, with the Alpha architecture's semantics (program P4; PRESUMED, log 22).
-/

namespace Sys2Proof.Machine

/-- Major opcode of BNE (95_test_vectors, program P4). -/
def bneOpcode : BitVec 6 := 0x3D#6

/-- The 21-bit branch displacement, in instructions, as a byte offset. -/
def branchOffset (w : InstrWord) : Word := (w.extractLsb' 0 21).signExtend 64 <<< 2

/-- BNE: `predict` before, `train` after, then the target or the next instruction (R540). -/
def branchNotEqual (s : State) (w : InstrWord) : State :=
  let taken := s.readX (raField w) != 0
  let p := s.pred.predict s.cpu.predMode s.pc
  let s1 := s.withPred (s.pred.train s.cfg.ctr3 s.pc taken p.localTaken p.globalTaken)
  s1.withPc (if taken then s.pc + 4 + branchOffset w else s.pc + 4)

/-- The four bytes of a word in memory order. -/
def bytesOfWord (w : InstrWord) : List Byte := [byteOfWord w 0, byteOfWord w 1, byteOfWord w 2, byteOfWord w 3]

/-- The instruction a fetched word is. -/
def runWord (w : InstrWord) (s : State) : Host.Outcome State Fault Refusal :=
  if opcodeField w = bneOpcode then .next (branchNotEqual s w)
  else match decodeBytes (bytesOfWord w) with
    | .ok i => exec i s
    | .error _ => .refused (.undecodable w)

/-- The sequencer's turn when it has stopped (the agenda is empty, or its head was a `sequence`): the Mbox completes a pending load, since a run
with a slot still `Pending` is not finished (70 R534); else the run is at its end (log 11). -/
def stoppedStep (s : State) (o : ExceptionOutcome) : Host.Outcome State Fault Refusal :=
  match mboxStep s s.lq with
  | .error r => .refused r
  | .ok (some t) => .next t
  | .ok none =>
    if s.lq.any fun e => e.2.state == .pending then .fault (.loadsPending o) else .fault (.sequencerStopped o)

/-- One instruction of the sequencer; a stopped sequencer runs none (log 11), a fetch that translates to an
outcome stops it (log 12). -/
def sequencerStep (s : State) : Host.Outcome State Fault Refusal :=
  match s.stopped with
  | some o => stoppedStep s o
  | none =>
    match fetchWord s with
    | .error r => .refused r
    | .ok (.fault o, s1) => .next (s1.withStopped (some o))
    | .ok (.word w, s1) => runWord w s1

/-- The word list with one word placed at an address. -/
def placeWord (s : State) (a : Word) (w : InstrWord) : State :=
  s.withProgram (Table.put s.program (fetchAddress a).toNat w)

end Sys2Proof.Machine
end

