-- ==== Sys2Proof/Machine/Step.lean ====
section
/-!
DEFINITION. One step: the next pending transaction of a collaborator, or one instruction of the sequencer
(log 2).
-/

namespace Sys2Proof.Machine

/-- A `sequence` gives the sequencer its turn. Where the sequencer has stopped, the turn is a `stoppedStep`, which may
end the run with transactions, a `resume` among them, still behind it (DESIGN CHOICE, log 11). -/
def step (s : State) : Host.Outcome State Fault Refusal :=
  match s.agenda with
  | [] => sequencerStep s
  | .sequence :: rest => sequencerStep (s.withAgenda rest)
  | t :: rest => toOutcome (transact t (s.withAgenda rest))

/-- `s` with the instruction of `w` where the next step fetches it: in the sequencer's list at the program
counter, with no transaction pending and the sequencer not stopped (log 10). -/
def State.withFetchWord (s : State) (nbits w : Nat) : State :=
  placeWord ((s.withAgenda []).withStopped none) s.pc (BitVec.ofNat 32 (w % 2 ^ nbits))

end Sys2Proof.Machine
end

