-- ==== Sys2Proof/Safety.lean ====
section
/-!
DEFINITION. What a good state is, in the terms the statements use: the invariants of 10_state R36,
20_memory R90, 49_cache R464 and 60_exceptions R501, and what it means that a step does not stop.
-/

namespace Sys2Proof.Machine

/-! ### Caches (49_cache R464) -/

/-- One cache is well formed: keys rise and lie in range, every line stands in an enabled way with a tag in
range, two lines of one set have different tags (R464 a, R467), and the pointers are way numbers. -/
def Cache.wf (c : Cache) (b ways : Nat) : Prop :=
  Table.Sorted c.lines ∧ Table.Sorted c.rr ∧
  (∀ e ∈ c.lines, e.1 / 2 < 2 ^ b ∧ e.1 % 2 < ways ∧ e.2.tag < 2 ^ (Config.lineBits - b)) ∧
  (∀ e ∈ c.lines, ∀ e' ∈ c.lines, e.1 / 2 = e'.1 / 2 → e.2.tag = e'.2.tag → e.1 = e'.1) ∧
  (∀ e ∈ c.rr, e.2 < 2 ∧ e.2 ≠ 0)

/-- No line address is valid in both the Dcache and the Bcache (R464 b). -/
def MemSys.exclusive (cfg : Cfg) (m : MemSys) : Prop :=
  ∀ d ∈ m.dcache.lines, ∀ e ∈ m.bcache.lines,
    heldLine Config.cacheSetBits d.1 d.2.tag ≠ heldLine cfg.bcSetBits e.1 e.2.tag

/-- The cache hierarchy is well formed. -/
structure MemSys.wf (cfg : Cfg) (m : MemSys) : Prop where
  store : Memory.wf m.store
  bits : cfg.bcSetBits ≤ Config.lineBits
  icache : m.icache.wf Config.cacheSetBits cfg.icWays.count
  dcache : m.dcache.wf Config.cacheSetBits cfg.dcWays.count
  bcache : m.bcache.wf cfg.bcSetBits 1
  /-- R464 (b). -/
  exclusive : m.exclusive cfg
  /-- R464 (c): an Icache line has no dirty state. -/
  icacheClean : ∀ e ∈ m.icache.lines, e.2.dirty = false ∧ e.2.shared = false
  /-- 10_state R41: with `MP` false the shared bit is always 0. -/
  unshared : cfg.mp = false →
    (∀ e ∈ m.dcache.lines, e.2.shared = false) ∧ ∀ e ∈ m.bcache.lines, e.2.shared = false
  /-- Without a Bcache there is no Bcache line. -/
  noBcache : cfg.bcPresent = false → m.bcache.lines = []

/-- A clean line's bytes are the backing store's: no collaborator has written memory behind a cached line
(R464 d, e). -/
def Cache.cleanAgrees (c : Cache) (b : Nat) (store : Memory) : Prop :=
  ∀ e ∈ c.lines, e.2.dirty = false →
    ∀ k < 64, blockByte e.2.data k = Memory.read store (64 * heldLine b e.1 e.2.tag + k)

/-- Every clean line of the data side agrees with the backing store. -/
def MemSys.coherent (cfg : Cfg) (m : MemSys) : Prop :=
  m.dcache.cleanAgrees Config.cacheSetBits m.store ∧ m.bcache.cleanAgrees cfg.bcSetBits m.store

/-- The same bytes for every load: `mem` of R464 (e) at every address. -/
def MemSys.sameBytes (cfg : Cfg) (m m' : MemSys) : Prop := ∀ a, m'.byteAt cfg a = m.byteAt cfg a

/-! ### The rest of the state -/

/-- FPCR bits 46:0 read as zero (10_state R31). -/
def Cpu.fpcrReserved (c : Cpu) : Prop := c.fpcr &&& ~~~fpcrWritable = 0

/-- A translation buffer's entries stand at rising indices below 128 (10_state R37). -/
def Tlb.wf (t : Tlb) : Prop := Table.Sorted t.entries ∧ ∀ e ∈ t.entries, e.1 < Config.tlbEntries

/-- A sparse table whose absent entries read 0 lists no 0 and nothing out of range (10_state R35). -/
def counterTable {n : Nat} (entries : Nat) (t : Table (BitVec n)) : Prop :=
  Table.Sorted t ∧ ∀ e ∈ t, e.1 < entries ∧ e.2 ≠ 0

def Predictor.wf (p : Predictor) : Prop :=
  counterTable 1024 p.lht ∧ counterTable 1024 p.lpt ∧ counterTable 4096 p.gpt ∧ counterTable 4096 p.cpt

/-- The queues hold at most the slots 0 to 31 (10_state R42). -/
def State.queuesWf (s : State) : Prop :=
  Table.Sorted s.lq ∧ (∀ e ∈ s.lq, e.1 < Config.queueDepth) ∧
  Table.Sorted s.sq ∧ ∀ e ∈ s.sq, e.1 < Config.queueDepth

/-- Ids: the sequencer's next id is above every id used (10_state R20, 20_memory R105). -/
def State.idsWf (s : State) : Prop :=
  s.ids.doneBelow ≤ s.ids.next ∧ s.ids.memBelow ≤ s.ids.next ∧
  Table.Sorted s.inflight ∧ ∀ e ∈ s.inflight, e.1 = e.2.id ∧ e.2.id < s.ids.next

/-- A good state. -/
structure State.Inv (s : State) : Prop where
  mem : s.mem.wf s.cfg
  fpcr : s.cpu.fpcrReserved
  itb : s.itb.wf
  dtb : s.dtb.wf
  pred : s.pred.wf
  queues : s.queuesWf
  ids : s.idsWf

/-! ### How an instruction under the sequencer ends (70 R540) -/

/-- `p` is the program-order previous writer of register `d` for an instruction `id`, still in flight (70 R525): the
record with the largest id among those that are older, name `d` as their destination and are above every retired or
discarded id (the model's reading of "previous writer": log 14, log 43, log 44). -/
def State.pendingWriter (s : State) (id : Nat) (d : RegRef) (p : Record) : Prop :=
  Table.at? s.inflight p.id = some p ∧ p.id < id ∧ p.aDest = d ∧ s.ids.doneBelow ≤ p.id ∧
  ∀ e ∈ s.inflight, e.2.id < id → e.2.aDest = d → e.2.id ≤ p.id

/-- For the next instruction every register holds its current value (70 R525): a record still in flight that is the
previous writer of a register has written `destv`, and the register file holds that value already. -/
def State.settled (s : State) : Prop :=
  ∀ (d : RegRef) (p : Record), d.idx ≠ 31 → previousWriter s s.ids.next d = some p →
    loadIsComplete s p = true ∧ p.destv.bits = s.readReg d

/-- The sequencer's next id is not below a retired or discarded one (10_state R20), and the registers are settled. -/
def State.ready (s : State) : Prop := s.ids.doneBelow ≤ s.ids.next ∧ s.settled

/-- The same of the memory instructions too (20_memory R105). -/
def State.memReady (s : State) : Prop :=
  s.ids.doneBelow ≤ s.ids.next ∧ s.ids.memBelow ≤ s.ids.next ∧ s.settled

/-- One id is used up. -/
def State.spend (s : State) : State :=
  s.withIds { s.ids with next := s.ids.next + 1, doneBelow := s.ids.next + 1 }

/-- One id is used up by a memory instruction. -/
def State.spendMem (s : State) : State :=
  s.withIds { next := s.ids.next + 1, doneBelow := s.ids.next + 1, memBelow := s.ids.next + 1 }

/-- The next instruction. -/
def State.advance (s : State) : State := s.withPc (s.pc + 4)

/-- An instruction that only wrote an integer register. -/
def State.afterX (s : State) (rc : RegIdx) (v : Word) : State := (s.writeX rc v).spend.advance

/-- An instruction that only wrote a floating register. -/
def State.afterF (s : State) (fc : RegIdx) (v : Word) : State := (s.writeF fc v).spend.advance

/-- An instruction that ended with an outcome other than `NoException` (60_exceptions R489). -/
def State.afterTrap (s : State) (o : ExceptionOutcome) : State := s.spend.withStopped (some o)

/-- A load or a store that left the memory system `m`. -/
def State.afterMem (s : State) (m : MemSys) : State := (s.withMem m).spendMem.advance

/-- A load or a store whose translation gave an outcome and left the buffer `b`. -/
def State.afterMemTrap (s : State) (b : Tlb) (o : ExceptionOutcome) : State :=
  ((s.withDtb b).spendMem).withStopped (some o)

/-- The base register plus the displacement (45 R321). -/
def State.effectiveAddress (s : State) (rb : RegIdx) (disp : BitVec 16) : Word := s.readX rb + disp.signExtend 64

/-- A load of `w` at virtual address `va` reaches `pa`: ids in order, registers settled, a free slot, the address
aligned and translated, no store pending, the caches good. -/
structure State.CanLoad (s : State) (va : Word) (w : Width) (pa : PhysAddr) : Prop where
  ids : s.memReady
  slot : ∃ n < Config.queueDepth, Table.at? s.lq n = none
  aligned : va.toNat % w.bytes = 0
  translates : translateOn s.cpu s.dtb va .read = .ok (.ok pa, s.dtb)
  quiet : ∀ e ∈ s.sq, e.2.state ≠ .pending
  mem : s.mem.wf s.cfg
  coherent : s.mem.coherent s.cfg

/-- A store of `w` at virtual address `va` reaches `pa`. -/
structure State.CanStore (s : State) (va : Word) (w : Width) (pa : PhysAddr) : Prop where
  ids : s.memReady
  slot : ∃ n < Config.queueDepth, Table.at? s.sq n = none
  aligned : va.toNat % w.bytes = 0
  translates : translateOn s.cpu s.dtb va .write = .ok (.ok pa, s.dtb)
  mem : s.mem.wf s.cfg
  coherent : s.mem.coherent s.cfg

/-- `m'` is a good memory system in which the `n` bytes from `a` are those of `v`, and every other byte is that
of `m`. -/
def MemSys.stored (cfg : Cfg) (m m' : MemSys) (a n : Nat) (v : Word) : Prop :=
  m'.wf cfg ∧ m'.coherent cfg ∧
  (∀ k < n, m'.byteAt cfg (a + k) = byteOf v k) ∧
  ∀ c, ¬ (a ≤ c ∧ c < a + n) → m'.byteAt cfg c = m.byteAt cfg c

/-- `m'` is a good memory system with the same bytes as `m`. -/
def MemSys.unchanged (cfg : Cfg) (m m' : MemSys) : Prop := m'.wf cfg ∧ m'.coherent cfg ∧ m.sameBytes cfg m'

/-- A store-queue slot of the set `F` of 20_memory R109 for a load slot `q`. -/
def SqSlot.mustForward (p : SqSlot) (q : LqSlot) : Prop :=
  p.state = .pending ∧ p.doWrite = true ∧ p.instrId < q.instrId ∧
  p.pa.toNat < q.pa.toNat + q.width.bytes ∧ q.pa.toNat < p.pa.toNat + p.width.bytes

/-! ### Exact numbers -/

/-- The rational number a dyadic stands for. -/
def Dyadic.toRat (x : Dyadic) : ℚ := x.m * (2 : ℚ) ^ x.e

/-- The rational number of a register value of class `Finite` or `Denormal` (46 R361 to R367). -/
def fpValue (fmt : FpFormat) (v : Word) : ℚ := (valueOf fmt (fieldsOf fmt v)).toRat

/-- The class of a register value. -/
def fpClass (fmt : FpFormat) (v : Word) : FpClass := classify fmt (fieldsOf fmt v)

/-- `y` is `x` rounded to a multiple of `u` in a mode: the sign of `x`, and `rint` of `|x| / u` units (46 R373). -/
def RoundsOnGrid (mode : RoundMode) (u x y : ℚ) : Prop :=
  ∃ n : ℕ, y = (if x < 0 then -(n * u) else n * u) ∧
    match mode with
    | .chop => (n : ℤ) = ⌊|x| / u⌋
    | .minf => (n : ℤ) = if 0 < x then ⌊|x| / u⌋ else ⌈|x| / u⌉
    | .pinf => (n : ℤ) = if 0 < x then ⌈|x| / u⌉ else ⌊|x| / u⌋
    | .near => |n - |x| / u| ≤ 1 / 2 ∧ (|n - |x| / u| = 1 / 2 → n % 2 = 0)
    | .vaxAway => |n - |x| / u| ≤ 1 / 2 ∧ (|n - |x| / u| = 1 / 2 → |x| / u < n)

/-- `y = round(x, p, mode)`: the unit is the power of two that makes `|x|` a number of `p` bits (46 R373). -/
def RoundsToPrec (mode : RoundMode) (p : Nat) (x y : ℚ) : Prop :=
  ∃ q : ℤ, (2 : ℚ) ^ (p - 1) ≤ |x| / (2 : ℚ) ^ q ∧ |x| / (2 : ℚ) ^ q < (2 : ℚ) ^ p ∧
    RoundsOnGrid mode ((2 : ℚ) ^ q) x y

/-- The bits of the FPCR an arithmetic executor may set: SUM, IOV, INE, UNF, OVF, INV (46 R372). -/
def fpcrSticky : Word := 0x83D0000000000000#64

end Sys2Proof.Machine
end

