-- ==== Sys2Proof/Certificates/Slice0/Obligations.lean ====
section
/-!
DEFINITION. The statements for the provers. A statement about an instruction gives the whole next state:
`State.afterX` and its companions (Sys2Proof/Safety.lean) name it, and `Obligations.EndStates` says what they
leave alone. Where a rule gives an encoding, the statement gives the word as well.
-/

open Sys2Proof Sys2Proof.Machine

/-- O1. For every well-formed instruction, with every operand at every value its fields admit, the four bytes of its
encoding decode to it (30_encoding R131 to R142). -/
def Obligations.DecodeOfEncode : Prop :=
  ∀ i : Instr, i.wellFormed = true → decodeBytes (bytesOfWord (encode i)) = .ok i

/-- O2. A word that decodes is well formed and encodes to itself, except that the ignored bits 15:13 of the register
form of the Opr format come back as zero (30_encoding R135, R144). -/
def Obligations.EncodeOfDecode : Prop :=
  ∀ (w : InstrWord) (i : Instr), decodeWord w = .ok i →
    i.wellFormed = true ∧
    encode i =
      if opcodeField w ∈ [0x10#6, 0x11#6, 0x12#6, 0x13#6, 0x1C#6] ∧ useLiteralField w = 0#1
      then w &&& 0xFFFF1FFF#32 else w

/-- O3. A word decodes if and only if it has an opcode and function of the opcode map with defined qualifiers
(30_encoding R140 to R143); the sequencer refuses every other word but BNE by name. -/
def Obligations.DecodableWords : Prop :=
  ∀ w : InstrWord, ((∃ i, decodeWord w = .ok i) ↔
    opcodeField w ∈
      [0x08#6, 0x09#6, 0x0A#6, 0x0B#6, 0x0C#6, 0x0D#6, 0x0E#6, 0x0F#6, 0x28#6, 0x29#6, 0x2A#6, 0x2B#6,
      0x2C#6, 0x2D#6, 0x2E#6, 0x2F#6] ∨
    (opcodeField w = 0x10#6 ∧ oprFunctionField w ∈
      [0x00#7, 0x02#7, 0x09#7, 0x0B#7, 0x0F#7, 0x12#7, 0x1B#7, 0x1D#7, 0x20#7, 0x22#7, 0x29#7, 0x2B#7,
      0x2D#7, 0x32#7, 0x3B#7, 0x3D#7, 0x40#7, 0x49#7, 0x4D#7, 0x60#7, 0x69#7, 0x6D#7]) ∨
    (opcodeField w = 0x11#6 ∧ oprFunctionField w ∈
      [0x00#7, 0x08#7, 0x14#7, 0x16#7, 0x20#7, 0x24#7, 0x26#7, 0x28#7, 0x40#7, 0x44#7, 0x46#7, 0x48#7,
      0x64#7, 0x66#7]) ∨
    (opcodeField w = 0x12#6 ∧ oprFunctionField w ∈
      [0x02#7, 0x06#7, 0x0B#7, 0x12#7, 0x16#7, 0x1B#7, 0x22#7, 0x26#7, 0x2B#7, 0x30#7, 0x31#7, 0x32#7,
      0x34#7, 0x36#7, 0x39#7, 0x3B#7, 0x3C#7, 0x52#7, 0x57#7, 0x5A#7, 0x62#7, 0x67#7, 0x6A#7, 0x72#7,
      0x77#7, 0x7A#7]) ∨
    (opcodeField w = 0x13#6 ∧ oprFunctionField w ∈
      [0x00#7, 0x20#7, 0x30#7, 0x40#7, 0x60#7]) ∨
    (opcodeField w = 0x1C#6 ∧ oprFunctionField w ∈
      [0x00#7, 0x01#7, 0x31#7, 0x32#7, 0x33#7, 0x34#7, 0x35#7, 0x36#7, 0x37#7, 0x38#7, 0x39#7, 0x3A#7,
      0x3B#7, 0x3C#7, 0x3D#7, 0x3E#7, 0x3F#7]) ∨
    (opcodeField w = 0x15#6 ∧ srcFncField w ∈ [0x00#6, 0x02#6, 0x20#6, 0x22#6] ∧
      trpField w ∈ [0b000#3, 0b001#3, 0b100#3, 0b101#3] ∧ rndField w ∈ [0b00#2, 0b10#2]) ∨
    (opcodeField w = 0x16#6 ∧ srcFncField w ∈ [0x00#6, 0x02#6, 0x20#6, 0x22#6] ∧
      trpField w ∈ [0b000#3, 0b001#3, 0b101#3, 0b111#3]) ∨
    (opcodeField w = 0x17#6 ∧ fpFunctionField w ∈
      [0x010#11, 0x020#11, 0x021#11, 0x022#11, 0x024#11, 0x025#11, 0x02A#11, 0x02B#11, 0x02C#11,
      0x02D#11, 0x02E#11, 0x02F#11, 0x030#11, 0x130#11, 0x530#11]) ∨
    (opcodeField w = 0x18#6 ∧ dispField w ∈ [0xE000#16, 0xF000#16])) ∧
    ∀ s : State, opcodeField w ≠ bneOpcode → (∀ i, decodeWord w ≠ .ok i) →
      runWord w s = .refused (.undecodable w)

/-- O4. Words written out bit by bit from 30_encoding R133 to R141, one per format and family, decode to the instruction
they stand for; one with an undefined trap qualifier is rejected. -/
def Obligations.DecodeSanity : Prop :=
  -- LDA R1, -8(R2)
  decodeWord (0b001000#6 ++ 0b00001#5 ++ 0b00010#5 ++ 0xFFF8#16) = .ok (.lda 1 2 0xFFF8#16) ∧
  -- STQ_C R3, 16(R30)
  decodeWord (0b101111#6 ++ 0b00011#5 ++ 0b11110#5 ++ 0x0010#16) = .ok (.stq_c 3 30 0x0010#16) ∧
  -- ADDQ/V R1, R2, R3
  decodeWord (0b010000#6 ++ 0b00001#5 ++ 0b00010#5 ++ 0b000#3 ++ 0#1 ++ 0b1100000#7 ++ 0b00011#5) =
    .ok (.addq_v 1 (.reg 2) 3) ∧
  -- EXTBL R4, #255, R5
  decodeWord (0b010010#6 ++ 0b00100#5 ++ 0b11111111#8 ++ 1#1 ++ 0b0000110#7 ++ 0b00101#5) =
    .ok (.extbl 4 (.lit 255) 5) ∧
  -- MAXSW4 R6, R7, R8
  decodeWord (0b011100#6 ++ 0b00110#5 ++ 0b00111#5 ++ 0b000#3 ++ 0#1 ++ 0b0111111#7 ++ 0b01000#5) =
    .ok (.maxsw4 6 (.reg 7) 8) ∧
  -- MULT/SUI F1, F2, F3
  decodeWord (0b010110#6 ++ 0b00001#5 ++ 0b00010#5 ++ 0b111#3 ++ 0b10#2 ++ 0b10#2 ++ 0b0010#4 ++ 0b00011#5) =
    .ok (.mult 1 2 3 0b111 0b10) ∧
  -- ADDT with TRP 010
  decodeWord (0b010110#6 ++ 0b00001#5 ++ 0b00010#5 ++ 0b010#3 ++ 0b10#2 ++ 0b10#2 ++ 0b0000#4 ++ 0b00011#5) =
    .error (.undefinedQualifier 0b010 0b10) ∧
  -- CVTQL/SV F31, F2, F3
  decodeWord (0b010111#6 ++ 0b11111#5 ++ 0b00010#5 ++ 0b10100110000#11 ++ 0b00011#5) = .ok (.cvtql_sv 31 2 3) ∧
  -- RS R9
  decodeWord (0b011000#6 ++ 0b01001#5 ++ 0b11111#5 ++ 0xF000#16) = .ok (.rs 9 31)

/-- O5. When the sequencer is to run, it has not stopped, and its fetch gives a word that decodes to i in state s1,
step is exec of i at s1, with nothing added; the fetch takes the word of the sequencer's list at the program counter,
if there is one (70_reset_and_hazards R540). The third clause, that a transaction at the head of the agenda is run
before the sequencer, is the MODEL'S CHOICE (DESIGN CHOICE, log 2): the spec gives no order among its agents (R534
makes each transaction atomic). -/
def Obligations.StepRunsInstruction : Prop :=
  ∀ (s s1 : State) (w : InstrWord) (i : Instr), s.stopped = none →
    decodeBytes (bytesOfWord w) = .ok i →
    (s.agenda = [] → fetchWord s = .ok (.word w, s1) → step s = exec i s1) ∧
    (∀ rest, s.agenda = .sequence :: rest → fetchWord (s.withAgenda rest) = .ok (.word w, s1) →
      step s = exec i s1) ∧
    (∀ t rest, s.agenda = t :: rest → t ≠ .sequence → step s = toOutcome (transact t (s.withAgenda rest))) ∧
    (Table.at? s.program (s.pc &&& ~~~3#64).toNat = some w → fetchWord s = .ok (.word w, s))

/-- O6. A word not in the sequencer's list, whose page is mapped and whose line neither the Icache nor the Bcache
holds, is the little-endian longword of the backing store at the translated address, whatever the Dcache holds; the
data side is unchanged (49_cache R461, 20_memory R77, R122). That a program counter with no word in the list is
fetched through the instruction side, also when the list is not empty, is the MODEL'S CHOICE (DESIGN CHOICE, log 10):
70 R540 gives the list or the instruction side. An Icache hit and a fill from the Bcache are not part of this
statement. -/
def Obligations.FetchFromMemory : Prop :=
  ∀ (s : State) (pa : PhysAddr), s.mem.wf s.cfg →
    Table.at? s.program (s.pc &&& ~~~3#64).toNat = none →
    translateOn s.cpu s.itb (s.pc &&& ~~~3#64) .fetch = .ok (.ok pa, s.itb) →
    (∀ e ∈ s.mem.icache.lines, heldLine Config.cacheSetBits e.1 e.2.tag ≠ lineOf pa) →
    (∀ e ∈ s.mem.bcache.lines, heldLine s.cfg.bcSetBits e.1 e.2.tag ≠ lineOf pa) →
    ∃ m, fetchWord s = .ok (.word (Memory.read s.mem.store (pa.toNat + 3) ++ Memory.read s.mem.store (pa.toNat + 2) ++
          Memory.read s.mem.store (pa.toNat + 1) ++ Memory.read s.mem.store pa.toNat), s.withMem m) ∧
      m.dcache = s.mem.dcache ∧ m.bcache = s.mem.bcache ∧ m.store = s.mem.store ∧ m.wf s.cfg

/-- O7. A fetch whose translation gives an outcome stops the sequencer with it. A stopped sequencer runs no
instruction: with no load-queue slot Pending the run has ended; with one it is not finished, and the step is the
lq_complete of a Pending slot whose completion is enabled, or, if none is, a fault of another name. The resume
transaction starts the sequencer again at a program counter. The spec's sentences: 'otherwise stop' of 70 R540, 'A run
with a slot still Pending is not finished' of R534, and the retry of 60 R492; that the end of a run is a fault, that a
fetch stops like a dispatch, and which of several slots completes are the model's choices (log 11, log 12). -/
def Obligations.SequencerStops : Prop :=
  ∀ (s s1 : State) (o : ExceptionOutcome) (pc : Word), s.agenda = [] →
    (s.stopped = none → fetchWord s = .ok (.fault o, s1) → step s = .next (s1.withStopped (some o))) ∧
    (s.stopped = some o → (∀ e ∈ s.lq, e.2.state ≠ .pending) → step s = .fault (.sequencerStopped o)) ∧
    (s.stopped = some o → (∃ e ∈ s.lq, e.2.state = .pending) →
      (∀ e ∈ s.lq, e.2.state = .pending → (∃ t, transact (.lqComplete e.1) s = .ok t) ∨
        transact (.lqComplete e.1) s = .error .completionNotEnabled) →
      ((∃ e ∈ s.lq, e.2.state = .pending ∧ ∃ t, transact (.lqComplete e.1) s = .ok t) →
        ∃ e ∈ s.lq, e.2.state = .pending ∧ ∃ t, transact (.lqComplete e.1) s = .ok t ∧ step s = .next t) ∧
      ((∀ e ∈ s.lq, e.2.state = .pending → transact (.lqComplete e.1) s = .error .completionNotEnabled) →
        step s = .fault (.loadsPending o))) ∧
    transact (.resume pc) s = .ok ((s.withPc pc).withStopped none)

/-- O8. A write to integer or floating register 31 is discarded and register 31 reads zero; a write to another register
changes it and no other. The end state of a register instruction changes one register, the program counter by 4
and the id counters; that of a trap changes the id counters and the outcome (10_state R25). -/
def Obligations.EndStates : Prop :=
  ∀ (s : State) (rc : RegIdx) (v : Word) (o : ExceptionOutcome),
    (∀ j, (s.afterX rc v).readX j = if j = 31 then 0 else if j = rc then v else s.readX j) ∧
    (∀ j, (s.afterF rc v).readF j = if j = 31 then 0 else if j = rc then v else s.readF j) ∧
    (s.afterX 31 v).x = s.x ∧ (s.afterF 31 v).f = s.f ∧
    (∃ x, s.afterX rc v = { s with
        x := x, pc := s.pc + 4,
        ids := { next := s.ids.next + 1, doneBelow := s.ids.next + 1, memBelow := s.ids.memBelow } }) ∧
    (∃ f, s.afterF rc v = { s with
        f := f, pc := s.pc + 4,
        ids := { next := s.ids.next + 1, doneBelow := s.ids.next + 1, memBelow := s.ids.memBelow } }) ∧
    s.afterTrap o = { s with
        stopped := some o,
        ids := { next := s.ids.next + 1, doneBelow := s.ids.next + 1, memBelow := s.ids.memBelow } } ∧
    (∀ n : BitVec 8, s.operand (.lit n) = n.setWidth 64) ∧ s.operand (.reg rc) = s.readX rc

/-- O9. ADDL, ADDQ, SUBL, SUBQ and the eight scaled forms: each one's word decodes to it, and in every ready state it
completes, writing Rc with the sum or difference modulo 2^64, sign-extended from 32 bits in the longword forms, and
nothing else (41 R181 to R196). -/
def Obligations.AddSubtract : Prop :=
  ∀ (s : State) (ra rc : RegIdx) (b : Opnd), s.ready →
    ∀ A B : Word, A = s.readX ra → B = s.operand b →
    (decodeWord (encodeOpr 0x10#6 0x00#7 ra b rc) = .ok (.addl ra b rc) ∧
      exec (.addl ra b rc) s = .next (s.afterX rc (sext32 (A + B)))) ∧
    (decodeWord (encodeOpr 0x10#6 0x20#7 ra b rc) = .ok (.addq ra b rc) ∧
      exec (.addq ra b rc) s = .next (s.afterX rc (A + B))) ∧
    (decodeWord (encodeOpr 0x10#6 0x09#7 ra b rc) = .ok (.subl ra b rc) ∧
      exec (.subl ra b rc) s = .next (s.afterX rc (sext32 (A - B)))) ∧
    (decodeWord (encodeOpr 0x10#6 0x29#7 ra b rc) = .ok (.subq ra b rc) ∧
      exec (.subq ra b rc) s = .next (s.afterX rc (A - B))) ∧
    (decodeWord (encodeOpr 0x10#6 0x02#7 ra b rc) = .ok (.s4addl ra b rc) ∧
      exec (.s4addl ra b rc) s = .next (s.afterX rc (sext32 ((A <<< 2) + B)))) ∧
    (decodeWord (encodeOpr 0x10#6 0x12#7 ra b rc) = .ok (.s8addl ra b rc) ∧
      exec (.s8addl ra b rc) s = .next (s.afterX rc (sext32 ((A <<< 3) + B)))) ∧
    (decodeWord (encodeOpr 0x10#6 0x0B#7 ra b rc) = .ok (.s4subl ra b rc) ∧
      exec (.s4subl ra b rc) s = .next (s.afterX rc (sext32 ((A <<< 2) - B)))) ∧
    (decodeWord (encodeOpr 0x10#6 0x1B#7 ra b rc) = .ok (.s8subl ra b rc) ∧
      exec (.s8subl ra b rc) s = .next (s.afterX rc (sext32 ((A <<< 3) - B)))) ∧
    (decodeWord (encodeOpr 0x10#6 0x22#7 ra b rc) = .ok (.s4addq ra b rc) ∧
      exec (.s4addq ra b rc) s = .next (s.afterX rc ((A <<< 2) + B))) ∧
    (decodeWord (encodeOpr 0x10#6 0x32#7 ra b rc) = .ok (.s8addq ra b rc) ∧
      exec (.s8addq ra b rc) s = .next (s.afterX rc ((A <<< 3) + B))) ∧
    (decodeWord (encodeOpr 0x10#6 0x2B#7 ra b rc) = .ok (.s4subq ra b rc) ∧
      exec (.s4subq ra b rc) s = .next (s.afterX rc ((A <<< 2) - B))) ∧
    (decodeWord (encodeOpr 0x10#6 0x3B#7 ra b rc) = .ok (.s8subq ra b rc) ∧
      exec (.s8subq ra b rc) s = .next (s.afterX rc ((A <<< 3) - B)))

/-- O10. CMPEQ, CMPLT, CMPLE, CMPULT, CMPULE: the word decodes, and in every ready state the instruction completes
with the truth value of the comparison of the signed or unsigned operands in Rc (41 R197 to R201). -/
def Obligations.Compare : Prop :=
  ∀ (s : State) (ra rc : RegIdx) (b : Opnd), s.ready →
    ∀ A B : Word, A = s.readX ra → B = s.operand b →
    (decodeWord (encodeOpr 0x10#6 0x2D#7 ra b rc) = .ok (.cmpeq ra b rc) ∧
      exec (.cmpeq ra b rc) s = .next (s.afterX rc (if A = B then 1 else 0))) ∧
    (decodeWord (encodeOpr 0x10#6 0x4D#7 ra b rc) = .ok (.cmplt ra b rc) ∧
      exec (.cmplt ra b rc) s = .next (s.afterX rc (if A.toInt < B.toInt then 1 else 0))) ∧
    (decodeWord (encodeOpr 0x10#6 0x6D#7 ra b rc) = .ok (.cmple ra b rc) ∧
      exec (.cmple ra b rc) s = .next (s.afterX rc (if A.toInt ≤ B.toInt then 1 else 0))) ∧
    (decodeWord (encodeOpr 0x10#6 0x1D#7 ra b rc) = .ok (.cmpult ra b rc) ∧
      exec (.cmpult ra b rc) s = .next (s.afterX rc (if A.toNat < B.toNat then 1 else 0))) ∧
    (decodeWord (encodeOpr 0x10#6 0x3D#7 ra b rc) = .ok (.cmpule ra b rc) ∧
      exec (.cmpule ra b rc) s = .next (s.afterX rc (if A.toNat ≤ B.toNat then 1 else 0)))

/-- O11. MULL gives the sign-extended low longword of the product, MULQ its low 64 bits, UMULH the high 64 bits of the
unsigned product; the four-partial-product algorithm gives the exact 128-bit product (41 R202, R204, R206, 40
R168). -/
def Obligations.Multiply : Prop :=
  ∀ (s : State) (ra rc : RegIdx) (b : Opnd), s.ready →
    ∀ A B : Word, A = s.readX ra → B = s.operand b →
    (decodeWord (encodeOpr 0x13#6 0x00#7 ra b rc) = .ok (.mull ra b rc) ∧
      exec (.mull ra b rc) s = .next (s.afterX rc (((A * B).setWidth 32).signExtend 64))) ∧
    (decodeWord (encodeOpr 0x13#6 0x20#7 ra b rc) = .ok (.mulq ra b rc) ∧
      exec (.mulq ra b rc) s = .next (s.afterX rc (BitVec.ofNat 64 (A.toNat * B.toNat)))) ∧
    (decodeWord (encodeOpr 0x13#6 0x30#7 ra b rc) = .ok (.umulh ra b rc) ∧
      exec (.umulh ra b rc) s = .next (s.afterX rc (BitVec.ofNat 64 (A.toNat * B.toNat / 2 ^ 64)))) ∧
    ((multiply64Algorithm A B).1.toNat * 2 ^ 64 + (multiply64Algorithm A B).2.toNat = A.toNat * B.toNat)

/-- O12. Each completes with the sign-extended low longword in Rc if the full 64-bit result equals it, and otherwise ends
in ArithmeticTraps with IntegerOverflow, writing no register (41 R182, R186, R203). -/
def Obligations.LongwordOverflow : Prop :=
  ∀ (s : State) (ra rc : RegIdx) (b : Opnd), s.ready →
    ∀ A B : Word, A = s.readX ra → B = s.operand b →
    (decodeWord (encodeOpr 0x10#6 0x40#7 ra b rc) = .ok (.addl_v ra b rc) ∧
      (sext32 (A + B) = A + B → exec (.addl_v ra b rc) s = .next (s.afterX rc (sext32 (A + B)))) ∧
      (sext32 (A + B) ≠ A + B →
        exec (.addl_v ra b rc) s = .next (s.afterTrap (.arithmeticTraps { integerOverflow := true })))) ∧
    (decodeWord (encodeOpr 0x10#6 0x49#7 ra b rc) = .ok (.subl_v ra b rc) ∧
      (sext32 (A - B) = A - B → exec (.subl_v ra b rc) s = .next (s.afterX rc (sext32 (A - B)))) ∧
      (sext32 (A - B) ≠ A - B →
        exec (.subl_v ra b rc) s = .next (s.afterTrap (.arithmeticTraps { integerOverflow := true })))) ∧
    (decodeWord (encodeOpr 0x13#6 0x40#7 ra b rc) = .ok (.mull_v ra b rc) ∧
      (sext32 (A * B) = A * B → exec (.mull_v ra b rc) s = .next (s.afterX rc (sext32 (A * B)))) ∧
      (sext32 (A * B) ≠ A * B →
        exec (.mull_v ra b rc) s = .next (s.afterTrap (.arithmeticTraps { integerOverflow := true }))))

/-- O13. Each completes with its 64-bit result in Rc if the exact integer sum, difference or product of the signed
operands fits 64 signed bits, and otherwise ends in ArithmeticTraps with IntegerOverflow, writing no register
(41 R184, R188, R205, R208). -/
def Obligations.QuadwordOverflow : Prop :=
  ∀ (s : State) (ra rc : RegIdx) (b : Opnd), s.ready →
    ∀ A B : Word, A = s.readX ra → B = s.operand b →
    ((-(2 ^ 63) ≤ A.toInt + B.toInt ∧ A.toInt + B.toInt < 2 ^ 63 → exec (.addq_v ra b rc) s = .next (s.afterX rc (A + B))) ∧
      (¬ (-(2 ^ 63) ≤ A.toInt + B.toInt ∧ A.toInt + B.toInt < 2 ^ 63) →
        exec (.addq_v ra b rc) s = .next (s.afterTrap (.arithmeticTraps { integerOverflow := true })))) ∧
    ((-(2 ^ 63) ≤ A.toInt - B.toInt ∧ A.toInt - B.toInt < 2 ^ 63 → exec (.subq_v ra b rc) s = .next (s.afterX rc (A - B))) ∧
      (¬ (-(2 ^ 63) ≤ A.toInt - B.toInt ∧ A.toInt - B.toInt < 2 ^ 63) →
        exec (.subq_v ra b rc) s = .next (s.afterTrap (.arithmeticTraps { integerOverflow := true })))) ∧
    ((-(2 ^ 63) ≤ A.toInt * B.toInt ∧ A.toInt * B.toInt < 2 ^ 63 → exec (.mulq_v ra b rc) s = .next (s.afterX rc (A * B))) ∧
      (¬ (-(2 ^ 63) ≤ A.toInt * B.toInt ∧ A.toInt * B.toInt < 2 ^ 63) →
        exec (.mulq_v ra b rc) s = .next (s.afterTrap (.arithmeticTraps { integerOverflow := true }))))

/-- O14. AND, BIC, BIS, ORNOT, XOR, EQV: the word decodes, and in every ready state the instruction completes with the
bitwise result in Rc (42 R221 to R226). -/
def Obligations.Logical : Prop :=
  ∀ (s : State) (ra rc : RegIdx) (b : Opnd), s.ready →
    ∀ A B : Word, A = s.readX ra → B = s.operand b →
    (decodeWord (encodeOpr 0x11#6 0x00#7 ra b rc) = .ok (.and ra b rc) ∧
      exec (.and ra b rc) s = .next (s.afterX rc (A &&& B))) ∧
    (decodeWord (encodeOpr 0x11#6 0x08#7 ra b rc) = .ok (.bic ra b rc) ∧
      exec (.bic ra b rc) s = .next (s.afterX rc (A &&& ~~~B))) ∧
    (decodeWord (encodeOpr 0x11#6 0x20#7 ra b rc) = .ok (.bis ra b rc) ∧
      exec (.bis ra b rc) s = .next (s.afterX rc (A ||| B))) ∧
    (decodeWord (encodeOpr 0x11#6 0x28#7 ra b rc) = .ok (.ornot ra b rc) ∧
      exec (.ornot ra b rc) s = .next (s.afterX rc (A ||| ~~~B))) ∧
    (decodeWord (encodeOpr 0x11#6 0x40#7 ra b rc) = .ok (.xor ra b rc) ∧
      exec (.xor ra b rc) s = .next (s.afterX rc (A ^^^ B))) ∧
    (decodeWord (encodeOpr 0x11#6 0x48#7 ra b rc) = .ok (.eqv ra b rc) ∧
      exec (.eqv ra b rc) s = .next (s.afterX rc (A ^^^ ~~~B)))

/-- O15. With n the low six bits of B: SLL gives A times 2^n modulo 2^64, SRL the quotient of unsigned A, SRA the
floor quotient of signed A, each completing into Rc in every ready state (42 R227 to R229). -/
def Obligations.Shift : Prop :=
  ∀ (s : State) (ra rc : RegIdx) (b : Opnd), s.ready →
    ∀ A B : Word, A = s.readX ra → B = s.operand b →
    ∃ u v w : Word,
    decodeWord (encodeOpr 0x12#6 0x39#7 ra b rc) = .ok (.sll ra b rc) ∧
    exec (.sll ra b rc) s = .next (s.afterX rc u) ∧ u.toNat = A.toNat * 2 ^ (B.toNat % 64) % 2 ^ 64 ∧
    decodeWord (encodeOpr 0x12#6 0x34#7 ra b rc) = .ok (.srl ra b rc) ∧
    exec (.srl ra b rc) s = .next (s.afterX rc v) ∧ v.toNat = A.toNat / 2 ^ (B.toNat % 64) ∧
    decodeWord (encodeOpr 0x12#6 0x3C#7 ra b rc) = .ok (.sra ra b rc) ∧
    exec (.sra ra b rc) s = .next (s.afterX rc w) ∧ w.toInt = A.toInt / 2 ^ (B.toNat % 64)

/-- O16. Each of the eight completes in every ready state; it writes Rc with B when its test of A holds, and otherwise
leaves every register as it was (42 R231 to R238). -/
def Obligations.ConditionalMove : Prop :=
  ∀ (s : State) (ra rc : RegIdx) (b : Opnd), s.ready →
    ∀ A B : Word, A = s.readX ra → B = s.operand b →
    (decodeWord (encodeOpr 0x11#6 0x24#7 ra b rc) = .ok (.cmoveq ra b rc) ∧
      exec (.cmoveq ra b rc) s = .next (if A = 0 then s.afterX rc B else s.spend.advance)) ∧
    (decodeWord (encodeOpr 0x11#6 0x26#7 ra b rc) = .ok (.cmovne ra b rc) ∧
      exec (.cmovne ra b rc) s = .next (if A ≠ 0 then s.afterX rc B else s.spend.advance)) ∧
    (decodeWord (encodeOpr 0x11#6 0x44#7 ra b rc) = .ok (.cmovlt ra b rc) ∧
      exec (.cmovlt ra b rc) s = .next (if A.toInt < 0 then s.afterX rc B else s.spend.advance)) ∧
    (decodeWord (encodeOpr 0x11#6 0x46#7 ra b rc) = .ok (.cmovge ra b rc) ∧
      exec (.cmovge ra b rc) s = .next (if 0 ≤ A.toInt then s.afterX rc B else s.spend.advance)) ∧
    (decodeWord (encodeOpr 0x11#6 0x64#7 ra b rc) = .ok (.cmovle ra b rc) ∧
      exec (.cmovle ra b rc) s = .next (if A.toInt ≤ 0 then s.afterX rc B else s.spend.advance)) ∧
    (decodeWord (encodeOpr 0x11#6 0x66#7 ra b rc) = .ok (.cmovgt ra b rc) ∧
      exec (.cmovgt ra b rc) s = .next (if 0 < A.toInt then s.afterX rc B else s.spend.advance)) ∧
    (decodeWord (encodeOpr 0x11#6 0x14#7 ra b rc) = .ok (.cmovlbs ra b rc) ∧
      exec (.cmovlbs ra b rc) s = .next (if A.toNat % 2 = 1 then s.afterX rc B else s.spend.advance)) ∧
    (decodeWord (encodeOpr 0x11#6 0x16#7 ra b rc) = .ok (.cmovlbc ra b rc) ∧
      exec (.cmovlbc ra b rc) s = .next (if A.toNat % 2 = 0 then s.afterX rc B else s.spend.advance))

/-- O17. The count is the low three bits of the second operand; in big-endian mode the operand is first XORed with 7, 6,
4 or 0 by width, or with 7 for every width under the alternative parameter (43 R251). -/
def Obligations.ShiftCount : Prop :=
  ∀ (s : State) (B : Word),
    (s.cpu.bigEndian = false → ∀ w, s.shiftCountOf w B = B.toNat % 8) ∧
    (s.cpu.bigEndian = true → s.cfg.shiftXform = .byWidth →
      s.shiftCountOf .byte B = (B ^^^ 7).toNat % 8 ∧ s.shiftCountOf .word B = (B ^^^ 6).toNat % 8 ∧
      s.shiftCountOf .long B = (B ^^^ 4).toNat % 8 ∧ s.shiftCountOf .quad B = B.toNat % 8) ∧
    (s.cpu.bigEndian = true → s.cfg.shiftXform = .xor7All → ∀ w, s.shiftCountOf w B = (B ^^^ 7).toNat % 8)

/-- O18. With sh the count of R251 and n the width: the low forms put bytes sh to sh+n-1 of A at the bottom of Rc, the
high forms the bytes that follow in the next quadword, with the count 0 corner as the formula gives it; the rest
is zero (43 R253 to R259). -/
def Obligations.Extract : Prop :=
  ∀ (s : State) (ra rc : RegIdx) (b : Opnd), s.ready →
    ∀ A B : Word, A = s.readX ra → B = s.operand b →
    (decodeWord (encodeOpr 0x12#6 0x06#7 ra b rc) = .ok (.extbl ra b rc) ∧
      ∃ v, exec (.extbl ra b rc) s = .next (s.afterX rc v) ∧ ∀ i < 8, byteOf v i =
        if i < 1 ∧ i + s.shiftCountOf .byte B < 8 then byteOf A (i + s.shiftCountOf .byte B) else 0) ∧
    (decodeWord (encodeOpr 0x12#6 0x16#7 ra b rc) = .ok (.extwl ra b rc) ∧
      ∃ v, exec (.extwl ra b rc) s = .next (s.afterX rc v) ∧ ∀ i < 8, byteOf v i =
        if i < 2 ∧ i + s.shiftCountOf .word B < 8 then byteOf A (i + s.shiftCountOf .word B) else 0) ∧
    (decodeWord (encodeOpr 0x12#6 0x26#7 ra b rc) = .ok (.extll ra b rc) ∧
      ∃ v, exec (.extll ra b rc) s = .next (s.afterX rc v) ∧ ∀ i < 8, byteOf v i =
        if i < 4 ∧ i + s.shiftCountOf .long B < 8 then byteOf A (i + s.shiftCountOf .long B) else 0) ∧
    (decodeWord (encodeOpr 0x12#6 0x36#7 ra b rc) = .ok (.extql ra b rc) ∧
      ∃ v, exec (.extql ra b rc) s = .next (s.afterX rc v) ∧ ∀ i < 8, byteOf v i =
        if i < 8 ∧ i + s.shiftCountOf .quad B < 8 then byteOf A (i + s.shiftCountOf .quad B) else 0) ∧
    (decodeWord (encodeOpr 0x12#6 0x5A#7 ra b rc) = .ok (.extwh ra b rc) ∧
      ∃ v, exec (.extwh ra b rc) s = .next (s.afterX rc v) ∧ ∀ i < 8, byteOf v i =
        if i < 2 ∧ (s.shiftCountOf .word B = 0 ∨ 8 ≤ i + s.shiftCountOf .word B) then byteOf A ((i + s.shiftCountOf .word B) % 8) else 0) ∧
    (decodeWord (encodeOpr 0x12#6 0x6A#7 ra b rc) = .ok (.extlh ra b rc) ∧
      ∃ v, exec (.extlh ra b rc) s = .next (s.afterX rc v) ∧ ∀ i < 8, byteOf v i =
        if i < 4 ∧ (s.shiftCountOf .long B = 0 ∨ 8 ≤ i + s.shiftCountOf .long B) then byteOf A ((i + s.shiftCountOf .long B) % 8) else 0) ∧
    (decodeWord (encodeOpr 0x12#6 0x7A#7 ra b rc) = .ok (.extqh ra b rc) ∧
      ∃ v, exec (.extqh ra b rc) s = .next (s.afterX rc v) ∧ ∀ i < 8, byteOf v i =
        if i < 8 ∧ (s.shiftCountOf .quad B = 0 ∨ 8 ≤ i + s.shiftCountOf .quad B) then byteOf A ((i + s.shiftCountOf .quad B) % 8) else 0)

/-- O19. The low forms put the low n bytes of A at bytes sh to sh+n-1 of Rc, the high forms the part that falls past byte
7 at the bottom; the rest is zero (43 R260 to R266). -/
def Obligations.Insert : Prop :=
  ∀ (s : State) (ra rc : RegIdx) (b : Opnd), s.ready →
    ∀ A B : Word, A = s.readX ra → B = s.operand b →
    (decodeWord (encodeOpr 0x12#6 0x0B#7 ra b rc) = .ok (.insbl ra b rc) ∧
      ∃ v, exec (.insbl ra b rc) s = .next (s.afterX rc v) ∧ ∀ i < 8, byteOf v i =
        if s.shiftCountOf .byte B ≤ i ∧ i < s.shiftCountOf .byte B + 1 then byteOf A (i - s.shiftCountOf .byte B) else 0) ∧
    (decodeWord (encodeOpr 0x12#6 0x1B#7 ra b rc) = .ok (.inswl ra b rc) ∧
      ∃ v, exec (.inswl ra b rc) s = .next (s.afterX rc v) ∧ ∀ i < 8, byteOf v i =
        if s.shiftCountOf .word B ≤ i ∧ i < s.shiftCountOf .word B + 2 then byteOf A (i - s.shiftCountOf .word B) else 0) ∧
    (decodeWord (encodeOpr 0x12#6 0x2B#7 ra b rc) = .ok (.insll ra b rc) ∧
      ∃ v, exec (.insll ra b rc) s = .next (s.afterX rc v) ∧ ∀ i < 8, byteOf v i =
        if s.shiftCountOf .long B ≤ i ∧ i < s.shiftCountOf .long B + 4 then byteOf A (i - s.shiftCountOf .long B) else 0) ∧
    (decodeWord (encodeOpr 0x12#6 0x3B#7 ra b rc) = .ok (.insql ra b rc) ∧
      ∃ v, exec (.insql ra b rc) s = .next (s.afterX rc v) ∧ ∀ i < 8, byteOf v i =
        if s.shiftCountOf .quad B ≤ i ∧ i < s.shiftCountOf .quad B + 8 then byteOf A (i - s.shiftCountOf .quad B) else 0) ∧
    (decodeWord (encodeOpr 0x12#6 0x57#7 ra b rc) = .ok (.inswh ra b rc) ∧
      ∃ v, exec (.inswh ra b rc) s = .next (s.afterX rc v) ∧ ∀ i < 8, byteOf v i =
        if i + 8 - s.shiftCountOf .word B < 2 then byteOf A (i + 8 - s.shiftCountOf .word B) else 0) ∧
    (decodeWord (encodeOpr 0x12#6 0x67#7 ra b rc) = .ok (.inslh ra b rc) ∧
      ∃ v, exec (.inslh ra b rc) s = .next (s.afterX rc v) ∧ ∀ i < 8, byteOf v i =
        if i + 8 - s.shiftCountOf .long B < 4 then byteOf A (i + 8 - s.shiftCountOf .long B) else 0) ∧
    (decodeWord (encodeOpr 0x12#6 0x77#7 ra b rc) = .ok (.insqh ra b rc) ∧
      ∃ v, exec (.insqh ra b rc) s = .next (s.afterX rc v) ∧ ∀ i < 8, byteOf v i =
        if i + 8 - s.shiftCountOf .quad B < 8 then byteOf A (i + 8 - s.shiftCountOf .quad B) else 0)

/-- O20. The low forms clear bytes sh to sh+n-1 of A, the high forms the bytes of that field that fall past byte 7; the
rest of A is kept (43 R267 to R273). -/
def Obligations.Mask : Prop :=
  ∀ (s : State) (ra rc : RegIdx) (b : Opnd), s.ready →
    ∀ A B : Word, A = s.readX ra → B = s.operand b →
    (decodeWord (encodeOpr 0x12#6 0x02#7 ra b rc) = .ok (.mskbl ra b rc) ∧
      ∃ v, exec (.mskbl ra b rc) s = .next (s.afterX rc v) ∧ ∀ i < 8, byteOf v i =
        if s.shiftCountOf .byte B ≤ i ∧ i < s.shiftCountOf .byte B + 1 then 0 else byteOf A i) ∧
    (decodeWord (encodeOpr 0x12#6 0x12#7 ra b rc) = .ok (.mskwl ra b rc) ∧
      ∃ v, exec (.mskwl ra b rc) s = .next (s.afterX rc v) ∧ ∀ i < 8, byteOf v i =
        if s.shiftCountOf .word B ≤ i ∧ i < s.shiftCountOf .word B + 2 then 0 else byteOf A i) ∧
    (decodeWord (encodeOpr 0x12#6 0x22#7 ra b rc) = .ok (.mskll ra b rc) ∧
      ∃ v, exec (.mskll ra b rc) s = .next (s.afterX rc v) ∧ ∀ i < 8, byteOf v i =
        if s.shiftCountOf .long B ≤ i ∧ i < s.shiftCountOf .long B + 4 then 0 else byteOf A i) ∧
    (decodeWord (encodeOpr 0x12#6 0x32#7 ra b rc) = .ok (.mskql ra b rc) ∧
      ∃ v, exec (.mskql ra b rc) s = .next (s.afterX rc v) ∧ ∀ i < 8, byteOf v i =
        if s.shiftCountOf .quad B ≤ i ∧ i < s.shiftCountOf .quad B + 8 then 0 else byteOf A i) ∧
    (decodeWord (encodeOpr 0x12#6 0x52#7 ra b rc) = .ok (.mskwh ra b rc) ∧
      ∃ v, exec (.mskwh ra b rc) s = .next (s.afterX rc v) ∧ ∀ i < 8, byteOf v i =
        if i + 8 < s.shiftCountOf .word B + 2 then 0 else byteOf A i) ∧
    (decodeWord (encodeOpr 0x12#6 0x62#7 ra b rc) = .ok (.msklh ra b rc) ∧
      ∃ v, exec (.msklh ra b rc) s = .next (s.afterX rc v) ∧ ∀ i < 8, byteOf v i =
        if i + 8 < s.shiftCountOf .long B + 4 then 0 else byteOf A i) ∧
    (decodeWord (encodeOpr 0x12#6 0x72#7 ra b rc) = .ok (.mskqh ra b rc) ∧
      ∃ v, exec (.mskqh ra b rc) s = .next (s.afterX rc v) ∧ ∀ i < 8, byteOf v i =
        if i + 8 < s.shiftCountOf .quad B + 8 then 0 else byteOf A i)

/-- O21. ZAP clears the bytes of A whose bit of B is 1, ZAPNOT the others; CMPBGE sets bit i for each byte of A not below
that of B and clears bits 63:8; SEXTB and SEXTW sign-extend the low byte or word of B (43 R274 to R278). -/
def Obligations.ZapCompareExtend : Prop :=
  ∀ (s : State) (ra rc : RegIdx) (b : Opnd), s.ready →
    ∀ A B : Word, A = s.readX ra → B = s.operand b →
    (decodeWord (encodeOpr 0x12#6 0x30#7 ra b rc) = .ok (.zap ra b rc) ∧
      ∃ v, exec (.zap ra b rc) s = .next (s.afterX rc v) ∧
        ∀ i < 8, byteOf v i = if B.getLsbD i then 0 else byteOf A i) ∧
    (decodeWord (encodeOpr 0x12#6 0x31#7 ra b rc) = .ok (.zapnot ra b rc) ∧
      ∃ v, exec (.zapnot ra b rc) s = .next (s.afterX rc v) ∧
        ∀ i < 8, byteOf v i = if B.getLsbD i then byteOf A i else 0) ∧
    (decodeWord (encodeOpr 0x10#6 0x0F#7 ra b rc) = .ok (.cmpbge ra b rc) ∧
      ∃ v, exec (.cmpbge ra b rc) s = .next (s.afterX rc v) ∧
        ∀ i < 64, v.getLsbD i = true ↔ i < 8 ∧ (byteOf B i).toNat ≤ (byteOf A i).toNat) ∧
    (decodeWord (encodeOpr 0x1C#6 0x00#7 ra b rc) = .ok (.sextb ra b rc) ∧
      ∃ v, exec (.sextb ra b rc) s = .next (s.afterX rc v) ∧
        v.toInt = (B.setWidth 8).toInt) ∧
    (decodeWord (encodeOpr 0x1C#6 0x01#7 ra b rc) = .ok (.sextw ra b rc) ∧
      ∃ v, exec (.sextw ra b rc) s = .next (s.afterX rc v) ∧
        v.toInt = (B.setWidth 16).toInt)

/-- O22. CTLZ gives 64 for 0 and otherwise the n for which bit 63-n of B is 1 and every higher bit 0; CTTZ 64 for 0 and
otherwise the n for which bit n is 1 and every lower bit 0 (43 R279, R280). -/
def Obligations.CountZeros : Prop :=
  ∀ (s : State) (ra rc : RegIdx) (b : Opnd), s.ready →
    ∀ A B : Word, A = s.readX ra → B = s.operand b →
    (decodeWord (encodeOpr 0x1C#6 0x32#7 ra b rc) = .ok (.ctlz ra b rc) ∧
      ∃ n, exec (.ctlz ra b rc) s = .next (s.afterX rc (BitVec.ofNat 64 n)) ∧ (B = 0 → n = 64) ∧
        (B ≠ 0 → n < 64 ∧ B.getLsbD (63 - n) = true ∧ ∀ j, 63 - n < j → j < 64 → B.getLsbD j = false)) ∧
    (decodeWord (encodeOpr 0x1C#6 0x33#7 ra b rc) = .ok (.cttz ra b rc) ∧
      ∃ n, exec (.cttz ra b rc) s = .next (s.afterX rc (BitVec.ofNat 64 n)) ∧ (B = 0 → n = 64) ∧
        (B ≠ 0 → n < 64 ∧ B.getLsbD n = true ∧ ∀ j < n, B.getLsbD j = false))

/-- O23. Each lane of Rc is the smaller or larger of the two lanes, as unsigned or signed numbers; no lane affects
another (44 R301 to R308). -/
def Obligations.MinMax : Prop :=
  ∀ (s : State) (ra rc : RegIdx) (b : Opnd), s.ready →
    ∀ A B : Word, A = s.readX ra → B = s.operand b →
    (decodeWord (encodeOpr 0x1C#6 0x3A#7 ra b rc) = .ok (.minub8 ra b rc) ∧
      ∃ v, exec (.minub8 ra b rc) s = .next (s.afterX rc v) ∧
        ∀ j < 8, (byteOf v j).toNat = min (byteOf A j).toNat (byteOf B j).toNat) ∧
    (decodeWord (encodeOpr 0x1C#6 0x38#7 ra b rc) = .ok (.minsb8 ra b rc) ∧
      ∃ v, exec (.minsb8 ra b rc) s = .next (s.afterX rc v) ∧
        ∀ j < 8, (byteOf v j).toInt = min (byteOf A j).toInt (byteOf B j).toInt) ∧
    (decodeWord (encodeOpr 0x1C#6 0x3B#7 ra b rc) = .ok (.minuw4 ra b rc) ∧
      ∃ v, exec (.minuw4 ra b rc) s = .next (s.afterX rc v) ∧
        ∀ j < 4, (wordOf v j).toNat = min (wordOf A j).toNat (wordOf B j).toNat) ∧
    (decodeWord (encodeOpr 0x1C#6 0x39#7 ra b rc) = .ok (.minsw4 ra b rc) ∧
      ∃ v, exec (.minsw4 ra b rc) s = .next (s.afterX rc v) ∧
        ∀ j < 4, (wordOf v j).toInt = min (wordOf A j).toInt (wordOf B j).toInt) ∧
    (decodeWord (encodeOpr 0x1C#6 0x3C#7 ra b rc) = .ok (.maxub8 ra b rc) ∧
      ∃ v, exec (.maxub8 ra b rc) s = .next (s.afterX rc v) ∧
        ∀ j < 8, (byteOf v j).toNat = max (byteOf A j).toNat (byteOf B j).toNat) ∧
    (decodeWord (encodeOpr 0x1C#6 0x3E#7 ra b rc) = .ok (.maxsb8 ra b rc) ∧
      ∃ v, exec (.maxsb8 ra b rc) s = .next (s.afterX rc v) ∧
        ∀ j < 8, (byteOf v j).toInt = max (byteOf A j).toInt (byteOf B j).toInt) ∧
    (decodeWord (encodeOpr 0x1C#6 0x3D#7 ra b rc) = .ok (.maxuw4 ra b rc) ∧
      ∃ v, exec (.maxuw4 ra b rc) s = .next (s.afterX rc v) ∧
        ∀ j < 4, (wordOf v j).toNat = max (wordOf A j).toNat (wordOf B j).toNat) ∧
    (decodeWord (encodeOpr 0x1C#6 0x3F#7 ra b rc) = .ok (.maxsw4 ra b rc) ∧
      ∃ v, exec (.maxsw4 ra b rc) s = .next (s.afterX rc v) ∧
        ∀ j < 4, (wordOf v j).toInt = max (wordOf A j).toInt (wordOf B j).toInt)

/-- O24. PERR is the sum of the eight absolute byte differences; PKLB, PKWB, UNPKBL, UNPKBW move bytes as listed and zero
the rest; packing what was unpacked gives the low word or longword back (44 R309 to R313, R315). -/
def Obligations.PixelErrorPack : Prop :=
  ∀ (s : State) (ra rc : RegIdx) (b : Opnd), s.ready →
    ∀ A B : Word, A = s.readX ra → B = s.operand b →
    (decodeWord (encodeOpr 0x1C#6 0x31#7 ra b rc) = .ok (.perr ra b rc) ∧
      ∃ v, exec (.perr ra b rc) s = .next (s.afterX rc v) ∧
        v.toNat =
          ((List.range 8).map fun i => Int.natAbs ((byteOf A i).toNat - (byteOf B i).toNat : Int)).sum) ∧
    (decodeWord (encodeOpr 0x1C#6 0x37#7 ra b rc) = .ok (.pklb ra b rc) ∧
      ∃ v, exec (.pklb ra b rc) s = .next (s.afterX rc v) ∧
        ∀ i < 8, byteOf v i = if i < 2 then byteOf B (4 * i) else 0) ∧
    (decodeWord (encodeOpr 0x1C#6 0x36#7 ra b rc) = .ok (.pkwb ra b rc) ∧
      ∃ v, exec (.pkwb ra b rc) s = .next (s.afterX rc v) ∧
        ∀ i < 8, byteOf v i = if i < 4 then byteOf B (2 * i) else 0) ∧
    (decodeWord (encodeOpr 0x1C#6 0x35#7 ra b rc) = .ok (.unpkbl ra b rc) ∧
      ∃ v, exec (.unpkbl ra b rc) s = .next (s.afterX rc v) ∧
        ∀ i < 8, byteOf v i = if i % 4 = 0 then byteOf B (i / 4) else 0) ∧
    (decodeWord (encodeOpr 0x1C#6 0x34#7 ra b rc) = .ok (.unpkbw ra b rc) ∧
      ∃ v, exec (.unpkbw ra b rc) s = .next (s.afterX rc v) ∧
        ∀ i < 8, byteOf v i = if i % 2 = 0 then byteOf B (i / 2) else 0) ∧
    (∀ (t : State) (rd : RegIdx), rc ≠ 31 → exec (.unpkbw ra b rc) s = .next t →
      exec (.pkwb ra (.reg rc) rd) t = .next (t.afterX rd ((B.setWidth 32).setWidth 64))) ∧
    (∀ (t : State) (rd : RegIdx), rc ≠ 31 → exec (.unpkbl ra b rc) s = .next t →
      exec (.pklb ra (.reg rc) rd) t = .next (t.afterX rd ((B.setWidth 16).setWidth 64)))

/-- O25. LDA writes Ra with Rb plus the sign-extended displacement, LDAH with Rb plus 65536 times it, completing in
every ready state (45 R323, R324). -/
def Obligations.AddressComputation : Prop :=
  ∀ (s : State) (ra rb : RegIdx) (disp : BitVec 16), s.ready →
    decodeWord (encodeMem 0x08#6 ra rb disp) = .ok (.lda ra rb disp) ∧
    exec (.lda ra rb disp) s = .next (s.afterX ra (s.readX rb + disp.signExtend 64)) ∧
    decodeWord (encodeMem 0x09#6 ra rb disp) = .ok (.ldah ra rb disp) ∧
    exec (.ldah ra rb disp) s = .next (s.afterX ra (s.readX rb + disp.signExtend 64 * 65536))

/-- O26. LDBU, LDWU, LDL, LDQ and LDQ_U, where the load can be made (ids in order, a free slot, the transformed address
aligned and translated, no store pending): the instruction completes, Ra gets the bytes a load sees at the
physical address, little-endian, extended as the completion tag says, and no byte of memory changes (45 R325 to
R329, 20_memory R74, R110). -/
def Obligations.LoadCompletes : Prop :=
  ∀ (s : State) (ra rb : RegIdx) (disp : BitVec 16) (pa : PhysAddr) (ea va : Word) (g : Nat → Byte),
    ea = s.effectiveAddress rb disp → (∀ k, g k = s.mem.byteAt s.cfg (pa.toNat + k)) →
    (va = endianAddress s.cpu.bigEndian ea .byte → s.CanLoad va .byte pa →
      ∃ m, exec (.ldbu ra rb disp) s = .next ((s.afterMem m).writeX ra ((g 0).setWidth 64)) ∧ s.mem.unchanged s.cfg m) ∧
    (va = endianAddress s.cpu.bigEndian ea .word → s.CanLoad va .word pa →
      ∃ m, exec (.ldwu ra rb disp) s = .next ((s.afterMem m).writeX ra ((g 1 ++ g 0).setWidth 64)) ∧ s.mem.unchanged s.cfg m) ∧
    (va = endianAddress s.cpu.bigEndian ea .long → s.CanLoad va .long pa →
      ∃ m, exec (.ldl ra rb disp) s = .next ((s.afterMem m).writeX ra ((g 3 ++ g 2 ++ g 1 ++ g 0).signExtend 64)) ∧ s.mem.unchanged s.cfg m) ∧
    (va = ea → s.CanLoad va .quad pa →
      ∃ m, exec (.ldq ra rb disp) s = .next ((s.afterMem m).writeX ra (g 7 ++ g 6 ++ g 5 ++ g 4 ++ g 3 ++ g 2 ++ g 1 ++ g 0)) ∧ s.mem.unchanged s.cfg m) ∧
    (va = ea &&& ~~~7#64 → s.CanLoad va .quad pa →
      ∃ m, exec (.ldq_u ra rb disp) s = .next ((s.afterMem m).writeX ra (g 7 ++ g 6 ++ g 5 ++ g 4 ++ g 3 ++ g 2 ++ g 1 ++ g 0)) ∧ s.mem.unchanged s.cfg m)

/-- O27. LDL_L and LDQ_L, where the load can be made: as LDL and LDQ, and at retirement the lock flag is set with the
virtual and physical address of the access (45 R338, R339, 20_memory R115). -/
def Obligations.LoadLockedCompletes : Prop :=
  ∀ (s : State) (ra rb : RegIdx) (disp : BitVec 16) (pa : PhysAddr) (ea va : Word) (g : Nat → Byte),
    ea = s.effectiveAddress rb disp → (∀ k, g k = s.mem.byteAt s.cfg (pa.toNat + k)) →
    (va = endianAddress s.cpu.bigEndian ea .long → s.CanLoad va .long pa →
      ∃ m, exec (.ldl_l ra rb disp) s =
          .next (((s.afterMem m).writeX ra ((g 3 ++ g 2 ++ g 1 ++ g 0).signExtend 64)).setLock true va (pa.setWidth 64)) ∧
        s.mem.unchanged s.cfg m) ∧
    (va = ea → s.CanLoad va .quad pa →
      ∃ m, exec (.ldq_l ra rb disp) s =
          .next (((s.afterMem m).writeX ra (g 7 ++ g 6 ++ g 5 ++ g 4 ++ g 3 ++ g 2 ++ g 1 ++ g 0)).setLock true va (pa.setWidth 64)) ∧
        s.mem.unchanged s.cfg m)

/-- O28. STB, STW, STL, STQ and STQ_U, where the store can be made: the instruction completes, the bytes at the physical
address are the low bytes of Ra, every other byte a load sees is as before, and no register changes (45 R330 to
R334, R336, 20_memory R114). -/
def Obligations.StoreCompletes : Prop :=
  ∀ (s : State) (ra rb : RegIdx) (disp : BitVec 16) (pa : PhysAddr) (ea va : Word),
    ea = s.effectiveAddress rb disp →
    (va = endianAddress s.cpu.bigEndian ea .byte → s.CanStore va .byte pa →
      ∃ m, exec (.stb ra rb disp) s = .next (s.afterMem m) ∧ s.mem.stored s.cfg m pa.toNat 1 (s.readX ra)) ∧
    (va = endianAddress s.cpu.bigEndian ea .word → s.CanStore va .word pa →
      ∃ m, exec (.stw ra rb disp) s = .next (s.afterMem m) ∧ s.mem.stored s.cfg m pa.toNat 2 (s.readX ra)) ∧
    (va = endianAddress s.cpu.bigEndian ea .long → s.CanStore va .long pa →
      ∃ m, exec (.stl ra rb disp) s = .next (s.afterMem m) ∧ s.mem.stored s.cfg m pa.toNat 4 (s.readX ra)) ∧
    (va = ea → s.CanStore va .quad pa →
      ∃ m, exec (.stq ra rb disp) s = .next (s.afterMem m) ∧ s.mem.stored s.cfg m pa.toNat 8 (s.readX ra)) ∧
    (va = ea &&& ~~~7#64 → s.CanStore va .quad pa →
      ∃ m, exec (.stq_u ra rb disp) s = .next (s.afterMem m) ∧ s.mem.stored s.cfg m pa.toNat 8 (s.readX ra))

/-- O29. STL_C and STQ_C, where the store can be made and no older lock instruction is in flight: with the committed lock
flag set, the bytes are written and Ra becomes 1; with it clear, memory is untouched and Ra becomes 0; the flag
is clear afterwards (45 R340, R341, R337). -/
def Obligations.StoreConditionalCompletes : Prop :=
  ∀ (s : State) (ra rb : RegIdx) (disp : BitVec 16) (pa : PhysAddr) (ea va : Word),
    ea = s.effectiveAddress rb disp → olderLockInFlight s s.ids.next = false →
    (va = endianAddress s.cpu.bigEndian ea .long → s.CanStore va .long pa →
      (s.cpu.lockFlag = true → ∃ m,
        exec (.stl_c ra rb disp) s = .next (((s.afterMem m).writeX ra 1).clearLockFlag) ∧
        s.mem.stored s.cfg m pa.toNat 4 (s.readX ra)) ∧
      (s.cpu.lockFlag = false →
        exec (.stl_c ra rb disp) s = .next (((s.afterMem s.mem).writeX ra 0).clearLockFlag))) ∧
    (va = ea → s.CanStore va .quad pa →
      (s.cpu.lockFlag = true → ∃ m,
        exec (.stq_c ra rb disp) s = .next (((s.afterMem m).writeX ra 1).clearLockFlag) ∧
        s.mem.stored s.cfg m pa.toNat 8 (s.readX ra)) ∧
      (s.cpu.lockFlag = false →
        exec (.stq_c ra rb disp) s = .next (((s.afterMem s.mem).writeX ra 0).clearLockFlag)))

/-- O30. Every load and store, aligned and with a free slot, whose translation gives an outcome o: the sequencer stops
with o at this instruction; only the id counters and the translation buffer change, no register, no memory, no
lock (60_exceptions R489, 20_memory R106, R107, R112, R116). -/
def Obligations.MemoryFaults : Prop :=
  ∀ (s : State) (ra rb : RegIdx) (disp : BitVec 16) (ea va : Word) (w : Width) (o : ExceptionOutcome) (t : Tlb),
    ea = s.effectiveAddress rb disp → s.memReady → va.toNat % w.bytes = 0 →
    (∀ n < Config.queueDepth, Table.at? s.lq n = none →
      translateOn s.cpu s.dtb va .read = .ok (.fault o, t) →
      (va = endianAddress s.cpu.bigEndian ea .byte → w = .byte → exec (.ldbu ra rb disp) s = .next (s.afterMemTrap t o)) ∧
      (va = endianAddress s.cpu.bigEndian ea .word → w = .word → exec (.ldwu ra rb disp) s = .next (s.afterMemTrap t o)) ∧
      (va = endianAddress s.cpu.bigEndian ea .long → w = .long → exec (.ldl ra rb disp) s = .next (s.afterMemTrap t o)) ∧
      (va = ea → w = .quad → exec (.ldq ra rb disp) s = .next (s.afterMemTrap t o)) ∧
      (va = ea &&& ~~~7#64 → w = .quad → exec (.ldq_u ra rb disp) s = .next (s.afterMemTrap t o)) ∧
      (va = endianAddress s.cpu.bigEndian ea .long → w = .long → exec (.ldl_l ra rb disp) s = .next (s.afterMemTrap t o)) ∧
      (va = ea → w = .quad → exec (.ldq_l ra rb disp) s = .next (s.afterMemTrap t o))) ∧
    (∀ n < Config.queueDepth, Table.at? s.sq n = none →
      translateOn s.cpu s.dtb va .write = .ok (.fault o, t) → olderLockInFlight s s.ids.next = false →
      (va = endianAddress s.cpu.bigEndian ea .byte → w = .byte → exec (.stb ra rb disp) s = .next (s.afterMemTrap t o)) ∧
      (va = endianAddress s.cpu.bigEndian ea .word → w = .word → exec (.stw ra rb disp) s = .next (s.afterMemTrap t o)) ∧
      (va = endianAddress s.cpu.bigEndian ea .long → w = .long → exec (.stl ra rb disp) s = .next (s.afterMemTrap t o)) ∧
      (va = ea → w = .quad → exec (.stq ra rb disp) s = .next (s.afterMemTrap t o)) ∧
      (va = ea &&& ~~~7#64 → w = .quad → exec (.stq_u ra rb disp) s = .next (s.afterMemTrap t o)) ∧
      (va = endianAddress s.cpu.bigEndian ea .long → w = .long → exec (.stl_c ra rb disp) s = .next (s.afterMemTrap t o)) ∧
      (va = ea → w = .quad → exec (.stq_c ra rb disp) s = .next (s.afterMemTrap t o)))

/-- O31. In big-endian mode a byte, word or longword address is XORed with 7, 6 or 4 and a quadword address kept; in
little-endian mode nothing changes; natural alignment is kept either way. A misaligned word, longword or
quadword access has no meaning and is refused by name (45 R322, 20_memory R78, R79). -/
def Obligations.AlignmentAndEndian : Prop :=
  (∀ ea : Word, (∀ w, endianAddress false ea w = ea) ∧ endianAddress true ea .byte = ea ^^^ 7 ∧
    endianAddress true ea .word = ea ^^^ 6 ∧ endianAddress true ea .long = ea ^^^ 4 ∧
    endianAddress true ea .quad = ea ∧
    ∀ e w, (endianAddress e ea w).toNat % w.bytes = 0 ↔ ea.toNat % w.bytes = 0) ∧
  ∀ (s : State) (ra rb : RegIdx) (disp : BitVec 16) (ea va : Word) (w : Width),
    ea = s.effectiveAddress rb disp → s.memReady → va.toNat % w.bytes ≠ 0 →
    (∀ n < Config.queueDepth, Table.at? s.lq n = none →
      (va = endianAddress s.cpu.bigEndian ea .word → w = .word → exec (.ldwu ra rb disp) s = .refused .misaligned) ∧
      (va = endianAddress s.cpu.bigEndian ea .long → w = .long → exec (.ldl ra rb disp) s = .refused .misaligned) ∧
      (va = ea → w = .quad → exec (.ldq ra rb disp) s = .refused .misaligned) ∧
      (va = endianAddress s.cpu.bigEndian ea .long → w = .long → exec (.ldl_l ra rb disp) s = .refused .misaligned) ∧
      (va = ea → w = .quad → exec (.ldq_l ra rb disp) s = .refused .misaligned)) ∧
    (∀ n < Config.queueDepth, Table.at? s.sq n = none → olderLockInFlight s s.ids.next = false →
      (va = endianAddress s.cpu.bigEndian ea .word → w = .word → exec (.stw ra rb disp) s = .refused .misaligned) ∧
      (va = endianAddress s.cpu.bigEndian ea .long → w = .long → exec (.stl ra rb disp) s = .refused .misaligned) ∧
      (va = ea → w = .quad → exec (.stq ra rb disp) s = .refused .misaligned) ∧
      (va = endianAddress s.cpu.bigEndian ea .long → w = .long → exec (.stl_c ra rb disp) s = .refused .misaligned) ∧
      (va = ea → w = .quad → exec (.stq_c ra rb disp) s = .refused .misaligned))

/-- O32. In kernel mode the first enabled superpage window that applies gives its address with no lookup and no state
change; otherwise no match gives SingleMiss or DoubleMiss by the pending flag and sets it, one match gives its
address or AccessViolation with no state change, and two matches are refused (20_memory R89, R90, R91, R93). -/
def Obligations.Translation : Prop :=
  ∀ (cpu : Cpu) (t : Tlb) (va : Word) (kind : AccessKind) (w2 w1 w0 : Prop), t.wf →
    (w2 ↔ cpu.mode = .kernel ∧ cpu.spe.getLsbD 2 = true ∧ va.extractLsb' 46 2 = 0b10#2) →
    (w1 ↔ cpu.mode = .kernel ∧ cpu.spe.getLsbD 1 = true ∧ va.extractLsb' 41 7 = 0b1111110#7) →
    (w0 ↔ cpu.mode = .kernel ∧ cpu.spe.getLsbD 0 = true ∧ va.extractLsb' 30 18 = 0x3FFFE#18) →
    (w2 → translateOn cpu t va kind = .ok (.ok (va.extractLsb' 0 44), t)) ∧
    (¬ w2 → w1 → translateOn cpu t va kind = .ok (.ok ((va.extractLsb' 0 41).signExtend 44), t)) ∧
    (¬ w2 → ¬ w1 → w0 → translateOn cpu t va kind = .ok (.ok ((va.extractLsb' 0 30).setWidth 44), t)) ∧
    (¬ w2 → ¬ w1 → ¬ w0 →
      ((∀ e ∈ t.entries, e.2.hits cpu.asn va = false) →
        translateOn cpu t va kind =
          .ok (.fault (if t.missPending then .doubleMiss else .singleMiss), { t with missPending := true })) ∧
      (∀ e ∈ t.entries, e.2.hits cpu.asn va = true → (∀ e' ∈ t.entries, e'.2.hits cpu.asn va = true → e' = e) →
        (e.2.permits cpu.mode kind = true → translateOn cpu t va kind = .ok (.ok (e.2.physical va), t)) ∧
        (e.2.permits cpu.mode kind = false → translateOn cpu t va kind = .ok (.fault .accessViolation, t))) ∧
      (∀ e ∈ t.entries, ∀ e' ∈ t.entries, e ≠ e' → e.2.hits cpu.asn va = true → e'.2.hits cpu.asn va = true →
        translateOn cpu t va kind = .error .tlbMultiHit))

/-- O33. An entry hits when the virtual page numbers agree above its granularity bits and the ASN agrees or the match bit
is set; reads and fetches need the read enable of the mode, writes its write enable; the physical address takes
its low 13 + 3*gh bits from the virtual address and the rest from the entry (20_memory R87, R88, R92). -/
def Obligations.PageMatchAndAddress : Prop :=
  ∀ (e : TlbEntry) (asn : BitVec 8) (va : Word),
    (e.hits asn va = true ↔
      va.extractLsb' 13 35 >>> (3 * e.gh.toNat) = e.vpn >>> (3 * e.gh.toNat) ∧ (e.asm = true ∨ e.asn = asn)) ∧
    e.permits .kernel .read = e.kre ∧ e.permits .kernel .fetch = e.kre ∧ e.permits .kernel .write = e.kwe ∧
    e.permits .user .read = e.ure ∧ e.permits .user .fetch = e.ure ∧ e.permits .user .write = e.uwe ∧
    ∀ i < 44, (e.physical va).getLsbD i =
      if i < 13 + 3 * e.gh.toNat then va.getLsbD i else e.ppn.getLsbD (i - 13)

/-- O34. If some valid entry has the key of the new one, an entry of that key is overwritten and the pointer stays;
otherwise the entry at the pointer is overwritten and the pointer advances modulo 128; the pending flag is
cleared either way, and every other entry stays (20_memory R96). -/
def Obligations.AddEntry : Prop :=
  ∀ (t : Tlb) (e : TlbEntry), t.wf →
    (t.addEntry e).missPending = false ∧
    ((∃ p ∈ t.entries, p.2.vpn = e.vpn ∧ p.2.gh = e.gh ∧ p.2.asm = e.asm ∧ p.2.asn = e.asn) →
      (t.addEntry e).next = t.next ∧
      ∃ p ∈ t.entries, (p.2.vpn = e.vpn ∧ p.2.gh = e.gh ∧ p.2.asm = e.asm ∧ p.2.asn = e.asn) ∧
        ∀ j, Table.at? (t.addEntry e).entries j = if j = p.1 then some e else Table.at? t.entries j) ∧
    ((∀ p ∈ t.entries, ¬ (p.2.vpn = e.vpn ∧ p.2.gh = e.gh ∧ p.2.asm = e.asm ∧ p.2.asn = e.asn)) →
      (t.addEntry e).next.toNat = (t.next.toNat + 1) % 128 ∧
      ∀ j, Table.at? (t.addEntry e).entries j = if j = t.next.toNat then some e else Table.at? t.entries j)

/-- O35. In user mode a translation that gives an address found an entry of the buffer that hits under the current ASN
and carries the user write enable for a write or the user read enable for a read or fetch, and changed nothing;
no superpage setting matters (60_exceptions R495, 20_memory R88, R89). -/
def Obligations.UserModeIsolation : Prop :=
  ∀ (cpu : Cpu) (t t' : Tlb) (va : Word) (kind : AccessKind) (pa : PhysAddr), cpu.mode = .user →
    translateOn cpu t va kind = .ok (.ok pa, t') →
    t' = t ∧ ∃ e ∈ t.entries, e.2.hits cpu.asn va = true ∧ pa = e.2.physical va ∧
      (kind = .write → e.2.uwe = true) ∧ (kind ≠ .write → e.2.ure = true)

/-- O36. With F the pending older stores that overlap the load: F empty, the value is MemRead; otherwise the member
with the largest id gives its low bytes if address and width match, and if they do not the completion is not enabled
(20_memory R109). lq_complete of a slot that is not Pending, or whose value is not enabled, is refused; otherwise the
destv of the slot's record becomes the value under the record's completion function, the slot becomes Completed, no
other slot or record changes, and no register and no CPU state does (20_memory R108, 40 R165; that a slot whose record
was discarded still completes, and writes no record, is the model's choice, log 33). -/
def Obligations.LoadCompletion : Prop :=
  ∀ (s : State) (n : Nat) (q : LqSlot),
    ((∀ p ∈ s.sq, ¬ p.2.mustForward q) → loadValue s q = s.mem.read s.cfg q.pa q.width) ∧
    (∀ p ∈ s.sq, p.2.mustForward q →
      (∀ p' ∈ s.sq, p'.2.mustForward q → p' ≠ p → p'.2.instrId < p.2.instrId) →
      (p.2.pa = q.pa ∧ p.2.width = q.width → ∃ v, loadValue s q = .ok (v, s.mem) ∧
        v.toNat = p.2.value.toNat % 2 ^ (8 * q.width.bytes)) ∧
      (¬ (p.2.pa = q.pa ∧ p.2.width = q.width) → loadValue s q = .error .completionNotEnabled)) ∧
    (Table.at? s.lq n = none → transact (.lqComplete n) s = .error .completionNotEnabled) ∧
    (Table.at? s.lq n = some q → q.state ≠ .pending →
      transact (.lqComplete n) s = .error .completionNotEnabled) ∧
    (Table.at? s.lq n = some q → q.state = .pending →
      (∀ e, loadValue s q = .error e → transact (.lqComplete n) s = .error e) ∧
      ∀ v m, loadValue s q = .ok (v, m) → ∃ t, transact (.lqComplete n) s = .ok t ∧
        Table.at? t.lq n = some { q with state := .completed } ∧ (∀ k ≠ n, Table.at? t.lq k = Table.at? s.lq k) ∧
        t.mem = m ∧ t.sq = s.sq ∧ t.x = s.x ∧ t.f = s.f ∧ t.cpu = s.cpu ∧
        (∀ r, Table.at? s.inflight q.instrId = some r → r.id = q.instrId →
          Table.at? t.inflight q.instrId = some { r with destv := { r.destv with bits :=
            match r.completion with
            | .none => v
            | .zeroExtendByte => (v.setWidth 8).setWidth 64
            | .zeroExtendWord => (v.setWidth 16).setWidth 64
            | .signExtendLong => (v.setWidth 32).signExtend 64 } } ∧
          ∀ k ≠ q.instrId, Table.at? t.inflight k = Table.at? s.inflight k) ∧
        (Table.at? s.inflight q.instrId = none → t.inflight = s.inflight))

/-- O37. On a good memory system an aligned MemWrite succeeds, the bytes it covers become those of the value, every other
byte a load sees stays, and a MemRead of the same place then returns the value's low bytes and changes no byte
(20_memory R110, R114, 49_cache R464). -/
def Obligations.ReadAfterWrite : Prop :=
  ∀ (cfg : Cfg) (m : MemSys) (pa : PhysAddr) (w : Width) (v : Word), m.wf cfg → m.coherent cfg →
    pa.toNat % w.bytes = 0 →
    ∃ m', m.write cfg pa w v = .ok m' ∧ m.stored cfg m' pa.toNat w.bytes v ∧
      ∃ u m'', m'.read cfg pa w = .ok (u, m'') ∧ u.toNat = v.toNat % 2 ^ (8 * w.bytes) ∧ m'.unchanged cfg m''

/-- O38. On a good memory system dcache_fill, flush and invalidate succeed, keep it good and change no byte a load sees;
an icache_fill that answers leaves the data side alone; a flushed cache is as after reset, and an invalidated
line is no longer found (49_cache R461 to R464). -/
def Obligations.CachesAreTransparent : Prop :=
  ∀ (cfg : Cfg) (m : MemSys) (c : CacheId) (line : Nat), m.wf cfg → m.coherent cfg →
    line < 2 ^ Config.lineBits →
    (m.unchanged cfg (m.flush cfg c) ∧ (m.flush cfg c).cache c = Cache.reset) ∧
    (∃ m', m.invalidate cfg c line = .ok m' ∧ m.unchanged cfg m' ∧ m'.lookup cfg c line = .ok none) ∧
    ((∀ e ∈ m.dcache.lines, heldLine Config.cacheSetBits e.1 e.2.tag ≠ line) →
      ∃ m' r, m.dcacheFill cfg line = .ok m' ∧ m.unchanged cfg m' ∧ m'.lookup cfg .dcache line = .ok (some r)) ∧
    (∀ m', m.icacheFill cfg line = .ok m' → m.unchanged cfg m' ∧ m'.dcache = m.dcache ∧ m'.store = m.store)

/-- O39. On a good memory system, after flush(Dcache) and then flush(Bcache) the backing store's byte at every address is
the byte a load saw before (20_memory R120, 49_cache R462). -/
def Obligations.FlushReachesStore : Prop :=
  ∀ (cfg : Cfg) (m : MemSys), m.wf cfg → m.coherent cfg →
    ∀ a, Memory.read ((m.flush cfg .dcache).flush cfg .bcache).store a = m.byteAt cfg a

/-- O40. retire of a record not waiting, with an exceptional outcome, out of id order, or a load whose slot is not
completed is refused. Otherwise the register gets destv, the pending lock is set or cleared, no other CPU state
changes, a store's own pending slot is written to memory, and the record ceases to exist (20_memory R115; that an
exceptional outcome is refused and that a slot counts only if its instr_id is the record's are the model's choices,
log 30 and log 35, as is that the outcome of an older record is no obstacle, log 45). -/
def Obligations.RetireCommits : Prop :=
  ∀ (s : State) (r : Record), Table.at? s.inflight r.id = some r → s.mem.wf s.cfg → s.mem.coherent s.cfg →
    (r.state ≠ .waitingRetirement ∨ r.outcome ≠ some .noException ∨ r.id < s.ids.doneBelow ∨
        (isLoadOpcode r.opcode = true ∧
          ¬ ∃ q, Table.at? s.lq r.slot = some q ∧ q.instrId = r.id ∧ q.state = .completed) →
      ∃ e, retirePort s r.id = .error e) ∧
    (r.state = .waitingRetirement → r.outcome = some .noException → s.ids.doneBelow ≤ r.id →
      (isLoadOpcode r.opcode = true →
        ∃ q, Table.at? s.lq r.slot = some q ∧ q.instrId = r.id ∧ q.state = .completed) →
      (∀ q, isStoreOpcode r.opcode = true → Table.at? s.sq r.slot = some q → q.pa.toNat % q.width.bytes = 0) →
      ∃ t, retirePort s r.id = .ok t ∧
        t.x = (s.writeReg r.aDest r.destv.bits).x ∧ t.f = (s.writeReg r.aDest r.destv.bits).f ∧
        t.cpu = { s.cpu with
          lockFlag := if r.clearLockPending then false else if r.lockPending then true else s.cpu.lockFlag,
          lockVa := if r.lockPending then r.lockVa else s.cpu.lockVa,
          lockPa := if r.lockPending then r.lockPa else s.cpu.lockPa } ∧
        t.ids.doneBelow = r.id + 1 ∧ Table.at? t.inflight r.id = none ∧
        (∀ q, isStoreOpcode r.opcode = true → Table.at? s.sq r.slot = some q → q.instrId = r.id →
          q.state = .pending →
          s.mem.stored s.cfg t.mem q.pa.toNat q.width.bytes q.value ∧
          Table.at? t.sq r.slot = some { q with state := .completed }) ∧
        ((¬ ∃ q, isStoreOpcode r.opcode = true ∧ Table.at? s.sq r.slot = some q ∧ q.instrId = r.id ∧
            q.state = .pending) → t.mem = s.mem ∧ t.sq = s.sq))

/-- O41. discard of a waiting record changes no register, no CPU state and no memory; the record ceases to exist, and
a store-queue slot of its own becomes completed without being written; a record that is not waiting is refused
(20_memory R116; the MODEL'S choices: that a record with NoException is discarded like one with another outcome, log
30; that a discard is accepted though an older record has not retired, log 45; that a slot counts only if its instr_id
is the record's, log 35). -/
def Obligations.DiscardCommitsNothing : Prop :=
  ∀ (s : State) (r : Record), Table.at? s.inflight r.id = some r →
    (r.state ≠ .waitingRetirement → ∃ e, discardPort s r.id = .error e) ∧
    (r.state = .waitingRetirement → ∃ t, discardPort s r.id = .ok t ∧
      t.x = s.x ∧ t.f = s.f ∧ t.cpu = s.cpu ∧ t.mem = s.mem ∧ t.lq = s.lq ∧ Table.at? t.inflight r.id = none ∧
      r.id < t.ids.doneBelow ∧
      (∀ q, isStoreOpcode r.opcode = true → Table.at? s.sq r.slot = some q → q.instrId = r.id →
        Table.at? t.sq r.slot = some { q with state := .completed }) ∧
      ∀ j, (isStoreOpcode r.opcode = true → j ≠ r.slot) → Table.at? t.sq j = Table.at? s.sq j)

/-- O42. A dispatch that answers, whatever the record, leaves the register files, memory, the caches and the committed
lock as they were; the record then waits for retirement and holds the answered outcome, and on an exceptional outcome
its destv is as it was and a lock_pending that was false is still false (10_state R21, R29, 60_exceptions R489, 70
R526). A dispatch whose destv is not the destination's current value is refused: the destv of the youngest older
record still in flight that writes the register, once its load is complete, and the register file's value if there is
no such record (42 R239, 70 R525); a conditional move under the sequencer, which pre-loads the register file's value,
is refused likewise. Of all transactions, only retire and the retirement collaborator's writeReg change a register;
only retire changes the lock addresses, and only retire, clearLock and reset the lock flag; with MP false and clean
lines in agreement with the backing store, only retire, the cache write, the backing store's own write and reset
change a byte a load sees (49_cache R464), and the others keep the hierarchy good. The outcomes have the codes 0 to 6
(60_exceptions R480). The MODEL'S choices in it: that a record below a retired or discarded id is no previous writer
any more (log 14), that one with an exceptional outcome still is (log 44) and one dispatched later is not (log 43),
and that the sequencer, beside records of the agenda, is refused and does not wait (log 38); that a record holds its
outcome, and that the answer stands in result (log 31, log 34); that reset keeps the register files, whose values
after reset R44 and R521 leave unspecified (DEDUCED, log 24), and the lock addresses (log 7); and, in the clause about
unchanged bytes, that configure changes a cache's shape only while it is empty (log 8) and that fill brings clean
lines with the backing store's bytes (log 36). -/
def Obligations.OnlyRetirementCommits : Prop :=
  (∀ (s t : State) (r : Record), dispatchPort s r = .ok t →
    t.x = s.x ∧ t.f = s.f ∧ t.mem = s.mem ∧ t.pc = s.pc ∧ t.program = s.program ∧ t.pred = s.pred ∧
    t.itb = s.itb ∧ t.cfg = s.cfg ∧
    t.cpu.lockFlag = s.cpu.lockFlag ∧ t.cpu.lockVa = s.cpu.lockVa ∧ t.cpu.lockPa = s.cpu.lockPa ∧
    ∃ r' o, Table.at? t.inflight r.id = some r' ∧ r'.id = r.id ∧ r'.state = .waitingRetirement ∧
      r'.outcome = some o ∧ t.result = .outcome o ∧
      (o ≠ .noException → r'.destv = r.destv ∧ (r.lockPending = false → r'.lockPending = false))) ∧
  (∀ (s : State) (r : Record), s.idsWf → Table.at? s.inflight r.id = none → r.aDest.idx ≠ 31 →
    (∀ p, s.pendingWriter r.id r.aDest p → loadIsComplete s p = false ∨ r.destv.bits ≠ p.destv.bits →
      dispatchPort s r = .error .destNotPreloaded) ∧
    ((∀ p, ¬ s.pendingWriter r.id r.aDest p) → r.destv.bits ≠ s.readReg r.aDest →
      dispatchPort s r = .error .destNotPreloaded)) ∧
  (∀ (s : State) (ra rb rc : RegIdx) (b : Opnd) (d : RegRef) (i : Instr) (p : Record), s.idsWf → rc ≠ 31 →
    (d = ⟨.int, rc⟩ ∧ i ∈ [.cmoveq ra b rc, .cmovne ra b rc, .cmovlt ra b rc, .cmovge ra b rc, .cmovle ra b rc,
        .cmovgt ra b rc, .cmovlbs ra b rc, .cmovlbc ra b rc] ∨
      d = ⟨.fp, rc⟩ ∧ i ∈ [.fcmoveq ra rb rc, .fcmovne ra rb rc, .fcmovlt ra rb rc, .fcmovge ra rb rc,
        .fcmovle ra rb rc, .fcmovgt ra rb rc]) →
    s.pendingWriter s.ids.next d p → loadIsComplete s p = false ∨ p.destv.bits ≠ s.readReg d →
    exec i s = .refused .destNotPreloaded) ∧
  (∀ (s t : State) (τ : Transaction), transact τ s = .ok t → (∀ id, τ ≠ .retire id) →
    ((∀ r v, τ ≠ .writeReg r v) → t.x = s.x ∧ t.f = s.f) ∧
    t.cpu.lockVa = s.cpu.lockVa ∧ t.cpu.lockPa = s.cpu.lockPa ∧
    (τ ≠ .clearLock → τ ≠ .reset → t.cpu.lockFlag = s.cpu.lockFlag) ∧
    ((∀ la off w v, τ ≠ .write la off w v) → (∀ pa bytes, τ ≠ .storeWrite pa bytes) → τ ≠ .reset →
      s.cfg.mp = false → s.mem.wf s.cfg → s.mem.coherent s.cfg →
      t.mem.wf t.cfg ∧ t.mem.coherent t.cfg ∧ ∀ a, t.mem.byteAt t.cfg a = s.mem.byteAt s.cfg a)) ∧
  ExceptionOutcome.noException.code = 0 ∧ (∀ d, (ExceptionOutcome.arithmeticTraps d).code = 1) ∧
  ExceptionOutcome.illegalOperand.code = 2 ∧ ExceptionOutcome.accessViolation.code = 3 ∧
  ExceptionOutcome.translationNotValid.code = 4 ∧ ExceptionOutcome.singleMiss.code = 5 ∧
  ExceptionOutcome.doubleMiss.code = 6

/-- O43. get_lq_slot and get_sq_slot take the smallest free index and leave an idle slot there; with none free they
are refused; put_lq_slot and put_sq_slot free a slot that is completed or idle and refuse one that is pending
(20_memory R104). The last two clauses, that they refuse a slot that is free, are the MODEL'S CHOICE (DESIGN CHOICE,
log 39), not R104's. -/
def Obligations.SlotAllocation : Prop :=
  ∀ (s : State) (n : Nat),
    (n < 32 → Table.at? s.lq n = none → (∀ j < n, Table.at? s.lq j ≠ none) →
      ∃ q : LqSlot, getLqSlot s = .ok (n, s.withLq (Table.put s.lq n q)) ∧ q.state = .idle ∧ q.paValid = false) ∧
    ((∀ j < 32, Table.at? s.lq j ≠ none) → getLqSlot s = .error .noFreeSlot) ∧
    (n < 32 → Table.at? s.sq n = none → (∀ j < n, Table.at? s.sq j ≠ none) →
      ∃ q : SqSlot, getSqSlot s = .ok (n, s.withSq (Table.put s.sq n q)) ∧ q.state = .idle ∧ q.paValid = false ∧
        q.doWrite = false) ∧
    ((∀ j < 32, Table.at? s.sq j ≠ none) → getSqSlot s = .error .noFreeSlot) ∧
    (∀ q, Table.at? s.lq n = some q → putLqSlot s n =
      if q.state = .pending then .error .slotNotReleasable else .ok (s.withLq (Table.del s.lq n))) ∧
    (∀ q, Table.at? s.sq n = some q → putSqSlot s n =
      if q.state = .pending then .error .slotNotReleasable else .ok (s.withSq (Table.del s.sq n))) ∧
    (Table.at? s.lq n = none → putLqSlot s n = .error .slotNotReleasable) ∧
    (Table.at? s.sq n = none → putSqSlot s n = .error .slotNotReleasable)

/-- O44. CPYS, CPYSN, CPYSE, CVTLQ and CVTQL complete in every ready state with the stated bits in Fc; CVTQL/V and
CVTQL/SV do so if B is a sign-extended longword, and otherwise set IOV and SUM and end in ArithmeticTraps with
IntegerOverflow, writing no register (46 R390 to R396). -/
def Obligations.FpSignAndConvert : Prop :=
  ∀ (s : State) (fa fb fc : RegIdx), s.ready →
    ∀ A B : Word, A = s.readF fa → B = s.readF fb →
    (decodeWord (encodeFp 0x17#6 0x020#11 fa fb fc) = .ok (.cpys fa fb fc) ∧
      exec (.cpys fa fb fc) s = .next (s.afterF fc ((A &&& 0x8000000000000000#64) ||| (B &&& 0x7FFFFFFFFFFFFFFF#64)))) ∧
    (decodeWord (encodeFp 0x17#6 0x021#11 fa fb fc) = .ok (.cpysn fa fb fc) ∧
      exec (.cpysn fa fb fc) s = .next (s.afterF fc ((~~~A &&& 0x8000000000000000#64) ||| (B &&& 0x7FFFFFFFFFFFFFFF#64)))) ∧
    (decodeWord (encodeFp 0x17#6 0x022#11 fa fb fc) = .ok (.cpyse fa fb fc) ∧
      exec (.cpyse fa fb fc) s = .next (s.afterF fc ((A &&& 0xFFF0000000000000#64) ||| (B &&& 0x000FFFFFFFFFFFFF#64)))) ∧
    (decodeWord (encodeFp 0x17#6 0x010#11 fa fb fc) = .ok (.cvtlq fa fb fc) ∧
      exec (.cvtlq fa fb fc) s = .next (s.afterF fc ((B.extractLsb' 62 2 ++ B.extractLsb' 29 30).signExtend 64))) ∧
    (decodeWord (encodeFp 0x17#6 0x030#11 fa fb fc) = .ok (.cvtql fa fb fc) ∧
      exec (.cvtql fa fb fc) s = .next (s.afterF fc (B.extractLsb' 30 2 ++ 0#3 ++ B.extractLsb' 0 30 ++ 0#29))) ∧
    (decodeWord (encodeFp 0x17#6 0x130#11 fa fb fc) = .ok (.cvtql_v fa fb fc) ∧
      (sext32 B = B → exec (.cvtql_v fa fb fc) s = .next (s.afterF fc (B.extractLsb' 30 2 ++ 0#3 ++ B.extractLsb' 0 30 ++ 0#29))) ∧
      (sext32 B ≠ B → exec (.cvtql_v fa fb fc) s =
        .next ((s.setFpcr (s.cpu.fpcr ||| 0x8200000000000000#64)).afterTrap
          (.arithmeticTraps { integerOverflow := true })))) ∧
    (decodeWord (encodeFp 0x17#6 0x530#11 fa fb fc) = .ok (.cvtql_sv fa fb fc) ∧
      (sext32 B = B → exec (.cvtql_sv fa fb fc) s = .next (s.afterF fc (B.extractLsb' 30 2 ++ 0#3 ++ B.extractLsb' 0 30 ++ 0#29))) ∧
      (sext32 B ≠ B → exec (.cvtql_sv fa fb fc) s =
        .next ((s.setFpcr (s.cpu.fpcr ||| 0x8200000000000000#64)).afterTrap
          (.arithmeticTraps { integerOverflow := true }))))

/-- O45. Each of the six completes in every ready state; with z(A) that bits 62:0 of A are zero and n(A) that bit 63
is one, it writes Fc with B when its test holds and otherwise leaves every register as it was (46 R398 to R403). -/
def Obligations.FloatConditionalMove : Prop :=
  ∀ (s : State) (fa fb fc : RegIdx), s.ready →
    ∀ A B : Word, A = s.readF fa → B = s.readF fb →
    (decodeWord (encodeFp 0x17#6 0x02A#11 fa fb fc) = .ok (.fcmoveq fa fb fc) ∧
      exec (.fcmoveq fa fb fc) s = .next (if A &&& 0x7FFFFFFFFFFFFFFF#64 = 0 then s.afterF fc B else s.spend.advance)) ∧
    (decodeWord (encodeFp 0x17#6 0x02B#11 fa fb fc) = .ok (.fcmovne fa fb fc) ∧
      exec (.fcmovne fa fb fc) s = .next (if ¬ A &&& 0x7FFFFFFFFFFFFFFF#64 = 0 then s.afterF fc B else s.spend.advance)) ∧
    (decodeWord (encodeFp 0x17#6 0x02C#11 fa fb fc) = .ok (.fcmovlt fa fb fc) ∧
      exec (.fcmovlt fa fb fc) s = .next (if A.msb = true ∧ ¬ A &&& 0x7FFFFFFFFFFFFFFF#64 = 0 then s.afterF fc B else s.spend.advance)) ∧
    (decodeWord (encodeFp 0x17#6 0x02D#11 fa fb fc) = .ok (.fcmovge fa fb fc) ∧
      exec (.fcmovge fa fb fc) s = .next (if A.msb = false ∨ A &&& 0x7FFFFFFFFFFFFFFF#64 = 0 then s.afterF fc B else s.spend.advance)) ∧
    (decodeWord (encodeFp 0x17#6 0x02E#11 fa fb fc) = .ok (.fcmovle fa fb fc) ∧
      exec (.fcmovle fa fb fc) s = .next (if A.msb = true ∨ A &&& 0x7FFFFFFFFFFFFFFF#64 = 0 then s.afterF fc B else s.spend.advance)) ∧
    (decodeWord (encodeFp 0x17#6 0x02F#11 fa fb fc) = .ok (.fcmovgt fa fb fc) ∧
      exec (.fcmovgt fa fb fc) s = .next (if A.msb = false ∧ ¬ A &&& 0x7FFFFFFFFFFFFFFF#64 = 0 then s.afterF fc B else s.spend.advance))

/-- O46. MT_FPCR writes bits 63:47 of the first operand to the FPCR, the rest zero, and no register; MF_FPCR writes Fc
with the FPCR; both complete in every ready state (46 R404, R405). -/
def Obligations.FpcrMoves : Prop :=
  ∀ (s : State) (fa fb fc : RegIdx), s.ready →
    ∀ A B : Word, A = s.readF fa → B = s.readF fb →
    decodeWord (encodeFp 0x17#6 0x024#11 fa fb fc) = .ok (.mt_fpcr fa fb fc) ∧
    exec (.mt_fpcr fa fb fc) s = .next ((s.setFpcr (A &&& 0xFFFF800000000000#64)).spend.advance) ∧
    decodeWord (encodeFp 0x17#6 0x025#11 fa fb fc) = .ok (.mf_fpcr fa fb fc) ∧
    exec (.mf_fpcr fa fb fc) s = .next (s.afterF fc s.cpu.fpcr)

/-- O47. ADDS, ADDT, MULS and MULT end as ieee_arith of their format and operation says: with no enabled condition the
sticky status bits are set and Fc gets the result, with one the status bits are set and the instruction ends in
ArithmeticTraps with the enabled conditions, writing no register (46 R372, R380 to R383). -/
def Obligations.IeeeEnds : Prop :=
  ∀ (s : State) (fa fb fc : RegIdx) (trp : BitVec 3) (rnd : BitVec 2), s.ready → ieeeTrpOk trp = true →
    ∀ A B : Word, A = s.readF fa → B = s.readF fb →
    (decodeWord (encodeFp 0x16#6 (fpFunction trp rnd 0x00#6) fa fb fc) = .ok (.adds fa fb fc trp rnd) ∧
      ∀ st en v, ieeeArith s.cpu.fpcr (fpFunction trp rnd 0x00#6) .s .add A B = .exit st en v →
        (en.any = false → exec (.adds fa fb fc trp rnd) s =
          .next ((s.setFpcr (fpcrWithStatus s.cpu.fpcr st)).afterF fc v)) ∧
        (en.any = true → exec (.adds fa fb fc trp rnd) s =
          .next ((s.setFpcr (fpcrWithStatus s.cpu.fpcr st)).afterTrap (.arithmeticTraps en)))) ∧
    (decodeWord (encodeFp 0x16#6 (fpFunction trp rnd 0x20#6) fa fb fc) = .ok (.addt fa fb fc trp rnd) ∧
      ∀ st en v, ieeeArith s.cpu.fpcr (fpFunction trp rnd 0x20#6) .t .add A B = .exit st en v →
        (en.any = false → exec (.addt fa fb fc trp rnd) s =
          .next ((s.setFpcr (fpcrWithStatus s.cpu.fpcr st)).afterF fc v)) ∧
        (en.any = true → exec (.addt fa fb fc trp rnd) s =
          .next ((s.setFpcr (fpcrWithStatus s.cpu.fpcr st)).afterTrap (.arithmeticTraps en)))) ∧
    (decodeWord (encodeFp 0x16#6 (fpFunction trp rnd 0x02#6) fa fb fc) = .ok (.muls fa fb fc trp rnd) ∧
      ∀ st en v, ieeeArith s.cpu.fpcr (fpFunction trp rnd 0x02#6) .s .mul A B = .exit st en v →
        (en.any = false → exec (.muls fa fb fc trp rnd) s =
          .next ((s.setFpcr (fpcrWithStatus s.cpu.fpcr st)).afterF fc v)) ∧
        (en.any = true → exec (.muls fa fb fc trp rnd) s =
          .next ((s.setFpcr (fpcrWithStatus s.cpu.fpcr st)).afterTrap (.arithmeticTraps en)))) ∧
    (decodeWord (encodeFp 0x16#6 (fpFunction trp rnd 0x22#6) fa fb fc) = .ok (.mult fa fb fc trp rnd) ∧
      ∀ st en v, ieeeArith s.cpu.fpcr (fpFunction trp rnd 0x22#6) .t .mul A B = .exit st en v →
        (en.any = false → exec (.mult fa fb fc trp rnd) s =
          .next ((s.setFpcr (fpcrWithStatus s.cpu.fpcr st)).afterF fc v)) ∧
        (en.any = true → exec (.mult fa fb fc trp rnd) s =
          .next ((s.setFpcr (fpcrWithStatus s.cpu.fpcr st)).afterTrap (.arithmeticTraps en))))

/-- O48. ADDF, ADDG, MULF and MULG end as vax_arith says, completing with no enabled condition and trapping with one; an
operand of class Reserved or DirtyZero sets INV and SUM and ends in IllegalOperand, whatever the other operand
(46 R376, R384 to R387, 60_exceptions R483). -/
def Obligations.VaxEnds : Prop :=
  ∀ (s : State) (fa fb fc : RegIdx) (trp : BitVec 3) (rnd : BitVec 2), s.ready → vaxTrpOk trp = true → vaxRndOk rnd = true →
    ∀ A B : Word, A = s.readF fa → B = s.readF fb →
    (decodeWord (encodeFp 0x15#6 (fpFunction trp rnd 0x00#6) fa fb fc) = .ok (.addf fa fb fc trp rnd) ∧
      ∀ st en v, vaxArith s.cfg.vaxTie (fpFunction trp rnd 0x00#6) .f .add A B = .exit st en v →
        (en.any = false → exec (.addf fa fb fc trp rnd) s =
          .next ((s.setFpcr (fpcrWithStatus s.cpu.fpcr st)).afterF fc v)) ∧
        (en.any = true → exec (.addf fa fb fc trp rnd) s =
          .next ((s.setFpcr (fpcrWithStatus s.cpu.fpcr st)).afterTrap (.arithmeticTraps en)))) ∧
    (decodeWord (encodeFp 0x15#6 (fpFunction trp rnd 0x20#6) fa fb fc) = .ok (.addg fa fb fc trp rnd) ∧
      ∀ st en v, vaxArith s.cfg.vaxTie (fpFunction trp rnd 0x20#6) .g .add A B = .exit st en v →
        (en.any = false → exec (.addg fa fb fc trp rnd) s =
          .next ((s.setFpcr (fpcrWithStatus s.cpu.fpcr st)).afterF fc v)) ∧
        (en.any = true → exec (.addg fa fb fc trp rnd) s =
          .next ((s.setFpcr (fpcrWithStatus s.cpu.fpcr st)).afterTrap (.arithmeticTraps en)))) ∧
    (decodeWord (encodeFp 0x15#6 (fpFunction trp rnd 0x02#6) fa fb fc) = .ok (.mulf fa fb fc trp rnd) ∧
      ∀ st en v, vaxArith s.cfg.vaxTie (fpFunction trp rnd 0x02#6) .f .mul A B = .exit st en v →
        (en.any = false → exec (.mulf fa fb fc trp rnd) s =
          .next ((s.setFpcr (fpcrWithStatus s.cpu.fpcr st)).afterF fc v)) ∧
        (en.any = true → exec (.mulf fa fb fc trp rnd) s =
          .next ((s.setFpcr (fpcrWithStatus s.cpu.fpcr st)).afterTrap (.arithmeticTraps en)))) ∧
    (decodeWord (encodeFp 0x15#6 (fpFunction trp rnd 0x22#6) fa fb fc) = .ok (.mulg fa fb fc trp rnd) ∧
      ∀ st en v, vaxArith s.cfg.vaxTie (fpFunction trp rnd 0x22#6) .g .mul A B = .exit st en v →
        (en.any = false → exec (.mulg fa fb fc trp rnd) s =
          .next ((s.setFpcr (fpcrWithStatus s.cpu.fpcr st)).afterF fc v)) ∧
        (en.any = true → exec (.mulg fa fb fc trp rnd) s =
          .next ((s.setFpcr (fpcrWithStatus s.cpu.fpcr st)).afterTrap (.arithmeticTraps en)))) ∧
    ((fpClass .f A ∈ [.reserved, .dirtyZero] ∨ fpClass .f B ∈ [.reserved, .dirtyZero]) →
      exec (.addf fa fb fc trp rnd) s =
        .next ((s.setFpcr (s.cpu.fpcr ||| 0x8010000000000000#64)).afterTrap .illegalOperand)) ∧
    ((fpClass .g A ∈ [.reserved, .dirtyZero] ∨ fpClass .g B ∈ [.reserved, .dirtyZero]) →
      exec (.addg fa fb fc trp rnd) s =
        .next ((s.setFpcr (s.cpu.fpcr ||| 0x8010000000000000#64)).afterTrap .illegalOperand)) ∧
    ((fpClass .f A ∈ [.reserved, .dirtyZero] ∨ fpClass .f B ∈ [.reserved, .dirtyZero]) →
      exec (.mulf fa fb fc trp rnd) s =
        .next ((s.setFpcr (s.cpu.fpcr ||| 0x8010000000000000#64)).afterTrap .illegalOperand)) ∧
    ((fpClass .g A ∈ [.reserved, .dirtyZero] ∨ fpClass .g B ∈ [.reserved, .dirtyZero]) →
      exec (.mulg fa fb fc trp rnd) s =
        .next ((s.setFpcr (s.cpu.fpcr ||| 0x8010000000000000#64)).afterTrap .illegalOperand))

/-- O49. For S and for T, in this order: a denormal operand with DNZ and DNOD clear is an invalid operation that
traps; a NaN operand gives the quieted NaN, B's before A's, invalid if one is signaling; adding infinities of opposite
sign and multiplying infinity by zero (or by a denormal that DNZ makes zero) are invalid with the canonical NaN;
otherwise an infinity gives an infinity of the sign the rule names (46 R370, R374). An S NaN is written in the S
register layout, its ignored bits canonical (DEDUCED, log 17); for T quiet(v) is v OR 2^51. -/
def Obligations.IeeeSpecialOperands : Prop :=
  ∀ (fpcr : Word) (fn : BitVec 11) (fmt : FpFormat) (op : FpOp) (a b : Word) (ca cb : FpClass) (invd inv : Bool)
    (quiet inf : Word → Word), fmt ∈ [.s, .t] →
    ca = fpClass fmt a → cb = fpClass fmt b → invd = fpcr.getLsbD 49 →
    inv = ((ca == .notANumber && !a.getLsbD 51) || (cb == .notANumber && !b.getLsbD 51)) →
    (∀ v, quiet v = if fmt = .s then (v &&& 0xFFFFFFFFE0000000#64) ||| 0x7FF8000000000000#64
      else v ||| 0x0008000000000000#64) →
    (∀ v, inf v = if v.msb then 0xFFF0000000000000#64 else 0x7FF0000000000000#64) →
    ((ca = .denormal ∨ cb = .denormal) → fpcr.getLsbD 48 = false → fpcr.getLsbD 47 = false →
      ieeeArith fpcr fn fmt op a b = .exit { invalidOperation := true } { invalidOperation := true } 0) ∧
    (((ca ≠ .denormal ∧ cb ≠ .denormal) ∨ fpcr.getLsbD 48 = true ∨ fpcr.getLsbD 47 = true) →
      (cb = .notANumber → ieeeArith fpcr fn fmt op a b =
        .exit { invalidOperation := inv } { invalidOperation := inv && !invd } (quiet b)) ∧
      (ca = .notANumber → cb ≠ .notANumber → ieeeArith fpcr fn fmt op a b =
        .exit { invalidOperation := inv } { invalidOperation := inv && !invd } (quiet a)) ∧
      (ca = .infinity → cb ∈ [.finite, .zero, .denormal] →
        ieeeArith fpcr fn fmt .add a b = .exit {} {} (inf a) ∧
        ieeeArith fpcr fn fmt .add b a = .exit {} {} (inf a)) ∧
      (ca = .infinity → (cb = .zero ∨ (cb = .denormal ∧ fpcr.getLsbD 48 = true)) →
        ieeeArith fpcr fn fmt .mul a b =
          .exit { invalidOperation := true } { invalidOperation := !invd } 0xFFF8000000000000#64 ∧
        ieeeArith fpcr fn fmt .mul b a =
          .exit { invalidOperation := true } { invalidOperation := !invd } 0xFFF8000000000000#64) ∧
      (ca = .infinity → (cb ∈ [.finite, .infinity] ∨ (cb = .denormal ∧ fpcr.getLsbD 48 = false)) →
        ieeeArith fpcr fn fmt .mul a b = .exit {} {} (inf (a ^^^ b)) ∧
        ieeeArith fpcr fn fmt .mul b a = .exit {} {} (inf (a ^^^ b)))) ∧
    (ca = .infinity → cb = .infinity →
      (a.msb = b.msb → ieeeArith fpcr fn fmt .add a b = .exit {} {} (inf a)) ∧
      (a.msb ≠ b.msb → ieeeArith fpcr fn fmt .add a b =
        .exit { invalidOperation := true } { invalidOperation := !invd } 0xFFF8000000000000#64))

/-- O50. For S and for T, on operands that are finite, zero, or denormal and let through by DNZ or DNOD, with x the
exact sum or product: if x is 0 the answer is a zero of the sign R375 names and no status. Otherwise x rounded to p
bits is a number y, and: 2^(emax+1) or more sets OVF and INE, enabled by OVFD and by /SUI with INED, and gives the
infinity or the largest finite number by the mode; from 2^emin on, the answer is the register value of y, in the
format's view and in T's, with INE set, and enabled by /SUI with INED, if and only if y is not x; below 2^emin UNF is
set and the three rows of R371 apply: the trap, the rounding to the denormal grid, plus zero. Magnitudes of 2^(emax+1)
and more never round below it, and those below 2^(emin-1) never up to 2^emin. With no qualifier, INVD and OVFD set and
DNZ or DNOD set, the four IEEE instructions complete on every operand (46 R361, R362, R368, R370 to R373, R375). That
a denormal result rounding to zero keeps its sign, and that the second and third row trap on an enabled inexact
condition, are the model's readings (DEDUCED, log 16, log 18). -/
def Obligations.IeeeFiniteResults : Prop :=
  (∀ (fpcr : Word) (fn : BitVec 11) (fmt : FpFormat) (op : FpOp) (a b : Word) (va vb x : ℚ) (mode : RoundMode)
    (p : Nat) (emin emax : ℤ) (ineOn negative : Bool) (sign : Word),
    ((fmt = .s ∧ p = 24 ∧ emin = -126 ∧ emax = 127) ∨ (fmt = .t ∧ p = 53 ∧ emin = -1022 ∧ emax = 1023)) →
    (∀ v ∈ [a, b], fpClass fmt v ∈ [.finite, .zero] ∨
      (fpClass fmt v = .denormal ∧ (fpcr.getLsbD 48 = true ∨ fpcr.getLsbD 47 = true))) →
    va = (if fpClass fmt a = .denormal ∧ fpcr.getLsbD 48 = true then 0 else fpValue fmt a) →
    vb = (if fpClass fmt b = .denormal ∧ fpcr.getLsbD 48 = true then 0 else fpValue fmt b) →
    x = (match op with
      | .add => va + vb
      | .mul => va * vb) →
    mode = (match (if fn.extractLsb' 6 2 = 0b11#2 then fpcr.extractLsb' 58 2 else fn.extractLsb' 6 2).toNat with
      | 0 => .chop
      | 1 => .minf
      | 2 => .near
      | _ => .pinf) →
    ineOn = (fn.extractLsb' 8 3 == 0b111#3 && !fpcr.getLsbD 62) →
    negative = (match op with
      | .mul => a.msb != b.msb
      | .add => if va = 0 ∧ vb = 0 ∧ a.msb = b.msb then a.msb else decide (mode = .minf)) →
    sign = (if x < 0 then 0x8000000000000000#64 else 0) →
    (x = 0 → ieeeArith fpcr fn fmt op a b = .exit {} {} (if negative then 0x8000000000000000#64 else 0)) ∧
    (x ≠ 0 → ∃ y, RoundsToPrec mode p x y ∧
      ((2 : ℚ) ^ (emax + 1) ≤ |x| → (2 : ℚ) ^ (emax + 1) ≤ |y|) ∧
      (|x| < (2 : ℚ) ^ (emin - 1) → |y| < (2 : ℚ) ^ emin) ∧
      ((2 : ℚ) ^ (emax + 1) ≤ |y| → ieeeArith fpcr fn fmt op a b =
        .exit { overflow := true, inexact := true } { overflow := !fpcr.getLsbD 51, inexact := ineOn }
          (sign ||| (if mode = .near ∨ (mode = .pinf ∧ 0 < x) ∨ (mode = .minf ∧ x < 0) then 0x7FF0000000000000#64
            else if fmt = .s then 0x47EFFFFFE0000000#64 else 0x7FEFFFFFFFFFFFFF#64))) ∧
      ((2 : ℚ) ^ emin ≤ |y| → |y| < (2 : ℚ) ^ (emax + 1) → ∃ v, ieeeArith fpcr fn fmt op a b =
          .exit { inexact := decide (y ≠ x) } { inexact := decide (y ≠ x) && ineOn } v ∧
        fpClass fmt v = .finite ∧ fpValue fmt v = y ∧ fpValue .t v = y) ∧
      (|y| < (2 : ℚ) ^ emin →
        (fn.getLsbD 8 = true → fpcr.getLsbD 61 = false → ∃ v, ieeeArith fpcr fn fmt op a b =
          .exit { underflow := true, inexact := decide (y ≠ x) }
            { underflow := true, inexact := decide (y ≠ x) && ineOn } v) ∧
        (fn.getLsbD 8 = true → fpcr.getLsbD 61 = true → fpcr.getLsbD 60 = false →
          ∃ g v, RoundsOnGrid mode ((2 : ℚ) ^ (emin - p + 1)) x g ∧ ieeeArith fpcr fn fmt op a b =
            .exit { underflow := true, inexact := decide (g ≠ x) } { inexact := decide (g ≠ x) && ineOn } v ∧
          fpClass fmt v ∈ [.zero, .denormal, .finite] ∧ fpValue fmt v = g ∧ v.msb = decide (x < 0) ∧
          (fmt = .s → v.extractLsb' 0 29 = 0 ∧
            v.extractLsb' 59 3 = if v.extractLsb' 52 7 = 0 then 0b000#3 else 0b111#3)) ∧
        (fn.getLsbD 8 = false ∨ (fpcr.getLsbD 61 = true ∧ fpcr.getLsbD 60 = true) →
          ieeeArith fpcr fn fmt op a b = .exit { underflow := true, inexact := true } { inexact := ineOn } 0)))) ∧
  ∀ (s : State) (fa fb fc : RegIdx) (rnd : BitVec 2), s.ready → s.cpu.fpcr.getLsbD 49 = true →
    s.cpu.fpcr.getLsbD 51 = true → (s.cpu.fpcr.getLsbD 48 = true ∨ s.cpu.fpcr.getLsbD 47 = true) →
    ∀ i ∈ [Instr.adds fa fb fc 0 rnd, .addt fa fb fc 0 rnd, .muls fa fb fc 0 rnd, .mult fa fb fc 0 rnd],
      ∃ c v, exec i s = .next ((s.setFpcr c).afterF fc v)

/-- O51. For a non-zero exact number x and precision p at least 1: the unit 2^q makes |x| a number of p bits, the rounded
magnitude is a multiple of it less than one unit away, it is exact if and only if not marked inexact, chop never
exceeds |x|, the directed modes round toward their side, and the nearest modes are at most half a unit away,
ties to the even or to the larger multiple (46 R373). -/
def Obligations.RoundingIsCorrect : Prop :=
  ∀ (mode : RoundMode) (p : Nat) (x : Machine.Dyadic) (u n : ℚ) (r : Rounded), 1 ≤ p → x.m ≠ 0 →
    r = roundPrec mode p x → u = (2 : ℚ) ^ r.q → n = |x.toRat| / u →
    (2 : ℚ) ^ (p - 1) ≤ n ∧ n < (2 : ℚ) ^ p ∧
    (r.inexact = false ↔ (r.n : ℚ) = n) ∧
    (mode = .chop ∨ (mode = .minf ∧ 0 < x.toRat) ∨ (mode = .pinf ∧ x.toRat < 0) → (r.n : ℤ) = ⌊n⌋) ∧
    ((mode = .minf ∧ x.toRat < 0) ∨ (mode = .pinf ∧ 0 < x.toRat) → (r.n : ℤ) = ⌈n⌉) ∧
    (mode = .near → |(r.n : ℚ) - n| ≤ 1 / 2 ∧ (|(r.n : ℚ) - n| = 1 / 2 → r.n % 2 = 0)) ∧
    (mode = .vaxAway → |(r.n : ℚ) - n| ≤ 1 / 2 ∧ (|(r.n : ℚ) - n| = 1 / 2 → n < r.n))

/-- O52. If the exact sum or product of two numbers of a format that are finite or zero is the value of a finite
number z of the format, z in the register layout of its results, ieee_arith (S and T) answers z with no status and no
trap, whatever the rounding mode, the qualifiers and the FPCR, and vax_arith (F, G and D) whatever the mode and the
qualifiers. In general vax_arith gives the all-zero word for an exact 0; otherwise x rounded to p bits in the mode of
the qualifier and VAX_TIE is a number y, and it overflows with a trap at 2^(ebmax-bias) and above, below 2^-bias it
traps as underflow with /U and gives zero without status otherwise, and between them it answers the register value of
y with no status (46 R362 to R365, R368, R373, R375, R376, R388). -/
def Obligations.ExactAndVaxResults : Prop :=
  ∀ (fmt : FpFormat) (op : FpOp) (a b : Word) (x : ℚ) (fn : BitVec 11),
    fpClass fmt a ∈ [.finite, .zero] → fpClass fmt b ∈ [.finite, .zero] →
    x = (match op with
      | .add => fpValue fmt a + fpValue fmt b
      | .mul => fpValue fmt a * fpValue fmt b) →
    (∀ z, fpClass fmt z = .finite → fpValue fmt z = x →
      (fmt ∈ [.s, .t] → fpValue .t z = x → ∀ fpcr, ieeeArith fpcr fn fmt op a b = .exit {} {} z) ∧
      (fmt ∈ [.f, .g, .d] → (fmt ≠ .d → fpValue .g z = x) → ∀ tie, vaxArith tie fn fmt op a b = .exit {} {} z)) ∧
    ∀ (tie : VaxTie) (mode : RoundMode) (p : Nat) (hi lo : ℤ),
      ((fmt = .f ∧ p = 24 ∧ hi = 255 - 128 ∧ lo = -128) ∨ (fmt = .g ∧ p = 53 ∧ hi = 2047 - 1024 ∧ lo = -1024) ∨
        (fmt = .d ∧ p = 56 ∧ hi = 255 - 128 ∧ lo = -128)) →
      mode = (if fn.extractLsb' 6 2 = 0b00#2 then .chop else if tie = .away then .vaxAway else .near) →
      (x = 0 → vaxArith tie fn fmt op a b = .exit {} {} 0) ∧
      (x ≠ 0 → ∃ y, RoundsToPrec mode p x y ∧
        ((2 : ℚ) ^ hi ≤ |y| → ∃ v, vaxArith tie fn fmt op a b = .exit { overflow := true } { overflow := true } v) ∧
        (|y| < (2 : ℚ) ^ lo →
          (fn.getLsbD 8 = true → ∃ v, vaxArith tie fn fmt op a b =
            .exit { underflow := true } { underflow := true } v) ∧
          (fn.getLsbD 8 = false → vaxArith tie fn fmt op a b = .exit {} {} 0)) ∧
        ((2 : ℚ) ^ lo ≤ |y| → |y| < (2 : ℚ) ^ hi → ∃ v, vaxArith tie fn fmt op a b = .exit {} {} v ∧
          fpClass fmt v = .finite ∧ fpValue fmt v = y ∧ (fmt ≠ .d → fpValue .g v = y)))

/-- O53. RC writes Ra with the VAX compatibility flag and clears it, RS writes Ra with it and sets it; both complete
in every ready state (47 R420, R421). -/
def Obligations.ReadClearReadSet : Prop :=
  ∀ (s : State) (ra rb : RegIdx), s.ready →
    decodeWord (encodeMem 0x18#6 ra rb 0xE000#16) = .ok (.rc ra rb) ∧
    exec (.rc ra rb) s = .next ((s.setIntrFlag false).afterX ra (if s.cpu.intrFlag then 1 else 0)) ∧
    decodeWord (encodeMem 0x18#6 ra rb 0xF000#16) = .ok (.rs ra rb) ∧
    exec (.rs ra rb) s = .next ((s.setIntrFlag true).afterX ra (if s.cpu.intrFlag then 1 else 0))

/-- O54. predict gives the local, global and choice bits of the counters the histories select, and the overall bit by the
mode; train moves the counters of the old indices toward the outcome, shifts both histories, moves the choice
counter only when the predictions differ, and touches no other entry; the counters saturate (48 R432 to R438). -/
def Obligations.PredictorRules : Prop :=
  (∀ v : BitVec 2, (inc2 v).toNat = min (v.toNat + 1) 3 ∧ (dec2 v).toNat = v.toNat - 1 ∧
    (taken2 v = true ↔ 2 ≤ v.toNat)) ∧
  (∀ v : BitVec 3, (inc3 .plain v).toNat = min (v.toNat + 1) 7 ∧ (dec3 .plain v).toNat = v.toNat - 1 ∧
    (inc3 .hysteresis v).toNat = (if v = 3 then 7 else min (v.toNat + 1) 7) ∧
    (dec3 .hysteresis v).toNat = (if v = 4 then 0 else v.toNat - 1) ∧ (taken3 v = true ↔ 4 ≤ v.toNat)) ∧
  ∀ (s : State) (pc : Word) (taken lp gp : Bool) (li lh gi : Nat) (L G C : Bool),
    li = pc.toNat / 4 % 1024 → lh = (Table.atD s.pred.lht 0 li).toNat → gi = s.pred.gph.toNat →
    L = taken3 (Table.atD s.pred.lpt 0 lh) → G = taken2 (Table.atD s.pred.gpt 0 gi) →
    C = taken2 (Table.atD s.pred.cpt 0 gi) →
    transact (.predict pc) s = .ok (s.withResult (.prediction
      (if s.cpu.predMode = 0 then (if L = G then L else if C then G else L)
       else if s.cpu.predMode = 1 then L else false) L G C)) ∧
    ∃ p, transact (.train pc taken lp gp) s = .ok (s.withPred p) ∧
      (∀ j, Table.atD p.lpt 0 j = if j = lh then
        (if taken then inc3 s.cfg.ctr3 (Table.atD s.pred.lpt 0 j) else dec3 s.cfg.ctr3 (Table.atD s.pred.lpt 0 j))
        else Table.atD s.pred.lpt 0 j) ∧
      (∀ j, (Table.atD p.lht 0 j).toNat = if j = li then (2 * lh + taken.toNat) % 2 ^ 10
        else (Table.atD s.pred.lht 0 j).toNat) ∧
      (∀ j, Table.atD p.gpt 0 j = if j = gi then
        (if taken then inc2 (Table.atD s.pred.gpt 0 j) else dec2 (Table.atD s.pred.gpt 0 j))
        else Table.atD s.pred.gpt 0 j) ∧
      (∀ j, Table.atD p.cpt 0 j = if j = gi ∧ lp ≠ gp then
        (if gp = taken then inc2 (Table.atD s.pred.cpt 0 j) else dec2 (Table.atD s.pred.cpt 0 j))
        else Table.atD s.pred.cpt 0 j) ∧
      p.gph.toNat = (2 * gi + taken.toNat) % 2 ^ 12

/-- O55. The spec gives BNE no row and no rule of its own; the sequencer evaluates it with the Alpha architecture's
semantics, which is the model's choice (log 22): the branch is predicted and trained, and the program counter
goes to the next instruction or, if Ra is not zero, four times the signed 21-bit displacement beyond it. -/
def Obligations.BranchNotEqual : Prop :=
  ∀ (s : State) (ra : RegIdx) (d : BitVec 21), ∃ p,
    runWord (0x3D#6 ++ ra ++ d) s = .next ((s.withPred p).withPc
      (if s.readX ra = 0 then s.pc + 4 else s.pc + 4 + 4 * d.signExtend 64)) ∧
    transact (.train s.pc (s.readX ra != 0) (s.pred.predict s.cpu.predMode s.pc).localTaken
      (s.pred.predict s.cpu.predMode s.pc).globalTaken) s = .ok (s.withPred p)

/-- O56. The reset transaction ends every record, frees every slot, clears the two flags, sets the mode to Kernel and
the ASN to 0, zeroes the predictor, and invalidates both translation buffers and the three caches without writing
anything back (70 R520); FPCR becomes FPCR_RESET with its reserved bits 46:0 zero, which is the model's reading
(DESIGN CHOICE, log 6: R520 says FPCR_RESET, R31 that those bits read as zero). The configuration input sets the
parameters and the configured CPU fields and nothing else; it is refused when a cache's ways change over a valid line
of it (10_state R34, 49_cache R467), and, by the model's choice (log 8), when the Bcache's presence or sets change
over a Bcache line, when MP changes over a Dcache or Bcache line, or when BC_SETS is above 2^38; it may come at any
time, and a new FPCR_RESET leaves cpu.fpcr as it is (the model's choices, log 8, log 6). -/
def Obligations.ResetAndConfiguration : Prop :=
  (∀ s : State, ∃ t, transact .reset s = .ok t ∧ t.inflight = [] ∧ t.lq = [] ∧ t.sq = [] ∧
    t.cpu.intrFlag = false ∧ t.cpu.lockFlag = false ∧ t.cpu.fpcr = (s.cfg.fpcrReset &&& 0xFFFF800000000000#64) ∧
    t.cpu.mode = .kernel ∧ t.cpu.asn = 0 ∧
    (∀ j, Table.atD t.pred.lht 0 j = 0 ∧ Table.atD t.pred.lpt 0 j = 0 ∧ Table.atD t.pred.gpt 0 j = 0 ∧
      Table.atD t.pred.cpt 0 j = 0) ∧ t.pred.gph = 0 ∧
    t.itb.entries = [] ∧ t.itb.next = 0 ∧ t.itb.missPending = false ∧
    t.dtb.entries = [] ∧ t.dtb.next = 0 ∧ t.dtb.missPending = false ∧
    (∀ c, (t.mem.cache c).lines = [] ∧ (t.mem.cache c).rr = []) ∧ t.mem.store = s.mem.store ∧ t.mem.bus = s.mem.bus) ∧
  ∀ (s : State) (c : ConfigInput) (fits : Prop),
    fits = (c.cfg.bcSetBits ≤ 38 ∧
      (c.cfg.icWays = s.cfg.icWays ∨ s.mem.icache.lines = []) ∧
      (c.cfg.dcWays = s.cfg.dcWays ∨ s.mem.dcache.lines = []) ∧
      ((c.cfg.bcPresent = s.cfg.bcPresent ∧ c.cfg.bcSetBits = s.cfg.bcSetBits) ∨ s.mem.bcache.lines = []) ∧
      (c.cfg.mp = s.cfg.mp ∨ (s.mem.dcache.lines = [] ∧ s.mem.bcache.lines = []))) →
    (fits → transact (.configure c) s = .ok { s with
      cfg := c.cfg
      cpu := { s.cpu with bigEndian := c.bigEndian, asn := c.asn, spe := c.spe, predMode := c.predMode } }) ∧
    (¬ fits → transact (.configure c) s = .error .configRejected)

/-- O57. The state after reset meets the invariant: memory in canonical form, caches well formed and exclusive, FPCR
reserved bits zero, tables and queues in range, ids in order, and every clean line agrees with the store. -/
def Obligations.ResetIsGood : Prop :=
  State.reset.Inv ∧ State.reset.mem.coherent State.reset.cfg ∧ State.reset.memReady ∧ State.reset.stopped = none

/-- O58. From every state that meets the invariant, a step that answers a next state, be it an instruction of the
sequencer or any transaction of a collaborator, leads to a state that meets it: canonical memory, one valid line
per address in each cache, Dcache and Bcache exclusive, no dirty Icache line, FPCR bits 46:0 zero, tables and
queues in range, ids in order (10_state R31, R36, 49_cache R464, 60_exceptions R501). -/
def Obligations.StepKeepsInv : Prop :=
  ∀ s t : State, s.Inv → step s = .next t → t.Inv

/-- O59. Whatever the instruction: if it ends a running sequencer's step in an outcome, no register, no byte of memory,
no cache, no queue slot, no lock field, no flag of RC and RS and no predictor entry has changed and the program
counter stays at it; otherwise the program counter advances by 4. Either way exactly one id is used
(60_exceptions R489, R490). -/
def Obligations.ExceptionsArePrecise : Prop :=
  ∀ (i : Instr) (s t : State), s.stopped = none → exec i s = .next t →
    t.ids.next = s.ids.next + 1 ∧
    (t.stopped = none → t.pc = s.pc + 4) ∧
    ∀ o, t.stopped = some o →
      o ≠ .noException ∧ t.pc = s.pc ∧ t.x = s.x ∧ t.f = s.f ∧ t.mem = s.mem ∧ t.lq = s.lq ∧ t.sq = s.sq ∧
      t.pred = s.pred ∧ t.itb = s.itb ∧ t.program = s.program ∧ t.inflight = s.inflight ∧
      t.cpu.lockFlag = s.cpu.lockFlag ∧ t.cpu.lockVa = s.cpu.lockVa ∧ t.cpu.lockPa = s.cpu.lockPa ∧
      t.cpu.intrFlag = s.cpu.intrFlag

/-- O60. No instruction changes the mode, the ASN, the endian flag, the superpage enables, the predictor mode, the
configuration, the Icache, the predictor or the instruction-side buffer. Only MT_FPCR can clear an FPCR bit or
change one that is not sticky status; only RC and RS change the compatibility flag; only LDx_L and STx_C change
the lock, an LDx_L never clears the flag and an STx_C never sets it (10_state R28, R30, 45 R342, 46 R404, 47
R422, 60_exceptions R495). -/
def Obligations.WhoWritesCpuState : Prop :=
  ∀ (i : Instr) (s t : State), exec i s = .next t →
    t.cpu.mode = s.cpu.mode ∧ t.cpu.asn = s.cpu.asn ∧ t.cpu.bigEndian = s.cpu.bigEndian ∧
    t.cpu.spe = s.cpu.spe ∧ t.cpu.predMode = s.cpu.predMode ∧ t.cfg = s.cfg ∧ t.itb = s.itb ∧ t.pred = s.pred ∧
    t.mem.icache = s.mem.icache ∧
    ((∀ fa fb fc, i ≠ .mt_fpcr fa fb fc) →
      s.cpu.fpcr &&& ~~~t.cpu.fpcr = 0 ∧ (t.cpu.fpcr ^^^ s.cpu.fpcr) &&& ~~~fpcrSticky = 0) ∧
    ((∀ ra rb, i ≠ .rc ra rb ∧ i ≠ .rs ra rb) → t.cpu.intrFlag = s.cpu.intrFlag) ∧
    ((∀ ra rb d, i ≠ .ldl_l ra rb d ∧ i ≠ .ldq_l ra rb d) →
      t.cpu.lockVa = s.cpu.lockVa ∧ t.cpu.lockPa = s.cpu.lockPa ∧ (t.cpu.lockFlag = true → s.cpu.lockFlag = true)) ∧
    ((∀ ra rb d, i ≠ .stl_c ra rb d ∧ i ≠ .stq_c ra rb d) → s.cpu.lockFlag = true → t.cpu.lockFlag = true)
end

