-- ==== Sys2Proof/Laws/Table.lean ====
section
/-!
SUPPORT. Sparse tables: reading after an update, and the updates keep the keys rising.
-/

namespace Sys2Proof.Machine

variable {α : Type}

@[simp] theorem Table.at?_nil (k : Nat) : Table.at? ([] : Table α) k = none := rfl

/-! ### Reading after an update -/

@[simp] theorem Table.at?_put_self (t : Table α) (k : Nat) (v : α) : Table.at? (Table.put t k v) k = some v := by
  induction t with
  | nil => simp [Table.put, Table.at?]
  | cons p rest ih =>
    simp only [Table.put]
    split
    · simp [Table.at?]
    · split
      · simp [Table.at?]
      · simp only [Table.at?]; rw [if_neg (by omega)]; exact ih

theorem Table.at?_put_ne (t : Table α) {k j : Nat} (v : α) (h : j ≠ k) :
    Table.at? (Table.put t k v) j = Table.at? t j := by
  induction t with
  | nil => simp [Table.put, Table.at?, Ne.symm h]
  | cons p rest ih =>
    simp only [Table.put]
    split
    · simp [Table.at?, Ne.symm h]
    · split
      · rename_i _ hk; subst hk; simp [Table.at?, Ne.symm h]
      · simp only [Table.at?, ih]

@[simp] theorem Table.at?_del_self (t : Table α) (k : Nat) : Table.at? (Table.del t k) k = none := by
  induction t with
  | nil => rfl
  | cons p rest ih =>
    simp only [Table.del]
    split
    · exact ih
    · rename_i h; simp [Table.at?, h, ih]

theorem Table.at?_del_ne (t : Table α) {k j : Nat} (h : j ≠ k) :
    Table.at? (Table.del t k) j = Table.at? t j := by
  induction t with
  | nil => rfl
  | cons p rest ih =>
    simp only [Table.del]
    split
    · rename_i hk; rw [ih]; simp [Table.at?, hk, Ne.symm h]
    · simp only [Table.at?, ih]

@[simp] theorem Table.atD_putD_self [DecidableEq α] (t : Table α) (d : α) (k : Nat) (v : α) :
    Table.atD (Table.putD t d k v) d k = v := by
  unfold Table.atD Table.putD; split <;> simp_all

theorem Table.atD_putD_ne [DecidableEq α] (t : Table α) (d : α) {k j : Nat} (v : α) (h : j ≠ k) :
    Table.atD (Table.putD t d k v) d j = Table.atD t d j := by
  unfold Table.atD Table.putD; split
  · rw [Table.at?_del_ne t h]
  · rw [Table.at?_put_ne t v h]

/-! ### Membership -/

theorem Table.mem_of_at? {t : Table α} {k : Nat} {v : α} (h : Table.at? t k = some v) : (k, v) ∈ t := by
  induction t with
  | nil => cases h
  | cons p rest ih =>
    simp only [Table.at?] at h
    split at h
    · rename_i hk; cases h; subst hk; exact .head _
    · exact .tail _ (ih h)

theorem Table.at?_of_mem {t : Table α} (hs : Table.Sorted t) {k : Nat} {v : α} (h : (k, v) ∈ t) :
    Table.at? t k = some v := by
  induction t with
  | nil => cases h
  | cons p rest ih =>
    rw [Table.Sorted, List.pairwise_cons] at hs
    cases h with
    | head => simp [Table.at?]
    | tail _ h' =>
      have := hs.1 _ h'
      simp only [Table.at?]; rw [if_neg (by simp at this; omega)]; exact ih hs.2 h'

theorem Table.mem_put {t : Table α} {k : Nat} {v : α} {e : Nat × α} (h : e ∈ Table.put t k v) :
    e = (k, v) ∨ e ∈ t := by
  induction t with
  | nil => simpa [Table.put] using h
  | cons p rest ih =>
    simp only [Table.put] at h
    split at h
    · simpa using h
    · split at h
      · rcases List.mem_cons.1 h with h | h
        · exact .inl h
        · exact .inr (.tail _ h)
      · rcases List.mem_cons.1 h with h | h
        · subst h; exact .inr (.head _)
        · rcases ih h with h | h
          · exact .inl h
          · exact .inr (.tail _ h)

theorem Table.mem_del {t : Table α} {k : Nat} {e : Nat × α} (h : e ∈ Table.del t k) : e ∈ t ∧ e.1 ≠ k := by
  induction t with
  | nil => cases h
  | cons p rest ih =>
    simp only [Table.del] at h
    split at h
    · exact ⟨.tail _ (ih h).1, (ih h).2⟩
    · rename_i hk
      rcases List.mem_cons.1 h with h | h
      · subst h; exact ⟨.head _, hk⟩
      · exact ⟨.tail _ (ih h).1, (ih h).2⟩

/-! ### The keys stay rising -/

theorem Table.sorted_nil : Table.Sorted ([] : Table α) := List.Pairwise.nil

theorem Table.sorted_put {t : Table α} (h : Table.Sorted t) (k : Nat) (v : α) : Table.Sorted (Table.put t k v) := by
  induction t with
  | nil => simp [Table.put]
  | cons p rest ih =>
    rw [Table.Sorted, List.pairwise_cons] at h
    simp only [Table.put]
    split
    · rename_i hk
      refine List.pairwise_cons.2 ⟨fun e he => ?_, List.pairwise_cons.2 h⟩
      rcases List.mem_cons.1 he with he | he
      · subst he; exact hk
      · exact Nat.lt_trans hk (h.1 e he)
    · split
      · rename_i _ hk; subst hk; exact List.pairwise_cons.2 h
      · rename_i h1 h2
        refine List.pairwise_cons.2 ⟨fun e he => ?_, ih h.2⟩
        rcases Table.mem_put he with he | he
        · subst he; simp; omega
        · exact h.1 e he

theorem Table.sorted_del {t : Table α} (h : Table.Sorted t) (k : Nat) : Table.Sorted (Table.del t k) := by
  induction t with
  | nil => exact h
  | cons p rest ih =>
    rw [Table.Sorted, List.pairwise_cons] at h
    simp only [Table.del]
    split
    · exact ih h.2
    · exact List.pairwise_cons.2 ⟨fun e he => h.1 e (Table.mem_del he).1, ih h.2⟩

theorem Table.sorted_putD [DecidableEq α] {t : Table α} (h : Table.Sorted t) (d : α) (k : Nat) (v : α) :
    Table.Sorted (Table.putD t d k v) := by
  unfold Table.putD; split
  · exact Table.sorted_del h k
  · exact Table.sorted_put h k v

theorem Table.mem_putD [DecidableEq α] {t : Table α} {d : α} {k : Nat} {v : α} {e : Nat × α}
    (h : e ∈ Table.putD t d k v) : (e = (k, v) ∧ v ≠ d) ∨ e ∈ t := by
  unfold Table.putD at h; split at h
  · exact .inr (Table.mem_del h).1
  · rename_i hv
    rcases Table.mem_put h with h | h
    · exact .inl ⟨h, hv⟩
    · exact .inr h

/-! ### Taking a free key and giving it back -/

theorem Table.del_of_at?_none {t : Table α} {k : Nat} (h : Table.at? t k = none) : Table.del t k = t := by
  induction t with
  | nil => rfl
  | cons p rest ih =>
    simp only [Table.at?] at h
    split at h
    · cases h
    · rename_i hk; simp [Table.del, hk, ih h]

theorem Table.del_put {t : Table α} {k : Nat} (v : α) (h : Table.at? t k = none) :
    Table.del (Table.put t k v) k = t := by
  induction t with
  | nil => simp [Table.put, Table.del]
  | cons p rest ih =>
    simp only [Table.at?] at h
    split at h
    · cases h
    · rename_i hk
      simp only [Table.put]
      split
      · simp [Table.del, hk, Table.del_of_at?_none h]
      · rw [if_neg (Ne.symm hk)]; simp [Table.del, hk, ih h]

theorem Table.put_put (t : Table α) (k : Nat) (v w : α) : Table.put (Table.put t k v) k w = Table.put t k w := by
  induction t with
  | nil => simp [Table.put]
  | cons p rest ih =>
    simp only [Table.put]
    split
    · simp [Table.put]
    · split
      · simp [Table.put]
      · rename_i h1 h2; simp [Table.put, h1, h2, ih]

theorem Table.freeFrom_spec {t : Table α} {n k j : Nat} (h : Table.freeFrom t n k = some j) :
    k ≤ j ∧ j < k + n ∧ Table.at? t j = none ∧ ∀ i, k ≤ i → i < j → Table.at? t i ≠ none := by
  induction n generalizing k with
  | zero => cases h
  | succ n ih =>
    simp only [Table.freeFrom] at h
    split at h
    · rename_i hk; cases h
      exact ⟨Nat.le_refl _, by omega, by simpa using hk, fun i h1 h2 => absurd h1 (by omega)⟩
    · rename_i hk
      obtain ⟨h1, h2, h3, h4⟩ := ih h
      refine ⟨by omega, by omega, h3, fun i hi hj => ?_⟩
      rcases Nat.eq_or_lt_of_le hi with h | h
      · subst h; simpa using hk
      · exact h4 i h hj

/-- The key found is the smallest free one (20_memory R104). -/
theorem Table.firstFree_spec {t : Table α} {n j : Nat} (h : Table.firstFree t n = some j) :
    j < n ∧ Table.at? t j = none ∧ ∀ i < j, Table.at? t i ≠ none := by
  obtain ⟨-, h2, h3, h4⟩ := Table.freeFrom_spec h
  exact ⟨by omega, h3, fun i hi => h4 i (Nat.zero_le _) hi⟩

end Sys2Proof.Machine
end

