-- ==== Sys2Proof/Laws/Memory.lean ====
section
/-!
SUPPORT. The backing store: read after write, and every operation keeps the canonical form.
-/

namespace Sys2Proof.Machine

@[simp] theorem Memory.read_write_self (m : Memory) (a : Nat) (b : Byte) :
    Memory.read (Memory.write m a b) a = b := Table.atD_putD_self m _ a b

theorem Memory.read_write_ne (m : Memory) {a c : Nat} (b : Byte) (h : c ≠ a) :
    Memory.read (Memory.write m a b) c = Memory.read m c := Table.atD_putD_ne m _ b h

/-- Bytes written one after the other read back; every other address is unchanged. -/
theorem Memory.read_writeBytes (m : Memory) (a : Nat) (bs : List Byte) (c : Nat) :
    Memory.read (Memory.writeBytes m a bs) c =
      if h : a ≤ c ∧ c < a + bs.length then bs[c - a]'(by omega) else Memory.read m c := by
  induction bs generalizing m a with
  | nil => simp only [Memory.writeBytes, List.length_nil]; rw [dif_neg (by omega)]
  | cons b rest ih =>
    simp only [Memory.writeBytes, ih, List.length_cons]
    by_cases hc : c = a
    · subst hc
      rw [dif_neg (by omega), dif_pos (by omega)]; simp
    · by_cases h : a + 1 ≤ c ∧ c < a + 1 + rest.length
      · rw [dif_pos h, dif_pos (by omega)]
        simp only [List.getElem_cons]
        rw [dif_neg (by omega)]
        congr 1
      · rw [dif_neg h, dif_neg (by omega), Memory.read_write_ne m b hc]

theorem Memory.wf_nil : Memory.wf ([] : Memory) := ⟨List.Pairwise.nil, fun _ h => by cases h⟩

theorem Memory.wf_write {m : Memory} (h : Memory.wf m) {a : Nat} (ha : a < 2 ^ 44) (b : Byte) :
    Memory.wf (Memory.write m a b) := by
  refine ⟨Table.sorted_putD h.1 _ a b, fun c hc => ?_⟩
  rcases Table.mem_putD hc with ⟨rfl, hb⟩ | hc
  · exact ⟨ha, hb⟩
  · exact h.2 c hc

theorem Memory.wf_writeBytes {m : Memory} (h : Memory.wf m) {a : Nat} {bs : List Byte}
    (ha : a + bs.length ≤ 2 ^ 44) : Memory.wf (Memory.writeBytes m a bs) := by
  induction bs generalizing m a with
  | nil => exact h
  | cons b rest ih =>
    simp only [List.length_cons] at ha
    exact ih (Memory.wf_write h (by omega) b) (by omega)

theorem Memory.wf_writeBlock {m : Memory} (h : Memory.wf m) {line : Nat} (hl : line < 2 ^ Config.lineBits)
    (data : Block) : Memory.wf (Memory.writeBlock m line data) := by
  have : line < 2 ^ 38 := hl
  exact Memory.wf_writeBytes h (by simp; omega)

/-- After `write_block`, the bytes of the line are the data and every other byte is unchanged. -/
theorem Memory.read_writeBlock (m : Memory) (line : Nat) (data : Block) (a : Nat) :
    Memory.read (Memory.writeBlock m line data) a =
      if a / 64 = line then blockByte data (a % 64) else Memory.read m a := by
  simp only [Memory.writeBlock, Memory.read_writeBytes, Vector.length_toList]
  by_cases h : a / 64 = line
  · rw [dif_pos (by omega), if_pos h]
    have : a - 64 * line = a % 64 := by omega
    simp [blockByte, Nat.mod_lt, this]
  · rw [dif_neg (by omega), if_neg h]

/-- Reading a block gives the bytes of its line. -/
theorem Memory.blockByte_readBlock (m : Memory) (line k : Nat) (h : k < 64) :
    blockByte (Memory.readBlock m line) k = Memory.read m (64 * line + k) := by
  simp [blockByte, Memory.readBlock, h]

end Sys2Proof.Machine
end

