-- ==== Sys2Proof/Laws/Cache.lean ====
section
/-!
SUPPORT. The cache hierarchy: what a lookup finds, and for each fill, eviction and access what it can do
(49_cache R453 to R464).
-/

namespace Sys2Proof.Machine

/-! ### Addressing -/

theorem wayKey_div_two {b line way : Nat} (h : way < 2) : wayKey b line way / 2 = line % 2 ^ b := by
  unfold wayKey setIndex; omega

theorem wayKey_mod_two {b line way : Nat} (h : way < 2) : wayKey b line way % 2 = way := by
  unfold wayKey; omega

theorem heldLine_wayKey {b line way : Nat} (h : way < 2) : heldLine b (wayKey b line way) (tagIndex b line) = line := by
  unfold heldLine tagIndex
  rw [wayKey_div_two h]
  exact Nat.div_add_mod' line (2 ^ b)

theorem tagIndex_heldLine {b key tag : Nat} (h : key / 2 < 2 ^ b) : tagIndex b (heldLine b key tag) = tag := by
  unfold tagIndex heldLine
  rw [Nat.add_comm, Nat.add_mul_div_right _ _ (Nat.two_pow_pos b), Nat.div_eq_of_lt h, Nat.zero_add]

theorem wayKey_heldLine {b key tag : Nat} (h : key / 2 < 2 ^ b) : wayKey b (heldLine b key tag) (key % 2) = key := by
  unfold wayKey setIndex heldLine
  rw [Nat.add_comm (tag * 2 ^ b), Nat.add_mul_mod_self_right, Nat.mod_eq_of_lt h]
  omega

theorem tagIndex_lt {b line : Nat} (hb : b ≤ Config.lineBits) (h : line < 2 ^ Config.lineBits) :
    tagIndex b line < 2 ^ (Config.lineBits - b) := by
  unfold tagIndex
  rw [Nat.div_lt_iff_lt_mul (Nat.two_pow_pos b), ← Nat.pow_add, Nat.sub_add_cancel hb]
  exact h

theorem heldLine_lt {b key tag : Nat} (hb : b ≤ Config.lineBits) (hk : key / 2 < 2 ^ b)
    (ht : tag < 2 ^ (Config.lineBits - b)) : heldLine b key tag < 2 ^ Config.lineBits := by
  unfold heldLine
  have h1 : (tag + 1) * 2 ^ b ≤ 2 ^ (Config.lineBits - b) * 2 ^ b := Nat.mul_le_mul_right _ ht
  rw [← Nat.pow_add, Nat.sub_add_cancel hb, Nat.add_mul] at h1
  omega

/-! ### Lookup -/

theorem Cache.inWay_eq_some {c : Cache} {b ways line way key : Nat} {l : Line} :
    c.inWay b ways line way = some (key, l) ↔
      way < ways ∧ key = wayKey b line way ∧ Table.at? c.lines key = some l ∧ l.tag = tagIndex b line := by
  unfold Cache.inWay
  constructor
  · intro h
    split at h
    · rename_i hw
      split at h
      · rename_i l' hl
        split at h
        · rename_i ht; cases h; exact ⟨hw, rfl, hl, ht⟩
        · cases h
      · cases h
    · cases h
  · rintro ⟨hw, rfl, hl, ht⟩
    simp [hw, hl, ht]

/-- Two listed lines of one line address are one line (R464 a). -/
theorem Cache.held_unique {c : Cache} {b ways : Nat} (h : c.wf b ways) {e e' : Nat × Line} (he : e ∈ c.lines)
    (he' : e' ∈ c.lines) (heq : heldLine b e.1 e.2.tag = heldLine b e'.1 e'.2.tag) : e = e' := by
  have h1 := (h.2.2.1 e he).1
  have h2 := (h.2.2.1 e' he').1
  have ht : e.2.tag = e'.2.tag := by
    rw [← tagIndex_heldLine (tag := e.2.tag) h1, heq, tagIndex_heldLine h2]
  have hs : e.1 / 2 = e'.1 / 2 := by
    unfold heldLine at heq; rw [ht] at heq; omega
  have hk := h.2.2.2.1 e he e' he' hs ht
  have a1 := Table.at?_of_mem h.1 (k := e.1) (v := e.2) he
  have a2 := Table.at?_of_mem h.1 (k := e'.1) (v := e'.2) he'
  rw [hk, a2] at a1
  exact Prod.ext hk (Option.some.inj a1).symm

/-- A lookup finds exactly the listed line of the address. -/
theorem Cache.find_eq_some {c : Cache} {b ways : Nat} (h : c.wf b ways) {line key : Nat} {l : Line} :
    c.find b ways line = some (key, l) ↔ (key, l) ∈ c.lines ∧ heldLine b key l.tag = line := by
  constructor
  · intro hf
    have : ∃ way, way < 2 ∧ c.inWay b ways line way = some (key, l) := by
      unfold Cache.find at hf
      split at hf
      · rename_i r hr; cases hf; exact ⟨0, by omega, hr⟩
      · exact ⟨1, by omega, hf⟩
    obtain ⟨way, hway, hin⟩ := this
    obtain ⟨-, hk, hl, ht⟩ := Cache.inWay_eq_some.1 hin
    refine ⟨Table.mem_of_at? hl, ?_⟩
    rw [ht, hk]; exact heldLine_wayKey hway
  · rintro ⟨hm, hheld⟩
    have hr := h.2.2.1 _ hm
    have hin : c.inWay b ways line (key % 2) = some (key, l) := by
      rw [Cache.inWay_eq_some]
      refine ⟨hr.2.1, ?_, Table.at?_of_mem h.1 hm, ?_⟩
      · rw [← hheld, wayKey_heldLine hr.1]
      · rw [← hheld, tagIndex_heldLine hr.1]
    unfold Cache.find
    rcases Nat.mod_two_eq_zero_or_one key with h0 | h1
    · rw [h0] at hin; rw [hin]
    · rw [h1] at hin
      split
      · rename_i r hr0
        obtain ⟨k', l'⟩ := r
        obtain ⟨-, hk', hl', ht'⟩ := Cache.inWay_eq_some.1 hr0
        have := Cache.held_unique h (Table.mem_of_at? hl') hm
          (by show heldLine b k' l'.tag = heldLine b key l.tag; rw [ht', hk', heldLine_wayKey (by omega), hheld])
        rw [this]
      · exact hin

theorem Cache.find_eq_none {c : Cache} {b ways : Nat} (h : c.wf b ways) {line : Nat} :
    c.find b ways line = none ↔ ∀ e ∈ c.lines, heldLine b e.1 e.2.tag ≠ line := by
  constructor
  · intro hf e he heq
    rw [(Cache.find_eq_some h (key := e.1) (l := e.2)).2 ⟨he, heq⟩] at hf; cases hf
  · intro hall
    cases hf : c.find b ways line with
    | none => rfl
    | some r => obtain ⟨h1, h2⟩ := (Cache.find_eq_some h).1 hf; exact absurd h2 (hall _ h1)

/-- A well-formed cache refuses no lookup (R453, R464 a). -/
theorem Cache.lookup_eq {c : Cache} {b ways : Nat} (h : c.wf b ways) (line : Nat) :
    c.lookup b ways line = .ok (c.find b ways line) := by
  unfold Cache.lookup
  rw [if_neg]
  intro hboth
  simp only [Bool.and_eq_true, Option.isSome_iff_exists] at hboth
  obtain ⟨⟨⟨k0, l0⟩, h0⟩, ⟨⟨k1, l1⟩, h1⟩⟩ := hboth
  obtain ⟨-, hk0, hl0, ht0⟩ := Cache.inWay_eq_some.1 h0
  obtain ⟨-, hk1, hl1, ht1⟩ := Cache.inWay_eq_some.1 h1
  have := h.2.2.2.1 _ (Table.mem_of_at? hl0) _ (Table.mem_of_at? hl1)
    (by show k0 / 2 = k1 / 2; rw [hk0, hk1, wayKey_div_two (by omega), wayKey_div_two (by omega)])
    (by show l0.tag = l1.tag; rw [ht0, ht1])
  simp only [hk0, hk1] at this
  unfold wayKey at this; omega

/-! ### Dropping and installing a line -/

theorem Cache.mem_drop {c : Cache} {key : Nat} {e : Nat × Line} (h : e ∈ (c.drop key).lines) :
    e ∈ c.lines ∧ e.1 ≠ key := Table.mem_del h

theorem Cache.mem_drop_of {c : Cache} {b ways : Nat} (hwf : c.wf b ways) {key : Nat} {e : Nat × Line}
    (h : e ∈ c.lines) (hk : e.1 ≠ key) : e ∈ (c.drop key).lines := by
  apply Table.mem_of_at? (k := e.1) (v := e.2)
  show Table.at? (Table.del c.lines key) e.1 = some e.2
  rw [Table.at?_del_ne _ hk]
  exact Table.at?_of_mem hwf.1 h

theorem Cache.wf_drop {c : Cache} {b ways : Nat} (h : c.wf b ways) (key : Nat) : (c.drop key).wf b ways :=
  ⟨Table.sorted_del h.1 key, h.2.1, fun e he => h.2.2.1 e (Cache.mem_drop he).1,
    fun e he e' he' => h.2.2.2.1 e (Cache.mem_drop he).1 e' (Cache.mem_drop he').1, h.2.2.2.2⟩

/-- The lines of a table with one line put under its key. -/
theorem Table.mem_put_iff {t : Table Line} (hs : Table.Sorted t) {key : Nat} {l : Line} {e : Nat × Line} :
    e ∈ Table.put t key l ↔ e = (key, l) ∨ (e ∈ t ∧ e.1 ≠ key) := by
  have hs' := Table.sorted_put hs key l
  constructor
  · intro h
    have ha := Table.at?_of_mem hs' (k := e.1) (v := e.2) h
    by_cases hk : e.1 = key
    · left
      rw [hk, Table.at?_put_self] at ha
      exact Prod.ext hk (Option.some.inj ha).symm
    · right
      rw [Table.at?_put_ne _ _ hk] at ha
      exact ⟨Table.mem_of_at? ha, hk⟩
  · rintro (rfl | ⟨h, hk⟩)
    · exact Table.mem_of_at? (Table.at?_put_self _ _ _)
    · apply Table.mem_of_at? (k := e.1) (v := e.2)
      rw [Table.at?_put_ne _ _ hk]; exact Table.at?_of_mem hs h

/-- A line put under a key of its own set, in a cache that does not hold it, keeps the cache well formed. -/
theorem Cache.wf_put {c : Cache} {b ways line way : Nat} (h : c.wf b ways) (hb : b ≤ Config.lineBits)
    (hline : line < 2 ^ Config.lineBits) (hway : way < ways) (hways : ways ≤ 2)
    (habs : ∀ e ∈ c.lines, heldLine b e.1 e.2.tag ≠ line) (l : Line) (ht : l.tag = tagIndex b line)
    (rr : Table Nat) (hrs : Table.Sorted rr) (hrr : ∀ e ∈ rr, e.2 < 2 ∧ e.2 ≠ 0) :
    Cache.wf { lines := Table.put c.lines (wayKey b line way) l, rr := rr } b ways := by
  have hset : wayKey b line way / 2 < 2 ^ b := by
    rw [wayKey_div_two (by omega)]; exact Nat.mod_lt _ (Nat.two_pow_pos b)
  refine ⟨Table.sorted_put h.1 _ _, hrs, ?_, ?_, hrr⟩
  · intro e he
    rcases (Table.mem_put_iff h.1).1 he with rfl | ⟨he, -⟩
    · refine ⟨hset, ?_, ?_⟩
      · show wayKey b line way % 2 < ways; rw [wayKey_mod_two (by omega)]; exact hway
      · show l.tag < _; rw [ht]; exact tagIndex_lt hb hline
    · exact h.2.2.1 e he
  · intro e he e' he' hs htag
    rcases (Table.mem_put_iff h.1).1 he with rfl | ⟨hm, hne⟩ <;>
      rcases (Table.mem_put_iff h.1).1 he' with rfl | ⟨hm', hne'⟩
    · rfl
    · exfalso; apply habs e' hm'
      simp only at hs htag
      unfold heldLine; rw [← htag, ← hs, ht]; exact heldLine_wayKey (by omega)
    · exfalso; apply habs e hm
      simp only at hs htag
      unfold heldLine; rw [htag, hs, ht]; exact heldLine_wayKey (by omega)
    · exact h.2.2.2.1 e hm e' hm' hs htag

theorem Cache.victimWay_lt (c : Cache) {b ways line : Nat} (h : 0 < ways) : c.victimWay b ways line < ways := by
  unfold Cache.victimWay
  split
  · exact h
  · split
    · rename_i h1; exact h1.1
    · split
      · assumption
      · exact h

/-- Installing a line keeps the cache well formed. -/
theorem Cache.wf_install {c : Cache} {b ways line way : Nat} (h : c.wf b ways) (hb : b ≤ Config.lineBits)
    (hline : line < 2 ^ Config.lineBits) (hway : way < ways) (hways : ways ≤ 2)
    (habs : ∀ e ∈ c.lines, heldLine b e.1 e.2.tag ≠ line) (l : Line) (ht : l.tag = tagIndex b line) :
    (c.install b ways line way l).wf b ways := by
  apply Cache.wf_put h hb hline hway hways habs l ht
  · exact Table.sorted_putD h.2.1 _ _ _
  · intro e he
    rcases Table.mem_putD he with ⟨rfl, hne⟩ | he
    · refine ⟨?_, hne⟩
      show (way + 1) % ways < 2
      exact Nat.lt_of_lt_of_le (Nat.mod_lt _ (by omega)) hways
    · exact h.2.2.2.2 e he

theorem Ways.count_pos (w : Ways) : 0 < w.count := by cases w <;> decide
theorem Ways.count_le (w : Ways) : w.count ≤ 2 := by cases w <;> decide

theorem Cache.wf_reset (b ways : Nat) : Cache.reset.wf b ways := by simp [Cache.wf, Cache.reset]

end Sys2Proof.Machine
end

