-- ==== Sys2Proof/Laws/Encoding.lean ====
section
/-!
SUPPORT. What the encoders put where, field by field, and how the fields of a word give the word back. A proof
about decoding cites these and does not unfold an encoder.
-/

namespace Sys2Proof

/-! ### The fields of an encoded word -/

theorem fields_encodeMem (op : BitVec 6) (ra rb : RegIdx) (d : BitVec 16) :
    opcodeField (encodeMem op ra rb d) = op ∧ raField (encodeMem op ra rb d) = ra ∧
    rbField (encodeMem op ra rb d) = rb ∧ dispField (encodeMem op ra rb d) = d := by
  refine ⟨?_, ?_, ?_, ?_⟩ <;>
    (unfold encodeMem; first | unfold opcodeField | unfold raField | unfold rbField | unfold dispField) <;>
    ext i hi <;> simp only [BitVec.getElem_extractLsb', BitVec.getLsbD_append] <;> grind

theorem fields_encodeOpr (op : BitVec 6) (fn : BitVec 7) (ra rc : RegIdx) (b : Opnd) :
    opcodeField (encodeOpr op fn ra b rc) = op ∧ raField (encodeOpr op fn ra b rc) = ra ∧
    opndField (encodeOpr op fn ra b rc) = b ∧ oprFunctionField (encodeOpr op fn ra b rc) = fn ∧
    rcField (encodeOpr op fn ra b rc) = rc := by
  cases b with
  | reg rb =>
    have hb : rbField (encodeOpr op fn ra (.reg rb) rc) = rb := by
      unfold encodeOpr rbField
      ext i hi; simp only [BitVec.getElem_extractLsb', BitVec.getLsbD_append]; grind
    have hu : useLiteralField (encodeOpr op fn ra (.reg rb) rc) = 0#1 := by
      unfold encodeOpr useLiteralField
      ext i hi; simp only [BitVec.getElem_extractLsb', BitVec.getLsbD_append]; grind
    refine ⟨?_, ?_, ?_, ?_, ?_⟩
    case refine_3 => simp [opndField, hb, hu]
    all_goals
      (unfold encodeOpr; first | unfold opcodeField | unfold raField | unfold oprFunctionField | unfold rcField) <;>
      ext i hi <;> simp only [BitVec.getElem_extractLsb', BitVec.getLsbD_append] <;> grind
  | lit v =>
    have hb : literalField (encodeOpr op fn ra (.lit v) rc) = v := by
      unfold encodeOpr literalField
      ext i hi; simp only [BitVec.getElem_extractLsb', BitVec.getLsbD_append]; grind
    have hu : useLiteralField (encodeOpr op fn ra (.lit v) rc) = 1#1 := by
      unfold encodeOpr useLiteralField
      ext i hi; simp only [BitVec.getElem_extractLsb', BitVec.getLsbD_append]; grind
    refine ⟨?_, ?_, ?_, ?_, ?_⟩
    case refine_3 => simp [opndField, hb, hu]
    all_goals
      (unfold encodeOpr; first | unfold opcodeField | unfold raField | unfold oprFunctionField | unfold rcField) <;>
      ext i hi <;> simp only [BitVec.getElem_extractLsb', BitVec.getLsbD_append] <;> grind

theorem fields_encodeFp (op : BitVec 6) (fn : BitVec 11) (fa fb fc : RegIdx) :
    opcodeField (encodeFp op fn fa fb fc) = op ∧ raField (encodeFp op fn fa fb fc) = fa ∧
    rbField (encodeFp op fn fa fb fc) = fb ∧ rcField (encodeFp op fn fa fb fc) = fc ∧
    fpFunctionField (encodeFp op fn fa fb fc) = fn := by
  refine ⟨?_, ?_, ?_, ?_, ?_⟩ <;>
    (unfold encodeFp; first | unfold opcodeField | unfold raField | unfold rbField | unfold rcField | unfold fpFunctionField) <;>
    ext i hi <;> simp only [BitVec.getElem_extractLsb', BitVec.getLsbD_append] <;> grind

theorem fields_encodeFp_arith (op : BitVec 6) (trp : BitVec 3) (rnd : BitVec 2) (sf : BitVec 6) (fa fb fc : RegIdx) :
    trpField (encodeFp op (fpFunction trp rnd sf) fa fb fc) = trp ∧
    rndField (encodeFp op (fpFunction trp rnd sf) fa fb fc) = rnd ∧
    srcFncField (encodeFp op (fpFunction trp rnd sf) fa fb fc) = sf := by
  refine ⟨?_, ?_, ?_⟩ <;>
    (unfold encodeFp fpFunction; first | unfold trpField | unfold rndField | unfold srcFncField) <;>
    ext i hi <;> simp only [BitVec.getElem_extractLsb', BitVec.getLsbD_append] <;> grind

theorem wordOfBytes_bytes (w : InstrWord) :
    wordOfBytes (byteOfWord w 0) (byteOfWord w 1) (byteOfWord w 2) (byteOfWord w 3) = w := by
  unfold wordOfBytes byteOfWord
  ext i hi; simp only [BitVec.getElem_append, BitVec.getElem_extractLsb']; grind

/-! ### A word from its fields -/

theorem encodeMem_fields (w : InstrWord) :
    encodeMem (opcodeField w) (raField w) (rbField w) (dispField w) = w := by
  unfold encodeMem opcodeField raField rbField dispField
  ext i hi; simp only [BitVec.getElem_append, BitVec.getElem_extractLsb']; grind

theorem encodeFp_fields (w : InstrWord) :
    encodeFp (opcodeField w) (fpFunctionField w) (raField w) (rbField w) (rcField w) = w := by
  unfold encodeFp opcodeField raField rbField rcField fpFunctionField
  ext i hi; simp only [BitVec.getElem_append, BitVec.getElem_extractLsb']; grind

theorem encodeFp_fields_arith (w : InstrWord) :
    encodeFp (opcodeField w) (fpFunction (trpField w) (rndField w) (srcFncField w)) (raField w) (rbField w) (rcField w) = w := by
  unfold encodeFp fpFunction opcodeField raField rbField rcField trpField rndField srcFncField
  ext i hi; simp only [BitVec.getElem_append, BitVec.getElem_extractLsb']; grind

theorem encodeOpr_fields (w : InstrWord) :
    encodeOpr (opcodeField w) (oprFunctionField w) (raField w) (opndField w) (rcField w) =
      if useLiteralField w = 0#1 then w &&& 0xFFFF1FFF#32 else w := by
  have hcase : useLiteralField w = 0#1 ∨ useLiteralField w = 1#1 := by
    generalize useLiteralField w = x; revert x; decide
  rcases hcase with h | h
  · have h12 : w.getLsbD 12 = false := by
      have := congrArg (fun x => BitVec.getLsbD x 0) h
      simpa [useLiteralField] using this
    simp only [opndField, h, if_true, show (0#1 : BitVec 1) ≠ 1#1 by decide, if_false]
    unfold encodeOpr opcodeField raField rbField rcField oprFunctionField
    apply BitVec.eq_of_getLsbD_eq
    intro i hi
    simp only [BitVec.getLsbD_append, BitVec.getLsbD_extractLsb', BitVec.getLsbD_and]
    interval_cases i <;> simp <;> exact h12
  · have h12 : w.getLsbD 12 = true := by
      have := congrArg (fun x => BitVec.getLsbD x 0) h
      simpa [useLiteralField] using this
    simp only [opndField, h, if_true, show (1#1 : BitVec 1) ≠ 0#1 by decide, if_false]
    unfold encodeOpr opcodeField raField literalField rcField oprFunctionField
    ext i hi; simp only [BitVec.getElem_append, BitVec.getElem_extractLsb']; simp; grind

end Sys2Proof
end

