-- ==== Sys2Proof/Laws/State.lean ====
section
/-!
SUPPORT. One lemma per field and update of State, all true by definition, so that no later proof unfolds a
record update.
-/

namespace Sys2Proof.Machine

variable (s : State)

/-! ### withCfg -/

@[simp] theorem State.withCfg_cfg (v : Cfg) : (s.withCfg v).cfg = v := rfl
@[simp] theorem State.withCfg_cpu (v : Cfg) : (s.withCfg v).cpu = s.cpu := rfl
@[simp] theorem State.withCfg_x (v : Cfg) : (s.withCfg v).x = s.x := rfl
@[simp] theorem State.withCfg_f (v : Cfg) : (s.withCfg v).f = s.f := rfl
@[simp] theorem State.withCfg_pc (v : Cfg) : (s.withCfg v).pc = s.pc := rfl
@[simp] theorem State.withCfg_ids (v : Cfg) : (s.withCfg v).ids = s.ids := rfl
@[simp] theorem State.withCfg_program (v : Cfg) : (s.withCfg v).program = s.program := rfl
@[simp] theorem State.withCfg_stopped (v : Cfg) : (s.withCfg v).stopped = s.stopped := rfl
@[simp] theorem State.withCfg_inflight (v : Cfg) : (s.withCfg v).inflight = s.inflight := rfl
@[simp] theorem State.withCfg_pred (v : Cfg) : (s.withCfg v).pred = s.pred := rfl
@[simp] theorem State.withCfg_itb (v : Cfg) : (s.withCfg v).itb = s.itb := rfl
@[simp] theorem State.withCfg_dtb (v : Cfg) : (s.withCfg v).dtb = s.dtb := rfl
@[simp] theorem State.withCfg_lq (v : Cfg) : (s.withCfg v).lq = s.lq := rfl
@[simp] theorem State.withCfg_sq (v : Cfg) : (s.withCfg v).sq = s.sq := rfl
@[simp] theorem State.withCfg_mem (v : Cfg) : (s.withCfg v).mem = s.mem := rfl
@[simp] theorem State.withCfg_agenda (v : Cfg) : (s.withCfg v).agenda = s.agenda := rfl
@[simp] theorem State.withCfg_result (v : Cfg) : (s.withCfg v).result = s.result := rfl

/-! ### withCpu -/

@[simp] theorem State.withCpu_cfg (v : Cpu) : (s.withCpu v).cfg = s.cfg := rfl
@[simp] theorem State.withCpu_cpu (v : Cpu) : (s.withCpu v).cpu = v := rfl
@[simp] theorem State.withCpu_x (v : Cpu) : (s.withCpu v).x = s.x := rfl
@[simp] theorem State.withCpu_f (v : Cpu) : (s.withCpu v).f = s.f := rfl
@[simp] theorem State.withCpu_pc (v : Cpu) : (s.withCpu v).pc = s.pc := rfl
@[simp] theorem State.withCpu_ids (v : Cpu) : (s.withCpu v).ids = s.ids := rfl
@[simp] theorem State.withCpu_program (v : Cpu) : (s.withCpu v).program = s.program := rfl
@[simp] theorem State.withCpu_stopped (v : Cpu) : (s.withCpu v).stopped = s.stopped := rfl
@[simp] theorem State.withCpu_inflight (v : Cpu) : (s.withCpu v).inflight = s.inflight := rfl
@[simp] theorem State.withCpu_pred (v : Cpu) : (s.withCpu v).pred = s.pred := rfl
@[simp] theorem State.withCpu_itb (v : Cpu) : (s.withCpu v).itb = s.itb := rfl
@[simp] theorem State.withCpu_dtb (v : Cpu) : (s.withCpu v).dtb = s.dtb := rfl
@[simp] theorem State.withCpu_lq (v : Cpu) : (s.withCpu v).lq = s.lq := rfl
@[simp] theorem State.withCpu_sq (v : Cpu) : (s.withCpu v).sq = s.sq := rfl
@[simp] theorem State.withCpu_mem (v : Cpu) : (s.withCpu v).mem = s.mem := rfl
@[simp] theorem State.withCpu_agenda (v : Cpu) : (s.withCpu v).agenda = s.agenda := rfl
@[simp] theorem State.withCpu_result (v : Cpu) : (s.withCpu v).result = s.result := rfl

/-! ### withX -/

@[simp] theorem State.withX_cfg (v : Vector Word 32) : (s.withX v).cfg = s.cfg := rfl
@[simp] theorem State.withX_cpu (v : Vector Word 32) : (s.withX v).cpu = s.cpu := rfl
@[simp] theorem State.withX_x (v : Vector Word 32) : (s.withX v).x = v := rfl
@[simp] theorem State.withX_f (v : Vector Word 32) : (s.withX v).f = s.f := rfl
@[simp] theorem State.withX_pc (v : Vector Word 32) : (s.withX v).pc = s.pc := rfl
@[simp] theorem State.withX_ids (v : Vector Word 32) : (s.withX v).ids = s.ids := rfl
@[simp] theorem State.withX_program (v : Vector Word 32) : (s.withX v).program = s.program := rfl
@[simp] theorem State.withX_stopped (v : Vector Word 32) : (s.withX v).stopped = s.stopped := rfl
@[simp] theorem State.withX_inflight (v : Vector Word 32) : (s.withX v).inflight = s.inflight := rfl
@[simp] theorem State.withX_pred (v : Vector Word 32) : (s.withX v).pred = s.pred := rfl
@[simp] theorem State.withX_itb (v : Vector Word 32) : (s.withX v).itb = s.itb := rfl
@[simp] theorem State.withX_dtb (v : Vector Word 32) : (s.withX v).dtb = s.dtb := rfl
@[simp] theorem State.withX_lq (v : Vector Word 32) : (s.withX v).lq = s.lq := rfl
@[simp] theorem State.withX_sq (v : Vector Word 32) : (s.withX v).sq = s.sq := rfl
@[simp] theorem State.withX_mem (v : Vector Word 32) : (s.withX v).mem = s.mem := rfl
@[simp] theorem State.withX_agenda (v : Vector Word 32) : (s.withX v).agenda = s.agenda := rfl
@[simp] theorem State.withX_result (v : Vector Word 32) : (s.withX v).result = s.result := rfl

/-! ### withF -/

@[simp] theorem State.withF_cfg (v : Vector Word 32) : (s.withF v).cfg = s.cfg := rfl
@[simp] theorem State.withF_cpu (v : Vector Word 32) : (s.withF v).cpu = s.cpu := rfl
@[simp] theorem State.withF_x (v : Vector Word 32) : (s.withF v).x = s.x := rfl
@[simp] theorem State.withF_f (v : Vector Word 32) : (s.withF v).f = v := rfl
@[simp] theorem State.withF_pc (v : Vector Word 32) : (s.withF v).pc = s.pc := rfl
@[simp] theorem State.withF_ids (v : Vector Word 32) : (s.withF v).ids = s.ids := rfl
@[simp] theorem State.withF_program (v : Vector Word 32) : (s.withF v).program = s.program := rfl
@[simp] theorem State.withF_stopped (v : Vector Word 32) : (s.withF v).stopped = s.stopped := rfl
@[simp] theorem State.withF_inflight (v : Vector Word 32) : (s.withF v).inflight = s.inflight := rfl
@[simp] theorem State.withF_pred (v : Vector Word 32) : (s.withF v).pred = s.pred := rfl
@[simp] theorem State.withF_itb (v : Vector Word 32) : (s.withF v).itb = s.itb := rfl
@[simp] theorem State.withF_dtb (v : Vector Word 32) : (s.withF v).dtb = s.dtb := rfl
@[simp] theorem State.withF_lq (v : Vector Word 32) : (s.withF v).lq = s.lq := rfl
@[simp] theorem State.withF_sq (v : Vector Word 32) : (s.withF v).sq = s.sq := rfl
@[simp] theorem State.withF_mem (v : Vector Word 32) : (s.withF v).mem = s.mem := rfl
@[simp] theorem State.withF_agenda (v : Vector Word 32) : (s.withF v).agenda = s.agenda := rfl
@[simp] theorem State.withF_result (v : Vector Word 32) : (s.withF v).result = s.result := rfl

/-! ### withPc -/

@[simp] theorem State.withPc_cfg (v : Word) : (s.withPc v).cfg = s.cfg := rfl
@[simp] theorem State.withPc_cpu (v : Word) : (s.withPc v).cpu = s.cpu := rfl
@[simp] theorem State.withPc_x (v : Word) : (s.withPc v).x = s.x := rfl
@[simp] theorem State.withPc_f (v : Word) : (s.withPc v).f = s.f := rfl
@[simp] theorem State.withPc_pc (v : Word) : (s.withPc v).pc = v := rfl
@[simp] theorem State.withPc_ids (v : Word) : (s.withPc v).ids = s.ids := rfl
@[simp] theorem State.withPc_program (v : Word) : (s.withPc v).program = s.program := rfl
@[simp] theorem State.withPc_stopped (v : Word) : (s.withPc v).stopped = s.stopped := rfl
@[simp] theorem State.withPc_inflight (v : Word) : (s.withPc v).inflight = s.inflight := rfl
@[simp] theorem State.withPc_pred (v : Word) : (s.withPc v).pred = s.pred := rfl
@[simp] theorem State.withPc_itb (v : Word) : (s.withPc v).itb = s.itb := rfl
@[simp] theorem State.withPc_dtb (v : Word) : (s.withPc v).dtb = s.dtb := rfl
@[simp] theorem State.withPc_lq (v : Word) : (s.withPc v).lq = s.lq := rfl
@[simp] theorem State.withPc_sq (v : Word) : (s.withPc v).sq = s.sq := rfl
@[simp] theorem State.withPc_mem (v : Word) : (s.withPc v).mem = s.mem := rfl
@[simp] theorem State.withPc_agenda (v : Word) : (s.withPc v).agenda = s.agenda := rfl
@[simp] theorem State.withPc_result (v : Word) : (s.withPc v).result = s.result := rfl

/-! ### withIds -/

@[simp] theorem State.withIds_cfg (v : Ids) : (s.withIds v).cfg = s.cfg := rfl
@[simp] theorem State.withIds_cpu (v : Ids) : (s.withIds v).cpu = s.cpu := rfl
@[simp] theorem State.withIds_x (v : Ids) : (s.withIds v).x = s.x := rfl
@[simp] theorem State.withIds_f (v : Ids) : (s.withIds v).f = s.f := rfl
@[simp] theorem State.withIds_pc (v : Ids) : (s.withIds v).pc = s.pc := rfl
@[simp] theorem State.withIds_ids (v : Ids) : (s.withIds v).ids = v := rfl
@[simp] theorem State.withIds_program (v : Ids) : (s.withIds v).program = s.program := rfl
@[simp] theorem State.withIds_stopped (v : Ids) : (s.withIds v).stopped = s.stopped := rfl
@[simp] theorem State.withIds_inflight (v : Ids) : (s.withIds v).inflight = s.inflight := rfl
@[simp] theorem State.withIds_pred (v : Ids) : (s.withIds v).pred = s.pred := rfl
@[simp] theorem State.withIds_itb (v : Ids) : (s.withIds v).itb = s.itb := rfl
@[simp] theorem State.withIds_dtb (v : Ids) : (s.withIds v).dtb = s.dtb := rfl
@[simp] theorem State.withIds_lq (v : Ids) : (s.withIds v).lq = s.lq := rfl
@[simp] theorem State.withIds_sq (v : Ids) : (s.withIds v).sq = s.sq := rfl
@[simp] theorem State.withIds_mem (v : Ids) : (s.withIds v).mem = s.mem := rfl
@[simp] theorem State.withIds_agenda (v : Ids) : (s.withIds v).agenda = s.agenda := rfl
@[simp] theorem State.withIds_result (v : Ids) : (s.withIds v).result = s.result := rfl

/-! ### withProgram -/

@[simp] theorem State.withProgram_cfg (v : Table InstrWord) : (s.withProgram v).cfg = s.cfg := rfl
@[simp] theorem State.withProgram_cpu (v : Table InstrWord) : (s.withProgram v).cpu = s.cpu := rfl
@[simp] theorem State.withProgram_x (v : Table InstrWord) : (s.withProgram v).x = s.x := rfl
@[simp] theorem State.withProgram_f (v : Table InstrWord) : (s.withProgram v).f = s.f := rfl
@[simp] theorem State.withProgram_pc (v : Table InstrWord) : (s.withProgram v).pc = s.pc := rfl
@[simp] theorem State.withProgram_ids (v : Table InstrWord) : (s.withProgram v).ids = s.ids := rfl
@[simp] theorem State.withProgram_program (v : Table InstrWord) : (s.withProgram v).program = v := rfl
@[simp] theorem State.withProgram_stopped (v : Table InstrWord) : (s.withProgram v).stopped = s.stopped := rfl
@[simp] theorem State.withProgram_inflight (v : Table InstrWord) : (s.withProgram v).inflight = s.inflight := rfl
@[simp] theorem State.withProgram_pred (v : Table InstrWord) : (s.withProgram v).pred = s.pred := rfl
@[simp] theorem State.withProgram_itb (v : Table InstrWord) : (s.withProgram v).itb = s.itb := rfl
@[simp] theorem State.withProgram_dtb (v : Table InstrWord) : (s.withProgram v).dtb = s.dtb := rfl
@[simp] theorem State.withProgram_lq (v : Table InstrWord) : (s.withProgram v).lq = s.lq := rfl
@[simp] theorem State.withProgram_sq (v : Table InstrWord) : (s.withProgram v).sq = s.sq := rfl
@[simp] theorem State.withProgram_mem (v : Table InstrWord) : (s.withProgram v).mem = s.mem := rfl
@[simp] theorem State.withProgram_agenda (v : Table InstrWord) : (s.withProgram v).agenda = s.agenda := rfl
@[simp] theorem State.withProgram_result (v : Table InstrWord) : (s.withProgram v).result = s.result := rfl

/-! ### withStopped -/

@[simp] theorem State.withStopped_cfg (v : Option ExceptionOutcome) : (s.withStopped v).cfg = s.cfg := rfl
@[simp] theorem State.withStopped_cpu (v : Option ExceptionOutcome) : (s.withStopped v).cpu = s.cpu := rfl
@[simp] theorem State.withStopped_x (v : Option ExceptionOutcome) : (s.withStopped v).x = s.x := rfl
@[simp] theorem State.withStopped_f (v : Option ExceptionOutcome) : (s.withStopped v).f = s.f := rfl
@[simp] theorem State.withStopped_pc (v : Option ExceptionOutcome) : (s.withStopped v).pc = s.pc := rfl
@[simp] theorem State.withStopped_ids (v : Option ExceptionOutcome) : (s.withStopped v).ids = s.ids := rfl
@[simp] theorem State.withStopped_program (v : Option ExceptionOutcome) : (s.withStopped v).program = s.program := rfl
@[simp] theorem State.withStopped_stopped (v : Option ExceptionOutcome) : (s.withStopped v).stopped = v := rfl
@[simp] theorem State.withStopped_inflight (v : Option ExceptionOutcome) : (s.withStopped v).inflight = s.inflight := rfl
@[simp] theorem State.withStopped_pred (v : Option ExceptionOutcome) : (s.withStopped v).pred = s.pred := rfl
@[simp] theorem State.withStopped_itb (v : Option ExceptionOutcome) : (s.withStopped v).itb = s.itb := rfl
@[simp] theorem State.withStopped_dtb (v : Option ExceptionOutcome) : (s.withStopped v).dtb = s.dtb := rfl
@[simp] theorem State.withStopped_lq (v : Option ExceptionOutcome) : (s.withStopped v).lq = s.lq := rfl
@[simp] theorem State.withStopped_sq (v : Option ExceptionOutcome) : (s.withStopped v).sq = s.sq := rfl
@[simp] theorem State.withStopped_mem (v : Option ExceptionOutcome) : (s.withStopped v).mem = s.mem := rfl
@[simp] theorem State.withStopped_agenda (v : Option ExceptionOutcome) : (s.withStopped v).agenda = s.agenda := rfl
@[simp] theorem State.withStopped_result (v : Option ExceptionOutcome) : (s.withStopped v).result = s.result := rfl

/-! ### withInflight -/

@[simp] theorem State.withInflight_cfg (v : Table Record) : (s.withInflight v).cfg = s.cfg := rfl
@[simp] theorem State.withInflight_cpu (v : Table Record) : (s.withInflight v).cpu = s.cpu := rfl
@[simp] theorem State.withInflight_x (v : Table Record) : (s.withInflight v).x = s.x := rfl
@[simp] theorem State.withInflight_f (v : Table Record) : (s.withInflight v).f = s.f := rfl
@[simp] theorem State.withInflight_pc (v : Table Record) : (s.withInflight v).pc = s.pc := rfl
@[simp] theorem State.withInflight_ids (v : Table Record) : (s.withInflight v).ids = s.ids := rfl
@[simp] theorem State.withInflight_program (v : Table Record) : (s.withInflight v).program = s.program := rfl
@[simp] theorem State.withInflight_stopped (v : Table Record) : (s.withInflight v).stopped = s.stopped := rfl
@[simp] theorem State.withInflight_inflight (v : Table Record) : (s.withInflight v).inflight = v := rfl
@[simp] theorem State.withInflight_pred (v : Table Record) : (s.withInflight v).pred = s.pred := rfl
@[simp] theorem State.withInflight_itb (v : Table Record) : (s.withInflight v).itb = s.itb := rfl
@[simp] theorem State.withInflight_dtb (v : Table Record) : (s.withInflight v).dtb = s.dtb := rfl
@[simp] theorem State.withInflight_lq (v : Table Record) : (s.withInflight v).lq = s.lq := rfl
@[simp] theorem State.withInflight_sq (v : Table Record) : (s.withInflight v).sq = s.sq := rfl
@[simp] theorem State.withInflight_mem (v : Table Record) : (s.withInflight v).mem = s.mem := rfl
@[simp] theorem State.withInflight_agenda (v : Table Record) : (s.withInflight v).agenda = s.agenda := rfl
@[simp] theorem State.withInflight_result (v : Table Record) : (s.withInflight v).result = s.result := rfl

/-! ### withPred -/

@[simp] theorem State.withPred_cfg (v : Predictor) : (s.withPred v).cfg = s.cfg := rfl
@[simp] theorem State.withPred_cpu (v : Predictor) : (s.withPred v).cpu = s.cpu := rfl
@[simp] theorem State.withPred_x (v : Predictor) : (s.withPred v).x = s.x := rfl
@[simp] theorem State.withPred_f (v : Predictor) : (s.withPred v).f = s.f := rfl
@[simp] theorem State.withPred_pc (v : Predictor) : (s.withPred v).pc = s.pc := rfl
@[simp] theorem State.withPred_ids (v : Predictor) : (s.withPred v).ids = s.ids := rfl
@[simp] theorem State.withPred_program (v : Predictor) : (s.withPred v).program = s.program := rfl
@[simp] theorem State.withPred_stopped (v : Predictor) : (s.withPred v).stopped = s.stopped := rfl
@[simp] theorem State.withPred_inflight (v : Predictor) : (s.withPred v).inflight = s.inflight := rfl
@[simp] theorem State.withPred_pred (v : Predictor) : (s.withPred v).pred = v := rfl
@[simp] theorem State.withPred_itb (v : Predictor) : (s.withPred v).itb = s.itb := rfl
@[simp] theorem State.withPred_dtb (v : Predictor) : (s.withPred v).dtb = s.dtb := rfl
@[simp] theorem State.withPred_lq (v : Predictor) : (s.withPred v).lq = s.lq := rfl
@[simp] theorem State.withPred_sq (v : Predictor) : (s.withPred v).sq = s.sq := rfl
@[simp] theorem State.withPred_mem (v : Predictor) : (s.withPred v).mem = s.mem := rfl
@[simp] theorem State.withPred_agenda (v : Predictor) : (s.withPred v).agenda = s.agenda := rfl
@[simp] theorem State.withPred_result (v : Predictor) : (s.withPred v).result = s.result := rfl

/-! ### withItb -/

@[simp] theorem State.withItb_cfg (v : Tlb) : (s.withItb v).cfg = s.cfg := rfl
@[simp] theorem State.withItb_cpu (v : Tlb) : (s.withItb v).cpu = s.cpu := rfl
@[simp] theorem State.withItb_x (v : Tlb) : (s.withItb v).x = s.x := rfl
@[simp] theorem State.withItb_f (v : Tlb) : (s.withItb v).f = s.f := rfl
@[simp] theorem State.withItb_pc (v : Tlb) : (s.withItb v).pc = s.pc := rfl
@[simp] theorem State.withItb_ids (v : Tlb) : (s.withItb v).ids = s.ids := rfl
@[simp] theorem State.withItb_program (v : Tlb) : (s.withItb v).program = s.program := rfl
@[simp] theorem State.withItb_stopped (v : Tlb) : (s.withItb v).stopped = s.stopped := rfl
@[simp] theorem State.withItb_inflight (v : Tlb) : (s.withItb v).inflight = s.inflight := rfl
@[simp] theorem State.withItb_pred (v : Tlb) : (s.withItb v).pred = s.pred := rfl
@[simp] theorem State.withItb_itb (v : Tlb) : (s.withItb v).itb = v := rfl
@[simp] theorem State.withItb_dtb (v : Tlb) : (s.withItb v).dtb = s.dtb := rfl
@[simp] theorem State.withItb_lq (v : Tlb) : (s.withItb v).lq = s.lq := rfl
@[simp] theorem State.withItb_sq (v : Tlb) : (s.withItb v).sq = s.sq := rfl
@[simp] theorem State.withItb_mem (v : Tlb) : (s.withItb v).mem = s.mem := rfl
@[simp] theorem State.withItb_agenda (v : Tlb) : (s.withItb v).agenda = s.agenda := rfl
@[simp] theorem State.withItb_result (v : Tlb) : (s.withItb v).result = s.result := rfl

/-! ### withDtb -/

@[simp] theorem State.withDtb_cfg (v : Tlb) : (s.withDtb v).cfg = s.cfg := rfl
@[simp] theorem State.withDtb_cpu (v : Tlb) : (s.withDtb v).cpu = s.cpu := rfl
@[simp] theorem State.withDtb_x (v : Tlb) : (s.withDtb v).x = s.x := rfl
@[simp] theorem State.withDtb_f (v : Tlb) : (s.withDtb v).f = s.f := rfl
@[simp] theorem State.withDtb_pc (v : Tlb) : (s.withDtb v).pc = s.pc := rfl
@[simp] theorem State.withDtb_ids (v : Tlb) : (s.withDtb v).ids = s.ids := rfl
@[simp] theorem State.withDtb_program (v : Tlb) : (s.withDtb v).program = s.program := rfl
@[simp] theorem State.withDtb_stopped (v : Tlb) : (s.withDtb v).stopped = s.stopped := rfl
@[simp] theorem State.withDtb_inflight (v : Tlb) : (s.withDtb v).inflight = s.inflight := rfl
@[simp] theorem State.withDtb_pred (v : Tlb) : (s.withDtb v).pred = s.pred := rfl
@[simp] theorem State.withDtb_itb (v : Tlb) : (s.withDtb v).itb = s.itb := rfl
@[simp] theorem State.withDtb_dtb (v : Tlb) : (s.withDtb v).dtb = v := rfl
@[simp] theorem State.withDtb_lq (v : Tlb) : (s.withDtb v).lq = s.lq := rfl
@[simp] theorem State.withDtb_sq (v : Tlb) : (s.withDtb v).sq = s.sq := rfl
@[simp] theorem State.withDtb_mem (v : Tlb) : (s.withDtb v).mem = s.mem := rfl
@[simp] theorem State.withDtb_agenda (v : Tlb) : (s.withDtb v).agenda = s.agenda := rfl
@[simp] theorem State.withDtb_result (v : Tlb) : (s.withDtb v).result = s.result := rfl

/-! ### withLq -/

@[simp] theorem State.withLq_cfg (v : Table LqSlot) : (s.withLq v).cfg = s.cfg := rfl
@[simp] theorem State.withLq_cpu (v : Table LqSlot) : (s.withLq v).cpu = s.cpu := rfl
@[simp] theorem State.withLq_x (v : Table LqSlot) : (s.withLq v).x = s.x := rfl
@[simp] theorem State.withLq_f (v : Table LqSlot) : (s.withLq v).f = s.f := rfl
@[simp] theorem State.withLq_pc (v : Table LqSlot) : (s.withLq v).pc = s.pc := rfl
@[simp] theorem State.withLq_ids (v : Table LqSlot) : (s.withLq v).ids = s.ids := rfl
@[simp] theorem State.withLq_program (v : Table LqSlot) : (s.withLq v).program = s.program := rfl
@[simp] theorem State.withLq_stopped (v : Table LqSlot) : (s.withLq v).stopped = s.stopped := rfl
@[simp] theorem State.withLq_inflight (v : Table LqSlot) : (s.withLq v).inflight = s.inflight := rfl
@[simp] theorem State.withLq_pred (v : Table LqSlot) : (s.withLq v).pred = s.pred := rfl
@[simp] theorem State.withLq_itb (v : Table LqSlot) : (s.withLq v).itb = s.itb := rfl
@[simp] theorem State.withLq_dtb (v : Table LqSlot) : (s.withLq v).dtb = s.dtb := rfl
@[simp] theorem State.withLq_lq (v : Table LqSlot) : (s.withLq v).lq = v := rfl
@[simp] theorem State.withLq_sq (v : Table LqSlot) : (s.withLq v).sq = s.sq := rfl
@[simp] theorem State.withLq_mem (v : Table LqSlot) : (s.withLq v).mem = s.mem := rfl
@[simp] theorem State.withLq_agenda (v : Table LqSlot) : (s.withLq v).agenda = s.agenda := rfl
@[simp] theorem State.withLq_result (v : Table LqSlot) : (s.withLq v).result = s.result := rfl

/-! ### withSq -/

@[simp] theorem State.withSq_cfg (v : Table SqSlot) : (s.withSq v).cfg = s.cfg := rfl
@[simp] theorem State.withSq_cpu (v : Table SqSlot) : (s.withSq v).cpu = s.cpu := rfl
@[simp] theorem State.withSq_x (v : Table SqSlot) : (s.withSq v).x = s.x := rfl
@[simp] theorem State.withSq_f (v : Table SqSlot) : (s.withSq v).f = s.f := rfl
@[simp] theorem State.withSq_pc (v : Table SqSlot) : (s.withSq v).pc = s.pc := rfl
@[simp] theorem State.withSq_ids (v : Table SqSlot) : (s.withSq v).ids = s.ids := rfl
@[simp] theorem State.withSq_program (v : Table SqSlot) : (s.withSq v).program = s.program := rfl
@[simp] theorem State.withSq_stopped (v : Table SqSlot) : (s.withSq v).stopped = s.stopped := rfl
@[simp] theorem State.withSq_inflight (v : Table SqSlot) : (s.withSq v).inflight = s.inflight := rfl
@[simp] theorem State.withSq_pred (v : Table SqSlot) : (s.withSq v).pred = s.pred := rfl
@[simp] theorem State.withSq_itb (v : Table SqSlot) : (s.withSq v).itb = s.itb := rfl
@[simp] theorem State.withSq_dtb (v : Table SqSlot) : (s.withSq v).dtb = s.dtb := rfl
@[simp] theorem State.withSq_lq (v : Table SqSlot) : (s.withSq v).lq = s.lq := rfl
@[simp] theorem State.withSq_sq (v : Table SqSlot) : (s.withSq v).sq = v := rfl
@[simp] theorem State.withSq_mem (v : Table SqSlot) : (s.withSq v).mem = s.mem := rfl
@[simp] theorem State.withSq_agenda (v : Table SqSlot) : (s.withSq v).agenda = s.agenda := rfl
@[simp] theorem State.withSq_result (v : Table SqSlot) : (s.withSq v).result = s.result := rfl

/-! ### withMem -/

@[simp] theorem State.withMem_cfg (v : MemSys) : (s.withMem v).cfg = s.cfg := rfl
@[simp] theorem State.withMem_cpu (v : MemSys) : (s.withMem v).cpu = s.cpu := rfl
@[simp] theorem State.withMem_x (v : MemSys) : (s.withMem v).x = s.x := rfl
@[simp] theorem State.withMem_f (v : MemSys) : (s.withMem v).f = s.f := rfl
@[simp] theorem State.withMem_pc (v : MemSys) : (s.withMem v).pc = s.pc := rfl
@[simp] theorem State.withMem_ids (v : MemSys) : (s.withMem v).ids = s.ids := rfl
@[simp] theorem State.withMem_program (v : MemSys) : (s.withMem v).program = s.program := rfl
@[simp] theorem State.withMem_stopped (v : MemSys) : (s.withMem v).stopped = s.stopped := rfl
@[simp] theorem State.withMem_inflight (v : MemSys) : (s.withMem v).inflight = s.inflight := rfl
@[simp] theorem State.withMem_pred (v : MemSys) : (s.withMem v).pred = s.pred := rfl
@[simp] theorem State.withMem_itb (v : MemSys) : (s.withMem v).itb = s.itb := rfl
@[simp] theorem State.withMem_dtb (v : MemSys) : (s.withMem v).dtb = s.dtb := rfl
@[simp] theorem State.withMem_lq (v : MemSys) : (s.withMem v).lq = s.lq := rfl
@[simp] theorem State.withMem_sq (v : MemSys) : (s.withMem v).sq = s.sq := rfl
@[simp] theorem State.withMem_mem (v : MemSys) : (s.withMem v).mem = v := rfl
@[simp] theorem State.withMem_agenda (v : MemSys) : (s.withMem v).agenda = s.agenda := rfl
@[simp] theorem State.withMem_result (v : MemSys) : (s.withMem v).result = s.result := rfl

/-! ### withAgenda -/

@[simp] theorem State.withAgenda_cfg (v : List Transaction) : (s.withAgenda v).cfg = s.cfg := rfl
@[simp] theorem State.withAgenda_cpu (v : List Transaction) : (s.withAgenda v).cpu = s.cpu := rfl
@[simp] theorem State.withAgenda_x (v : List Transaction) : (s.withAgenda v).x = s.x := rfl
@[simp] theorem State.withAgenda_f (v : List Transaction) : (s.withAgenda v).f = s.f := rfl
@[simp] theorem State.withAgenda_pc (v : List Transaction) : (s.withAgenda v).pc = s.pc := rfl
@[simp] theorem State.withAgenda_ids (v : List Transaction) : (s.withAgenda v).ids = s.ids := rfl
@[simp] theorem State.withAgenda_program (v : List Transaction) : (s.withAgenda v).program = s.program := rfl
@[simp] theorem State.withAgenda_stopped (v : List Transaction) : (s.withAgenda v).stopped = s.stopped := rfl
@[simp] theorem State.withAgenda_inflight (v : List Transaction) : (s.withAgenda v).inflight = s.inflight := rfl
@[simp] theorem State.withAgenda_pred (v : List Transaction) : (s.withAgenda v).pred = s.pred := rfl
@[simp] theorem State.withAgenda_itb (v : List Transaction) : (s.withAgenda v).itb = s.itb := rfl
@[simp] theorem State.withAgenda_dtb (v : List Transaction) : (s.withAgenda v).dtb = s.dtb := rfl
@[simp] theorem State.withAgenda_lq (v : List Transaction) : (s.withAgenda v).lq = s.lq := rfl
@[simp] theorem State.withAgenda_sq (v : List Transaction) : (s.withAgenda v).sq = s.sq := rfl
@[simp] theorem State.withAgenda_mem (v : List Transaction) : (s.withAgenda v).mem = s.mem := rfl
@[simp] theorem State.withAgenda_agenda (v : List Transaction) : (s.withAgenda v).agenda = v := rfl
@[simp] theorem State.withAgenda_result (v : List Transaction) : (s.withAgenda v).result = s.result := rfl

/-! ### withResult -/

@[simp] theorem State.withResult_cfg (v : PortResult) : (s.withResult v).cfg = s.cfg := rfl
@[simp] theorem State.withResult_cpu (v : PortResult) : (s.withResult v).cpu = s.cpu := rfl
@[simp] theorem State.withResult_x (v : PortResult) : (s.withResult v).x = s.x := rfl
@[simp] theorem State.withResult_f (v : PortResult) : (s.withResult v).f = s.f := rfl
@[simp] theorem State.withResult_pc (v : PortResult) : (s.withResult v).pc = s.pc := rfl
@[simp] theorem State.withResult_ids (v : PortResult) : (s.withResult v).ids = s.ids := rfl
@[simp] theorem State.withResult_program (v : PortResult) : (s.withResult v).program = s.program := rfl
@[simp] theorem State.withResult_stopped (v : PortResult) : (s.withResult v).stopped = s.stopped := rfl
@[simp] theorem State.withResult_inflight (v : PortResult) : (s.withResult v).inflight = s.inflight := rfl
@[simp] theorem State.withResult_pred (v : PortResult) : (s.withResult v).pred = s.pred := rfl
@[simp] theorem State.withResult_itb (v : PortResult) : (s.withResult v).itb = s.itb := rfl
@[simp] theorem State.withResult_dtb (v : PortResult) : (s.withResult v).dtb = s.dtb := rfl
@[simp] theorem State.withResult_lq (v : PortResult) : (s.withResult v).lq = s.lq := rfl
@[simp] theorem State.withResult_sq (v : PortResult) : (s.withResult v).sq = s.sq := rfl
@[simp] theorem State.withResult_mem (v : PortResult) : (s.withResult v).mem = s.mem := rfl
@[simp] theorem State.withResult_agenda (v : PortResult) : (s.withResult v).agenda = s.agenda := rfl
@[simp] theorem State.withResult_result (v : PortResult) : (s.withResult v).result = v := rfl

/-! ### Writing back what is there, and writing twice -/

@[simp] theorem State.withCfg_self : s.withCfg s.cfg = s := rfl
@[simp] theorem State.withCfg_withCfg (v w : Cfg) : (s.withCfg v).withCfg w = s.withCfg w := rfl
@[simp] theorem State.withCpu_self : s.withCpu s.cpu = s := rfl
@[simp] theorem State.withCpu_withCpu (v w : Cpu) : (s.withCpu v).withCpu w = s.withCpu w := rfl
@[simp] theorem State.withX_self : s.withX s.x = s := rfl
@[simp] theorem State.withX_withX (v w : Vector Word 32) : (s.withX v).withX w = s.withX w := rfl
@[simp] theorem State.withF_self : s.withF s.f = s := rfl
@[simp] theorem State.withF_withF (v w : Vector Word 32) : (s.withF v).withF w = s.withF w := rfl
@[simp] theorem State.withPc_self : s.withPc s.pc = s := rfl
@[simp] theorem State.withPc_withPc (v w : Word) : (s.withPc v).withPc w = s.withPc w := rfl
@[simp] theorem State.withIds_self : s.withIds s.ids = s := rfl
@[simp] theorem State.withIds_withIds (v w : Ids) : (s.withIds v).withIds w = s.withIds w := rfl
@[simp] theorem State.withProgram_self : s.withProgram s.program = s := rfl
@[simp] theorem State.withProgram_withProgram (v w : Table InstrWord) : (s.withProgram v).withProgram w = s.withProgram w := rfl
@[simp] theorem State.withStopped_self : s.withStopped s.stopped = s := rfl
@[simp] theorem State.withStopped_withStopped (v w : Option ExceptionOutcome) : (s.withStopped v).withStopped w = s.withStopped w := rfl
@[simp] theorem State.withInflight_self : s.withInflight s.inflight = s := rfl
@[simp] theorem State.withInflight_withInflight (v w : Table Record) : (s.withInflight v).withInflight w = s.withInflight w := rfl
@[simp] theorem State.withPred_self : s.withPred s.pred = s := rfl
@[simp] theorem State.withPred_withPred (v w : Predictor) : (s.withPred v).withPred w = s.withPred w := rfl
@[simp] theorem State.withItb_self : s.withItb s.itb = s := rfl
@[simp] theorem State.withItb_withItb (v w : Tlb) : (s.withItb v).withItb w = s.withItb w := rfl
@[simp] theorem State.withDtb_self : s.withDtb s.dtb = s := rfl
@[simp] theorem State.withDtb_withDtb (v w : Tlb) : (s.withDtb v).withDtb w = s.withDtb w := rfl
@[simp] theorem State.withLq_self : s.withLq s.lq = s := rfl
@[simp] theorem State.withLq_withLq (v w : Table LqSlot) : (s.withLq v).withLq w = s.withLq w := rfl
@[simp] theorem State.withSq_self : s.withSq s.sq = s := rfl
@[simp] theorem State.withSq_withSq (v w : Table SqSlot) : (s.withSq v).withSq w = s.withSq w := rfl
@[simp] theorem State.withMem_self : s.withMem s.mem = s := rfl
@[simp] theorem State.withMem_withMem (v w : MemSys) : (s.withMem v).withMem w = s.withMem w := rfl
@[simp] theorem State.withAgenda_self : s.withAgenda s.agenda = s := rfl
@[simp] theorem State.withAgenda_withAgenda (v w : List Transaction) : (s.withAgenda v).withAgenda w = s.withAgenda w := rfl
@[simp] theorem State.withResult_self : s.withResult s.result = s := rfl
@[simp] theorem State.withResult_withResult (v w : PortResult) : (s.withResult v).withResult w = s.withResult w := rfl

end Sys2Proof.Machine
end

