-- ==== Sys2Proof/Laws/Ops.lean ====
section
/-!
SUPPORT. The shared operations once: registers, formed records, slots, translation, retirement, and the life of
an instruction. Later proofs cite these and do not unfold the operations.
-/

namespace Sys2Proof.Machine

/-! ### Registers -/

/-- A register file with one register written; index 31 discards it. -/
def setReg (x : Vector Word 32) (i : RegIdx) (v : Word) : Vector Word 32 :=
  if i = 31 then x else x.set i.toNat v i.isLt

theorem State.writeX_eq (s : State) (i : RegIdx) (v : Word) : s.writeX i v = s.withX (setReg s.x i v) := by
  unfold State.writeX setReg; split <;> rfl

theorem State.writeF_eq (s : State) (i : RegIdx) (v : Word) : s.writeF i v = s.withF (setReg s.f i v) := by
  unfold State.writeF setReg; split <;> rfl

theorem State.readX_eq (s : State) (i : RegIdx) : s.readX i = if i = 31 then 0 else s.x[i.toNat]'i.isLt := rfl

theorem State.readF_eq (s : State) (i : RegIdx) : s.readF i = if i = 31 then 0 else s.f[i.toNat]'i.isLt := rfl

theorem setReg_get (x : Vector Word 32) (i j : RegIdx) (v : Word) :
    (if j = 31 then 0 else (setReg x i v)[j.toNat]'j.isLt) =
      if j = 31 then 0 else if j = i then v else x[j.toNat]'j.isLt := by
  unfold setReg
  by_cases hj : j = 31
  · simp [hj]
  · by_cases hi : i = 31
    · have : j ≠ i := by rintro rfl; exact hj hi
      rw [if_neg hj, if_neg hj, if_neg this]
      simp only [hi, if_true]
    · simp only [hj, if_false, hi]
      rw [Vector.getElem_set]
      by_cases h : j = i
      · simp [h]
      · have : i.toNat ≠ j.toNat := fun e => h (BitVec.eq_of_toNat_eq e.symm)
        simp [h, this]

theorem setReg_self (x : Vector Word 32) (i : RegIdx) :
    setReg x i (if i = 31 then 0 else x[i.toNat]'i.isLt) = x := by
  unfold setReg
  split
  · rfl
  · exact Vector.set_getElem_self ..

theorem State.readX_writeX (s : State) (i j : RegIdx) (v : Word) :
    (s.writeX i v).readX j = if j = 31 then 0 else if j = i then v else s.readX j := by
  rw [State.writeX_eq, State.readX_eq, State.withX_x, setReg_get]
  by_cases hj : j = 31
  · rw [if_pos hj, if_pos hj]
  · rw [if_neg hj, if_neg hj, State.readX_eq, if_neg hj]

theorem State.readF_writeF (s : State) (i j : RegIdx) (v : Word) :
    (s.writeF i v).readF j = if j = 31 then 0 else if j = i then v else s.readF j := by
  rw [State.writeF_eq, State.readF_eq, State.withF_f, setReg_get]
  by_cases hj : j = 31
  · rw [if_pos hj, if_pos hj]
  · rw [if_neg hj, if_neg hj, State.readF_eq, if_neg hj]

/-- A register write as updates of the two register files. -/
def regsAfter (s : State) (r : RegRef) (v : Word) : Vector Word 32 × Vector Word 32 :=
  match r.file with
  | .int => (setReg s.x r.idx v, s.f)
  | .fp => (s.x, setReg s.f r.idx v)

theorem State.writeReg_eq (s : State) (r : RegRef) (v : Word) :
    s.writeReg r v = (s.withX (regsAfter s r v).1).withF (regsAfter s r v).2 := by
  obtain ⟨file, idx⟩ := r
  cases file
  · exact State.writeX_eq s idx v
  · exact State.writeF_eq s idx v

/-- Writing back the value a register holds changes nothing. -/
theorem State.writeReg_readReg (s : State) (r : RegRef) : s.writeReg r (s.readReg r) = s := by
  obtain ⟨file, idx⟩ := r
  cases file
  · show s.writeX idx (s.readX idx) = s
    rw [State.writeX_eq, State.readX_eq, setReg_self]; rfl
  · show s.writeF idx (s.readF idx) = s
    rw [State.writeF_eq, State.readF_eq, setReg_self]; rfl

/-! ### Instructions that use no queue -/

/-- What the sequencer's records of the register instructions have in common. -/
structure RegForm (s : State) (r : Record) : Prop where
  id : r.id = s.ids.next
  state : r.state = .executing
  slot : r.slot = 0
  src1 : r.src1v.tag ≠ .fpX
  src2 : r.src2v.tag ≠ .fpX
  load : isLoadOpcode r.opcode = false
  store : isStoreOpcode r.opcode = false
  cond : isCondStoreOpcode r.opcode = false
  lock : r.lockPending = false
  clear : r.clearLockPending = false
  dest : r.destv.bits = s.readReg r.aDest

/-- The state an executor sees: the id of the record is already taken. -/
def State.taken (s : State) : State := s.withIds { s.ids with next := s.ids.next + 1 }

theorem Record.slot_self {r : Record} (h : r.slot = 0) : { r with slot := 0 } = r := by
  cases r; cases h; rfl

/-- A record formed by the sequencer in a settled state is pre-loaded (70 R525). -/
theorem destPreloaded_of_settled {s : State} {r : Record} (h : s.settled) (hid : r.id = s.ids.next)
    (hd : r.destv.bits = s.readReg r.aDest) : destPreloaded s r = true := by
  unfold destPreloaded
  split
  · rfl
  · rename_i h31
    rw [hid]
    split
    · simp [hd]
    · rename_i p hp
      obtain ⟨hl, hv⟩ := h r.aDest p h31 hp
      simp [hl, hv, hd]

/-- The last value of a sparse table that passes a test is the one with the largest key. -/
theorem Table.getLast?_filter_spec {α : Type} {t : Table α} (hs : t.Sorted) {f : α → Bool} {v : α}
    (h : ((t.map Prod.snd).filter f).getLast? = some v) :
    ∃ k, (k, v) ∈ t ∧ f v = true ∧ ∀ e ∈ t, f e.2 = true → e.1 ≤ k := by
  induction t generalizing v with
  | nil => cases h
  | cons e rest ih =>
    rw [Table.Sorted, List.pairwise_cons] at hs
    cases hr : ((rest.map Prod.snd).filter f).getLast? with
    | some w =>
      obtain ⟨k, hk, hf, hmax⟩ := ih hs.2 hr
      have hw : w = v := by
        rw [List.map_cons, List.filter_cons] at h
        split at h
        · simpa [List.getLast?_cons, hr] using h
        · exact Option.some.inj (hr.symm.trans h)
      subst hw
      refine ⟨k, List.mem_cons_of_mem _ hk, hf, fun e' he' hf' => ?_⟩
      rcases List.mem_cons.1 he' with rfl | he'
      · exact (hs.1 _ hk).le
      · exact hmax e' he' hf'
    | none =>
      have hnil := List.getLast?_eq_none_iff.1 hr
      rw [List.map_cons, List.filter_cons, hnil] at h
      split at h
      · rename_i hf
        cases h
        refine ⟨e.1, List.mem_cons_self, hf, fun e' he' hf' => ?_⟩
        rcases List.mem_cons.1 he' with rfl | he'
        · exact le_rfl
        · exact absurd hf' (List.filter_eq_nil_iff.1 hnil _ (List.mem_map_of_mem he'))
      · cases h

/-- `previousWriter` finds the pending writer (70 R525). -/
theorem previousWriter_some {s : State} (hw : s.idsWf) {id : Nat} {d : RegRef} {p : Record}
    (h : previousWriter s id d = some p) : s.pendingWriter id d p := by
  obtain ⟨k, hk, hf, hmax⟩ := Table.getLast?_filter_spec hw.2.2.1 h
  simp only [Bool.and_eq_true, decide_eq_true_eq] at hf hmax
  have hkey := (hw.2.2.2 _ hk).1
  simp only at hkey
  refine ⟨hkey ▸ Table.at?_of_mem hw.2.2.1 hk, hf.1.1, hf.1.2, hf.2, fun e he h1 h2 => ?_⟩
  by_cases hd : s.ids.doneBelow ≤ e.2.id
  · have := hmax e he ⟨⟨h1, h2⟩, hd⟩
    rwa [(hw.2.2.2 e he).1, hkey] at this
  · have := hf.2; omega

/-- There is at most one pending writer. -/
theorem State.pendingWriter_unique {s : State} {id : Nat} {d : RegRef} {p q : Record}
    (hp : s.pendingWriter id d p) (hq : s.pendingWriter id d q) : p = q := by
  have h1 := hp.2.2.2.2 _ (Table.mem_of_at? hq.1) hq.2.1 hq.2.2.1
  have h2 := hq.2.2.2.2 _ (Table.mem_of_at? hp.1) hp.2.1 hp.2.2.1
  have : p.id = q.id := Nat.le_antisymm h2 h1
  exact Option.some.inj (hp.1.symm.trans (this ▸ hq.1))

/-- Without one, no record in flight stands between the register file and the instruction. -/
theorem previousWriter_none {s : State} {id : Nat} {d : RegRef} (hn : previousWriter s id d = none)
    (p : Record) : ¬ s.pendingWriter id d p := by
  intro hp
  have := List.filter_eq_nil_iff.1 (List.getLast?_eq_none_iff.1 hn) p
    (List.mem_map.2 ⟨_, Table.mem_of_at? hp.1, rfl⟩)
  simp [hp.2.1, hp.2.2.1, hp.2.2.2.1] at this

theorem previousWriter_eq_some_iff {s : State} (hw : s.idsWf) {id : Nat} {d : RegRef} {p : Record} :
    previousWriter s id d = some p ↔ s.pendingWriter id d p := by
  refine ⟨previousWriter_some hw, fun h => ?_⟩
  cases hn : previousWriter s id d with
  | none => exact absurd h (previousWriter_none hn p)
  | some q => exact congrArg some (State.pendingWriter_unique (previousWriter_some hw hn) h)

/-- WHEN A DESTINATION IS PRE-LOADED (42 R239, 70 R525). -/
theorem destPreloaded_iff {s : State} (hw : s.idsWf) {r : Record} :
    destPreloaded s r = true ↔ r.aDest.idx = 31 ∨
      (∃ p, s.pendingWriter r.id r.aDest p ∧ loadIsComplete s p = true ∧ r.destv.bits = p.destv.bits) ∨
      (∀ p, ¬ s.pendingWriter r.id r.aDest p) ∧ r.destv.bits = s.readReg r.aDest := by
  unfold destPreloaded
  by_cases h31 : r.aDest.idx = 31
  · simp only [h31, if_true, true_or]
  rw [if_neg h31]
  cases hp : previousWriter s r.id r.aDest with
  | none => simp only [h31, false_or, previousWriter_none hp, not_false_eq_true, implies_true, true_and, false_and,
      exists_false, beq_iff_eq]
  | some p =>
    have h := previousWriter_some hw hp
    simp only [h31, false_or, Bool.and_eq_true, beq_iff_eq]
    refine ⟨fun e => .inl ⟨p, h, e⟩, ?_⟩
    rintro (⟨q, hq, e⟩ | ⟨hn, -⟩)
    · exact State.pendingWriter_unique hq h ▸ e
    · exact absurd h (hn p)

/-- With no record in flight the registers are settled. -/
theorem State.settled_of_inflight_nil {s : State} (h : s.inflight = []) : s.settled := by
  intro d p _ hp
  simp [previousWriter, h] at hp

/-- An instruction without a queue is its executor, then its commit or its trap. -/
theorem runInstr_none {s : State} {form : Record} (hf : RegForm s form) (hr : s.ready) (ex : Executor) :
    runInstr .none form ex s = toOutcome (do
      let res ← ex s.taken form
      if res.out = .noException then commitInstruction .none res.st res.record
      else takeException .none res.st res.record res.out) := by
  have e : lifeOf .none form ex s = (do
      let res ← dispatchRecord ex s.taken { form with slot := 0 }
      if res.out = .noException then commitInstruction .none res.st res.record
      else takeException .none res.st res.record res.out) := by
    unfold lifeOf
    rw [destPreloaded_of_settled hr.2 hf.id hf.dest]
    rfl
  have hd : dispatchRecord ex s.taken form = ex s.taken form := by
    simp only [dispatchRecord, hf.state, ne_eq, not_true_eq_false, if_false, hf.src1, hf.src2, or_self, hf.cond,
      Bool.false_and, hf.load, hf.store, Bool.or_self, Bool.false_eq_true]
  rw [runInstr, e, Record.slot_self hf.slot, hd]

/-- The commit of a register instruction that changed the CPU state to `c` and left `v` in `destv`. -/
theorem commit_none {s : State} {form : Record} (hf : RegForm s form) (hr : s.ready) (c : Cpu) (v : Word) :
    commitInstruction .none (s.taken.withCpu c)
      { form.setDest v with state := .waitingRetirement, outcome := some .noException } =
      .ok (((s.withCpu c).writeReg form.aDest v).spend.advance) := by
  have hlt : ¬ s.ids.next < s.ids.doneBelow := by have := hr.1; omega
  have hm : max s.ids.doneBelow (s.ids.next + 1) = s.ids.next + 1 := by
    have := hr.1; omega
  simp only [commitInstruction, completeAtOnce, retireRecord, loadIsComplete, commitStore, commitLock, releaseSlot,
    noteDone, Record.setDest, bind, Except.bind, hf.load, hf.store, hf.lock, hf.clear, hf.id, State.writeReg_eq,
    State.taken, ne_eq, not_true_eq_false, if_false, Bool.false_eq_true, State.withCpu_ids, State.withIds_ids, hlt,
    Bool.not_true, State.withX_ids, State.withF_ids, hm, State.spend, State.advance]
  rfl

/-- The trap of a register instruction that changed the CPU state to `c`. -/
theorem trap_none {s : State} {form r : Record} (hf : RegForm s form) (hr : s.ready) (c : Cpu)
    (hid : r.id = form.id) (hop : r.opcode = form.opcode) (hst : r.state = .waitingRetirement)
    (o : ExceptionOutcome) :
    takeException .none (s.taken.withCpu c) r o = .ok ((s.withCpu c).afterTrap o) := by
  have hm : max s.ids.doneBelow (s.ids.next + 1) = s.ids.next + 1 := by
    have := hr.1; omega
  simp only [takeException, discardRecord, cancelStore, releaseSlot, bind, Except.bind, hst, hop, hf.store, ne_eq,
    not_true_eq_false, if_false, Bool.false_eq_true, noteDone, hid, hf.id, State.taken, State.withCpu_ids,
    State.withIds_ids, hm, State.afterTrap, State.spend]
  rfl

/-- A register instruction whose executor writes `v`. -/
theorem runInstr_doneWith {s : State} {form : Record} (hf : RegForm s form) (hr : s.ready) {ex : Executor} {c : Cpu}
    {v : Word} (hex : ex s.taken form = doneWith (s.taken.withCpu c) form v) :
    runInstr .none form ex s = .next (((s.withCpu c).writeReg form.aDest v).spend.advance) := by
  rw [runInstr_none hf hr, hex]
  simp only [doneWith, done, bind, Except.bind, if_true, commit_none hf hr, toOutcome]

/-- A register instruction whose executor writes nothing. -/
theorem runInstr_done {s : State} {form : Record} (hf : RegForm s form) (hr : s.ready) {ex : Executor} {c : Cpu}
    (hex : ex s.taken form = done (s.taken.withCpu c) form .noException) :
    runInstr .none form ex s = .next ((s.withCpu c).spend.advance) := by
  have hd : form.setDest (s.readReg form.aDest) = form := by rw [← hf.dest]; rfl
  have hreg : ((s.withCpu c).writeReg form.aDest (s.readReg form.aDest)) = s.withCpu c :=
    State.writeReg_readReg (s.withCpu c) form.aDest
  have hc := commit_none hf hr c (s.readReg form.aDest)
  rw [hd, hreg] at hc
  rw [runInstr_none hf hr, hex]
  simp only [done, bind, Except.bind, if_true, hc, toOutcome]

/-- A register instruction whose executor ends in an outcome. -/
theorem runInstr_trap {s : State} {form : Record} (hf : RegForm s form) (hr : s.ready) {ex : Executor} {c : Cpu}
    {o : ExceptionOutcome} (ho : o ≠ .noException) (hex : ex s.taken form = done (s.taken.withCpu c) form o) :
    runInstr .none form ex s = .next ((s.withCpu c).afterTrap o) := by
  rw [runInstr_none hf hr, hex]
  simp only [done, bind, Except.bind, ho, if_false]
  rw [trap_none hf hr c (r := { form with state := .waitingRetirement, outcome := some o }) rfl rfl rfl]
  rfl

/-! ### Formed records -/

theorem oprRecord_form (s : State) {op : BitVec 6} (fn : BitVec 7) (ra : RegIdx) (b : Opnd) (rc : RegIdx)
    (hl : isLoadOpcode op = false) (hs : isStoreOpcode op = false) (hc : isCondStoreOpcode op = false) :
    RegForm s (oprRecord s op fn ra b rc) := by
  cases b <;> exact ⟨rfl, rfl, rfl, nofun, nofun, hl, hs, hc, rfl, rfl, rfl⟩

/-- The operands and the destination of an `Opr` record (40_primitives R166). -/
theorem oprRecord_ports (s : State) {op : BitVec 6} (fn : BitVec 7) (ra : RegIdx) (b : Opnd) (rc : RegIdx)
    (ho : isOprOpcode op = true) :
    (oprRecord s op fn ra b rc).a = s.readX ra ∧ (oprRecord s op fn ra b rc).b = s.operand b ∧
    (oprRecord s op fn ra b rc).aDest = ⟨.int, rc⟩ := by
  cases b with
  | reg rb => exact ⟨rfl, if_neg (by rw [Bool.and_eq_true]; exact fun h => Bool.false_ne_true h.2), rfl⟩
  | lit v => exact ⟨rfl, if_pos (by rw [Bool.and_eq_true]; exact ⟨ho, rfl⟩), rfl⟩

/-- Outside the `Opr` format the second operand is `I.src2v`, literal or not (40_primitives R166). -/
theorem Record.b_of_not_opr {r : Record} (h : isOprOpcode r.opcode = false) : r.b = r.src2v.bits := by
  simp [Record.b, h]

theorem fpRecord_form (s : State) {op : BitVec 6} (fn : BitVec 11) {tag : TypeTag} (fa fb fc : RegIdx)
    (ht : tag ≠ .fpX) (hl : isLoadOpcode op = false) (hs : isStoreOpcode op = false)
    (hc : isCondStoreOpcode op = false) : RegForm s (fpRecord s op fn tag fa fb fc) :=
  ⟨rfl, rfl, rfl, ht, ht, hl, hs, hc, rfl, rfl, rfl⟩

theorem fpRecord_ports (s : State) (op : BitVec 6) (fn : BitVec 11) (tag : TypeTag) (fa fb fc : RegIdx) :
    (fpRecord s op fn tag fa fb fc).a = s.readF fa ∧ (fpRecord s op fn tag fa fb fc).b = s.readF fb ∧
    (fpRecord s op fn tag fa fb fc).src2v.bits = s.readF fb ∧
    (fpRecord s op fn tag fa fb fc).aDest = ⟨.fp, fc⟩ ∧
    (fpRecord s op fn tag fa fb fc).fpFunction = fn := by
  refine ⟨rfl, if_neg (by rw [Bool.and_eq_true]; exact fun h => Bool.false_ne_true h.2), rfl, rfl, ?_⟩
  simp [fpRecord, blankRecord, Record.fpFunction, Record.withDest, Record.withSrc1, Record.withSrc2]

/-- An `Opr` instruction computed from its operands alone. -/
theorem runInstr_opr {s : State} (hr : s.ready) (op : BitVec 6) {fn : BitVec 7} {ra rc : RegIdx} {b : Opnd}
    {f : Word → Word → Word} (ho : isOprOpcode op = true) (hl : isLoadOpcode op = false)
    (hs : isStoreOpcode op = false) (hc : isCondStoreOpcode op = false) :
    runInstr .none (oprRecord s op fn ra b rc) (pureExec f) s = .next (s.afterX rc (f (s.readX ra) (s.operand b))) := by
  obtain ⟨ha, hb, hd⟩ := oprRecord_ports s fn ra b rc ho
  rw [runInstr_doneWith (oprRecord_form s fn ra b rc hl hs hc) hr (c := s.cpu) (v := f (s.readX ra) (s.operand b))]
  · rw [hd]; rfl
  · rw [← ha, ← hb]; rfl

/-! ### Translation -/

theorem translateOn_buffer {cpu : Cpu} {t t' : Tlb} {va : Word} {kind : AccessKind} {a : Translation}
    (h : translateOn cpu t va kind = .ok (a, t')) :
    t'.entries = t.entries ∧ t'.next = t.next ∧ ∀ pa, a = .ok pa → t' = t := by
  unfold translateOn at h
  split at h
  · cases h; exact ⟨rfl, rfl, fun _ _ => rfl⟩
  · split at h
    · cases h; exact ⟨rfl, rfl, fun _ h => by cases h⟩
    · split at h <;> cases h
      · exact ⟨rfl, rfl, fun _ _ => rfl⟩
      · exact ⟨rfl, rfl, fun _ _ => rfl⟩
    · cases h

/-- A translation never faults with `NoException`. -/
theorem translateOn_outcome {cpu : Cpu} {t t' : Tlb} {va : Word} {kind : AccessKind} {o : ExceptionOutcome}
    (h : translateOn cpu t va kind = .ok (.fault o, t')) : o ≠ .noException := by
  unfold translateOn at h
  split at h
  · cases h
  · split at h
    · simp only [Except.ok.injEq, Prod.mk.injEq, Translation.fault.injEq] at h
      rw [← h.1]; split <;> nofun
    · split at h <;> cases h; nofun
    · cases h

/-! ### Slots -/

theorem Table.freeFrom_isSome {α : Type} {t : Table α} {k j : Nat} (hj : Table.at? t j = none) :
    ∀ n, k ≤ j → j < k + n → ∃ i, Table.freeFrom t n k = some i := by
  intro n
  induction n generalizing k with
  | zero => intro h1 h2; omega
  | succ n ih =>
    intro h1 h2
    unfold Table.freeFrom
    by_cases h : (Table.at? t k).isNone
    · exact ⟨k, by simp [h]⟩
    · have hne : k ≠ j := by rintro rfl; simp [hj] at h
      obtain ⟨i, hi⟩ := ih (k := k + 1) (by omega) (by omega)
      exact ⟨i, by simp [h, hi]⟩

theorem Table.firstFree_of_free {α : Type} {t : Table α} {d j : Nat} (hj : j < d) (h : Table.at? t j = none) :
    ∃ n, Table.firstFree t d = some n ∧ n < d ∧ Table.at? t n = none := by
  obtain ⟨n, hn⟩ := Table.freeFrom_isSome h d (Nat.zero_le j) (by omega)
  obtain ⟨h1, h2, -⟩ := Table.firstFree_spec hn
  exact ⟨n, hn, h1, h2⟩

theorem getLqSlot_of_free {s : State} (h : ∃ n < Config.queueDepth, Table.at? s.lq n = none) :
    ∃ n, getLqSlot s = .ok (n, s.withLq (Table.put s.lq n freshLqSlot)) ∧ Table.at? s.lq n = none ∧
      n < Config.queueDepth := by
  obtain ⟨j, hj, hn⟩ := h
  obtain ⟨n, h1, h2, h3⟩ := Table.firstFree_of_free hj hn
  exact ⟨n, by simp [getLqSlot, h1], h3, h2⟩

theorem getSqSlot_of_free {s : State} (h : ∃ n < Config.queueDepth, Table.at? s.sq n = none) :
    ∃ n, getSqSlot s = .ok (n, s.withSq (Table.put s.sq n freshSqSlot)) ∧ Table.at? s.sq n = none ∧
      n < Config.queueDepth := by
  obtain ⟨j, hj, hn⟩ := h
  obtain ⟨n, h1, h2, h3⟩ := Table.firstFree_of_free hj hn
  exact ⟨n, by simp [getSqSlot, h1], h3, h2⟩

/-! ### The Mbox transactions of a fresh slot -/

theorem aligned_iff {va : Word} {w : Width} : aligned va w = true ↔ va.toNat % w.bytes = 0 := by simp [aligned]

theorem readMem_fresh {s : State} {r : Record} {va : Word} {w : Width} {t : Translation} {b : Tlb}
    (hs : Table.at? s.lq r.slot = some freshLqSlot) (ha : va.toNat % w.bytes = 0)
    (ht : translateOn s.cpu s.dtb va .read = .ok (t, b)) :
    readMem s r va w = match t with
      | .ok pa => .ok (.noException, (s.withDtb b).withLq (Table.put s.lq r.slot
          { va := va, pa := pa, paValid := true, width := w, state := .pending, instrId := r.id }))
      | .fault o => .ok (o, (s.withDtb b).withLq (Table.put s.lq r.slot
          { va := va, pa := 0, paValid := false, width := w, state := .completed, instrId := r.id })) := by
  have hal : (!aligned va w) = false := by simp [aligned_iff.mpr ha]
  simp only [readMem, hs, freshLqSlot, ne_eq, not_true_eq_false, if_false, hal, Bool.false_eq_true, translate, ht,
    bind, Except.bind]
  cases t <;> rfl

theorem readMem_misaligned {s : State} {r : Record} {va : Word} {w : Width}
    (hs : Table.at? s.lq r.slot = some freshLqSlot) (ha : va.toNat % w.bytes ≠ 0) :
    readMem s r va w = .error .misaligned := by
  have hal : (!aligned va w) = true := by simpa [aligned] using ha
  simp only [readMem, hs, freshLqSlot, ne_eq, not_true_eq_false, if_false, hal, if_true]

theorem writeMem_fresh {s : State} {r : Record} {va v : Word} {w : Width} {d : Bool} {t : Translation} {b : Tlb}
    (hs : Table.at? s.sq r.slot = some freshSqSlot) (ha : va.toNat % w.bytes = 0)
    (ht : translateOn s.cpu s.dtb va .write = .ok (t, b)) :
    writeMem s r va w v d = match t with
      | .ok pa => .ok (.noException, (s.withDtb b).withSq (Table.put s.sq r.slot
          { va := va, pa := pa, paValid := true, width := w, state := if d then .pending else .completed,
            instrId := r.id, value := v, doWrite := d }))
      | .fault o => .ok (o, (s.withDtb b).withSq (Table.put s.sq r.slot
          { va := va, pa := 0, paValid := false, width := w, state := .completed, instrId := r.id, value := v,
            doWrite := false })) := by
  have hal : (!aligned va w) = false := by simp [aligned_iff.mpr ha]
  simp only [writeMem, hs, freshSqSlot, ne_eq, not_true_eq_false, if_false, hal, Bool.false_eq_true, translate, ht,
    bind, Except.bind]
  cases t <;> rfl

theorem writeMem_misaligned {s : State} {r : Record} {va v : Word} {w : Width} {d : Bool}
    (hs : Table.at? s.sq r.slot = some freshSqSlot) (ha : va.toNat % w.bytes ≠ 0) :
    writeMem s r va w v d = .error .misaligned := by
  have hal : (!aligned va w) = true := by simpa [aligned] using ha
  simp only [writeMem, hs, freshSqSlot, ne_eq, not_true_eq_false, if_false, hal, if_true]

/-- With no store pending a load reads the cache. -/
theorem loadValue_quiet {s : State} (h : ∀ e ∈ s.sq, e.2.state ≠ .pending) (q : LqSlot) :
    loadValue s q = s.mem.read s.cfg q.pa q.width := by
  have : (s.sq.map Prod.snd).filter (forwards q) = [] := by
    rw [List.filter_eq_nil_iff]
    intro p hp
    obtain ⟨e, he, rfl⟩ := List.mem_map.mp hp
    simp [forwards, h e he]
  simp [loadValue, this, youngest]

/-! ### Instructions that use a queue -/

/-- What the sequencer's records of the loads and stores have in common. -/
structure MemForm (s : State) (r : Record) : Prop where
  id : r.id = s.ids.next
  state : r.state = .executing
  src1 : r.src1v.tag ≠ .fpX
  src2 : r.src2v.tag ≠ .fpX
  lock : r.lockPending = false
  clear : r.clearLockPending = false
  dest : r.destv.bits = s.readReg r.aDest

/-- The state a memory executor sees, but for its slot. -/
def State.takenMem (s : State) : State :=
  s.withIds { next := s.ids.next + 1, doneBelow := s.ids.doneBelow, memBelow := s.ids.next + 1 }

theorem dispatch_load {s : State} {form : Record} (hf : MemForm s form) (hr : s.memReady)
    (hl : isLoadOpcode form.opcode = true) (hc : isCondStoreOpcode form.opcode = false) (ex : Executor) (n : Nat)
    (lq : Table LqSlot) :
    dispatchRecord ex ((s.withLq lq).withIds { s.ids with next := s.ids.next + 1 }) { form with slot := n } =
      ex (s.takenMem.withLq lq) { form with slot := n } := by
  have h1 := hf.src1
  have h2 := hf.src2
  unfold dispatchRecord
  rw [if_neg (by simp [hf.state]), if_neg (by simp [h1, h2]), if_neg (by simp [hc]), if_pos (by simp [hl]),
    if_neg (by simpa [hf.id] using hr.2.1)]
  simp only [hf.id]
  rfl

theorem dispatch_store {s : State} {form : Record} (hf : MemForm s form) (hr : s.memReady)
    (hl : isStoreOpcode form.opcode = true)
    (hc : isCondStoreOpcode form.opcode = true → olderLockInFlight s s.ids.next = false) (ex : Executor) (n : Nat)
    (sq : Table SqSlot) :
    dispatchRecord ex ((s.withSq sq).withIds { s.ids with next := s.ids.next + 1 }) { form with slot := n } =
      ex (s.takenMem.withSq sq) { form with slot := n } := by
  have h1 := hf.src1
  have h2 := hf.src2
  unfold dispatchRecord
  rw [if_neg (by simp [hf.state]), if_neg (by simp [h1, h2]), if_neg ?_, if_pos (by simp [hl]),
    if_neg (by simpa [hf.id] using hr.2.1)]
  · simp only [hf.id]; rfl
  · intro h
    simp only [Bool.and_eq_true] at h
    have := hc h.1
    rw [hf.id] at h
    have h3 : olderLockInFlight s s.ids.next = true := h.2
    rw [this] at h3; cases h3

/-! ### The Mbox transactions, inverted -/

theorem readMem_inv {s s1 : State} {r : Record} {va : Word} {w : Width} {o : ExceptionOutcome}
    (h : readMem s r va w = .ok (o, s1)) :
    ∃ q a dtb q', Table.at? s.lq r.slot = some q ∧ q.state = .idle ∧ aligned va w = true ∧
      translateOn s.cpu s.dtb va .read = .ok (a, dtb) ∧
      s1 = (s.withDtb dtb).withLq (Table.put s.lq r.slot q') ∧ q'.instrId = r.id ∧
      ((∃ pa, a = .ok pa ∧ o = .noException ∧ q'.state = .pending) ∨
        (a = .fault o ∧ o ≠ .noException ∧ q'.state = .completed)) := by
  unfold readMem at h
  split at h
  · cases h
  rename_i q hq
  split at h
  · cases h
  rename_i hi
  split at h
  · cases h
  rename_i ha
  simp only [translate, bind, Except.bind] at h
  cases ht : translateOn s.cpu s.dtb va .read with
  | error e => simp [ht] at h
  | ok p =>
    obtain ⟨a, dtb⟩ := p
    simp only [ht] at h
    refine ⟨q, a, dtb, ?_⟩
    cases a with
    | ok pa =>
      simp only [Except.ok.injEq, Prod.mk.injEq] at h
      obtain ⟨rfl, rfl⟩ := h
      exact ⟨_, hq, by simpa using hi, by simpa using ha, rfl, rfl, rfl, .inl ⟨pa, rfl, rfl, rfl⟩⟩
    | fault o' =>
      simp only [Except.ok.injEq, Prod.mk.injEq] at h
      obtain ⟨rfl, rfl⟩ := h
      exact ⟨_, hq, by simpa using hi, by simpa using ha, rfl, rfl, rfl, .inr ⟨rfl, translateOn_outcome ht, rfl⟩⟩

theorem writeMem_inv {s s1 : State} {r : Record} {va v : Word} {w : Width} {d : Bool} {o : ExceptionOutcome}
    (h : writeMem s r va w v d = .ok (o, s1)) :
    ∃ q a dtb q', Table.at? s.sq r.slot = some q ∧ q.state = .idle ∧ aligned va w = true ∧
      translateOn s.cpu s.dtb va .write = .ok (a, dtb) ∧
      s1 = (s.withDtb dtb).withSq (Table.put s.sq r.slot q') ∧ q'.instrId = r.id ∧
      ((∃ pa, a = .ok pa ∧ o = .noException ∧ q'.state = if d then .pending else .completed) ∨
        (a = .fault o ∧ o ≠ .noException ∧ q'.state = .completed)) := by
  unfold writeMem at h
  split at h
  · cases h
  rename_i q hq
  split at h
  · cases h
  rename_i hi
  split at h
  · cases h
  rename_i ha
  simp only [translate, bind, Except.bind] at h
  cases ht : translateOn s.cpu s.dtb va .write with
  | error e => simp [ht] at h
  | ok p =>
    obtain ⟨a, dtb⟩ := p
    simp only [ht] at h
    refine ⟨q, a, dtb, ?_⟩
    cases a with
    | ok pa =>
      simp only [Except.ok.injEq, Prod.mk.injEq] at h
      obtain ⟨rfl, rfl⟩ := h
      exact ⟨_, hq, by simpa using hi, by simpa using ha, rfl, rfl, rfl, .inl ⟨pa, rfl, rfl, rfl⟩⟩
    | fault o' =>
      simp only [Except.ok.injEq, Prod.mk.injEq] at h
      obtain ⟨rfl, rfl⟩ := h
      exact ⟨_, hq, by simpa using hi, by simpa using ha, rfl, rfl, rfl, .inr ⟨rfl, translateOn_outcome ht, rfl⟩⟩

/-! ### Slots, inverted -/

theorem getLqSlot_inv {s t : State} {n : Nat} (h : getLqSlot s = .ok (n, t)) :
    n < Config.queueDepth ∧ Table.at? s.lq n = none ∧ (∀ i < n, Table.at? s.lq i ≠ none) ∧
      t = s.withLq (Table.put s.lq n freshLqSlot) := by
  unfold getLqSlot at h
  split at h
  · rename_i k hk
    cases h
    obtain ⟨h1, h2, h3⟩ := Table.firstFree_spec hk
    exact ⟨h1, h2, h3, rfl⟩
  · cases h

theorem getSqSlot_inv {s t : State} {n : Nat} (h : getSqSlot s = .ok (n, t)) :
    n < Config.queueDepth ∧ Table.at? s.sq n = none ∧ (∀ i < n, Table.at? s.sq i ≠ none) ∧
      t = s.withSq (Table.put s.sq n freshSqSlot) := by
  unfold getSqSlot at h
  split at h
  · rename_i k hk
    cases h
    obtain ⟨h1, h2, h3⟩ := Table.firstFree_spec hk
    exact ⟨h1, h2, h3, rfl⟩
  · cases h

theorem putLqSlot_inv {s t : State} {n : Nat} (h : putLqSlot s n = .ok t) :
    ∃ q, Table.at? s.lq n = some q ∧ q.state ≠ .pending ∧ t = s.withLq (Table.del s.lq n) := by
  unfold putLqSlot at h
  split at h
  · rename_i q hq
    split at h
    · cases h
    · rename_i hp
      cases h
      exact ⟨q, hq, hp, rfl⟩
  · cases h

theorem putSqSlot_inv {s t : State} {n : Nat} (h : putSqSlot s n = .ok t) :
    ∃ q, Table.at? s.sq n = some q ∧ q.state ≠ .pending ∧ t = s.withSq (Table.del s.sq n) := by
  unfold putSqSlot at h
  split at h
  · rename_i q hq
    split at h
    · cases h
    · rename_i hp
      cases h
      exact ⟨q, hq, hp, rfl⟩
  · cases h

/-! ### Dispatch and retirement, inverted -/

theorem dispatchRecord_inv {ex : Executor} {s : State} {r : Record} {res : ExecResult}
    (h : dispatchRecord ex s r = .ok res) :
    r.state = .executing ∧
    ∃ mb, (mb = s.ids.memBelow ∨ mb = r.id + 1) ∧ ex (s.withIds { s.ids with memBelow := mb }) r = .ok res := by
  unfold dispatchRecord at h
  split at h
  · cases h
  rename_i h1
  refine ⟨by simpa using h1, ?_⟩
  split at h
  · cases h
  split at h
  · cases h
  split at h
  · split at h
    · cases h
    · exact ⟨_, .inr rfl, h⟩
  · exact ⟨_, .inl rfl, h⟩

theorem completeSlot_inv {s t : State} {n : Nat} {v : Word} (h : completeSlot s n = .ok (v, t)) :
    ∃ q m, Table.at? s.lq n = some q ∧ q.state = .pending ∧ (m = s.mem ∨ s.mem.read s.cfg q.pa q.width = .ok (v, m)) ∧
      t = (s.withMem m).withLq (Table.put s.lq n { q with state := .completed }) := by
  unfold completeSlot at h
  split at h
  · cases h
  rename_i q hq
  split at h
  · cases h
  rename_i hp
  simp only [bind, Except.bind] at h
  split at h
  · cases h
  rename_i p hv
  obtain ⟨v', m⟩ := p
  cases h
  refine ⟨q, m, hq, by simpa using hp, ?_, rfl⟩
  unfold loadValue at hv
  split at hv
  · exact .inr hv
  · split at hv
    · cases hv; exact .inl rfl
    · cases hv

theorem commitLock_eq (s : State) (r : Record) : commitLock s r = s.withCpu { s.cpu with
    lockFlag := if r.clearLockPending then false else if r.lockPending then true else s.cpu.lockFlag
    lockVa := if r.lockPending then r.lockVa else s.cpu.lockVa
    lockPa := if r.lockPending then r.lockPa else s.cpu.lockPa } := by
  unfold commitLock
  cases r.lockPending <;> cases r.clearLockPending <;> rfl

theorem commitStore_inv {s t : State} {r : Record} (h : commitStore s r = .ok t) :
    t = s ∨ ∃ q m, isStoreOpcode r.opcode = true ∧ Table.at? s.sq r.slot = some q ∧
      s.mem.write s.cfg q.pa q.width q.value = .ok m ∧
      t = (s.withMem m).withSq (Table.put s.sq r.slot { q with state := .completed }) := by
  unfold commitStore at h
  split at h
  · rename_i hs
    split at h
    · rename_i q hq
      split at h
      · unfold drainSlot at h
        simp only [bind, Except.bind] at h
        split at h
        · cases h
        · rename_i m hm
          cases h
          exact .inr ⟨q, m, hs, hq, hm, rfl⟩
      · cases h; exact .inl rfl
    · cases h; exact .inl rfl
  · cases h; exact .inl rfl

theorem retireRecord_inv {s t : State} {r : Record} (h : retireRecord s r = .ok t) :
    r.state = .waitingRetirement ∧ r.outcome = some .noException ∧ s.ids.doneBelow ≤ r.id ∧
    loadIsComplete s r = true ∧
    ∃ m sq, t = ((((s.writeReg r.aDest r.destv.bits).withCpu (commitLock s r).cpu).withMem m).withSq sq).withIds
        { s.ids with doneBelow := max s.ids.doneBelow (r.id + 1) } ∧
      ((m = s.mem ∧ sq = s.sq) ∨ ∃ q, isStoreOpcode r.opcode = true ∧ Table.at? s.sq r.slot = some q ∧
        s.mem.write s.cfg q.pa q.width q.value = .ok m ∧
        sq = Table.put s.sq r.slot { q with state := .completed }) := by
  unfold retireRecord at h
  split at h
  · cases h
  rename_i h1
  split at h
  · cases h
  rename_i h2
  split at h
  · cases h
  rename_i h3
  split at h
  · cases h
  rename_i h4
  refine ⟨by simpa using h1, by simpa using h2, by simpa using h3, by simpa using h4, ?_⟩
  simp only [bind, Except.bind] at h
  split at h
  · cases h
  rename_i s1 hs1
  cases h
  rw [commitLock_eq, State.writeReg_eq] at hs1
  rcases commitStore_inv hs1 with rfl | ⟨q, m, hst, hq, hm, rfl⟩
  · refine ⟨s.mem, s.sq, ?_, .inl ⟨rfl, rfl⟩⟩
    rw [commitLock_eq, State.writeReg_eq]; rfl
  · refine ⟨m, Table.put s.sq r.slot { q with state := .completed }, ?_, .inr ⟨q, hst, hq, hm, rfl⟩⟩
    rw [commitLock_eq, State.writeReg_eq]; rfl

theorem discardRecord_inv {s t : State} {r : Record} (h : discardRecord s r = .ok t) :
    r.state = .waitingRetirement ∧
    ∃ sq, t = (s.withSq sq).withIds { s.ids with doneBelow := max s.ids.doneBelow (r.id + 1) } ∧
      (sq = s.sq ∨ ∃ q, isStoreOpcode r.opcode = true ∧ Table.at? s.sq r.slot = some q ∧ q.instrId = r.id ∧
        sq = Table.put s.sq r.slot { q with state := .completed }) := by
  unfold discardRecord at h
  split at h
  · cases h
  rename_i h1
  refine ⟨by simpa using h1, ?_⟩
  cases h
  unfold cancelStore
  split
  · rename_i hs
    split
    · rename_i q hq
      split
      · rename_i hi; exact ⟨_, rfl, .inr ⟨q, hs, hq, hi, rfl⟩⟩
      · exact ⟨s.sq, rfl, .inl rfl⟩
    · exact ⟨s.sq, rfl, .inl rfl⟩
  · exact ⟨s.sq, rfl, .inl rfl⟩

/-! ### The life of an instruction, inverted -/

theorem lifeOf_inv {q : QueueUse} {form : Record} {ex : Executor} {s t : State} (h : lifeOf q form ex s = .ok t) :
    ∃ n s1 mb res, allocateSlot q s = .ok (n, s1) ∧ (mb = s1.ids.memBelow ∨ mb = form.id + 1) ∧
      ex (s1.withIds { s1.ids with next := s1.ids.next + 1, memBelow := mb }) { form with slot := n } = .ok res ∧
      ((res.out = .noException ∧ commitInstruction q res.st res.record = .ok t) ∨
       (res.out ≠ .noException ∧ takeException q res.st res.record res.out = .ok t)) := by
  unfold lifeOf at h
  split at h
  · cases h
  simp only [bind, Except.bind] at h
  split at h
  · cases h
  rename_i p ha
  obtain ⟨n, s1⟩ := p
  simp only at h
  split at h
  · cases h
  rename_i res hd
  obtain ⟨-, mb, hmb, hx⟩ := dispatchRecord_inv hd
  refine ⟨n, s1, mb, res, ha, hmb, hx, ?_⟩
  split at h
  · rename_i ho; exact .inl ⟨ho, h⟩
  · rename_i ho; exact .inr ⟨ho, h⟩

end Sys2Proof.Machine
end

