-- ==== Sys2Proof/Laws/Executors.lean ====
section
/-!
SUPPORT. Every instruction is a queue, a record and an executor (`exec_eq`); what any executor leaves alone
(`executorOf_frame`); what any instruction under the sequencer can do (`exec_cases`). A proof over all
instructions cites these three.
-/

namespace Sys2Proof.Machine

/-! ### Each arm of `exec` -/

/-- The queue an instruction uses. -/
def queueOf : Instr → QueueUse
  | .ldbu .. | .ldq_u .. | .ldwu .. | .ldl .. | .ldq .. | .ldl_l .. | .ldq_l .. => .load
  | .stw .. | .stb .. | .stq_u .. | .stl .. | .stq .. | .stl_c .. | .stq_c .. => .store
  | .lda .. | .ldah .. | .addl .. | .s4addl .. | .subl .. | .s4subl .. | .cmpbge .. | .s8addl .. | .s8subl ..
    | .cmpult .. | .addq .. | .s4addq .. | .subq .. | .s4subq .. | .cmpeq .. | .s8addq .. | .s8subq .. |
    .cmpule .. | .addl_v .. | .subl_v .. | .cmplt .. | .addq_v .. | .subq_v .. | .cmple .. | .and .. | .bic ..
    | .cmovlbs .. | .cmovlbc .. | .bis .. | .cmoveq .. | .cmovne .. | .ornot .. | .xor .. | .cmovlt .. |
    .cmovge .. | .eqv .. | .cmovle .. | .cmovgt .. | .mskbl .. | .extbl .. | .insbl .. | .mskwl .. | .extwl ..
    | .inswl .. | .mskll .. | .extll .. | .insll .. | .zap .. | .zapnot .. | .mskql .. | .srl .. | .extql .. |
    .sll .. | .insql .. | .sra .. | .mskwh .. | .inswh .. | .extwh .. | .msklh .. | .inslh .. | .extlh .. |
    .mskqh .. | .insqh .. | .extqh .. | .mull .. | .mulq .. | .umulh .. | .mull_v .. | .mulq_v .. | .sextb ..
    | .sextw .. | .perr .. | .ctlz .. | .cttz .. | .unpkbw .. | .unpkbl .. | .pkwb .. | .pklb .. | .minsb8 ..
    | .minsw4 .. | .minub8 .. | .minuw4 .. | .maxub8 .. | .maxuw4 .. | .maxsb8 .. | .maxsw4 .. | .addf .. |
    .mulf .. | .addg .. | .mulg .. | .adds .. | .muls .. | .addt .. | .mult .. | .cvtlq .. | .cpys .. |
    .cpysn .. | .cpyse .. | .mt_fpcr .. | .mf_fpcr .. | .fcmoveq .. | .fcmovne .. | .fcmovlt .. | .fcmovge ..
    | .fcmovle .. | .fcmovgt .. | .cvtql .. | .cvtql_v .. | .cvtql_sv .. | .rc .. | .rs .. => .none

/-- The record the sequencer forms for it. -/
def formOf (s : State) : Instr → Record
  | .lda ra rb disp => loadRecord s 0x08#6 ra rb disp
  | .ldah ra rb disp => loadRecord s 0x09#6 ra rb disp
  | .ldbu ra rb disp => loadRecord s 0x0A#6 ra rb disp
  | .ldq_u ra rb disp => loadRecord s 0x0B#6 ra rb disp
  | .ldwu ra rb disp => loadRecord s 0x0C#6 ra rb disp
  | .stw ra rb disp => storeRecord s 0x0D#6 ra rb disp
  | .stb ra rb disp => storeRecord s 0x0E#6 ra rb disp
  | .stq_u ra rb disp => storeRecord s 0x0F#6 ra rb disp
  | .ldl ra rb disp => loadRecord s 0x28#6 ra rb disp
  | .ldq ra rb disp => loadRecord s 0x29#6 ra rb disp
  | .ldl_l ra rb disp => loadRecord s 0x2A#6 ra rb disp
  | .ldq_l ra rb disp => loadRecord s 0x2B#6 ra rb disp
  | .stl ra rb disp => storeRecord s 0x2C#6 ra rb disp
  | .stq ra rb disp => storeRecord s 0x2D#6 ra rb disp
  | .stl_c ra rb disp => condStoreRecord s 0x2E#6 ra rb disp
  | .stq_c ra rb disp => condStoreRecord s 0x2F#6 ra rb disp
  | .addl ra b rc => oprRecord s 0x10#6 0x00#7 ra b rc
  | .s4addl ra b rc => oprRecord s 0x10#6 0x02#7 ra b rc
  | .subl ra b rc => oprRecord s 0x10#6 0x09#7 ra b rc
  | .s4subl ra b rc => oprRecord s 0x10#6 0x0B#7 ra b rc
  | .cmpbge ra b rc => oprRecord s 0x10#6 0x0F#7 ra b rc
  | .s8addl ra b rc => oprRecord s 0x10#6 0x12#7 ra b rc
  | .s8subl ra b rc => oprRecord s 0x10#6 0x1B#7 ra b rc
  | .cmpult ra b rc => oprRecord s 0x10#6 0x1D#7 ra b rc
  | .addq ra b rc => oprRecord s 0x10#6 0x20#7 ra b rc
  | .s4addq ra b rc => oprRecord s 0x10#6 0x22#7 ra b rc
  | .subq ra b rc => oprRecord s 0x10#6 0x29#7 ra b rc
  | .s4subq ra b rc => oprRecord s 0x10#6 0x2B#7 ra b rc
  | .cmpeq ra b rc => oprRecord s 0x10#6 0x2D#7 ra b rc
  | .s8addq ra b rc => oprRecord s 0x10#6 0x32#7 ra b rc
  | .s8subq ra b rc => oprRecord s 0x10#6 0x3B#7 ra b rc
  | .cmpule ra b rc => oprRecord s 0x10#6 0x3D#7 ra b rc
  | .addl_v ra b rc => oprRecord s 0x10#6 0x40#7 ra b rc
  | .subl_v ra b rc => oprRecord s 0x10#6 0x49#7 ra b rc
  | .cmplt ra b rc => oprRecord s 0x10#6 0x4D#7 ra b rc
  | .addq_v ra b rc => oprRecord s 0x10#6 0x60#7 ra b rc
  | .subq_v ra b rc => oprRecord s 0x10#6 0x69#7 ra b rc
  | .cmple ra b rc => oprRecord s 0x10#6 0x6D#7 ra b rc
  | .and ra b rc => oprRecord s 0x11#6 0x00#7 ra b rc
  | .bic ra b rc => oprRecord s 0x11#6 0x08#7 ra b rc
  | .cmovlbs ra b rc => oprRecord s 0x11#6 0x14#7 ra b rc
  | .cmovlbc ra b rc => oprRecord s 0x11#6 0x16#7 ra b rc
  | .bis ra b rc => oprRecord s 0x11#6 0x20#7 ra b rc
  | .cmoveq ra b rc => oprRecord s 0x11#6 0x24#7 ra b rc
  | .cmovne ra b rc => oprRecord s 0x11#6 0x26#7 ra b rc
  | .ornot ra b rc => oprRecord s 0x11#6 0x28#7 ra b rc
  | .xor ra b rc => oprRecord s 0x11#6 0x40#7 ra b rc
  | .cmovlt ra b rc => oprRecord s 0x11#6 0x44#7 ra b rc
  | .cmovge ra b rc => oprRecord s 0x11#6 0x46#7 ra b rc
  | .eqv ra b rc => oprRecord s 0x11#6 0x48#7 ra b rc
  | .cmovle ra b rc => oprRecord s 0x11#6 0x64#7 ra b rc
  | .cmovgt ra b rc => oprRecord s 0x11#6 0x66#7 ra b rc
  | .mskbl ra b rc => oprRecord s 0x12#6 0x02#7 ra b rc
  | .extbl ra b rc => oprRecord s 0x12#6 0x06#7 ra b rc
  | .insbl ra b rc => oprRecord s 0x12#6 0x0B#7 ra b rc
  | .mskwl ra b rc => oprRecord s 0x12#6 0x12#7 ra b rc
  | .extwl ra b rc => oprRecord s 0x12#6 0x16#7 ra b rc
  | .inswl ra b rc => oprRecord s 0x12#6 0x1B#7 ra b rc
  | .mskll ra b rc => oprRecord s 0x12#6 0x22#7 ra b rc
  | .extll ra b rc => oprRecord s 0x12#6 0x26#7 ra b rc
  | .insll ra b rc => oprRecord s 0x12#6 0x2B#7 ra b rc
  | .zap ra b rc => oprRecord s 0x12#6 0x30#7 ra b rc
  | .zapnot ra b rc => oprRecord s 0x12#6 0x31#7 ra b rc
  | .mskql ra b rc => oprRecord s 0x12#6 0x32#7 ra b rc
  | .srl ra b rc => oprRecord s 0x12#6 0x34#7 ra b rc
  | .extql ra b rc => oprRecord s 0x12#6 0x36#7 ra b rc
  | .sll ra b rc => oprRecord s 0x12#6 0x39#7 ra b rc
  | .insql ra b rc => oprRecord s 0x12#6 0x3B#7 ra b rc
  | .sra ra b rc => oprRecord s 0x12#6 0x3C#7 ra b rc
  | .mskwh ra b rc => oprRecord s 0x12#6 0x52#7 ra b rc
  | .inswh ra b rc => oprRecord s 0x12#6 0x57#7 ra b rc
  | .extwh ra b rc => oprRecord s 0x12#6 0x5A#7 ra b rc
  | .msklh ra b rc => oprRecord s 0x12#6 0x62#7 ra b rc
  | .inslh ra b rc => oprRecord s 0x12#6 0x67#7 ra b rc
  | .extlh ra b rc => oprRecord s 0x12#6 0x6A#7 ra b rc
  | .mskqh ra b rc => oprRecord s 0x12#6 0x72#7 ra b rc
  | .insqh ra b rc => oprRecord s 0x12#6 0x77#7 ra b rc
  | .extqh ra b rc => oprRecord s 0x12#6 0x7A#7 ra b rc
  | .mull ra b rc => oprRecord s 0x13#6 0x00#7 ra b rc
  | .mulq ra b rc => oprRecord s 0x13#6 0x20#7 ra b rc
  | .umulh ra b rc => oprRecord s 0x13#6 0x30#7 ra b rc
  | .mull_v ra b rc => oprRecord s 0x13#6 0x40#7 ra b rc
  | .mulq_v ra b rc => oprRecord s 0x13#6 0x60#7 ra b rc
  | .sextb ra b rc => oprRecord s 0x1C#6 0x00#7 ra b rc
  | .sextw ra b rc => oprRecord s 0x1C#6 0x01#7 ra b rc
  | .perr ra b rc => oprRecord s 0x1C#6 0x31#7 ra b rc
  | .ctlz ra b rc => oprRecord s 0x1C#6 0x32#7 ra b rc
  | .cttz ra b rc => oprRecord s 0x1C#6 0x33#7 ra b rc
  | .unpkbw ra b rc => oprRecord s 0x1C#6 0x34#7 ra b rc
  | .unpkbl ra b rc => oprRecord s 0x1C#6 0x35#7 ra b rc
  | .pkwb ra b rc => oprRecord s 0x1C#6 0x36#7 ra b rc
  | .pklb ra b rc => oprRecord s 0x1C#6 0x37#7 ra b rc
  | .minsb8 ra b rc => oprRecord s 0x1C#6 0x38#7 ra b rc
  | .minsw4 ra b rc => oprRecord s 0x1C#6 0x39#7 ra b rc
  | .minub8 ra b rc => oprRecord s 0x1C#6 0x3A#7 ra b rc
  | .minuw4 ra b rc => oprRecord s 0x1C#6 0x3B#7 ra b rc
  | .maxub8 ra b rc => oprRecord s 0x1C#6 0x3C#7 ra b rc
  | .maxuw4 ra b rc => oprRecord s 0x1C#6 0x3D#7 ra b rc
  | .maxsb8 ra b rc => oprRecord s 0x1C#6 0x3E#7 ra b rc
  | .maxsw4 ra b rc => oprRecord s 0x1C#6 0x3F#7 ra b rc
  | .addf fa fb fc trp rnd => fpRecord s 0x15#6 (fpFunction trp rnd 0x00#6) .fpF fa fb fc
  | .mulf fa fb fc trp rnd => fpRecord s 0x15#6 (fpFunction trp rnd 0x02#6) .fpF fa fb fc
  | .addg fa fb fc trp rnd => fpRecord s 0x15#6 (fpFunction trp rnd 0x20#6) .fpG fa fb fc
  | .mulg fa fb fc trp rnd => fpRecord s 0x15#6 (fpFunction trp rnd 0x22#6) .fpG fa fb fc
  | .adds fa fb fc trp rnd => fpRecord s 0x16#6 (fpFunction trp rnd 0x00#6) .fpS fa fb fc
  | .muls fa fb fc trp rnd => fpRecord s 0x16#6 (fpFunction trp rnd 0x02#6) .fpS fa fb fc
  | .addt fa fb fc trp rnd => fpRecord s 0x16#6 (fpFunction trp rnd 0x20#6) .fpT fa fb fc
  | .mult fa fb fc trp rnd => fpRecord s 0x16#6 (fpFunction trp rnd 0x22#6) .fpT fa fb fc
  | .cvtlq fa fb fc => fpRecord s 0x17#6 0x010#11 .fpT fa fb fc
  | .cpys fa fb fc => fpRecord s 0x17#6 0x020#11 .fpT fa fb fc
  | .cpysn fa fb fc => fpRecord s 0x17#6 0x021#11 .fpT fa fb fc
  | .cpyse fa fb fc => fpRecord s 0x17#6 0x022#11 .fpT fa fb fc
  | .mt_fpcr fa fb fc => fpRecord s 0x17#6 0x024#11 .fpT fa fb fc
  | .mf_fpcr fa fb fc => fpRecord s 0x17#6 0x025#11 .fpT fa fb fc
  | .fcmoveq fa fb fc => fpRecord s 0x17#6 0x02A#11 .fpT fa fb fc
  | .fcmovne fa fb fc => fpRecord s 0x17#6 0x02B#11 .fpT fa fb fc
  | .fcmovlt fa fb fc => fpRecord s 0x17#6 0x02C#11 .fpT fa fb fc
  | .fcmovge fa fb fc => fpRecord s 0x17#6 0x02D#11 .fpT fa fb fc
  | .fcmovle fa fb fc => fpRecord s 0x17#6 0x02E#11 .fpT fa fb fc
  | .fcmovgt fa fb fc => fpRecord s 0x17#6 0x02F#11 .fpT fa fb fc
  | .cvtql fa fb fc => fpRecord s 0x17#6 0x030#11 .fpT fa fb fc
  | .cvtql_v fa fb fc => fpRecord s 0x17#6 0x130#11 .fpT fa fb fc
  | .cvtql_sv fa fb fc => fpRecord s 0x17#6 0x530#11 .fpT fa fb fc
  | .rc ra _ => mfcRecord s 0x18#6 0xE000#16 ra
  | .rs ra _ => mfcRecord s 0x18#6 0xF000#16 ra

theorem exec_eq (i : Instr) (s : State) : exec i s = runInstr (queueOf i) (formOf s i) (executorOf i) s := by
  cases i <;> rfl

/-- What the formed records have in common. -/
structure FormSpec (s : State) (u : QueueUse) (r : Record) : Prop where
  id : r.id = s.ids.next
  load : isLoadOpcode r.opcode = (u == .load)
  store : isStoreOpcode r.opcode = (u == .store)
  lock : r.lockPending = false
  clear : r.clearLockPending = false

theorem formOf_spec (i : Instr) (s : State) : FormSpec s (queueOf i) (formOf s i) := by
  have opr : ∀ (op : BitVec 6) (fn : BitVec 7) (ra : RegIdx) (b : Opnd) (rc : RegIdx),
      isLoadOpcode op = false → isStoreOpcode op = false → FormSpec s .none (oprRecord s op fn ra b rc) := by
    intro op fn ra b rc h1 h2
    cases b <;> exact ⟨rfl, h1, h2, rfl, rfl⟩
  cases i <;> first
    | exact opr _ _ _ _ _ rfl rfl
    | exact ⟨rfl, rfl, rfl, rfl, rfl⟩

/-! ### What an executor leaves alone -/

/-- Which instructions set a pending lock, clear the lock, write the FPCR whole, write the flag of RC and RS. -/
def setsLock : Instr → Prop
  | .ldl_l .. | .ldq_l .. => True
  | _ => False

def clearsLock : Instr → Prop
  | .stl_c .. | .stq_c .. => True
  | _ => False

def writesFpcr : Instr → Prop
  | .mt_fpcr .. => True
  | _ => False

def writesFlag : Instr → Prop
  | .rc .. | .rs .. => True
  | _ => False

/-- What the executor of an instruction leaves alone, and what it says of the record. -/
structure ExecFrame (i : Instr) (s : State) (r : Record) (res : ExecResult) : Prop where
  id : res.record.id = r.id
  opcode : res.record.opcode = r.opcode
  slot : res.record.slot = r.slot
  aDest : res.record.aDest = r.aDest
  state : res.record.state = .waitingRetirement
  outcome : res.record.outcome = some res.out
  frame : ∃ dtb lq sq, res.st =
    ((((s.withCpu { s.cpu with fpcr := res.st.cpu.fpcr, intrFlag := res.st.cpu.intrFlag }).withDtb dtb).withLq
      lq).withSq sq)
  fpcr : (∃ st, res.st.cpu.fpcr = fpcrWithStatus s.cpu.fpcr st) ∨
    writesFpcr i ∧ res.st.cpu.fpcr &&& ~~~fpcrWritable = 0
  flag : res.st.cpu.intrFlag = s.cpu.intrFlag ∨ writesFlag i
  dtb : res.st.dtb.entries = s.dtb.entries ∧ res.st.dtb.next = s.dtb.next
  lq : res.st.lq = s.lq ∨ queueOf i = .load ∧ (Table.at? s.lq r.slot).isSome ∧
    ∃ q, res.st.lq = Table.put s.lq r.slot q
  sq : res.st.sq = s.sq ∨ queueOf i = .store ∧ (Table.at? s.sq r.slot).isSome ∧
    ∃ q, res.st.sq = Table.put s.sq r.slot q
  trap : res.out ≠ .noException → res.record.destv = r.destv ∧ res.st.cpu.intrFlag = s.cpu.intrFlag ∧
    (r.lockPending = false → res.record.lockPending = false)
  lock : res.record.lockPending = true → r.lockPending = true ∨ setsLock i
  clear : res.record.clearLockPending = true → r.clearLockPending = true ∨ clearsLock i

variable {i : Instr}

/-- An executor that touches no queue. -/
theorem execFrame_done (s : State) (r : Record) (fpcr : Word) (intr : Bool) (o : ExceptionOutcome) (v : Word)
    (hf : (∃ st, fpcr = fpcrWithStatus s.cpu.fpcr st) ∨ writesFpcr i ∧ fpcr &&& ~~~fpcrWritable = 0)
    (hi : intr = s.cpu.intrFlag ∨ writesFlag i)
    (hv : o ≠ .noException → v = r.destv.bits ∧ intr = s.cpu.intrFlag) :
    ExecFrame i s r ⟨s.withCpu { s.cpu with fpcr := fpcr, intrFlag := intr },
      { r.setDest v with state := .waitingRetirement, outcome := some o }, o⟩ where
  id := rfl
  opcode := rfl
  slot := rfl
  aDest := rfl
  state := rfl
  outcome := rfl
  frame := ⟨s.dtb, s.lq, s.sq, rfl⟩
  fpcr := hf
  flag := hi
  dtb := ⟨rfl, rfl⟩
  lq := .inl rfl
  sq := .inl rfl
  trap := fun h => by
    obtain ⟨h1, h2⟩ := hv h
    subst h1
    exact ⟨rfl, h2, id⟩
  lock := .inl
  clear := .inl

/-- No change of the FPCR is a sticky update with no status. -/
theorem fpcr_same (c : Word) : (∃ st, c = fpcrWithStatus c st) := ⟨{}, rfl⟩

theorem pureExec_frame {f : Word → Word → Word} {s : State} {r : Record} {res : ExecResult}
    (h : pureExec f s r = .ok res) : ExecFrame i s r res := by
  cases h
  exact execFrame_done s r s.cpu.fpcr s.cpu.intrFlag .noException _ (.inl (fpcr_same _)) (.inl rfl) (by simp)

theorem done_frame {s : State} {r : Record} {o : ExceptionOutcome} {res : ExecResult}
    (h : done s r o = .ok res) : ExecFrame i s r res := by
  cases h
  exact execFrame_done s r s.cpu.fpcr s.cpu.intrFlag o r.destv.bits (.inl (fpcr_same _)) (.inl rfl)
    (fun _ => ⟨rfl, rfl⟩)

theorem cmovExec_frame {c : Word → Bool} {s : State} {r : Record} {res : ExecResult}
    (h : cmovExec c s r = .ok res) : ExecFrame i s r res := by
  unfold cmovExec at h
  split at h
  · exact pureExec_frame (f := fun _ _ => r.b) h
  · exact done_frame h

theorem checkedExec_frame {o : Word → Word → Bool} {f : Word → Word → Word} {s : State} {r : Record}
    {res : ExecResult} (h : checkedExec o f s r = .ok res) : ExecFrame i s r res := by
  unfold checkedExec at h
  split at h
  · exact done_frame h
  · exact pureExec_frame (f := f) h

theorem fpExit_frame {a : FpAnswer} {s : State} {r : Record} {res : ExecResult}
    (h : fpExit s r a = .ok res) : ExecFrame i s r res := by
  unfold fpExit at h
  split at h
  · rename_i st en dest
    simp only at h
    split at h
    · cases h
      exact execFrame_done s r _ s.cpu.intrFlag _ r.destv.bits (.inl ⟨_, rfl⟩) (.inl rfl) (fun _ => ⟨rfl, rfl⟩)
    · cases h; exact execFrame_done s r _ s.cpu.intrFlag _ dest (.inl ⟨_, rfl⟩) (.inl rfl) (by simp)
  · cases h; exact execFrame_done s r _ s.cpu.intrFlag _ r.destv.bits (.inl ⟨_, rfl⟩) (.inl rfl) (fun _ => ⟨rfl, rfl⟩)

theorem countExec_frame {w : Width} {f : Width → Nat → Word → Word} {s : State} {r : Record} {res : ExecResult}
    (h : countExec w f s r = .ok res) : ExecFrame i s r res :=
  pureExec_frame (f := fun _ _ => f w (s.shiftCountOf w r.b) r.a) h

theorem flagExec_frame {b : Bool} {v : Word} {s : State} {r : Record} {res : ExecResult} (hw : writesFlag i)
    (h : doneWith (s.setIntrFlag b) r v = .ok res) : ExecFrame i s r res := by
  cases h
  exact execFrame_done s r s.cpu.fpcr b .noException v (.inl (fpcr_same _)) (.inr hw) (by simp)

theorem mtFpcr_frame {v : Word} {s : State} {r : Record} {res : ExecResult} (hw : writesFpcr i)
    (h : done (s.setFpcr (v &&& fpcrWritable)) r .noException = .ok res) : ExecFrame i s r res := by
  cases h
  refine execFrame_done s r _ s.cpu.intrFlag .noException r.destv.bits (.inr ⟨hw, ?_⟩) (.inl rfl) (by simp)
  rw [BitVec.and_assoc, BitVec.and_not_self]; simp

/-- What a memory executor leaves, if the record it leaves is `r2`. -/
theorem execFrame_read {s s1 : State} {r r' r2 : Record} {va : Word} {w : Width} {o : ExceptionOutcome}
    (h : readMem s r' va w = .ok (o, s1)) (hr' : r'.slot = r.slot)
    (hid : r2.id = r.id) (hop : r2.opcode = r.opcode) (hsl : r2.slot = r.slot) (had : r2.aDest = r.aDest)
    (hst : r2.state = .waitingRetirement) (hout : r2.outcome = some o) (hdest : r2.destv = r.destv)
    (hlk : o ≠ .noException → r.lockPending = false → r2.lockPending = false)
    (hlk' : r2.lockPending = true → r.lockPending = true ∨ setsLock i)
    (hcl : r2.clearLockPending = true → r.clearLockPending = true ∨ clearsLock i) (hq : queueOf i = .load) :
    ExecFrame i s r ⟨s1, r2, o⟩ := by
  obtain ⟨q, a, dtb, q', hat, -, -, ht, rfl, -, -⟩ := readMem_inv h
  obtain ⟨h1, h2, -⟩ := translateOn_buffer ht
  rw [hr'] at hat
  exact {
    id := hid, opcode := hop, slot := hsl, aDest := had, state := hst, outcome := hout
    frame := ⟨dtb, Table.put s.lq r'.slot q', s.sq, rfl⟩
    fpcr := .inl (fpcr_same _)
    flag := .inl rfl
    dtb := ⟨h1, h2⟩
    lq := .inr ⟨hq, by simp [hat], q', by rw [← hr']; rfl⟩
    sq := .inl rfl
    trap := fun ho => ⟨hdest, rfl, hlk ho⟩
    lock := hlk'
    clear := hcl }

theorem loadExec_frame {w : Width} {tag : Completion} {adjust : Word → Word} {s : State} {r : Record}
    {res : ExecResult} (hq : queueOf i = .load) (h : loadExec w tag adjust s r = .ok res) : ExecFrame i s r res := by
  unfold loadExec at h
  simp only [bind, Except.bind] at h
  split at h
  · cases h
  · rename_i p hp
    obtain ⟨o, s1⟩ := p
    cases h
    exact execFrame_read hp rfl rfl rfl rfl rfl rfl rfl rfl (fun _ => id) .inl .inl hq

theorem loadLockedExec_frame {w : Width} {tag : Completion} {s : State} {r : Record} {res : ExecResult}
    (hq : queueOf i = .load) (hl : setsLock i) (h : loadLockedExec w tag s r = .ok res) : ExecFrame i s r res := by
  unfold loadLockedExec at h
  simp only [bind, Except.bind] at h
  split at h
  · cases h
  · rename_i p hp
    obtain ⟨o, s1⟩ := p
    cases h
    by_cases ho : o = .noException
    · simp only [ho, if_true]
      subst ho
      exact execFrame_read hp rfl rfl rfl rfl rfl rfl rfl rfl (fun h => absurd rfl h) (fun _ => .inr hl) .inl hq
    · simp only [ho, if_false]
      exact execFrame_read hp rfl rfl rfl rfl rfl rfl rfl rfl (fun _ => id) .inl .inl hq

theorem execFrame_write {s s1 : State} {r r2 : Record} {va v : Word} {w : Width} {d : Bool} {o : ExceptionOutcome}
    (h : writeMem s r va w v d = .ok (o, s1))
    (hid : r2.id = r.id) (hop : r2.opcode = r.opcode) (hsl : r2.slot = r.slot) (had : r2.aDest = r.aDest)
    (hst : r2.state = .waitingRetirement) (hout : r2.outcome = some o)
    (hdest : o ≠ .noException → r2.destv = r.destv) (hlk : r2.lockPending = true → r.lockPending = true)
    (hcl : r2.clearLockPending = true → r.clearLockPending = true ∨ clearsLock i) (hq : queueOf i = .store) :
    ExecFrame i s r ⟨s1, r2, o⟩ := by
  obtain ⟨q, a, dtb, q', hat, -, -, ht, rfl, -, -⟩ := writeMem_inv h
  obtain ⟨h1, h2, -⟩ := translateOn_buffer ht
  exact {
    id := hid, opcode := hop, slot := hsl, aDest := had, state := hst, outcome := hout
    frame := ⟨dtb, s.lq, Table.put s.sq r.slot q', rfl⟩
    fpcr := .inl (fpcr_same _)
    flag := .inl rfl
    dtb := ⟨h1, h2⟩
    lq := .inl rfl
    sq := .inr ⟨hq, by simp [hat], q', rfl⟩
    trap := fun ho => ⟨hdest ho, rfl, fun hl => by
      cases hx : r2.lockPending
      · rfl
      · rw [hlk hx] at hl; cases hl⟩
    lock := fun hx => .inl (hlk hx)
    clear := hcl }

theorem storeExec_frame {w : Width} {adjust : Word → Word} {s : State} {r : Record}
    {res : ExecResult} (hq : queueOf i = .store) (h : storeExec w adjust s r = .ok res) : ExecFrame i s r res := by
  unfold storeExec at h
  simp only [bind, Except.bind] at h
  split at h
  · cases h
  · rename_i p hp
    obtain ⟨o, s1⟩ := p
    cases h
    exact execFrame_write hp rfl rfl rfl rfl rfl rfl (fun _ => rfl) id .inl hq

theorem condStoreExec_frame {w : Width} {s : State} {r : Record}
    {res : ExecResult} (hq : queueOf i = .store) (hc : clearsLock i) (h : condStoreExec w s r = .ok res) : ExecFrame i s r res := by
  unfold condStoreExec at h
  simp only [bind, Except.bind] at h
  split at h
  · cases h
  · rename_i p hp
    obtain ⟨o, s1⟩ := p
    simp only at h
    split at h
    · rename_i ho
      cases h
      subst ho
      exact execFrame_write hp rfl rfl rfl rfl rfl rfl (fun h => absurd rfl h) nofun (fun _ => .inr hc) hq
    · rename_i ho
      cases h
      exact execFrame_write hp rfl rfl rfl rfl rfl rfl (fun _ => rfl) nofun (fun _ => .inr hc) hq

theorem executorOf_frame (i : Instr) {s : State} {r : Record} {res : ExecResult}
    (h : executorOf i s r = .ok res) : ExecFrame i s r res := by
  cases i with
  | lda => change exLda s r = _ at h; unfold exLda at h; exact pureExec_frame (f := fun _ _ => r.a + r.d) h
  | ldah => change exLdah s r = _ at h; unfold exLdah at h; exact pureExec_frame (f := fun _ _ => r.a + (r.d <<< 16)) h
  | ldbu => change exLdbu s r = _ at h; unfold exLdbu at h; exact loadExec_frame rfl h
  | ldq_u => change exLdqU s r = _ at h; unfold exLdqU at h; exact loadExec_frame rfl h
  | ldwu => change exLdwu s r = _ at h; unfold exLdwu at h; exact loadExec_frame rfl h
  | stw => change exStw s r = _ at h; unfold exStw at h; exact storeExec_frame rfl h
  | stb => change exStb s r = _ at h; unfold exStb at h; exact storeExec_frame rfl h
  | stq_u => change exStqU s r = _ at h; unfold exStqU at h; exact storeExec_frame rfl h
  | ldl => change exLdl s r = _ at h; unfold exLdl at h; exact loadExec_frame rfl h
  | ldq => change exLdq s r = _ at h; unfold exLdq at h; exact loadExec_frame rfl h
  | ldl_l => change exLdlL s r = _ at h; unfold exLdlL at h; exact loadLockedExec_frame rfl trivial h
  | ldq_l => change exLdqL s r = _ at h; unfold exLdqL at h; exact loadLockedExec_frame rfl trivial h
  | stl => change exStl s r = _ at h; unfold exStl at h; exact storeExec_frame rfl h
  | stq => change exStq s r = _ at h; unfold exStq at h; exact storeExec_frame rfl h
  | stl_c => change exStlC s r = _ at h; unfold exStlC at h; exact condStoreExec_frame rfl trivial h
  | stq_c => change exStqC s r = _ at h; unfold exStqC at h; exact condStoreExec_frame rfl trivial h
  | addl => change exAddl s r = _ at h; unfold exAddl at h; exact pureExec_frame h
  | s4addl => change exS4addl s r = _ at h; unfold exS4addl at h; exact pureExec_frame h
  | subl => change exSubl s r = _ at h; unfold exSubl at h; exact pureExec_frame h
  | s4subl => change exS4subl s r = _ at h; unfold exS4subl at h; exact pureExec_frame h
  | cmpbge => change exCmpbge s r = _ at h; unfold exCmpbge at h; exact pureExec_frame h
  | s8addl => change exS8addl s r = _ at h; unfold exS8addl at h; exact pureExec_frame h
  | s8subl => change exS8subl s r = _ at h; unfold exS8subl at h; exact pureExec_frame h
  | cmpult => change exCmpult s r = _ at h; unfold exCmpult at h; exact pureExec_frame h
  | addq => change exAddq s r = _ at h; unfold exAddq at h; exact pureExec_frame h
  | s4addq => change exS4addq s r = _ at h; unfold exS4addq at h; exact pureExec_frame h
  | subq => change exSubq s r = _ at h; unfold exSubq at h; exact pureExec_frame h
  | s4subq => change exS4subq s r = _ at h; unfold exS4subq at h; exact pureExec_frame h
  | cmpeq => change exCmpeq s r = _ at h; unfold exCmpeq at h; exact pureExec_frame h
  | s8addq => change exS8addq s r = _ at h; unfold exS8addq at h; exact pureExec_frame h
  | s8subq => change exS8subq s r = _ at h; unfold exS8subq at h; exact pureExec_frame h
  | cmpule => change exCmpule s r = _ at h; unfold exCmpule at h; exact pureExec_frame h
  | addl_v => change exAddlV s r = _ at h; unfold exAddlV at h; exact checkedExec_frame h
  | subl_v => change exSublV s r = _ at h; unfold exSublV at h; exact checkedExec_frame h
  | cmplt => change exCmplt s r = _ at h; unfold exCmplt at h; exact pureExec_frame h
  | addq_v => change exAddqV s r = _ at h; unfold exAddqV at h; exact checkedExec_frame h
  | subq_v => change exSubqV s r = _ at h; unfold exSubqV at h; exact checkedExec_frame h
  | cmple => change exCmple s r = _ at h; unfold exCmple at h; exact pureExec_frame h
  | and => change exAnd s r = _ at h; unfold exAnd at h; exact pureExec_frame h
  | bic => change exBic s r = _ at h; unfold exBic at h; exact pureExec_frame h
  | cmovlbs => change exCmovlbs s r = _ at h; unfold exCmovlbs at h; exact cmovExec_frame h
  | cmovlbc => change exCmovlbc s r = _ at h; unfold exCmovlbc at h; exact cmovExec_frame h
  | bis => change exBis s r = _ at h; unfold exBis at h; exact pureExec_frame h
  | cmoveq => change exCmoveq s r = _ at h; unfold exCmoveq at h; exact cmovExec_frame h
  | cmovne => change exCmovne s r = _ at h; unfold exCmovne at h; exact cmovExec_frame h
  | ornot => change exOrnot s r = _ at h; unfold exOrnot at h; exact pureExec_frame h
  | xor => change exXor s r = _ at h; unfold exXor at h; exact pureExec_frame h
  | cmovlt => change exCmovlt s r = _ at h; unfold exCmovlt at h; exact cmovExec_frame h
  | cmovge => change exCmovge s r = _ at h; unfold exCmovge at h; exact cmovExec_frame h
  | eqv => change exEqv s r = _ at h; unfold exEqv at h; exact pureExec_frame h
  | cmovle => change exCmovle s r = _ at h; unfold exCmovle at h; exact cmovExec_frame h
  | cmovgt => change exCmovgt s r = _ at h; unfold exCmovgt at h; exact cmovExec_frame h
  | mskbl => change exMskbl s r = _ at h; unfold exMskbl at h; exact countExec_frame h
  | extbl => change exExtbl s r = _ at h; unfold exExtbl at h; exact countExec_frame h
  | insbl => change exInsbl s r = _ at h; unfold exInsbl at h; exact countExec_frame h
  | mskwl => change exMskwl s r = _ at h; unfold exMskwl at h; exact countExec_frame h
  | extwl => change exExtwl s r = _ at h; unfold exExtwl at h; exact countExec_frame h
  | inswl => change exInswl s r = _ at h; unfold exInswl at h; exact countExec_frame h
  | mskll => change exMskll s r = _ at h; unfold exMskll at h; exact countExec_frame h
  | extll => change exExtll s r = _ at h; unfold exExtll at h; exact countExec_frame h
  | insll => change exInsll s r = _ at h; unfold exInsll at h; exact countExec_frame h
  | zap => change exZap s r = _ at h; unfold exZap at h; exact pureExec_frame h
  | zapnot => change exZapnot s r = _ at h; unfold exZapnot at h; exact pureExec_frame h
  | mskql => change exMskql s r = _ at h; unfold exMskql at h; exact countExec_frame h
  | srl => change exSrl s r = _ at h; unfold exSrl at h; exact pureExec_frame h
  | extql => change exExtql s r = _ at h; unfold exExtql at h; exact countExec_frame h
  | sll => change exSll s r = _ at h; unfold exSll at h; exact pureExec_frame h
  | insql => change exInsql s r = _ at h; unfold exInsql at h; exact countExec_frame h
  | sra => change exSra s r = _ at h; unfold exSra at h; exact pureExec_frame h
  | mskwh => change exMskwh s r = _ at h; unfold exMskwh at h; exact countExec_frame h
  | inswh => change exInswh s r = _ at h; unfold exInswh at h; exact countExec_frame h
  | extwh => change exExtwh s r = _ at h; unfold exExtwh at h; exact countExec_frame h
  | msklh => change exMsklh s r = _ at h; unfold exMsklh at h; exact countExec_frame h
  | inslh => change exInslh s r = _ at h; unfold exInslh at h; exact countExec_frame h
  | extlh => change exExtlh s r = _ at h; unfold exExtlh at h; exact countExec_frame h
  | mskqh => change exMskqh s r = _ at h; unfold exMskqh at h; exact countExec_frame h
  | insqh => change exInsqh s r = _ at h; unfold exInsqh at h; exact countExec_frame h
  | extqh => change exExtqh s r = _ at h; unfold exExtqh at h; exact countExec_frame h
  | mull => change exMull s r = _ at h; unfold exMull at h; exact pureExec_frame h
  | mulq => change exMulq s r = _ at h; unfold exMulq at h; exact pureExec_frame h
  | umulh => change exUmulh s r = _ at h; unfold exUmulh at h; exact pureExec_frame h
  | mull_v => change exMullV s r = _ at h; unfold exMullV at h; exact checkedExec_frame h
  | mulq_v => change exMulqV s r = _ at h; unfold exMulqV at h; exact checkedExec_frame h
  | sextb => change exSextb s r = _ at h; unfold exSextb at h; exact pureExec_frame h
  | sextw => change exSextw s r = _ at h; unfold exSextw at h; exact pureExec_frame h
  | perr => change exPerr s r = _ at h; unfold exPerr at h; exact pureExec_frame h
  | ctlz => change exCtlz s r = _ at h; unfold exCtlz at h; exact pureExec_frame h
  | cttz => change exCttz s r = _ at h; unfold exCttz at h; exact pureExec_frame h
  | unpkbw => change exUnpkbw s r = _ at h; unfold exUnpkbw at h; exact pureExec_frame h
  | unpkbl => change exUnpkbl s r = _ at h; unfold exUnpkbl at h; exact pureExec_frame h
  | pkwb => change exPkwb s r = _ at h; unfold exPkwb at h; exact pureExec_frame h
  | pklb => change exPklb s r = _ at h; unfold exPklb at h; exact pureExec_frame h
  | minsb8 => change exMinsb8 s r = _ at h; unfold exMinsb8 at h; exact pureExec_frame h
  | minsw4 => change exMinsw4 s r = _ at h; unfold exMinsw4 at h; exact pureExec_frame h
  | minub8 => change exMinub8 s r = _ at h; unfold exMinub8 at h; exact pureExec_frame h
  | minuw4 => change exMinuw4 s r = _ at h; unfold exMinuw4 at h; exact pureExec_frame h
  | maxub8 => change exMaxub8 s r = _ at h; unfold exMaxub8 at h; exact pureExec_frame h
  | maxuw4 => change exMaxuw4 s r = _ at h; unfold exMaxuw4 at h; exact pureExec_frame h
  | maxsb8 => change exMaxsb8 s r = _ at h; unfold exMaxsb8 at h; exact pureExec_frame h
  | maxsw4 => change exMaxsw4 s r = _ at h; unfold exMaxsw4 at h; exact pureExec_frame h
  | addf => change exAddf s r = _ at h; unfold exAddf at h; exact fpExit_frame h
  | mulf => change exMulf s r = _ at h; unfold exMulf at h; exact fpExit_frame h
  | addg => change exAddg s r = _ at h; unfold exAddg at h; exact fpExit_frame h
  | mulg => change exMulg s r = _ at h; unfold exMulg at h; exact fpExit_frame h
  | adds => change exAdds s r = _ at h; unfold exAdds at h; exact fpExit_frame h
  | muls => change exMuls s r = _ at h; unfold exMuls at h; exact fpExit_frame h
  | addt => change exAddt s r = _ at h; unfold exAddt at h; exact fpExit_frame h
  | mult => change exMult s r = _ at h; unfold exMult at h; exact fpExit_frame h
  | cvtlq => change exCvtlq s r = _ at h; unfold exCvtlq at h; exact pureExec_frame h
  | cpys => change exCpys s r = _ at h; unfold exCpys at h; exact pureExec_frame h
  | cpysn => change exCpysn s r = _ at h; unfold exCpysn at h; exact pureExec_frame h
  | cpyse => change exCpyse s r = _ at h; unfold exCpyse at h; exact pureExec_frame h
  | mt_fpcr => change exMtFpcr s r = _ at h; unfold exMtFpcr at h; exact mtFpcr_frame trivial h
  | mf_fpcr => change exMfFpcr s r = _ at h; unfold exMfFpcr at h; exact pureExec_frame (f := fun _ _ => s.cpu.fpcr) h
  | fcmoveq => change exFcmoveq s r = _ at h; unfold exFcmoveq at h; exact cmovExec_frame h
  | fcmovne => change exFcmovne s r = _ at h; unfold exFcmovne at h; exact cmovExec_frame h
  | fcmovlt => change exFcmovlt s r = _ at h; unfold exFcmovlt at h; exact cmovExec_frame h
  | fcmovge => change exFcmovge s r = _ at h; unfold exFcmovge at h; exact cmovExec_frame h
  | fcmovle => change exFcmovle s r = _ at h; unfold exFcmovle at h; exact cmovExec_frame h
  | fcmovgt => change exFcmovgt s r = _ at h; unfold exFcmovgt at h; exact cmovExec_frame h
  | cvtql => change exCvtql s r = _ at h; unfold exCvtql at h; exact pureExec_frame h
  | cvtql_v => change exCvtqlV s r = _ at h; unfold exCvtqlV at h; exact fpExit_frame h
  | cvtql_sv => change exCvtqlSv s r = _ at h; unfold exCvtqlSv at h; exact fpExit_frame h
  | rc => change exRc s r = _ at h; unfold exRc at h; exact flagExec_frame trivial h
  | rs => change exRs s r = _ at h; unfold exRs at h; exact flagExec_frame trivial h

/-! ### What any instruction can do -/

theorem toOutcome_next {e : Except Refusal State} {t : State} (h : toOutcome e = .next t) : e = .ok t := by
  cases e with
  | ok s => cases h; rfl
  | error r => cases h

/-- The ids after an instruction. -/
def idsAfter (s : State) (mb : Nat) : Ids :=
  { next := s.ids.next + 1, doneBelow := max s.ids.doneBelow (s.ids.next + 1), memBelow := mb }

/-- The state of an instruction that ended in an outcome. -/
def trapState (s : State) (c : Cpu) (dtb : Tlb) (mb : Nat) (o : ExceptionOutcome) : State :=
  (((s.withCpu c).withDtb dtb).withIds (idsAfter s mb)).withStopped (some o)

/-- The state of an instruction that was retired. -/
def doneState (s : State) (c : Cpu) (x f : Vector Word 32) (m : MemSys) (dtb : Tlb) (mb : Nat) : State :=
  ((((((s.withCpu c).withX x).withF f).withMem m).withDtb dtb).withIds (idsAfter s mb)).withPc (s.pc + 4)

/-- The memory system after an instruction: as it was, or after one `MemRead` or one `MemWrite`. -/
def memAfter (s : State) (m : MemSys) : Prop :=
  m = s.mem ∨ (∃ pa w v, s.mem.read s.cfg pa w = .ok (v, m)) ∨ ∃ pa w v, s.mem.write s.cfg pa w v = .ok m

theorem commit_end_none {form : Record} {s s1 t : State} {n mb : Nat} {res : ExecResult}
    (hu : queueOf i = .none) (hf : FormSpec s .none form) (ha : allocateSlot .none s = .ok (n, s1))
    (hx : ExecFrame i (s1.withIds { s1.ids with next := s1.ids.next + 1, memBelow := mb })
      { form with slot := n } res)
    (hc : commitInstruction .none res.st res.record = .ok t) :
    ∃ x f m, memAfter s m ∧ t = doneState s (commitLock res.st res.record).cpu x f m res.st.dtb mb := by
  obtain ⟨dtb, lq, sq, hfr⟩ := hx.frame
  have hfr' : ∃ c, res.st = ((((s1.withIds { s1.ids with next := s1.ids.next + 1, memBelow := mb }).withCpu
    c).withDtb dtb).withLq lq).withSq sq := ⟨_, hfr⟩
  have hid : res.record.id = s.ids.next := hx.id.trans hf.id
  have hsl : res.record.slot = n := hx.slot
  have hst : isStoreOpcode res.record.opcode = (QueueUse.none == .store) := by rw [hx.opcode]; exact hf.store
  obtain ⟨c, hfc⟩ := hfr'
  clear hfr
  unfold commitInstruction at hc
  simp only [bind, Except.bind] at hc
  split at hc
  · cases hc
  rename_i p hp
  obtain ⟨s2, r2⟩ := p
  simp only at hc
  split at hc
  · cases hc
  rename_i s3 hret
  split at hc
  · cases hc
  rename_i s4 hrel
  cases hc
  simp only [allocateSlot, completeAtOnce, releaseSlot] at ha hp hrel
  cases ha; cases hp; cases hrel
  obtain ⟨-, -, -, -, m, sq2, rfl, hm⟩ := retireRecord_inv hret
  have h1 : res.st.lq = s.lq := by
    rcases hx.lq with h | ⟨h, -⟩
    · exact h
    · rw [hu] at h; cases h
  have h2 : res.st.sq = s.sq := by
    rcases hx.sq with h | ⟨h, -⟩
    · exact h
    · rw [hu] at h; cases h
  rcases hm with ⟨rfl, rfl⟩ | ⟨q, h, -⟩
  · refine ⟨(regsAfter res.st res.record.aDest res.record.destv.bits).1,
      (regsAfter res.st res.record.aDest res.record.destv.bits).2, s.mem, .inl rfl, ?_⟩
    rw [State.writeReg_eq, hid]
    generalize regsAfter res.st _ _ = xf
    generalize (commitLock res.st res.record).cpu = cl
    rw [hfc] at h1 h2 ⊢
    simp only [State.withSq_lq, State.withLq_lq, State.withSq_sq] at h1 h2
    subst h1; subst h2; rfl
  · rw [hst] at h; cases h
theorem commit_end_load {form : Record} {s s1 t : State} {n mb : Nat} {res : ExecResult}
    (hu : queueOf i = .load) (hf : FormSpec s .load form) (ha : allocateSlot .load s = .ok (n, s1))
    (hx : ExecFrame i (s1.withIds { s1.ids with next := s1.ids.next + 1, memBelow := mb })
      { form with slot := n } res)
    (hc : commitInstruction .load res.st res.record = .ok t) :
    ∃ x f m, memAfter s m ∧ t = doneState s (commitLock res.st res.record).cpu x f m res.st.dtb mb := by
  obtain ⟨dtb, lq, sq, hfr⟩ := hx.frame
  have hfr' : ∃ c, res.st = ((((s1.withIds { s1.ids with next := s1.ids.next + 1, memBelow := mb }).withCpu
    c).withDtb dtb).withLq lq).withSq sq := ⟨_, hfr⟩
  have hid : res.record.id = s.ids.next := hx.id.trans hf.id
  have hsl : res.record.slot = n := hx.slot
  have hst : isStoreOpcode res.record.opcode = (QueueUse.load == .store) := by rw [hx.opcode]; exact hf.store
  obtain ⟨c, hfc⟩ := hfr'
  clear hfr
  unfold commitInstruction at hc
  simp only [bind, Except.bind] at hc
  split at hc
  · cases hc
  rename_i p hp
  obtain ⟨s2, r2⟩ := p
  simp only at hc
  split at hc
  · cases hc
  rename_i s3 hret
  split at hc
  · cases hc
  rename_i s4 hrel
  cases hc
  simp only [allocateSlot, completeAtOnce, releaseSlot] at ha hp hrel
  obtain ⟨-, hn, -, rfl⟩ := getLqSlot_inv ha
  simp only [bind, Except.bind] at hp
  split at hp
  · cases hp
  rename_i p hcs
  obtain ⟨v, sc⟩ := p
  cases hp
  obtain ⟨q, m0, hq, hpend, hm0, rfl⟩ := completeSlot_inv hcs
  obtain ⟨-, -, -, -, m, sq2, rfl, hm⟩ := retireRecord_inv hret
  obtain ⟨q', -, -, rfl⟩ := putLqSlot_inv hrel
  have h1 : ∃ q, res.st.lq = Table.put s.lq n q := by
    rcases hx.lq with h | ⟨-, -, q', h⟩
    · exact ⟨_, h⟩
    · exact ⟨q', by rw [h]; show Table.put (Table.put s.lq n _) n q' = _; rw [Table.put_put]⟩
  obtain ⟨ql, h1⟩ := h1
  have h2 : res.st.sq = s.sq := by
    rcases hx.sq with h | ⟨h, -⟩
    · exact h
    · rw [hu] at h; cases h
  have h3 : sq2 = s.sq ∧ m = m0 := by
    rcases hm with ⟨h, h'⟩ | ⟨q, h, -⟩
    · exact ⟨h'.trans h2, h⟩
    · rw [show (res.record.setDest (complete res.record.completion v)).opcode = res.record.opcode from rfl, hst] at h
      cases h
  obtain ⟨rfl, rfl⟩ := h3
  have hmem : memAfter s m := by
    have e1 : res.st.mem = s.mem := by rw [hfc]; rfl
    have e2 : res.st.cfg = s.cfg := by rw [hfc]; rfl
    rcases hm0 with h | h
    · exact .inl (h.trans e1)
    · rw [e1, e2] at h; exact .inr (.inl ⟨_, _, _, h⟩)
  refine ⟨(regsAfter res.st res.record.aDest (res.record.setDest (complete res.record.completion v)).destv.bits).1,
    (regsAfter res.st res.record.aDest (res.record.setDest (complete res.record.completion v)).destv.bits).2, m,
    hmem, ?_⟩
  have h4 : Table.del (Table.put res.st.lq res.record.slot { q with state := .completed })
      (res.record.setDest (complete res.record.completion v)).slot = s.lq := by
    rw [show (res.record.setDest (complete res.record.completion v)).slot = res.record.slot from rfl, hsl, h1,
      Table.put_put]
    exact Table.del_put _ hn
  have h5 : regsAfter ((res.st.withMem m).withLq (Table.put res.st.lq res.record.slot { q with state := .completed }))
      (res.record.setDest (complete res.record.completion v)).aDest
      (res.record.setDest (complete res.record.completion v)).destv.bits =
      regsAfter res.st res.record.aDest (res.record.setDest (complete res.record.completion v)).destv.bits := rfl
  have h6 : (commitLock ((res.st.withMem m).withLq
      (Table.put res.st.lq res.record.slot { q with state := .completed }))
      (res.record.setDest (complete res.record.completion v))).cpu = (commitLock res.st res.record).cpu := by
    rw [commitLock_eq, commitLock_eq]; rfl
  have h7 : (res.record.setDest (complete res.record.completion v)).id = s.ids.next := hid
  rw [State.writeReg_eq, h5, h6, h7]
  simp only [State.withIds_lq, State.withSq_lq, State.withMem_lq, State.withCpu_lq, State.withF_lq, State.withX_lq,
    State.withLq_lq, h4]
  generalize regsAfter _ _ _ = xf
  generalize (commitLock res.st res.record).cpu = cl
  rw [hfc]
  rfl
theorem commit_end_store {form : Record} {s s1 t : State} {n mb : Nat} {res : ExecResult}
    (hu : queueOf i = .store) (hf : FormSpec s .store form) (ha : allocateSlot .store s = .ok (n, s1))
    (hx : ExecFrame i (s1.withIds { s1.ids with next := s1.ids.next + 1, memBelow := mb })
      { form with slot := n } res)
    (hc : commitInstruction .store res.st res.record = .ok t) :
    ∃ x f m, memAfter s m ∧ t = doneState s (commitLock res.st res.record).cpu x f m res.st.dtb mb := by
  obtain ⟨dtb, lq, sq, hfr⟩ := hx.frame
  have hfr' : ∃ c, res.st = ((((s1.withIds { s1.ids with next := s1.ids.next + 1, memBelow := mb }).withCpu
    c).withDtb dtb).withLq lq).withSq sq := ⟨_, hfr⟩
  have hid : res.record.id = s.ids.next := hx.id.trans hf.id
  have hsl : res.record.slot = n := hx.slot
  have hst : isStoreOpcode res.record.opcode = (QueueUse.store == .store) := by rw [hx.opcode]; exact hf.store
  obtain ⟨c, hfc⟩ := hfr'
  clear hfr
  unfold commitInstruction at hc
  simp only [bind, Except.bind] at hc
  split at hc
  · cases hc
  rename_i p hp
  obtain ⟨s2, r2⟩ := p
  simp only at hc
  split at hc
  · cases hc
  rename_i s3 hret
  split at hc
  · cases hc
  rename_i s4 hrel
  cases hc
  simp only [allocateSlot, completeAtOnce, releaseSlot] at ha hp hrel
  obtain ⟨-, hn, -, rfl⟩ := getSqSlot_inv ha
  cases hp
  obtain ⟨-, -, -, -, m, sq2, rfl, hm⟩ := retireRecord_inv hret
  obtain ⟨q', -, -, rfl⟩ := putSqSlot_inv hrel
  have h1 : res.st.lq = s.lq := by
    rcases hx.lq with h | ⟨h, -⟩
    · exact h
    · rw [hu] at h; cases h
  have h0 : ∃ q', res.st.sq = Table.put s.sq n q' := by
    rcases hx.sq with h | ⟨-, -, q', h⟩
    · exact ⟨_, h⟩
    · exact ⟨q', by rw [h]; show Table.put (Table.put s.sq n _) n q' = _; rw [Table.put_put]⟩
  obtain ⟨q0, h0⟩ := h0
  have e1 : res.st.mem = s.mem := by rw [hfc]; rfl
  have e2 : res.st.cfg = s.cfg := by rw [hfc]; rfl
  rw [hsl] at hm
  have h2 : Table.del sq2 n = s.sq ∧ memAfter s m := by
    rcases hm with ⟨h', h⟩ | ⟨q, -, -, hw, h⟩
    · rw [h, h0]; exact ⟨Table.del_put _ hn, .inl (h'.trans e1)⟩
    · rw [h, h0, Table.put_put]
      rw [e1, e2] at hw
      exact ⟨Table.del_put _ hn, .inr (.inr ⟨_, _, _, hw⟩)⟩
  refine ⟨(regsAfter res.st res.record.aDest res.record.destv.bits).1,
    (regsAfter res.st res.record.aDest res.record.destv.bits).2, m, h2.2, ?_⟩
  rw [State.writeReg_eq, hid, hsl]
  generalize regsAfter res.st _ _ = xf
  generalize (commitLock res.st res.record).cpu = cl
  simp only [State.withIds_sq, State.withSq_sq, h2.1]
  rw [hfc] at h1 ⊢
  simp only [State.withSq_lq, State.withLq_lq] at h1
  subst h1
  rfl

/-- The end of an instruction whose outcome was `NoException`: one register, the lock, the memory, the `dtb` and
the ids; the queues are as they were. -/
theorem commit_end {u : QueueUse} {form : Record} {s s1 t : State} {n mb : Nat} {res : ExecResult}
    (hu : queueOf i = u) (hf : FormSpec s u form) (ha : allocateSlot u s = .ok (n, s1))
    (hx : ExecFrame i (s1.withIds { s1.ids with next := s1.ids.next + 1, memBelow := mb })
      { form with slot := n } res)
    (hc : commitInstruction u res.st res.record = .ok t) :
    ∃ x f m, memAfter s m ∧ t = doneState s (commitLock res.st res.record).cpu x f m res.st.dtb mb := by
  cases u with
  | none => exact commit_end_none hu hf ha hx hc
  | load => exact commit_end_load hu hf ha hx hc
  | store => exact commit_end_store hu hf ha hx hc

/-- The end of an instruction with any other outcome: no register, no memory, no lock. -/
theorem trap_end {u : QueueUse} {form : Record} {s s1 t : State} {n mb : Nat} {res : ExecResult}
    (hu : queueOf i = u) (hf : FormSpec s u form) (ha : allocateSlot u s = .ok (n, s1))
    (hx : ExecFrame i (s1.withIds { s1.ids with next := s1.ids.next + 1, memBelow := mb })
      { form with slot := n } res)
    (ho : res.out ≠ .noException) (hc : takeException u res.st res.record res.out = .ok t) :
    res.st.cpu.intrFlag = s.cpu.intrFlag ∧ t = trapState s res.st.cpu res.st.dtb mb res.out := by
  obtain ⟨dtb, lq, sq, hfr⟩ := hx.frame
  have hfr' : ∃ c, res.st = ((((s1.withIds { s1.ids with next := s1.ids.next + 1, memBelow := mb }).withCpu
    c).withDtb dtb).withLq lq).withSq sq := ⟨_, hfr⟩
  have hid : res.record.id = s.ids.next := hx.id.trans hf.id
  have hsl : res.record.slot = n := hx.slot
  have hst : isStoreOpcode res.record.opcode = (u == .store) := by rw [hx.opcode]; exact hf.store
  clear hfr'
  refine ⟨?_, ?_⟩
  · rw [(hx.trap ho).2.1]
    cases u <;> simp only [allocateSlot] at ha
    · cases ha; rfl
    · obtain ⟨-, -, -, rfl⟩ := getLqSlot_inv ha; rfl
    · obtain ⟨-, -, -, rfl⟩ := getSqSlot_inv ha; rfl
  · unfold takeException at hc
    simp only [bind, Except.bind] at hc
    split at hc
    · cases hc
    rename_i s2 hd
    split at hc
    · cases hc
    rename_i s3 hr
    cases hc
    obtain ⟨-, sq2, rfl, hsq⟩ := discardRecord_inv hd
    rw [hsl] at hr hsq
    cases u <;> simp only [allocateSlot, releaseSlot] at ha hr
    · cases ha; cases hr
      have h1 : res.st.lq = s.lq := by
        rcases hx.lq with h | ⟨h, -⟩
        · exact h
        · rw [hu] at h; cases h
      have h2 : sq2 = s.sq := by
        rcases hsq with h | ⟨q, h, -⟩
        · rw [h]
          rcases hx.sq with h | ⟨h, -⟩
          · exact h
          · rw [hu] at h; cases h
        · rw [hst] at h; cases h
      subst h2
      rw [hfr] at h1 ⊢
      simp only [State.withSq_lq, State.withLq_lq] at h1
      subst h1
      simp only [hid]
      rfl
    · obtain ⟨-, hn, -, rfl⟩ := getLqSlot_inv ha
      obtain ⟨q, -, -, rfl⟩ := putLqSlot_inv hr
      have h1 : Table.del res.st.lq n = s.lq := by
        rcases hx.lq with h | ⟨-, -, q', h⟩
        · rw [h]; exact Table.del_put _ hn
        · rw [h]
          show Table.del (Table.put (Table.put s.lq n _) n q') n = s.lq
          rw [Table.put_put]; exact Table.del_put _ hn
      have h2 : sq2 = s.sq := by
        rcases hsq with h | ⟨q, h, -⟩
        · rw [h]
          rcases hx.sq with h | ⟨h, -⟩
          · exact h
          · rw [hu] at h; cases h
        · rw [hst] at h; cases h
      subst h2
      simp only [State.withIds_lq, State.withSq_lq, h1, hid]
      rw [hfr]
      rfl
    · obtain ⟨-, hn, -, rfl⟩ := getSqSlot_inv ha
      obtain ⟨q, -, -, rfl⟩ := putSqSlot_inv hr
      have h1 : res.st.lq = s.lq := by
        rcases hx.lq with h | ⟨h, -⟩
        · exact h
        · rw [hu] at h; cases h
      have h0 : ∃ q', res.st.sq = Table.put s.sq n q' := by
        rcases hx.sq with h | ⟨-, -, q', h⟩
        · exact ⟨_, h⟩
        · exact ⟨q', by rw [h]; show Table.put (Table.put s.sq n _) n q' = _; rw [Table.put_put]⟩
      obtain ⟨q', h0⟩ := h0
      have h2 : Table.del sq2 n = s.sq := by
        rcases hsq with h | ⟨q2, -, -, -, h⟩
        · rw [h, h0]; exact Table.del_put _ hn
        · rw [h, h0, Table.put_put]; exact Table.del_put _ hn
      simp only [State.withIds_sq, State.withSq_sq, h2, hid]
      rw [hfr] at h1 ⊢
      simp only [State.withSq_lq, State.withLq_lq] at h1
      subst h1
      rfl

/-- What an instruction may have made of the CPU state. -/
structure CpuAfter (i : Instr) (s : State) (c : Cpu) : Prop where
  rest : c = { s.cpu with fpcr := c.fpcr, intrFlag := c.intrFlag, lockFlag := c.lockFlag, lockVa := c.lockVa,
                          lockPa := c.lockPa }
  fpcr : (∃ st, c.fpcr = fpcrWithStatus s.cpu.fpcr st) ∨ writesFpcr i ∧ c.fpcr &&& ~~~fpcrWritable = 0
  flag : c.intrFlag = s.cpu.intrFlag ∨ writesFlag i
  lockFlag : c.lockFlag = s.cpu.lockFlag ∨ setsLock i ∧ c.lockFlag = true ∨ clearsLock i ∧ c.lockFlag = false
  lockAddr : c.lockVa = s.cpu.lockVa ∧ c.lockPa = s.cpu.lockPa ∨ setsLock i

/-- WHAT ANY INSTRUCTION UNDER THE SEQUENCER CAN DO. -/
theorem exec_cases {s t : State} (h : exec i s = .next t) :
    ∃ c dtb mb, CpuAfter i s c ∧ dtb.entries = s.dtb.entries ∧ dtb.next = s.dtb.next ∧
      (mb = s.ids.memBelow ∨ mb = s.ids.next + 1) ∧
      ((∃ o, o ≠ .noException ∧ c.intrFlag = s.cpu.intrFlag ∧ c.lockFlag = s.cpu.lockFlag ∧
          c.lockVa = s.cpu.lockVa ∧ c.lockPa = s.cpu.lockPa ∧ t = trapState s c dtb mb o) ∨
       ∃ x f m, memAfter s m ∧ t = doneState s c x f m dtb mb) := by
  rw [exec_eq] at h
  obtain ⟨n, s1, mb, res, ha, hmb, hx, hend⟩ := lifeOf_inv (toOutcome_next h)
  have hf := formOf_spec i s
  have hfr := executorOf_frame i hx
  have hs1 : s1.cpu = s.cpu ∧ s1.dtb = s.dtb ∧ s1.ids = s.ids := by
    cases hu : queueOf i <;> rw [hu] at ha <;> simp only [allocateSlot] at ha
    · cases ha; exact ⟨rfl, rfl, rfl⟩
    · obtain ⟨-, -, -, rfl⟩ := getLqSlot_inv ha; exact ⟨rfl, rfl, rfl⟩
    · obtain ⟨-, -, -, rfl⟩ := getSqSlot_inv ha; exact ⟨rfl, rfl, rfl⟩
  obtain ⟨hc1, hd1, hi1⟩ := hs1
  have hdtb := hfr.dtb
  simp only [State.withIds_dtb, hd1] at hdtb
  have hcpu : res.st.cpu = { s.cpu with fpcr := res.st.cpu.fpcr, intrFlag := res.st.cpu.intrFlag } := by
    obtain ⟨dtb, lq, sq, hst⟩ := hfr.frame
    have := congrArg State.cpu hst
    simpa only [State.withSq_cpu, State.withLq_cpu, State.withDtb_cpu, State.withCpu_cpu, State.withIds_cpu, hc1]
      using this
  have hfp := hfr.fpcr
  have hfl := hfr.flag
  simp only [State.withIds_cpu, hc1] at hfp hfl
  rw [hi1, hf.id] at hmb
  rcases hend with ⟨-, hc⟩ | ⟨ho, hc⟩
  · obtain ⟨x, f, m, hm, rfl⟩ := commit_end rfl hf ha hfr hc
    refine ⟨_, res.st.dtb, mb, ?_, hdtb.1, hdtb.2, hmb, .inr ⟨x, f, m, hm, rfl⟩⟩
    have hl : res.record.lockPending = true → setsLock i := fun h => by
      rcases hfr.lock h with h | h
      · exact absurd (h.symm.trans hf.lock) (by decide)
      · exact h
    have hk : res.record.clearLockPending = true → clearsLock i := fun h => by
      rcases hfr.clear h with h | h
      · exact absurd (h.symm.trans hf.clear) (by decide)
      · exact h
    rw [commitLock_eq]
    have hlv : res.st.cpu.lockFlag = s.cpu.lockFlag ∧ res.st.cpu.lockVa = s.cpu.lockVa ∧
        res.st.cpu.lockPa = s.cpu.lockPa := by rw [hcpu]; exact ⟨rfl, rfl, rfl⟩
    refine ⟨?_, hfp, hfl, ?_, ?_⟩
    · simp only [State.withCpu_cpu]
      rw [hcpu]
    · simp only [State.withCpu_cpu, hlv.1]
      cases h1 : res.record.clearLockPending
      · cases h2 : res.record.lockPending
        · exact .inl rfl
        · exact .inr (.inl ⟨hl h2, rfl⟩)
      · exact .inr (.inr ⟨hk h1, rfl⟩)
    · simp only [State.withCpu_cpu, hlv.2.1, hlv.2.2]
      cases h2 : res.record.lockPending
      · exact .inl ⟨rfl, rfl⟩
      · exact .inr (hl h2)
  · obtain ⟨hi, rfl⟩ := trap_end rfl hf ha hfr ho hc
    have hlv : res.st.cpu.lockFlag = s.cpu.lockFlag ∧ res.st.cpu.lockVa = s.cpu.lockVa ∧
        res.st.cpu.lockPa = s.cpu.lockPa := by rw [hcpu]; exact ⟨rfl, rfl, rfl⟩
    refine ⟨_, res.st.dtb, mb, ⟨?_, hfp, hfl, .inl hlv.1, .inl hlv.2⟩, hdtb.1, hdtb.2, hmb,
      .inl ⟨res.out, ho, hi, hlv.1, hlv.2.1, hlv.2.2, rfl⟩⟩
    rw [hcpu]

end Sys2Proof.Machine
end

