-- ==== Sys2Proof/Laws/Float.lean ====
section
/-!
SUPPORT. Exact numbers as rationals, and the fields of an encoded floating value (46_floating_point R361 to R365,
R373).
-/

namespace Sys2Proof.Machine

/-! ### Exact numbers -/

theorem Dyadic.toRat_eq_zero (x : Dyadic) : x.toRat = 0 ↔ x.m = 0 := by
  unfold Dyadic.toRat
  simp [zpow_ne_zero]

theorem Dyadic.toRat_neg_iff (x : Dyadic) : x.toRat < 0 ↔ x.m < 0 := by
  unfold Dyadic.toRat
  rw [mul_neg_iff]
  have h : (0 : ℚ) < (2 : ℚ) ^ x.e := by positivity
  simp [h, h.not_gt]

theorem Dyadic.toRat_mul (x y : Dyadic) : (x.mul y).toRat = x.toRat * y.toRat := by
  simp only [Dyadic.toRat, Dyadic.mul, Int.cast_mul, zpow_add₀ (two_ne_zero : (2 : ℚ) ≠ 0)]
  ring

/-- A magnitude written with a smaller exponent. -/
theorem Dyadic.toRat_scale (m e f : Int) (h : f ≤ e) :
    ((m * (2 ^ (e - f).toNat : Nat) : Int) : ℚ) * (2 : ℚ) ^ f = m * (2 : ℚ) ^ e := by
  have hz : (2 : ℚ) ^ (e - f).toNat = (2 : ℚ) ^ (e - f) := by
    rw [← zpow_natCast, Int.toNat_of_nonneg (by omega)]
  push_cast
  rw [hz, mul_assoc, ← zpow_add₀ (two_ne_zero : (2 : ℚ) ≠ 0), sub_add_cancel]

theorem Dyadic.toRat_add (x y : Dyadic) : (x.add y).toRat = x.toRat + y.toRat := by
  unfold Dyadic.add
  simp only [Dyadic.toRat]
  rw [Int.cast_add, add_mul, Dyadic.toRat_scale _ _ _ (min_le_left _ _), Dyadic.toRat_scale _ _ _ (min_le_right _ _)]

/-- The exact sum or product (46 R375). -/
theorem exactResult_toRat (op : FpOp) (x y : Dyadic) : (exactResult op x y).toRat =
    match op with
    | .add => x.toRat + y.toRat
    | .mul => x.toRat * y.toRat := by
  cases op
  · exact Dyadic.toRat_add x y
  · exact Dyadic.toRat_mul x y

/-! ### Fields of an encoded value -/

/-- A field above the low part of an appended word. -/
theorem extractLsb'_append_high {n m k : Nat} (a : BitVec n) (b : BitVec m) (i : Nat) (h : m ≤ i) :
    (a ++ b).extractLsb' i k = a.extractLsb' (i - m) k := by
  ext j hj
  simp only [BitVec.getElem_extractLsb', BitVec.getLsbD_append, show ¬ i + j < m by omega, if_false]
  congr 1; omega

/-- A field inside the low part. -/
theorem extractLsb'_append_low {n m : Nat} (a : BitVec n) (b : BitVec m) (i k : Nat) (h : i + k ≤ m) :
    (a ++ b).extractLsb' i k = b.extractLsb' i k := by
  ext j hj
  simp only [BitVec.getElem_extractLsb', BitVec.getLsbD_append, show i + j < m by omega, if_true]

/-- The fields of an S or F register value are those it was written with. -/
theorem fieldsOf_spread (sign : Bool) (f : BitVec 23) (g : BitVec 11) (fmt : FpFormat) (hf : fmt = .s ∨ fmt = .f) :
    fieldsOf fmt (BitVec.ofBool sign ++ g ++ f ++ 0#29) =
      ⟨sign, (g.extractLsb' 10 1 ++ g.extractLsb' 0 7).toNat, f.toNat⟩ := by
  have h1 : (BitVec.ofBool sign ++ g ++ f ++ 0#29 : BitVec (1 + 11 + 23 + 29)).msb = sign := by
    simp only [BitVec.msb_append]; simp
  have h2 : (BitVec.ofBool sign ++ g ++ f ++ 0#29 : BitVec (1 + 11 + 23 + 29)).extractLsb' 62 1 =
      g.extractLsb' 10 1 := by
    rw [extractLsb'_append_high _ _ _ (by decide), extractLsb'_append_high _ _ _ (by decide),
      extractLsb'_append_low _ _ _ _ (by decide)]
  have h3 : (BitVec.ofBool sign ++ g ++ f ++ 0#29 : BitVec (1 + 11 + 23 + 29)).extractLsb' 52 7 =
      g.extractLsb' 0 7 := by
    rw [extractLsb'_append_high _ _ _ (by decide), extractLsb'_append_high _ _ _ (by decide),
      extractLsb'_append_low _ _ _ _ (by decide)]
  have h4 : (BitVec.ofBool sign ++ g ++ f ++ 0#29 : BitVec (1 + 11 + 23 + 29)).extractLsb' 29 23 = f := by
    rw [extractLsb'_append_high _ _ _ (by decide),
      extractLsb'_append_low _ _ _ _ (by decide)]; exact BitVec.extractLsb'_eq_self
  have e : ∀ a b c, a = sign → b = g.extractLsb' 10 1 → c = g.extractLsb' 0 7 → ∀ d, d = f →
      (⟨a, (b ++ c).toNat, d.toNat⟩ : FpFields) = ⟨sign, (g.extractLsb' 10 1 ++ g.extractLsb' 0 7).toNat, f.toNat⟩ := by
    rintro _ _ _ rfl rfl rfl _ rfl; rfl
  rcases hf with rfl | rfl <;> exact e _ _ _ h1 h2 h3 _ h4

/-- The fields of a sign, an exponent and a fraction written one after the other. -/
theorem fields_append (sign : Bool) {p q : Nat} (e : BitVec p) (f : BitVec q) :
   (BitVec.ofBool sign ++ e ++ f).msb = sign ∧ (BitVec.ofBool sign ++ e ++ f).extractLsb' q p = e ∧
   (BitVec.ofBool sign ++ e ++ f).extractLsb' 0 q = f := by
  refine ⟨?_, ?_, ?_⟩
  · simp only [BitVec.msb_append]; simp
  · rw [extractLsb'_append_high _ _ _ le_rfl, extractLsb'_append_low _ _ _ _ (by omega), Nat.sub_self]
    exact BitVec.extractLsb'_eq_self
  · rw [extractLsb'_append_low _ _ _ _ (by omega)]; exact BitVec.extractLsb'_eq_self

/-- Reading back what was written, in every format (46 R361 to R365). -/
theorem fieldsOf_encodeFields (fmt : FpFormat) (x : FpFields) (he : x.exp ≤ fmt.maxField)
    (hf : x.frac < 2 ^ fmt.fracBits) :
    fieldsOf fmt (encodeFields fmt x) = x := by
  obtain ⟨sign, exp, frac⟩ := x
  have spread : ∀ e : BitVec 8,
      (spreadExponent e).extractLsb' 10 1 ++ (spreadExponent e).extractLsb' 0 7 = e := by decide
  have back : ∀ e : BitVec 8, ∀ g : BitVec 11,
      g = (if e = 0xFF#8 then 0x7FF#11 else if e = 0 then 0 else spreadExponent e) ∨
      g = (if e = 0 then 0 else spreadExponent e) → g.extractLsb' 10 1 ++ g.extractLsb' 0 7 = e := by
    rintro e g (rfl | rfl)
    · split
      · rename_i h; rw [h]; decide
      split
      · rename_i h; rw [h]; decide
      · exact spread e
    · split
      · rename_i h; rw [h]; decide
      · exact spread e
  have nat : ∀ {p q}, exp < 2 ^ p → frac < 2 ^ q →
      (⟨sign, (BitVec.ofNat p exp).toNat, (BitVec.ofNat q frac).toNat⟩ : FpFields) = ⟨sign, exp, frac⟩ := by
    intro p q h1 h2; rw [BitVec.toNat_ofNat, BitVec.toNat_ofNat, Nat.mod_eq_of_lt h1, Nat.mod_eq_of_lt h2]
  have plain : ∀ {p q}, exp < 2 ^ p → frac < 2 ^ q → ∀ w : BitVec (1 + p + q),
      w = BitVec.ofBool sign ++ BitVec.ofNat p exp ++ BitVec.ofNat q frac →
      (⟨w.msb, (w.extractLsb' q p).toNat, (w.extractLsb' 0 q).toNat⟩ : FpFields) = ⟨sign, exp, frac⟩ := by
    rintro p q h1 h2 _ rfl
    obtain ⟨a, b, c⟩ := fields_append sign (BitVec.ofNat p exp) (BitVec.ofNat q frac)
    rw [a, b, c]; exact nat h1 h2
  cases fmt <;> simp only [FpFormat.maxField, FpFormat.expBits, FpFormat.fracBits] at he hf
  · show fieldsOf .s (BitVec.ofBool sign ++ _ ++ _ ++ _) = _
    rw [fieldsOf_spread _ _ _ _ (.inl rfl), back (BitVec.ofNat 8 exp) _ (.inl rfl)]
    exact nat (by omega) (by omega)
  · exact plain (p := 11) (q := 52) (by omega) (by omega) _ rfl
  · show fieldsOf .f (BitVec.ofBool sign ++ _ ++ _ ++ _) = _
    rw [fieldsOf_spread _ _ _ _ (.inr rfl), back (BitVec.ofNat 8 exp) _ (.inr rfl)]
    exact nat (by omega) (by omega)
  · exact plain (p := 11) (q := 52) (by omega) (by omega) _ rfl
  · exact plain (p := 8) (q := 55) (by omega) (by omega) _ rfl

end Sys2Proof.Machine
end

