-- ==== Sys2Proof/Laws/MemSys.lean ====
section
/-!
SUPPORT. The data side of the hierarchy: for each operation, once, what it does to the caches, to the
invariants of 49_cache R464 and to the bytes a load sees.
-/

namespace Sys2Proof.Machine

/-! ### Who holds a line -/

/-- The Dcache or the Bcache holds `l` for this line address. -/
def MemSys.Holds (cfg : Cfg) (m : MemSys) (line : Nat) (l : Line) : Prop :=
  (∃ key, (key, l) ∈ m.dcache.lines ∧ heldLine Config.cacheSetBits key l.tag = line) ∨
  (∃ key, (key, l) ∈ m.bcache.lines ∧ heldLine cfg.bcSetBits key l.tag = line)

theorem MemSys.byteAt_of_holds {cfg : Cfg} {m : MemSys} (hwf : m.wf cfg) {a : Nat} {l : Line}
    (h : m.Holds cfg (a / 64) l) : m.byteAt cfg a = blockByte l.data (a % 64) := by
  unfold MemSys.byteAt Cache.byte?
  rcases h with ⟨key, hm, hh⟩ | ⟨key, hm, hh⟩
  · rw [(Cache.find_eq_some hwf.dcache).2 ⟨hm, hh⟩]; rfl
  · have hd : m.dcache.find Config.cacheSetBits cfg.dcWays.count (a / 64) = none := by
      rw [Cache.find_eq_none hwf.dcache]
      intro e he heq
      exact hwf.exclusive e he _ hm (by rw [heq]; exact hh.symm)
    rw [hd, (Cache.find_eq_some hwf.bcache).2 ⟨hm, hh⟩]; rfl

theorem MemSys.byteAt_of_not_holds {cfg : Cfg} {m : MemSys} (hwf : m.wf cfg) {a : Nat}
    (h : ∀ l, ¬ m.Holds cfg (a / 64) l) : m.byteAt cfg a = Memory.read m.store a := by
  unfold MemSys.byteAt Cache.byte?
  have hd : m.dcache.find Config.cacheSetBits cfg.dcWays.count (a / 64) = none := by
    rw [Cache.find_eq_none hwf.dcache]
    exact fun e he heq => h e.2 (Or.inl ⟨e.1, he, heq⟩)
  have hb : m.bcache.find cfg.bcSetBits 1 (a / 64) = none := by
    rw [Cache.find_eq_none hwf.bcache]
    exact fun e he heq => h e.2 (Or.inr ⟨e.1, he, heq⟩)
  rw [hd, hb]; rfl

theorem MemSys.holds_unique {cfg : Cfg} {m : MemSys} (hwf : m.wf cfg) {line : Nat} {l l' : Line}
    (h : m.Holds cfg line l) (h' : m.Holds cfg line l') : l = l' := by
  rcases h with ⟨k, hm, hh⟩ | ⟨k, hm, hh⟩ <;> rcases h' with ⟨k', hm', hh'⟩ | ⟨k', hm', hh'⟩
  · exact congrArg Prod.snd (Cache.held_unique hwf.dcache hm hm' (hh.trans hh'.symm))
  · exact absurd (hh.trans hh'.symm) (hwf.exclusive _ hm _ hm')
  · exact absurd (hh'.trans hh.symm) (hwf.exclusive _ hm' _ hm)
  · exact congrArg Prod.snd (Cache.held_unique hwf.bcache hm hm' (hh.trans hh'.symm))

theorem MemSys.coherent_iff {cfg : Cfg} {m : MemSys} : m.coherent cfg ↔
    ∀ line l, m.Holds cfg line l → l.dirty = false →
      ∀ k < 64, blockByte l.data k = Memory.read m.store (64 * line + k) := by
  constructor
  · rintro ⟨hd, hb⟩ line l (⟨key, hm, rfl⟩ | ⟨key, hm, rfl⟩) hc
    · exact hd _ hm hc
    · exact hb _ hm hc
  · intro h
    exact ⟨fun e he hc => h _ e.2 (Or.inl ⟨e.1, he, rfl⟩) hc, fun e he hc => h _ e.2 (Or.inr ⟨e.1, he, rfl⟩) hc⟩

theorem MemSys.holds_lt {cfg : Cfg} {m : MemSys} (hwf : m.wf cfg) {line : Nat} {l : Line}
    (h : m.Holds cfg line l) : line < 2 ^ Config.lineBits := by
  rcases h with ⟨key, hm, rfl⟩ | ⟨key, hm, rfl⟩
  · have := hwf.dcache.2.2.1 _ hm
    exact heldLine_lt (by decide) this.1 this.2.2
  · have := hwf.bcache.2.2.1 _ hm
    exact heldLine_lt hwf.bits this.1 this.2.2

/-- A dirty or clean line agrees with the store at `line`. -/
def lineAgrees (store : Memory) (line : Nat) (data : Block) : Prop :=
  ∀ k < 64, blockByte data k = Memory.read store (64 * line + k)

theorem lineAgrees_read {store : Memory} {a : Nat} {data : Block} (h : lineAgrees store (a / 64) data) :
    blockByte data (a % 64) = Memory.read store a := by
  rw [h _ (Nat.mod_lt _ (by omega)), Nat.div_add_mod]

/-! ### Writing a line back -/

theorem MemSys.writeBack_caches (m : MemSys) (line : Nat) (l : Line) :
    (m.writeBack line l).icache = m.icache ∧ (m.writeBack line l).dcache = m.dcache ∧
    (m.writeBack line l).bcache = m.bcache := by
  unfold MemSys.writeBack; split <;> exact ⟨rfl, rfl, rfl⟩

theorem MemSys.read_writeBack (m : MemSys) (line : Nat) (l : Line) (a : Nat) :
    Memory.read (m.writeBack line l).store a =
      if l.dirty = true ∧ a / 64 = line then blockByte l.data (a % 64) else Memory.read m.store a := by
  unfold MemSys.writeBack
  by_cases hd : l.dirty = true
  · rw [if_pos hd]
    show Memory.read (Memory.writeBlock m.store line l.data) a = _
    rw [Memory.read_writeBlock]; simp [hd]
  · rw [if_neg hd]; simp [hd]

/-- Well-formedness speaks of the caches and the store only. -/
theorem MemSys.wf_of_caches {cfg : Cfg} {m m' : MemSys} (hwf : m.wf cfg) (hi : m'.icache = m.icache)
    (hd : m'.dcache = m.dcache) (hb : m'.bcache = m.bcache) (hs : Memory.wf m'.store) : m'.wf cfg where
  store := hs
  bits := hwf.bits
  icache := hi ▸ hwf.icache
  dcache := hd ▸ hwf.dcache
  bcache := hb ▸ hwf.bcache
  exclusive := by unfold MemSys.exclusive; rw [hd, hb]; exact hwf.exclusive
  icacheClean := by rw [hi]; exact hwf.icacheClean
  unshared := by rw [hd, hb]; exact hwf.unshared
  noBcache := by rw [hb]; exact hwf.noBcache

theorem MemSys.wf_writeBack {cfg : Cfg} {m : MemSys} (hwf : m.wf cfg) {line : Nat}
    (hl : line < 2 ^ Config.lineBits) (l : Line) : (m.writeBack line l).wf cfg := by
  obtain ⟨hi, hd, hb⟩ := m.writeBack_caches line l
  refine MemSys.wf_of_caches hwf hi hd hb ?_
  unfold MemSys.writeBack
  split
  · exact Memory.wf_writeBlock hwf.store hl _
  · exact hwf.store

theorem MemSys.holds_of_caches {cfg : Cfg} {m m' : MemSys} (hd : m'.dcache = m.dcache)
    (hb : m'.bcache = m.bcache) {line : Nat} {l : Line} : m'.Holds cfg line l ↔ m.Holds cfg line l := by
  unfold MemSys.Holds; rw [hd, hb]

/-- Writing a held line back changes no byte a load sees, and the line then agrees with the store. -/
theorem MemSys.writeBack_spec {cfg : Cfg} {m : MemSys} (hwf : m.wf cfg) (hc : m.coherent cfg) {line : Nat}
    {l : Line} (h : m.Holds cfg line l) :
    (m.writeBack line l).coherent cfg ∧ m.sameBytes cfg (m.writeBack line l) ∧
    lineAgrees (m.writeBack line l).store line l.data := by
  obtain ⟨-, hd, hb⟩ := m.writeBack_caches line l
  have hh : ∀ {ln x}, (m.writeBack line l).Holds cfg ln x ↔ m.Holds cfg ln x := MemSys.holds_of_caches hd hb
  have hwf' := MemSys.wf_writeBack hwf (MemSys.holds_lt hwf h) l
  have hag : lineAgrees (m.writeBack line l).store line l.data := by
    intro k hk
    rw [MemSys.read_writeBack]
    have e1 : (64 * line + k) / 64 = line := by omega
    have e2 : (64 * line + k) % 64 = k := by omega
    rw [e1, e2]
    cases hdirty : l.dirty with
    | true => simp
    | false => simp; exact MemSys.coherent_iff.1 hc _ _ h hdirty k hk
  refine ⟨?_, ?_, hag⟩
  · rw [MemSys.coherent_iff]
    intro ln x hx hclean k hk
    rw [hh] at hx
    rw [MemSys.read_writeBack]
    have e1 : (64 * ln + k) / 64 = ln := by omega
    rw [e1]
    by_cases hln : l.dirty = true ∧ ln = line
    · obtain ⟨hdirty, rfl⟩ := hln
      rw [MemSys.holds_unique hwf hx h] at hclean
      rw [hclean] at hdirty; cases hdirty
    · rw [if_neg hln]; exact MemSys.coherent_iff.1 hc _ _ hx hclean k hk
  · intro a
    by_cases hex : ∃ x, m.Holds cfg (a / 64) x
    · obtain ⟨x, hx⟩ := hex
      rw [MemSys.byteAt_of_holds hwf hx, MemSys.byteAt_of_holds hwf' (hh.2 hx)]
    · have hn : ∀ x, ¬ m.Holds cfg (a / 64) x := fun x hx => hex ⟨x, hx⟩
      rw [MemSys.byteAt_of_not_holds hwf hn, MemSys.byteAt_of_not_holds hwf' (fun x hx => hn x (hh.1 hx)),
        MemSys.read_writeBack, if_neg]
      rintro ⟨-, heq⟩
      exact hn l (heq ▸ h)

/-! ### Filling the Bcache -/

/-- What a fill of the Bcache does (R455, R458). -/
theorem MemSys.fillB_spec {cfg : Cfg} {m : MemSys} (hwf : m.wf cfg) (hp : cfg.bcPresent = true) {line : Nat}
    (hl : line < 2 ^ Config.lineBits) (habs : ∀ l, ¬ m.Holds cfg line l) (data : Block) (dirty shared : Bool)
    (hs : shared = true → cfg.mp = true) :
    ∃ m', m.fillB cfg line data dirty shared = .ok m' ∧ m'.wf cfg ∧ m'.icache = m.icache ∧ m'.dcache = m.dcache ∧
      (∀ ln x, m'.Holds cfg ln x → ln = line ∨ m.Holds cfg ln x) ∧
      (∃ key, (key, (⟨tagIndex cfg.bcSetBits line, dirty, shared, data⟩ : Line)) ∈ m'.bcache.lines ∧
        heldLine cfg.bcSetBits key (tagIndex cfg.bcSetBits line) = line) ∧
      (m.coherent cfg → (dirty = false → lineAgrees m.store line data) →
        m'.coherent cfg ∧
        ∀ a, m'.byteAt cfg a = if a / 64 = line then blockByte data (a % 64) else m.byteAt cfg a) := by
  have hB : ∀ e ∈ m.bcache.lines, heldLine cfg.bcSetBits e.1 e.2.tag ≠ line :=
    fun e he heq => habs e.2 (Or.inr ⟨e.1, he, heq⟩)
  have hD : ∀ e ∈ m.dcache.lines, heldLine Config.cacheSetBits e.1 e.2.tag ≠ line :=
    fun e he heq => habs e.2 (Or.inl ⟨e.1, he, heq⟩)
  have hfind : m.bcache.find cfg.bcSetBits 1 line = none := (Cache.find_eq_none hwf.bcache).2 hB
  have hlook : m.lookup cfg .bcache line = .ok none := by
    show m.bcache.lookup cfg.bcSetBits 1 line = _
    rw [Cache.lookup_eq hwf.bcache, hfind]
  let b := cfg.bcSetBits
  let key := wayKey b line 0
  let new : Line := ⟨tagIndex b line, dirty, shared, data⟩
  let m1 : MemSys := match Table.at? m.bcache.lines key with
      | some v => m.writeBack (heldLine b key v.tag) v
      | none => m
  let m' : MemSys := { m1 with bcache := { m1.bcache with lines := Table.put m1.bcache.lines key new } }
  have hrun : m.fillB cfg line data dirty shared = .ok m' := by
    unfold MemSys.fillB; rw [hlook]; rfl
  have hm1 : m1.wf cfg ∧ m1.icache = m.icache ∧ m1.dcache = m.dcache ∧ m1.bcache = m.bcache := by
    show MemSys.wf cfg (match Table.at? m.bcache.lines key with
      | some v => m.writeBack (heldLine b key v.tag) v
      | none => m) ∧ _
    cases hat : Table.at? m.bcache.lines key with
    | none =>
      have : m1 = m := by simp only [m1, hat]
      rw [this]; exact ⟨hwf, rfl, rfl, rfl⟩
    | some v =>
      have : m1 = m.writeBack (heldLine b key v.tag) v := by simp only [m1, hat]
      rw [this]
      have hr := hwf.bcache.2.2.1 _ (Table.mem_of_at? hat)
      obtain ⟨h1, h2, h3⟩ := m.writeBack_caches (heldLine b key v.tag) v
      exact ⟨MemSys.wf_writeBack hwf (heldLine_lt hwf.bits hr.1 hr.2.2) v, h1, h2, h3⟩
  obtain ⟨hwf1, hi1, hd1, hb1⟩ := hm1
  have hsorted : Table.Sorted m.bcache.lines := hwf.bcache.1
  have hlines : m'.bcache.lines = Table.put m.bcache.lines key new := by
    show Table.put m1.bcache.lines key new = _; rw [hb1]
  have hmem : ∀ e, e ∈ m'.bcache.lines ↔ e = (key, new) ∨ (e ∈ m.bcache.lines ∧ e.1 ≠ key) := by
    intro e; rw [hlines]; exact Table.mem_put_iff hsorted
  have hheld : heldLine b key (tagIndex b line) = line := heldLine_wayKey (by omega)
  have hwf' : m'.wf cfg := by
    refine ⟨hwf1.store, hwf1.bits, hwf1.icache, hwf1.dcache, ?_, ?_, hwf1.icacheClean, ?_, ?_⟩
    · show Cache.wf { lines := Table.put m1.bcache.lines key new, rr := m1.bcache.rr } b 1
      rw [hb1]
      exact Cache.wf_put hwf.bcache hwf.bits hl (by omega) (by omega) hB new rfl _ hwf.bcache.2.1
        hwf.bcache.2.2.2.2
    · intro d hd e he
      have hd : d ∈ m.dcache.lines := by have : m'.dcache = m.dcache := hd1; rwa [this] at hd
      rcases (hmem e).1 he with rfl | ⟨he, -⟩
      · rw [show heldLine cfg.bcSetBits (key, new).1 (key, new).2.tag = line from hheld]; exact hD d hd
      · exact hwf.exclusive d hd e he
    · intro hmp
      obtain ⟨hu1, hu2⟩ := hwf.unshared hmp
      refine ⟨fun e he => hu1 e (by have : m'.dcache = m.dcache := hd1; rwa [this] at he), fun e he => ?_⟩
      rcases (hmem e).1 he with rfl | ⟨he, -⟩
      · show shared = false
        cases shared with
        | false => rfl
        | true => rw [hs rfl] at hmp; cases hmp
      · exact hu2 e he
    · intro hno; rw [hp] at hno; cases hno
  have hHolds : ∀ ln x, m'.Holds cfg ln x ↔ (ln = line ∧ x = new) ∨
      (∃ k, (k, x) ∈ m.dcache.lines ∧ heldLine Config.cacheSetBits k x.tag = ln) ∨
      (∃ k, (k, x) ∈ m.bcache.lines ∧ k ≠ key ∧ heldLine cfg.bcSetBits k x.tag = ln) := by
    intro ln x
    have hdd : m'.dcache = m.dcache := hd1
    unfold MemSys.Holds
    rw [hdd]
    constructor
    · rintro (h | ⟨k, hk, hh⟩)
      · exact Or.inr (Or.inl h)
      · rcases (hmem _).1 hk with heq | ⟨hk, hne⟩
        · cases heq; exact Or.inl ⟨hh.symm.trans hheld, rfl⟩
        · exact Or.inr (Or.inr ⟨k, hk, hne, hh⟩)
    · rintro (⟨rfl, rfl⟩ | h | ⟨k, hk, hne, hh⟩)
      · exact Or.inr ⟨key, (hmem _).2 (Or.inl rfl), hheld⟩
      · exact Or.inl h
      · exact Or.inr ⟨k, (hmem _).2 (Or.inr ⟨hk, hne⟩), hh⟩
  refine ⟨m', hrun, hwf', hi1, hd1, ?_, ⟨key, (hmem _).2 (Or.inl rfl), hheld⟩, ?_⟩
  · intro ln x hx
    rcases (hHolds ln x).1 hx with ⟨h, -⟩ | h | ⟨k, hk, -, hh⟩
    · exact Or.inl h
    · exact Or.inr (Or.inl h)
    · exact Or.inr (Or.inr ⟨k, hk, hh⟩)
  · intro hc hag
    -- what the write-back of the occupant left
    have h1 : m1.coherent cfg ∧ m.sameBytes cfg m1 ∧
        (∀ v, Table.at? m.bcache.lines key = some v → lineAgrees m1.store (heldLine b key v.tag) v.data) ∧
        (∀ ln, (∀ x, ¬ m.Holds cfg ln x) → ∀ k < 64, Memory.read m1.store (64 * ln + k) =
          Memory.read m.store (64 * ln + k)) := by
      cases hat : Table.at? m.bcache.lines key with
      | none =>
        have : m1 = m := by simp only [m1, hat]
        rw [this]; exact ⟨hc, fun _ => rfl, fun v hv => (by cases hv), fun _ _ _ _ => rfl⟩
      | some v =>
        have : m1 = m.writeBack (heldLine b key v.tag) v := by simp only [m1, hat]
        rw [this]
        have hv : m.Holds cfg (heldLine b key v.tag) v := Or.inr ⟨key, Table.mem_of_at? hat, rfl⟩
        obtain ⟨c1, c2, c3⟩ := MemSys.writeBack_spec hwf hc hv
        refine ⟨c1, c2, fun v' hv' => ?_, fun ln hn k hk => ?_⟩
        · cases hv'; exact c3
        · rw [MemSys.read_writeBack, if_neg]
          rintro ⟨-, heq⟩
          have : (64 * ln + k) / 64 = ln := by omega
          rw [this] at heq; exact hn v (heq ▸ hv)
    obtain ⟨hc1, hsame, hocc, hst⟩ := h1
    have hstore : m'.store = m1.store := rfl
    constructor
    · rw [MemSys.coherent_iff]
      intro ln x hx hclean k hk
      rw [hstore]
      rcases (hHolds ln x).1 hx with ⟨rfl, rfl⟩ | h | ⟨k', hk', -, hh⟩
      · rw [hst _ habs k hk]; exact hag hclean k hk
      · exact MemSys.coherent_iff.1 hc1 ln x ((MemSys.holds_of_caches hd1 hb1).2 (Or.inl h)) hclean k hk
      · exact MemSys.coherent_iff.1 hc1 ln x ((MemSys.holds_of_caches hd1 hb1).2 (Or.inr ⟨k', hk', hh⟩)) hclean k hk
    · intro a
      by_cases ha : a / 64 = line
      · rw [if_pos ha]
        exact MemSys.byteAt_of_holds hwf' ((hHolds _ _).2 (Or.inl ⟨ha, rfl⟩))
      · rw [if_neg ha]
        by_cases hex : ∃ x, m'.Holds cfg (a / 64) x
        · obtain ⟨x, hx⟩ := hex
          rw [MemSys.byteAt_of_holds hwf' hx]
          rcases (hHolds _ x).1 hx with ⟨h, -⟩ | h | ⟨k, hk, -, hh⟩
          · exact absurd h ha
          · exact (MemSys.byteAt_of_holds hwf (Or.inl h)).symm
          · exact (MemSys.byteAt_of_holds hwf (Or.inr ⟨k, hk, hh⟩)).symm
        · have hn' : ∀ x, ¬ m'.Holds cfg (a / 64) x := fun x hx => hex ⟨x, hx⟩
          rw [MemSys.byteAt_of_not_holds hwf' hn', hstore]
          by_cases hex2 : ∃ x, m.Holds cfg (a / 64) x
          · obtain ⟨x, hx⟩ := hex2
            rw [MemSys.byteAt_of_holds hwf hx]
            rcases hx with h | ⟨k, hk, hh⟩
            · exact absurd ((hHolds _ x).2 (Or.inr (Or.inl h))) (hn' x)
            · by_cases hkk : k = key
              · have hat := Table.at?_of_mem hsorted hk
                rw [hkk] at hat hh
                have hag' := hocc x hat
                rw [show heldLine b key x.tag = a / 64 from hh] at hag'
                exact (lineAgrees_read hag').symm
              · exact absurd ((hHolds _ x).2 (Or.inr (Or.inr ⟨k, hk, hkk, hh⟩))) (hn' x)
          · have hn : ∀ x, ¬ m.Holds cfg (a / 64) x := fun x hx => hex2 ⟨x, hx⟩
            rw [MemSys.byteAt_of_not_holds hwf hn]
            have := hst _ hn (a % 64) (Nat.mod_lt _ (by omega))
            rwa [Nat.div_add_mod] at this

/-! ### Dropping a Dcache line -/

/-- A Dcache line made invalid: the invariants hold, and who holds what is otherwise unchanged. -/
theorem MemSys.dropD_spec {cfg : Cfg} {m : MemSys} (hwf : m.wf cfg) {key : Nat} {v : Line}
    (hat : Table.at? m.dcache.lines key = some v) :
    MemSys.wf cfg { m with dcache := m.dcache.drop key } ∧
    (∀ ln x, MemSys.Holds cfg { m with dcache := m.dcache.drop key } ln x ↔
      m.Holds cfg ln x ∧ ln ≠ heldLine Config.cacheSetBits key v.tag) := by
  have hv := Table.mem_of_at? hat
  constructor
  · refine ⟨hwf.store, hwf.bits, hwf.icache, Cache.wf_drop hwf.dcache key, hwf.bcache, ?_, hwf.icacheClean, ?_,
      hwf.noBcache⟩
    · exact fun d hd e he => hwf.exclusive d (Cache.mem_drop hd).1 e he
    · exact fun h => ⟨fun e he => (hwf.unshared h).1 e (Cache.mem_drop he).1, (hwf.unshared h).2⟩
  · intro ln x
    constructor
    · rintro (⟨k, hk, hh⟩ | ⟨k, hk, hh⟩)
      · obtain ⟨hk1, hk2⟩ := Cache.mem_drop hk
        refine ⟨Or.inl ⟨k, hk1, hh⟩, ?_⟩
        rintro rfl
        exact hk2 (congrArg Prod.fst (Cache.held_unique hwf.dcache hk1 hv hh))
      · refine ⟨Or.inr ⟨k, hk, hh⟩, ?_⟩
        rintro rfl
        exact hwf.exclusive _ hv _ hk hh.symm
    · rintro ⟨⟨k, hk, hh⟩ | h, hne⟩
      · refine Or.inl ⟨k, Cache.mem_drop_of hwf.dcache hk ?_, hh⟩
        rintro rfl
        have := Table.at?_of_mem hwf.dcache.1 hk
        rw [hat] at this; cases this
        exact hne hh.symm
      · exact Or.inr h

/-- A Bcache line made invalid. -/
theorem MemSys.dropB_spec {cfg : Cfg} {m : MemSys} (hwf : m.wf cfg) {key : Nat} {v : Line}
    (hat : Table.at? m.bcache.lines key = some v) :
    MemSys.wf cfg { m with bcache := m.bcache.drop key } ∧
    (∀ ln x, MemSys.Holds cfg { m with bcache := m.bcache.drop key } ln x ↔
      m.Holds cfg ln x ∧ ln ≠ heldLine cfg.bcSetBits key v.tag) := by
  have hv := Table.mem_of_at? hat
  constructor
  · refine ⟨hwf.store, hwf.bits, hwf.icache, hwf.dcache, Cache.wf_drop hwf.bcache key, ?_, hwf.icacheClean, ?_, ?_⟩
    · exact fun d hd e he => hwf.exclusive d hd e (Cache.mem_drop he).1
    · exact fun h => ⟨(hwf.unshared h).1, fun e he => (hwf.unshared h).2 e (Cache.mem_drop he).1⟩
    · intro h
      show Table.del m.bcache.lines key = []
      rw [hwf.noBcache h]; rfl
  · intro ln x
    constructor
    · rintro (⟨k, hk, hh⟩ | ⟨k, hk, hh⟩)
      · refine ⟨Or.inl ⟨k, hk, hh⟩, ?_⟩
        rintro rfl
        exact hwf.exclusive _ hk _ hv hh
      · obtain ⟨hk1, hk2⟩ := Cache.mem_drop hk
        refine ⟨Or.inr ⟨k, hk1, hh⟩, ?_⟩
        rintro rfl
        exact hk2 (congrArg Prod.fst (Cache.held_unique hwf.bcache hk1 hv hh))
    · rintro ⟨h | ⟨k, hk, hh⟩, hne⟩
      · exact Or.inl h
      · refine Or.inr ⟨k, Cache.mem_drop_of hwf.bcache hk ?_, hh⟩
        rintro rfl
        have := Table.at?_of_mem hwf.bcache.1 hk
        rw [hat] at this; cases this
        exact hne hh.symm

/-! ### Evicting from the Dcache -/

/-- What an eviction from the Dcache does (R458): it cannot be refused, it keeps the invariants, it changes no
byte a load sees, and no line becomes held. -/
theorem MemSys.evictD_spec {cfg : Cfg} {m : MemSys} (hwf : m.wf cfg) (key : Nat) :
    ∃ m', m.evictD cfg key = .ok m' ∧ m'.wf cfg ∧ m'.icache = m.icache ∧ m'.dcache.lines = Table.del m.dcache.lines key ∧
      m'.dcache.rr = m.dcache.rr ∧
      (∀ ln, (∀ x, ¬ m.Holds cfg ln x) → ∀ x, ¬ m'.Holds cfg ln x) ∧
      (m.coherent cfg → m'.coherent cfg ∧ m.sameBytes cfg m') := by
  unfold MemSys.evictD
  cases hat : Table.at? m.dcache.lines key with
  | none =>
    exact ⟨m, rfl, hwf, rfl, (Table.del_of_at?_none hat).symm, rfl, fun _ h => h, fun hc => ⟨hc, fun _ => rfl⟩⟩
  | some v =>
    have hv := Table.mem_of_at? hat
    obtain ⟨hwf1, hh1⟩ := MemSys.dropD_spec hwf hat
    have hr := hwf.dcache.2.2.1 _ hv
    have hlt : heldLine Config.cacheSetBits key v.tag < 2 ^ Config.lineBits := heldLine_lt (by decide) hr.1 hr.2.2
    have hheld : m.Holds cfg (heldLine Config.cacheSetBits key v.tag) v := Or.inl ⟨key, hv, rfl⟩
    have habs : ∀ l, ¬ MemSys.Holds cfg { m with dcache := m.dcache.drop key } (heldLine Config.cacheSetBits key v.tag) l :=
      fun l h => ((hh1 _ _).1 h).2 rfl
    -- dropping the line: a clean one leaves the bytes alone
    have hcoh1 : m.coherent cfg → MemSys.coherent cfg { m with dcache := m.dcache.drop key } := by
      intro hc
      rw [MemSys.coherent_iff]
      exact fun ln x hx => MemSys.coherent_iff.1 hc ln x ((hh1 _ _).1 hx).1
    have hbytes1 : ∀ a, a / 64 ≠ heldLine Config.cacheSetBits key v.tag →
        MemSys.byteAt cfg { m with dcache := m.dcache.drop key } a = m.byteAt cfg a := by
      intro a ha
      by_cases hex : ∃ x, m.Holds cfg (a / 64) x
      · obtain ⟨x, hx⟩ := hex
        rw [MemSys.byteAt_of_holds hwf hx, MemSys.byteAt_of_holds hwf1 ((hh1 _ _).2 ⟨hx, ha⟩)]
      · rw [MemSys.byteAt_of_not_holds hwf fun x hx => hex ⟨x, hx⟩,
          MemSys.byteAt_of_not_holds hwf1 fun x hx => hex ⟨x, ((hh1 _ _).1 hx).1⟩]
    by_cases hp : cfg.bcPresent = true
    · obtain ⟨m', hrun, hwf', hi, hd, hsub, -, hco⟩ := MemSys.fillB_spec hwf1 hp hlt habs v.data v.dirty v.shared (by
        intro hs
        cases hmp : cfg.mp with
        | true => rfl
        | false => have := (hwf.unshared hmp).1 _ hv; rw [hs] at this; cases this)
      refine ⟨m', ?_, hwf', hi, by rw [hd]; rfl, by rw [hd]; rfl, ?_, ?_⟩
      · simp only [hp, if_true]; exact hrun
      · intro ln hn x hx
        rcases hsub _ _ hx with rfl | hx
        · exact hn v hheld
        · exact hn x ((hh1 _ _).1 hx).1
      · intro hc
        obtain ⟨c1, c2⟩ := hco (hcoh1 hc) (fun hcl => MemSys.coherent_iff.1 hc _ _ hheld hcl)
        refine ⟨c1, fun a => ?_⟩
        rw [c2]
        by_cases ha : a / 64 = heldLine Config.cacheSetBits key v.tag
        · rw [if_pos ha, MemSys.byteAt_of_holds hwf (ha ▸ hheld)]
        · rw [if_neg ha, hbytes1 a ha]
    · -- no Bcache: a dirty line goes to the backing store
      let m1 : MemSys := { m with dcache := m.dcache.drop key }
      obtain ⟨w1, w2, w3⟩ := m1.writeBack_caches (heldLine Config.cacheSetBits key v.tag) v
      have hwf' := MemSys.wf_writeBack hwf1 hlt v
      have hhw : ∀ {ln x}, (m1.writeBack (heldLine Config.cacheSetBits key v.tag) v).Holds cfg ln x ↔ m1.Holds cfg ln x :=
        MemSys.holds_of_caches w2 w3
      refine ⟨m1.writeBack (heldLine Config.cacheSetBits key v.tag) v, ?_, hwf', w1, by rw [w2]; rfl, by rw [w2]; rfl, ?_, ?_⟩
      · simp only [hp]; rfl
      · intro ln hn x hx
        exact hn x ((hh1 _ _).1 (hhw.1 hx)).1
      · intro hc
        have hrd : ∀ a, a / 64 ≠ heldLine Config.cacheSetBits key v.tag →
            Memory.read (m1.writeBack (heldLine Config.cacheSetBits key v.tag) v).store a = Memory.read m.store a := by
          intro a ha; rw [MemSys.read_writeBack, if_neg (fun h => ha h.2)]
        constructor
        · rw [MemSys.coherent_iff]
          intro ln x hx hclean k hk
          have hx1 := hhw.1 hx
          have h2 := (hh1 _ _).1 hx1
          have e1 : (64 * ln + k) / 64 = ln := by omega
          rw [hrd _ (by rw [e1]; exact h2.2)]
          exact MemSys.coherent_iff.1 hc ln x h2.1 hclean k hk
        · intro a
          by_cases ha : a / 64 = heldLine Config.cacheSetBits key v.tag
          · rw [MemSys.byteAt_of_holds hwf (ha ▸ hheld),
              MemSys.byteAt_of_not_holds hwf' (fun x hx => habs x (ha ▸ hhw.1 hx)), MemSys.read_writeBack]
            by_cases hdirty : v.dirty = true
            · rw [if_pos ⟨hdirty, ha⟩]
            · rw [if_neg (fun h => hdirty h.1)]
              have hag := MemSys.coherent_iff.1 hc _ _ hheld (by simpa using hdirty)
              rw [← ha] at hag
              exact (lineAgrees_read hag).symm
          · rw [← hbytes1 a ha]
            by_cases hex : ∃ x, m1.Holds cfg (a / 64) x
            · obtain ⟨x, hx⟩ := hex
              rw [MemSys.byteAt_of_holds hwf1 hx, MemSys.byteAt_of_holds hwf' (hhw.2 hx)]
            · rw [MemSys.byteAt_of_not_holds hwf1 fun x hx => hex ⟨x, hx⟩,
                MemSys.byteAt_of_not_holds hwf' fun x hx => hex ⟨x, hhw.1 hx⟩, hrd a ha]

/-! ### Filling the Dcache -/

/-- What a fill of the Dcache does (R455). -/
theorem MemSys.fillD_spec {cfg : Cfg} {m : MemSys} (hwf : m.wf cfg) {line : Nat}
    (hl : line < 2 ^ Config.lineBits) (habs : ∀ l, ¬ m.Holds cfg line l) (data : Block) (dirty shared : Bool)
    (hs : shared = true → cfg.mp = true) :
    ∃ m' key, m.fillD cfg line data dirty shared = .ok m' ∧ m'.wf cfg ∧ m'.icache = m.icache ∧
      m'.dcache.find Config.cacheSetBits cfg.dcWays.count line =
        some (key, ⟨tagIndex Config.cacheSetBits line, dirty, shared, data⟩) ∧
      (m.coherent cfg → (dirty = false → lineAgrees m.store line data) →
        m'.coherent cfg ∧
        ∀ a, m'.byteAt cfg a = if a / 64 = line then blockByte data (a % 64) else m.byteAt cfg a) := by
  have hD : ∀ e ∈ m.dcache.lines, heldLine Config.cacheSetBits e.1 e.2.tag ≠ line :=
    fun e he heq => habs e.2 (Or.inl ⟨e.1, he, heq⟩)
  have hlook : m.lookup cfg .dcache line = .ok none := by
    show m.dcache.lookup Config.cacheSetBits cfg.dcWays.count line = _
    rw [Cache.lookup_eq hwf.dcache, (Cache.find_eq_none hwf.dcache).2 hD]
  let b := Config.cacheSetBits
  let way := m.dcache.victimWay b cfg.dcWays.count line
  have hway : way < cfg.dcWays.count := Cache.victimWay_lt _ (Ways.count_pos _)
  have hway2 : way < 2 := Nat.lt_of_lt_of_le hway (Ways.count_le _)
  obtain ⟨m1, hev, hwf1, hi1, hl1, hr1, hno1, hco1⟩ := MemSys.evictD_spec hwf (wayKey b line way)
  have habs1 := hno1 line habs
  have hD1 : ∀ e ∈ m1.dcache.lines, heldLine b e.1 e.2.tag ≠ line :=
    fun e he heq => habs1 e.2 (Or.inl ⟨e.1, he, heq⟩)
  let new : Line := ⟨tagIndex b line, dirty, shared, data⟩
  let m' : MemSys := { m1 with dcache := m1.dcache.install b cfg.dcWays.count line way new }
  have hrun : m.fillD cfg line data dirty shared = .ok m' := by
    unfold MemSys.fillD
    rw [hlook]
    show (m.evictD cfg (wayKey b line way) >>= _) = _
    rw [hev]; rfl
  have hvac : Table.at? m1.dcache.lines (wayKey b line way) = none := by rw [hl1]; exact Table.at?_del_self _ _
  have hmem : ∀ e, e ∈ m'.dcache.lines ↔ e = (wayKey b line way, new) ∨ e ∈ m1.dcache.lines := by
    intro e
    show e ∈ Table.put m1.dcache.lines (wayKey b line way) new ↔ _
    rw [Table.mem_put_iff hwf1.dcache.1]
    constructor
    · rintro (h | ⟨h, -⟩)
      · exact Or.inl h
      · exact Or.inr h
    · rintro (h | h)
      · exact Or.inl h
      · refine Or.inr ⟨h, fun hk => ?_⟩
        have := Table.at?_of_mem hwf1.dcache.1 (k := e.1) (v := e.2) h
        rw [hk, hvac] at this; cases this
  have hheld : heldLine b (wayKey b line way) (tagIndex b line) = line := heldLine_wayKey hway2
  have hwf' : m'.wf cfg := by
    refine ⟨hwf1.store, hwf1.bits, hwf1.icache, ?_, hwf1.bcache, ?_, hwf1.icacheClean, ?_, hwf1.noBcache⟩
    · exact Cache.wf_install hwf1.dcache (by decide) hl hway (Ways.count_le _) hD1 new rfl
    · intro d hd e he
      rcases (hmem d).1 hd with rfl | hd
      · intro heq; exact habs1 e.2 (Or.inr ⟨e.1, he, heq.symm.trans hheld⟩)
      · exact hwf1.exclusive d hd e he
    · intro hmp
      refine ⟨fun e he => ?_, (hwf1.unshared hmp).2⟩
      rcases (hmem e).1 he with rfl | he
      · show shared = false
        cases shared with
        | false => rfl
        | true => rw [hs rfl] at hmp; cases hmp
      · exact (hwf1.unshared hmp).1 e he
  have hHolds : ∀ ln x, m'.Holds cfg ln x ↔ (ln = line ∧ x = new) ∨ m1.Holds cfg ln x := by
    intro ln x
    constructor
    · rintro (⟨k, hk, hh⟩ | ⟨k, hk, hh⟩)
      · rcases (hmem _).1 hk with heq | hk
        · cases heq; exact Or.inl ⟨hh.symm.trans hheld, rfl⟩
        · exact Or.inr (Or.inl ⟨k, hk, hh⟩)
      · exact Or.inr (Or.inr ⟨k, hk, hh⟩)
    · rintro (⟨rfl, rfl⟩ | ⟨k, hk, hh⟩ | ⟨k, hk, hh⟩)
      · exact Or.inl ⟨_, (hmem _).2 (Or.inl rfl), hheld⟩
      · exact Or.inl ⟨k, (hmem _).2 (Or.inr hk), hh⟩
      · exact Or.inr ⟨k, hk, hh⟩
  refine ⟨m', wayKey b line way, hrun, hwf', hi1, ?_, ?_⟩
  · exact (Cache.find_eq_some hwf'.dcache).2 ⟨(hmem _).2 (Or.inl rfl), hheld⟩
  · intro hc hag
    obtain ⟨hc1, hsame1⟩ := hco1 hc
    have hstore : m'.store = m1.store := rfl
    -- the line was held nowhere, so the store's bytes of it are what a load saw
    have hag1 : dirty = false → lineAgrees m1.store line data := by
      intro hcl k hk
      have e1 : (64 * line + k) / 64 = line := by omega
      have h1 := hsame1 (64 * line + k)
      rw [MemSys.byteAt_of_not_holds hwf1 (by rw [e1]; exact habs1),
        MemSys.byteAt_of_not_holds hwf (by rw [e1]; exact habs)] at h1
      rw [h1]; exact hag hcl k hk
    constructor
    · rw [MemSys.coherent_iff]
      intro ln x hx hclean k hk
      rw [hstore]
      rcases (hHolds _ _).1 hx with ⟨rfl, rfl⟩ | hx
      · exact hag1 hclean k hk
      · exact MemSys.coherent_iff.1 hc1 _ _ hx hclean k hk
    · intro a
      by_cases ha : a / 64 = line
      · rw [if_pos ha]; exact MemSys.byteAt_of_holds hwf' ((hHolds _ _).2 (Or.inl ⟨ha, rfl⟩))
      · rw [if_neg ha, ← hsame1 a]
        by_cases hex : ∃ x, m1.Holds cfg (a / 64) x
        · obtain ⟨x, hx⟩ := hex
          rw [MemSys.byteAt_of_holds hwf1 hx, MemSys.byteAt_of_holds hwf' ((hHolds _ _).2 (Or.inr hx))]
        · rw [MemSys.byteAt_of_not_holds hwf1 fun x hx => hex ⟨x, hx⟩, MemSys.byteAt_of_not_holds hwf' ?_, hstore]
          intro x hx
          rcases (hHolds _ _).1 hx with ⟨h, -⟩ | hx
          · exact ha h
          · exact hex ⟨x, hx⟩

/-! ### The fill path and the data path -/

/-- What `dcache_fill` does (R460). -/
theorem MemSys.dcacheFill_spec {cfg : Cfg} {m : MemSys} (hwf : m.wf cfg) {line : Nat}
    (hl : line < 2 ^ Config.lineBits) (hD : ∀ e ∈ m.dcache.lines, heldLine Config.cacheSetBits e.1 e.2.tag ≠ line) :
    ∃ m' key l, m.dcacheFill cfg line = .ok m' ∧ m'.wf cfg ∧ m'.icache = m.icache ∧
      m'.dcache.find Config.cacheSetBits cfg.dcWays.count line = some (key, l) ∧
      (∀ k < 64, blockByte l.data k = m.byteAt cfg (64 * line + k)) ∧
      (m.coherent cfg → m'.coherent cfg ∧ m.sameBytes cfg m') := by
  have hmod : ∀ k < 64, (64 * line + k) / 64 = line ∧ (64 * line + k) % 64 = k := fun k hk => by omega
  have hlook : m.lookup cfg .bcache line = .ok (m.bcache.find cfg.bcSetBits 1 line) := by
    show m.bcache.lookup cfg.bcSetBits 1 line = _
    exact Cache.lookup_eq hwf.bcache line
  cases hf : m.bcache.find cfg.bcSetBits 1 line with
  | some r =>
    obtain ⟨bkey, l⟩ := r
    obtain ⟨hm, hh⟩ := (Cache.find_eq_some hwf.bcache).1 hf
    have hat := Table.at?_of_mem hwf.bcache.1 hm
    have hHold : m.Holds cfg line l := Or.inr ⟨bkey, hm, hh⟩
    obtain ⟨hwf1, hh1⟩ := MemSys.dropB_spec hwf hat
    have hrun : m.dcacheFill cfg line = MemSys.fillD cfg { m with bcache := m.bcache.drop bkey } line l.data l.dirty l.shared := by
      unfold MemSys.dcacheFill; rw [hlook, hf]; rfl
    obtain ⟨m', key, hfill, hwf', hi, hfind, hco⟩ := MemSys.fillD_spec hwf1 hl
      (fun x hx => ((hh1 _ _).1 hx).2 hh.symm) l.data l.dirty l.shared (by
        intro hs
        cases hmp : cfg.mp with
        | true => rfl
        | false => have := (hwf.unshared hmp).2 _ hm; rw [hs] at this; cases this)
    refine ⟨m', key, _, by rw [hrun]; exact hfill, hwf', hi, hfind, ?_, ?_⟩
    · intro k hk
      obtain ⟨e1, e2⟩ := hmod k hk
      rw [MemSys.byteAt_of_holds hwf (by rw [e1]; exact hHold), e2]
    · intro hc
      obtain ⟨c1, c2⟩ := hco
        (by rw [MemSys.coherent_iff]; exact fun ln x hx => MemSys.coherent_iff.1 hc ln x ((hh1 _ _).1 hx).1)
        (fun hcl => MemSys.coherent_iff.1 hc _ _ hHold hcl)
      refine ⟨c1, fun a => ?_⟩
      rw [c2]
      by_cases ha : a / 64 = line
      · rw [if_pos ha, MemSys.byteAt_of_holds hwf (ha ▸ hHold)]
      · rw [if_neg ha]
        by_cases hex : ∃ x, m.Holds cfg (a / 64) x
        · obtain ⟨x, hx⟩ := hex
          rw [MemSys.byteAt_of_holds hwf hx, MemSys.byteAt_of_holds hwf1 ((hh1 _ _).2 ⟨hx, by rw [hh]; exact ha⟩)]
        · rw [MemSys.byteAt_of_not_holds hwf fun x hx => hex ⟨x, hx⟩,
            MemSys.byteAt_of_not_holds hwf1 fun x hx => hex ⟨x, ((hh1 _ _).1 hx).1⟩]
  | none =>
    have hB := (Cache.find_eq_none hwf.bcache).1 hf
    have habs : ∀ l, ¬ m.Holds cfg line l := by
      rintro l (⟨k, hk, hh⟩ | ⟨k, hk, hh⟩)
      · exact hD _ hk hh
      · exact hB _ hk hh
    let m1 : MemSys := { (m.noteRead line) with replies := (m.noteRead line).replies + 1 }
    have hwf1 : m1.wf cfg := MemSys.wf_of_caches hwf rfl rfl rfl hwf.store
    have hrun : m.dcacheFill cfg line =
        m1.fillD cfg line (Memory.readBlock m.store line) false (m.replyShared cfg) := by
      unfold MemSys.dcacheFill; rw [hlook, hf]; rfl
    obtain ⟨m', key, hfill, hwf', hi, hfind, hco⟩ := MemSys.fillD_spec hwf1 hl habs
      (Memory.readBlock m.store line) false (m.replyShared cfg) (by
        intro hs; unfold MemSys.replyShared at hs; simp only [Bool.and_eq_true] at hs; exact hs.1)
    refine ⟨m', key, _, by rw [hrun]; exact hfill, hwf', hi, hfind, ?_, ?_⟩
    · intro k hk
      obtain ⟨e1, e2⟩ := hmod k hk
      rw [MemSys.byteAt_of_not_holds hwf (by rw [e1]; exact habs)]
      exact Memory.blockByte_readBlock _ _ _ hk
    · intro hc
      obtain ⟨c1, c2⟩ := hco hc (fun _ k hk => Memory.blockByte_readBlock _ _ _ hk)
      refine ⟨c1, fun a => ?_⟩
      rw [c2]
      by_cases ha : a / 64 = line
      · rw [if_pos ha, MemSys.byteAt_of_not_holds hwf (by rw [ha]; exact habs),
          Memory.blockByte_readBlock _ _ _ (Nat.mod_lt _ (by omega)), ← ha, Nat.div_add_mod]
      · rw [if_neg ha]; rfl

/-- The Dcache holds the line after `ensureD`, and nothing else changed that a load could see (R110, R114). -/
theorem MemSys.ensureD_spec {cfg : Cfg} {m : MemSys} (hwf : m.wf cfg) {line : Nat}
    (hl : line < 2 ^ Config.lineBits) :
    ∃ m' key l, m.ensureD cfg line = .ok (key, l, m') ∧ m'.wf cfg ∧ m'.icache = m.icache ∧
      (key, l) ∈ m'.dcache.lines ∧ heldLine Config.cacheSetBits key l.tag = line ∧
      (∀ k < 64, blockByte l.data k = m.byteAt cfg (64 * line + k)) ∧
      (m.coherent cfg → m'.coherent cfg ∧ m.sameBytes cfg m') := by
  have hlook : ∀ {x : MemSys}, x.wf cfg → x.lookup cfg .dcache line =
      .ok (x.dcache.find Config.cacheSetBits cfg.dcWays.count line) := by
    intro x hx
    show x.dcache.lookup Config.cacheSetBits cfg.dcWays.count line = _
    exact Cache.lookup_eq hx.dcache line
  cases hf : m.dcache.find Config.cacheSetBits cfg.dcWays.count line with
  | some r =>
    obtain ⟨key, l⟩ := r
    obtain ⟨hm, hh⟩ := (Cache.find_eq_some hwf.dcache).1 hf
    refine ⟨m, key, l, ?_, hwf, rfl, hm, hh, ?_, fun hc => ⟨hc, fun _ => rfl⟩⟩
    · unfold MemSys.ensureD; rw [hlook hwf, hf]; rfl
    · intro k hk
      have e1 : (64 * line + k) / 64 = line := by omega
      have e2 : (64 * line + k) % 64 = k := by omega
      rw [MemSys.byteAt_of_holds hwf (l := l) (by rw [e1]; exact Or.inl ⟨key, hm, hh⟩), e2]
  | none =>
    obtain ⟨m', key, l, hfill, hwf', hi, hfind, hb, hco⟩ :=
      MemSys.dcacheFill_spec hwf hl ((Cache.find_eq_none hwf.dcache).1 hf)
    obtain ⟨hm, hh⟩ := (Cache.find_eq_some hwf'.dcache).1 hfind
    refine ⟨m', key, l, ?_, hwf', hi, hm, hh, hb, hco⟩
    unfold MemSys.ensureD
    rw [hlook hwf, hf]
    show (m.dcacheFill cfg line >>= _) = _
    rw [hfill]
    show (m'.lookup cfg .dcache line >>= _) = _
    rw [hlook hwf', hfind]; rfl

/-! ### Reading and writing -/

theorem lineOf_lt (pa : PhysAddr) : lineOf pa < 2 ^ Config.lineBits := by
  unfold lineOf Config.lineBits
  have := pa.isLt
  omega

theorem addr_split (pa : PhysAddr) : pa.toNat = 64 * lineOf pa + offsetOf pa := by
  unfold lineOf offsetOf; omega

theorem assemble_congr {g h : Nat → Byte} {w : Width} (e : ∀ k < w.bytes, g k = h k) : assemble g w = assemble h w := by
  cases w <;> simp [assemble, ofBytes, Width.bytes] at e ⊢ <;> simp [e]

/-- `MemRead` (20_memory R110, 49_cache R464 e). -/
theorem MemSys.read_spec {cfg : Cfg} {m : MemSys} (hwf : m.wf cfg) (pa : PhysAddr) (w : Width) :
    ∃ v m', m.read cfg pa w = .ok (v, m') ∧ m'.wf cfg ∧ m'.icache = m.icache ∧
      (offsetOf pa + w.bytes ≤ 64 → v = assemble (fun k => m.byteAt cfg (pa.toNat + k)) w) ∧
      (m.coherent cfg → m'.coherent cfg ∧ m.sameBytes cfg m') := by
  obtain ⟨m', key, l, hrun, hwf', hi, -, -, hb, hco⟩ := MemSys.ensureD_spec hwf (lineOf_lt pa)
  refine ⟨blockRead l.data (offsetOf pa) w, m', ?_, hwf', hi, ?_, hco⟩
  · unfold MemSys.read; rw [hrun]; rfl
  · intro hfit
    apply assemble_congr
    intro k hk
    rw [hb _ (by omega), addr_split pa]
    congr 1; omega

theorem blockByte_blockWrite (d : Block) (off : Nat) (w : Width) (v : Word) {k : Nat} (hk : k < 64) :
    blockByte (blockWrite d off w v) k =
      if off ≤ k ∧ k < off + w.bytes then byteOf v (k - off) else blockByte d k := by
  simp only [blockByte, hk, dif_pos, blockWrite, Vector.getElem_ofFn]

/-- A store into a line the Dcache holds (R457). -/
theorem MemSys.writeLine_spec {cfg : Cfg} {m : MemSys} (hwf : m.wf cfg) {key line : Nat} {l : Line}
    (hm : (key, l) ∈ m.dcache.lines) (hh : heldLine Config.cacheSetBits key l.tag = line) (off : Nat) (w : Width) (v : Word) :
    (m.writeLine key l off w v).wf cfg ∧
    (m.coherent cfg → (m.writeLine key l off w v).coherent cfg) ∧
    (∀ a, (m.writeLine key l off w v).byteAt cfg a =
      if a / 64 = line ∧ off ≤ a % 64 ∧ a % 64 < off + w.bytes then byteOf v (a % 64 - off) else m.byteAt cfg a) := by
  let new : Line := { l with data := blockWrite l.data off w v, dirty := true }
  let m' := m.writeLine key l off w v
  have hat := Table.at?_of_mem hwf.dcache.1 hm
  have hmem : ∀ e, e ∈ m'.dcache.lines ↔ e = (key, new) ∨ (e ∈ m.dcache.lines ∧ e.1 ≠ key) :=
    fun e => Table.mem_put_iff hwf.dcache.1
  have hr := hwf.dcache.2.2.1 _ hm
  have hwf' : m'.wf cfg := by
    refine ⟨hwf.store, hwf.bits, hwf.icache, ?_, hwf.bcache, ?_, hwf.icacheClean, ?_, hwf.noBcache⟩
    · refine ⟨Table.sorted_put hwf.dcache.1 _ _, hwf.dcache.2.1, ?_, ?_, hwf.dcache.2.2.2.2⟩
      · intro e he
        rcases (hmem e).1 he with rfl | ⟨he, -⟩
        · exact hr
        · exact hwf.dcache.2.2.1 e he
      · intro e he e' he' hs ht
        rcases (hmem e).1 he with rfl | ⟨h1, n1⟩ <;> rcases (hmem e').1 he' with rfl | ⟨h2, n2⟩
        · rfl
        · exact hwf.dcache.2.2.2.1 (key, l) hm e' h2 hs ht
        · exact hwf.dcache.2.2.2.1 e h1 (key, l) hm hs ht
        · exact hwf.dcache.2.2.2.1 e h1 e' h2 hs ht
    · intro d hd e he
      rcases (hmem d).1 hd with rfl | ⟨hd, -⟩
      · exact hwf.exclusive (key, l) hm e he
      · exact hwf.exclusive d hd e he
    · intro hmp
      refine ⟨fun e he => ?_, (hwf.unshared hmp).2⟩
      rcases (hmem e).1 he with rfl | ⟨he, -⟩
      · exact (hwf.unshared hmp).1 (key, l) hm
      · exact (hwf.unshared hmp).1 e he
  have hHold : m.Holds cfg line l := Or.inl ⟨key, hm, hh⟩
  have hHolds : ∀ ln x, m'.Holds cfg ln x ↔ (ln = line ∧ x = new) ∨ (ln ≠ line ∧ m.Holds cfg ln x) := by
    intro ln x
    constructor
    · rintro (⟨k, hk, hx⟩ | ⟨k, hk, hx⟩)
      · rcases (hmem _).1 hk with heq | ⟨hk, hne⟩
        · cases heq; exact Or.inl ⟨hx.symm.trans hh, rfl⟩
        · refine Or.inr ⟨?_, Or.inl ⟨k, hk, hx⟩⟩
          rintro rfl
          exact hne (congrArg Prod.fst (Cache.held_unique hwf.dcache hk hm (hx.trans hh.symm)))
      · refine Or.inr ⟨?_, Or.inr ⟨k, hk, hx⟩⟩
        rintro rfl
        exact hwf.exclusive _ hm _ hk (hh.trans hx.symm)
    · rintro (⟨rfl, rfl⟩ | ⟨hne, ⟨k, hk, hx⟩ | h⟩)
      · exact Or.inl ⟨key, (hmem _).2 (Or.inl rfl), hh⟩
      · refine Or.inl ⟨k, (hmem _).2 (Or.inr ⟨hk, ?_⟩), hx⟩
        rintro rfl
        have := Table.at?_of_mem hwf.dcache.1 hk
        rw [hat] at this; cases this
        exact hne (hx.symm.trans hh)
      · exact Or.inr h
  refine ⟨hwf', ?_, ?_⟩
  · intro hc
    rw [MemSys.coherent_iff]
    intro ln x hx hclean k hk
    rcases (hHolds ln x).1 hx with ⟨rfl, rfl⟩ | ⟨-, hx⟩
    · cases hclean
    · exact MemSys.coherent_iff.1 hc ln x hx hclean k hk
  · intro a
    by_cases ha : a / 64 = line
    · rw [MemSys.byteAt_of_holds hwf' ((hHolds _ _).2 (Or.inl ⟨ha, rfl⟩)), MemSys.byteAt_of_holds hwf (ha ▸ hHold),
        blockByte_blockWrite _ _ _ _ (Nat.mod_lt _ (by omega))]
      simp only [ha, true_and]
    · rw [if_neg (fun h => ha h.1)]
      by_cases hex : ∃ x, m.Holds cfg (a / 64) x
      · obtain ⟨x, hx⟩ := hex
        rw [MemSys.byteAt_of_holds hwf hx, MemSys.byteAt_of_holds hwf' ((hHolds _ _).2 (Or.inr ⟨ha, hx⟩))]
      · rw [MemSys.byteAt_of_not_holds hwf fun x hx => hex ⟨x, hx⟩, MemSys.byteAt_of_not_holds hwf' ?_]
        · rfl
        · intro x hx
          rcases (hHolds _ _).1 hx with ⟨h, -⟩ | ⟨-, hx⟩
          · exact ha h
          · exact hex ⟨x, hx⟩

/-- `MemWrite` (20_memory R114, 49_cache R464 e). -/
theorem MemSys.write_spec {cfg : Cfg} {m : MemSys} (hwf : m.wf cfg) (pa : PhysAddr) (w : Width) (v : Word) :
    ∃ m', m.write cfg pa w v = .ok m' ∧ m'.wf cfg ∧ m'.icache = m.icache ∧
      (m.coherent cfg → m'.coherent cfg ∧ (offsetOf pa + w.bytes ≤ 64 → ∀ a, m'.byteAt cfg a =
        if pa.toNat ≤ a ∧ a < pa.toNat + w.bytes then byteOf v (a - pa.toNat) else m.byteAt cfg a)) := by
  obtain ⟨m1, key, l, hrun, hwf1, hi, hm, hh, -, hco⟩ := MemSys.ensureD_spec hwf (lineOf_lt pa)
  obtain ⟨w1, w2, w3⟩ := MemSys.writeLine_spec hwf1 hm hh (offsetOf pa) w v
  refine ⟨m1.writeLine key l (offsetOf pa) w v, ?_, w1, hi, ?_⟩
  · unfold MemSys.write; rw [hrun]; rfl
  · intro hc
    obtain ⟨c1, c2⟩ := hco hc
    refine ⟨w2 c1, fun hfit a => ?_⟩
    rw [w3, c2 a]
    have hsplit := addr_split pa
    by_cases hin : pa.toNat ≤ a ∧ a < pa.toNat + w.bytes
    · rw [if_pos hin, if_pos (by omega)]
      congr 1; omega
    · rw [if_neg hin, if_neg (by omega)]

/-! ### The instruction side -/

theorem MemSys.fillI_spec {cfg : Cfg} {m m' : MemSys} (hwf : m.wf cfg) {line : Nat} (hl : line < 2 ^ Config.lineBits)
    {data : Block} (h : m.fillI cfg line data = .ok m') :
    m'.wf cfg ∧ m'.dcache = m.dcache ∧ m'.bcache = m.bcache ∧ m'.store = m.store := by
  unfold MemSys.fillI at h
  have hlook : m.lookup cfg .icache line = .ok (m.icache.find Config.cacheSetBits cfg.icWays.count line) := by
    show m.icache.lookup Config.cacheSetBits cfg.icWays.count line = _
    exact Cache.lookup_eq hwf.icache line
  rw [hlook] at h
  cases hf : m.icache.find Config.cacheSetBits cfg.icWays.count line with
  | some r => rw [hf] at h; cases h
  | none =>
    rw [hf] at h; cases h
    refine ⟨⟨hwf.store, hwf.bits, ?_, hwf.dcache, hwf.bcache, hwf.exclusive, ?_, hwf.unshared, hwf.noBcache⟩,
      rfl, rfl, rfl⟩
    · exact Cache.wf_install hwf.icache (by decide) hl (Cache.victimWay_lt _ (Ways.count_pos _)) (Ways.count_le _)
        ((Cache.find_eq_none hwf.icache).1 hf) _ rfl
    · intro e he
      rcases (Table.mem_put_iff hwf.icache.1).1 he with rfl | ⟨he, -⟩
      · exact ⟨rfl, rfl⟩
      · exact hwf.icacheClean e he

/-- What `icache_fill` does: the data side is untouched (R461). -/
theorem MemSys.icacheFill_spec {cfg : Cfg} {m m' : MemSys} (hwf : m.wf cfg) {line : Nat} (hl : line < 2 ^ Config.lineBits)
    (h : m.icacheFill cfg line = .ok m') :
    m'.wf cfg ∧ m'.dcache = m.dcache ∧ m'.bcache = m.bcache ∧ m'.store = m.store := by
  unfold MemSys.icacheFill at h
  have hlook : m.lookup cfg .bcache line = .ok (m.bcache.find cfg.bcSetBits 1 line) := by
    show m.bcache.lookup cfg.bcSetBits 1 line = _
    exact Cache.lookup_eq hwf.bcache line
  rw [hlook] at h
  cases hf : m.bcache.find cfg.bcSetBits 1 line with
  | some r => rw [hf] at h; exact MemSys.fillI_spec hwf hl h
  | none =>
    rw [hf] at h
    exact MemSys.fillI_spec (m := m.noteRead line) (MemSys.wf_of_caches hwf rfl rfl rfl hwf.store) hl h

/-! ### Flush and invalidate -/

/-- The lines of a list written back one after the other: only the store and the bus change. -/
theorem writeBackAll_caches (b : Nat) (ls : Table Line) (m : MemSys) :
    (writeBackAll b ls m).icache = m.icache ∧ (writeBackAll b ls m).dcache = m.dcache ∧
    (writeBackAll b ls m).bcache = m.bcache := by
  induction ls generalizing m with
  | nil => exact ⟨rfl, rfl, rfl⟩
  | cons e rest ih =>
    obtain ⟨h1, h2, h3⟩ := ih (m.writeBack (heldLine b e.1 e.2.tag) e.2)
    obtain ⟨g1, g2, g3⟩ := m.writeBack_caches (heldLine b e.1 e.2.tag) e.2
    exact ⟨h1.trans g1, h2.trans g2, h3.trans g3⟩

theorem wf_writeBackAll {cfg : Cfg} {b : Nat} (hb : b ≤ Config.lineBits) {ls : Table Line} {m : MemSys} (hwf : m.wf cfg)
    (hr : ∀ e ∈ ls, e.1 / 2 < 2 ^ b ∧ e.2.tag < 2 ^ (Config.lineBits - b)) : (writeBackAll b ls m).wf cfg := by
  induction ls generalizing m with
  | nil => exact hwf
  | cons e rest ih =>
    have he := hr e (List.mem_cons_self ..)
    exact ih (MemSys.wf_writeBack hwf (heldLine_lt hb he.1 he.2) _) fun x hx => hr x (List.mem_cons_of_mem _ hx)

/-- Written back, every line of the list agrees with the store, and no load sees a difference. -/
theorem writeBackAll_spec {cfg : Cfg} {b : Nat} {ls : Table Line} {m : MemSys} (hwf : m.wf cfg) (hc : m.coherent cfg)
    (hh : ∀ e ∈ ls, m.Holds cfg (heldLine b e.1 e.2.tag) e.2) :
    (writeBackAll b ls m).coherent cfg ∧ m.sameBytes cfg (writeBackAll b ls m) ∧
    (∀ e ∈ ls, lineAgrees (writeBackAll b ls m).store (heldLine b e.1 e.2.tag) e.2.data) ∧
    (∀ ln x, m.Holds cfg ln x → lineAgrees m.store ln x.data → lineAgrees (writeBackAll b ls m).store ln x.data) := by
  induction ls generalizing m with
  | nil => exact ⟨hc, fun _ => rfl, fun e he => (by cases he), fun _ _ _ h => h⟩
  | cons e rest ih =>
    have he := hh e (List.mem_cons_self ..)
    obtain ⟨c1, c2, c3⟩ := MemSys.writeBack_spec hwf hc he
    have hwf1 := MemSys.wf_writeBack hwf (MemSys.holds_lt hwf he) e.2
    obtain ⟨g1, g2, g3⟩ := m.writeBack_caches (heldLine b e.1 e.2.tag) e.2
    have hH : ∀ {ln x}, (m.writeBack (heldLine b e.1 e.2.tag) e.2).Holds cfg ln x ↔ m.Holds cfg ln x :=
      MemSys.holds_of_caches g2 g3
    obtain ⟨d1, d2, d3, d4⟩ := ih hwf1 c1 fun x hx => hH.2 (hh x (List.mem_cons_of_mem _ hx))
    refine ⟨d1, fun a => (d2 a).trans (c2 a), ?_, ?_⟩
    · intro x hx
      rcases List.mem_cons.1 hx with rfl | hx
      · exact d4 _ _ (hH.2 he) c3
      · exact d3 x hx
    · intro ln x hx hag
      refine d4 ln x (hH.2 hx) ?_
      by_cases hln : ln = heldLine b e.1 e.2.tag
      · subst hln; rw [MemSys.holds_unique hwf hx he]; exact c3
      · intro k hk
        rw [MemSys.read_writeBack, if_neg]
        · exact hag k hk
        · rintro ⟨-, heq⟩; exact hln (by omega)

/-- A cache emptied of lines that agree with the store: no load sees a difference. -/
theorem MemSys.emptied_spec {cfg : Cfg} {m m' : MemSys} (hwf : m.wf cfg) (hwf' : m'.wf cfg) (hc : m.coherent cfg)
    (hst : m'.store = m.store) (hsub : ∀ ln x, m'.Holds cfg ln x → m.Holds cfg ln x)
    (hgone : ∀ ln x, m.Holds cfg ln x → m'.Holds cfg ln x ∨ lineAgrees m.store ln x.data) :
    m'.coherent cfg ∧ m.sameBytes cfg m' := by
  constructor
  · rw [MemSys.coherent_iff]
    intro ln x hx hclean k hk
    rw [hst]; exact MemSys.coherent_iff.1 hc ln x (hsub _ _ hx) hclean k hk
  · intro a
    by_cases hex : ∃ x, m.Holds cfg (a / 64) x
    · obtain ⟨x, hx⟩ := hex
      rw [MemSys.byteAt_of_holds hwf hx]
      by_cases h' : m'.Holds cfg (a / 64) x
      · exact MemSys.byteAt_of_holds hwf' h'
      · rcases hgone _ _ hx with h | hag
        · exact absurd h h'
        · rw [MemSys.byteAt_of_not_holds hwf', hst]
          · exact (lineAgrees_read hag).symm
          · intro y hy
            have := MemSys.holds_unique hwf (hsub _ _ hy) hx
            exact h' (this ▸ hy)
    · rw [MemSys.byteAt_of_not_holds hwf fun x hx => hex ⟨x, hx⟩,
        MemSys.byteAt_of_not_holds hwf' fun x hx => hex ⟨x, hsub _ _ hx⟩, hst]

/-- What `flush` does (R462, R464 e). -/
theorem MemSys.flush_spec {cfg : Cfg} {m : MemSys} (hwf : m.wf cfg) (id : CacheId) :
    (m.flush cfg id).wf cfg ∧ (m.flush cfg id).cache id = Cache.reset ∧
    (m.coherent cfg → (m.flush cfg id).coherent cfg ∧ m.sameBytes cfg (m.flush cfg id)) := by
  obtain ⟨c1, c2, c3⟩ := writeBackAll_caches (cfg.setBits id) (m.cache id).lines m
  have hr : ∀ e ∈ (m.cache id).lines, e.1 / 2 < 2 ^ cfg.setBits id ∧ e.2.tag < 2 ^ (Config.lineBits - cfg.setBits id) := by
    cases id with
    | icache => exact fun e he => ⟨(hwf.icache.2.2.1 e he).1, (hwf.icache.2.2.1 e he).2.2⟩
    | dcache => exact fun e he => ⟨(hwf.dcache.2.2.1 e he).1, (hwf.dcache.2.2.1 e he).2.2⟩
    | bcache => exact fun e he => ⟨(hwf.bcache.2.2.1 e he).1, (hwf.bcache.2.2.1 e he).2.2⟩
  have hb : cfg.setBits id ≤ Config.lineBits := by cases id <;> first | exact hwf.bits | exact (by decide : Config.cacheSetBits ≤ Config.lineBits)
  have hwf1 := wf_writeBackAll hb hwf hr
  generalize hm1 : writeBackAll (cfg.setBits id) (m.cache id).lines m = m1 at *
  have hfl : m.flush cfg id = m1.withCache id Cache.reset := by unfold MemSys.flush; rw [hm1]
  rw [hfl]
  cases id with
  | icache =>
    have hst : m1 = m := by
      rw [← hm1]
      have : ∀ (ls : Table Line) (x : MemSys), (∀ e ∈ ls, e.2.dirty = false) → writeBackAll Config.cacheSetBits ls x = x := by
        intro ls
        induction ls with
        | nil => exact fun _ _ => rfl
        | cons e rest ih =>
          intro x hx
          have : x.writeBack (heldLine Config.cacheSetBits e.1 e.2.tag) e.2 = x := by
            unfold MemSys.writeBack; simp [hx e (List.mem_cons_self ..)]
          show writeBackAll Config.cacheSetBits rest (x.writeBack _ e.2) = x
          rw [this]; exact ih x fun y hy => hx y (List.mem_cons_of_mem _ hy)
      exact this _ _ fun e he => (hwf.icacheClean e he).1
    subst hst
    refine ⟨⟨hwf.store, hwf.bits, Cache.wf_reset _ _, hwf.dcache, hwf.bcache, hwf.exclusive, ?_, hwf.unshared,
      hwf.noBcache⟩, rfl, fun hc => ⟨hc, fun _ => rfl⟩⟩
    intro e he; cases he
  | dcache =>
    have hwf' : MemSys.wf cfg (m1.withCache .dcache Cache.reset) :=
      ⟨hwf1.store, hwf1.bits, hwf1.icache, Cache.wf_reset _ _, hwf1.bcache, fun d hd => (by cases hd), hwf1.icacheClean,
        fun hmp => ⟨fun e he => (by cases he), (hwf1.unshared hmp).2⟩, hwf1.noBcache⟩
    refine ⟨hwf', rfl, fun hc => ?_⟩
    obtain ⟨d1, d2, d3, -⟩ := writeBackAll_spec (b := Config.cacheSetBits) hwf hc (ls := m.dcache.lines)
      fun e he => Or.inl ⟨e.1, he, rfl⟩
    have hm1' : writeBackAll Config.cacheSetBits m.dcache.lines m = m1 := hm1
    rw [hm1'] at d1 d2 d3
    obtain ⟨e1, e2⟩ := MemSys.emptied_spec (m' := m1.withCache .dcache Cache.reset) hwf1 hwf' d1 rfl
      (by
        rintro ln x (⟨k, hk, -⟩ | h)
        · cases hk
        · exact Or.inr h)
      (by
        rintro ln x (⟨k, hk, rfl⟩ | h)
        · rw [c2] at hk; exact Or.inr (d3 (k, x) hk)
        · exact Or.inl (Or.inr h))
    exact ⟨e1, fun a => (e2 a).trans (d2 a)⟩
  | bcache =>
    have hwf' : MemSys.wf cfg (m1.withCache .bcache Cache.reset) :=
      ⟨hwf1.store, hwf1.bits, hwf1.icache, hwf1.dcache, Cache.wf_reset _ _, fun d _ e he => (by cases he),
        hwf1.icacheClean, fun hmp => ⟨(hwf1.unshared hmp).1, fun e he => (by cases he)⟩, fun _ => rfl⟩
    refine ⟨hwf', rfl, fun hc => ?_⟩
    obtain ⟨d1, d2, d3, -⟩ := writeBackAll_spec (b := cfg.bcSetBits) hwf hc (ls := m.bcache.lines)
      fun e he => Or.inr ⟨e.1, he, rfl⟩
    have hm1' : writeBackAll cfg.bcSetBits m.bcache.lines m = m1 := hm1
    rw [hm1'] at d1 d2 d3
    obtain ⟨e1, e2⟩ := MemSys.emptied_spec (m' := m1.withCache .bcache Cache.reset) hwf1 hwf' d1 rfl
      (by
        rintro ln x (h | ⟨k, hk, -⟩)
        · exact Or.inl h
        · cases hk)
      (by
        rintro ln x (h | ⟨k, hk, rfl⟩)
        · exact Or.inl (Or.inl h)
        · rw [c3] at hk; exact Or.inr (d3 (k, x) hk))
    exact ⟨e1, fun a => (e2 a).trans (d2 a)⟩

/-- What `invalidate` does (R463, R464 e). -/
theorem MemSys.invalidate_spec {cfg : Cfg} {m : MemSys} (hwf : m.wf cfg) (id : CacheId) (line : Nat) :
    ∃ m', m.invalidate cfg id line = .ok m' ∧ m'.wf cfg ∧
      (m.coherent cfg → m'.coherent cfg ∧ m.sameBytes cfg m') := by
  have hwfc : (m.cache id).wf (cfg.setBits id) (cfg.ways id) := by
    cases id
    · exact hwf.icache
    · exact hwf.dcache
    · exact hwf.bcache
  have hlook : m.lookup cfg id line = .ok ((m.cache id).find (cfg.setBits id) (cfg.ways id) line) :=
    Cache.lookup_eq hwfc line
  cases hf : (m.cache id).find (cfg.setBits id) (cfg.ways id) line with
  | none =>
    refine ⟨m, ?_, hwf, fun hc => ⟨hc, fun _ => rfl⟩⟩
    unfold MemSys.invalidate; rw [hlook, hf]; rfl
  | some r =>
    obtain ⟨key, l⟩ := r
    obtain ⟨hm, hh⟩ := (Cache.find_eq_some hwfc).1 hf
    refine ⟨(m.writeBack line l).withCache id ((m.cache id).drop key), ?_, ?_⟩
    · unfold MemSys.invalidate; rw [hlook, hf]; rfl
    obtain ⟨c1, c2, c3⟩ := m.writeBack_caches line l
    cases id with
    | icache =>
      have hcl := hwf.icacheClean _ hm
      have hst : m.writeBack line l = m := by unfold MemSys.writeBack; simp [show l.dirty = false from hcl.1]
      rw [hst]
      exact ⟨⟨hwf.store, hwf.bits, Cache.wf_drop hwf.icache key, hwf.dcache, hwf.bcache, hwf.exclusive,
        fun e he => hwf.icacheClean e (Cache.mem_drop he).1, hwf.unshared, hwf.noBcache⟩, fun hc => ⟨hc, fun _ => rfl⟩⟩
    | dcache =>
      have hHold : m.Holds cfg line l := Or.inl ⟨key, hm, hh⟩
      have hwf1 := MemSys.wf_writeBack hwf (MemSys.holds_lt hwf hHold) l
      have hat := Table.at?_of_mem hwf.dcache.1 hm
      have hm' : (m.writeBack line l).withCache .dcache ((m.cache .dcache).drop key) =
          { (m.writeBack line l) with dcache := (m.writeBack line l).dcache.drop key } := by
        rw [c2]; rfl
      rw [hm']
      obtain ⟨hwf2, hh2⟩ := MemSys.dropD_spec hwf1 (key := key) (v := l) (by rw [c2]; exact hat)
      refine ⟨hwf2, fun hc => ?_⟩
      obtain ⟨w1, w2, w3⟩ := MemSys.writeBack_spec hwf hc hHold
      obtain ⟨e1, e2⟩ := MemSys.emptied_spec hwf1 hwf2 w1 rfl (fun ln x hx => ((hh2 ln x).1 hx).1) (by
        intro ln x hx
        by_cases hln : ln = heldLine Config.cacheSetBits key l.tag
        · right
          have hx' := (MemSys.holds_of_caches c2 c3).1 hx
          have hln' : ln = line := hln.trans hh
          subst hln'
          rw [MemSys.holds_unique hwf hx' hHold]; exact w3
        · exact Or.inl ((hh2 ln x).2 ⟨hx, hln⟩))
      exact ⟨e1, fun a => (e2 a).trans (w2 a)⟩
    | bcache =>
      have hHold : m.Holds cfg line l := Or.inr ⟨key, hm, hh⟩
      have hwf1 := MemSys.wf_writeBack hwf (MemSys.holds_lt hwf hHold) l
      have hat := Table.at?_of_mem hwf.bcache.1 hm
      have hm' : (m.writeBack line l).withCache .bcache ((m.cache .bcache).drop key) =
          { (m.writeBack line l) with bcache := (m.writeBack line l).bcache.drop key } := by
        rw [c3]; rfl
      rw [hm']
      obtain ⟨hwf2, hh2⟩ := MemSys.dropB_spec hwf1 (key := key) (v := l) (by rw [c3]; exact hat)
      refine ⟨hwf2, fun hc => ?_⟩
      obtain ⟨w1, w2, w3⟩ := MemSys.writeBack_spec hwf hc hHold
      obtain ⟨e1, e2⟩ := MemSys.emptied_spec hwf1 hwf2 w1 rfl (fun ln x hx => ((hh2 ln x).1 hx).1) (by
        intro ln x hx
        by_cases hln : ln = heldLine cfg.bcSetBits key l.tag
        · right
          have hx' := (MemSys.holds_of_caches c2 c3).1 hx
          have hln' : ln = line := hln.trans hh
          subst hln'
          rw [MemSys.holds_unique hwf hx' hHold]; exact w3
        · exact Or.inl ((hh2 ln x).2 ⟨hx, hln⟩))
      exact ⟨e1, fun a => (e2 a).trans (w2 a)⟩

end Sys2Proof.Machine
end

