-- ==== Sys2Proof/Laws/LoadStore.lean ====
section
/-!
SUPPORT. The loads, stores, load-locked and store-conditional executors under the sequencer: where they complete,
where they end in a translation outcome, and where they are refused.
-/

namespace Sys2Proof.Machine

theorem unchanged_of_read {cfg : Cfg} {m : MemSys} (hwf : m.wf cfg) (hc : m.coherent cfg) {pa : PhysAddr} {w : Width}
    (ha : pa.toNat % w.bytes = 0) :
    ∃ m', m.read cfg pa w = .ok (assemble (fun k => m.byteAt cfg (pa.toNat + k)) w, m') ∧ m.unchanged cfg m' := by
  obtain ⟨v, m', h1, h2, -, h4, h5⟩ := MemSys.read_spec hwf pa w
  have hoff : offsetOf pa + w.bytes ≤ 64 := by
    unfold offsetOf; cases w <;> simp only [Width.bytes] at * <;> omega
  exact ⟨m', by rw [h1, h4 hoff], h2, (h5 hc).1, (h5 hc).2⟩

/-- A physical address is as aligned as its virtual address: both agree in the low 13 bits. -/
theorem aligned_of_low {va : Word} {pa : PhysAddr} {w : Width} (h : pa.toNat % 8192 = va.toNat % 8192) :
    pa.toNat % w.bytes = va.toNat % w.bytes := by
  cases w <;> simp only [Width.bytes] <;> omega

theorem translateOn_low {cpu : Cpu} {t t' : Tlb} {va : Word} {kind : AccessKind} {pa : PhysAddr}
    (h : translateOn cpu t va kind = .ok (.ok pa, t')) : pa.toNat % 8192 = va.toNat % 8192 := by
  unfold translateOn at h
  split at h
  · rename_i pa' hsp
    have hpa : pa' = pa := by simp only [Except.ok.injEq, Prod.mk.injEq, Translation.ok.injEq] at h; exact h.1
    subst hpa
    unfold superpage at hsp
    split at hsp
    · cases hsp
    split at hsp
    · cases hsp; simp [BitVec.extractLsb'_toNat]
    split at hsp
    · cases hsp
      have : ((BitVec.signExtend 44 (BitVec.extractLsb' 0 41 va)).setWidth 13).toNat = ((va).setWidth 13).toNat := by
        congr 1
        apply BitVec.eq_of_getLsbD_eq
        intro i hi
        rw [BitVec.getLsbD_setWidth, BitVec.getLsbD_signExtend, BitVec.getLsbD_setWidth, BitVec.getLsbD_extractLsb']
        simp [hi, show i < 41 by omega, show i < 44 by omega]
      simpa [BitVec.toNat_setWidth] using this
    split at hsp
    · cases hsp; simp [BitVec.extractLsb'_toNat]
    · cases hsp
  · split at h
    · simp at h
    · split at h
      · rename_i e _ _
        have hpa : e.physical va = pa := by
          simp only [Except.ok.injEq, Prod.mk.injEq, Translation.ok.injEq] at h; exact h.1
        subst hpa
        simp only [TlbEntry.physical, BitVec.toNat_append]
        rw [Nat.shiftLeft_eq, Nat.mul_comm, ← Nat.two_pow_add_eq_or_of_lt (BitVec.isLt _)]
        simp [BitVec.extractLsb'_toNat]
      · simp at h
    · simp at h

theorem State.CanLoad.paAligned {s : State} {va : Word} {w : Width} {pa : PhysAddr} (h : s.CanLoad va w pa) :
    pa.toNat % w.bytes = 0 := by rw [aligned_of_low (translateOn_low h.translates)]; exact h.aligned

theorem State.CanStore.paAligned {s : State} {va : Word} {w : Width} {pa : PhysAddr} (h : s.CanStore va w pa) :
    pa.toNat % w.bytes = 0 := by rw [aligned_of_low (translateOn_low h.translates)]; exact h.aligned

/-- The pending slot of a load of record `id`. -/
def pendingSlot (va : Word) (pa : PhysAddr) (w : Width) (id : Nat) : LqSlot :=
  { va := va, pa := pa, paValid := true, width := w, state := .pending, instrId := id }

theorem commit_load {s : State} {r : Record} {n : Nat} {va : Word} {pa : PhysAddr} {w : Width}
    (hr : s.memReady) (hq : ∀ e ∈ s.sq, e.2.state ≠ .pending) {v : Word} {m : MemSys}
    (hm : s.mem.read s.cfg pa w = .ok (v, m)) (hfree : Table.at? s.lq n = none)
    (hid : r.id = s.ids.next) (hslot : r.slot = n) (hl : isLoadOpcode r.opcode = true)
    (hs : isStoreOpcode r.opcode = false) (hst : r.state = .waitingRetirement) (ho : r.outcome = some .noException)
    (hc : r.clearLockPending = false) :
    commitInstruction .load (s.takenMem.withLq (Table.put s.lq n (pendingSlot va pa w s.ids.next))) r =
      .ok (let t := (s.afterMem m).writeReg r.aDest (complete r.completion v)
           if r.lockPending then t.setLock true r.lockVa r.lockPa else t) := by
  have hcs : completeSlot (s.takenMem.withLq (Table.put s.lq n (pendingSlot va pa w s.ids.next))) n =
      .ok (v, (s.takenMem.withMem m).withLq
        (Table.put s.lq n { pendingSlot va pa w s.ids.next with state := .completed })) := by
    have hlv := loadValue_quiet (s := s.takenMem.withLq (Table.put s.lq n (pendingSlot va pa w s.ids.next))) hq
      (pendingSlot va pa w s.ids.next)
    have hm' : MemSys.read (s.takenMem.withLq (Table.put s.lq n (pendingSlot va pa w s.ids.next))).cfg
      (s.takenMem.withLq (Table.put s.lq n (pendingSlot va pa w s.ids.next))).mem
      (pendingSlot va pa w s.ids.next).pa (pendingSlot va pa w s.ids.next).width = .ok (v, m) := hm
    unfold completeSlot
    rw [State.withLq_lq, Table.at?_put_self]
    simp only [show (pendingSlot va pa w s.ids.next).state = .pending from rfl, ne_eq, not_true_eq_false, if_false,
      hlv, hm', bind, Except.bind, Table.put_put]
    rfl
  have hlt : ¬ s.ids.next < s.ids.doneBelow := by have := hr.1; omega
  have hmx : max s.ids.doneBelow (s.ids.next + 1) = s.ids.next + 1 := by have := hr.1; omega
  generalize hq1 : ({ pendingSlot va pa w s.ids.next with state := .completed } : LqSlot) = q1 at hcs
  have hq1s : q1.state = .completed := by rw [← hq1]
  have hq1i : q1.instrId = s.ids.next := by rw [← hq1]; rfl
  have hdel : Table.del (Table.put s.lq n q1) n = s.lq := Table.del_put _ hfree
  unfold commitInstruction completeAtOnce
  simp only [hslot, hcs, bind, Except.bind]
  have hret : retireRecord ((s.takenMem.withMem m).withLq (Table.put s.lq n q1)) (r.setDest (complete r.completion v)) =
      .ok ((let t := ((s.withMem m).spendMem).writeReg r.aDest (complete r.completion v)
            if r.lockPending then t.setLock true r.lockVa r.lockPa else t).withLq (Table.put s.lq n q1)) := by
    unfold retireRecord
    rw [if_neg (by simp [Record.setDest, hst]), if_neg (by simp [Record.setDest, ho]),
      if_neg (by simpa [Record.setDest, hid, State.takenMem] using hr.1), if_neg ?_]
    · simp only [commitStore, Record.setDest, hs, Bool.false_eq_true, if_false, bind, Except.bind, commitLock, hc,
        noteDone, hid, State.writeReg_eq]
      by_cases hlp : r.lockPending
      · simp only [hlp, if_true, State.setLock, State.withCpu_ids, State.withF_ids, State.withX_ids, State.withLq_ids,
          State.withMem_ids, State.takenMem, State.withIds_ids, hmx]
        rfl
      · simp only [hlp, if_false, State.withF_ids, State.withX_ids, State.withLq_ids, Bool.false_eq_true,
          State.withMem_ids, State.takenMem, State.withIds_ids, hmx]
        rfl
    · simp [loadIsComplete, Record.setDest, hl, hslot, hq1s, hq1i, hid]
  simp only [hret]
  have hsl : (r.setDest (complete r.completion v)).slot = n := hslot
  simp only [hsl, releaseSlot, putLqSlot, State.withLq_lq, Table.at?_put_self, hq1s, reduceCtorEq, if_false, hdel]
  by_cases hlp : r.lockPending
  · simp only [hlp, if_true, State.setLock, State.writeReg_eq]; rfl
  · simp only [hlp, State.writeReg_eq]; rfl


/-- What a memory executor finds: its slot as the allocation left it. -/
theorem lifeOf_load {s : State} {form : Record} (hf : MemForm s form) (hr : s.memReady)
    (hslot : ∃ n < Config.queueDepth, Table.at? s.lq n = none) (hl : isLoadOpcode form.opcode = true)
    (hc : isCondStoreOpcode form.opcode = false) (ex : Executor) :
    ∃ n, Table.at? s.lq n = none ∧ lifeOf .load form ex s = (do
      let res ← ex (s.takenMem.withLq (Table.put s.lq n freshLqSlot)) { form with slot := n }
      if res.out = .noException then commitInstruction .load res.st res.record
      else takeException .load res.st res.record res.out) := by
  obtain ⟨n, hg, hn, -⟩ := getLqSlot_of_free hslot
  refine ⟨n, hn, ?_⟩
  have hd := dispatch_load hf hr hl hc ex n (Table.put s.lq n freshLqSlot)
  simp only [lifeOf, destPreloaded_of_settled hr.2.2 hf.id hf.dest, Bool.not_true, Bool.false_eq_true, if_false,
    allocateSlot, hg, bind, Except.bind]
  rw [show ((s.withLq (Table.put s.lq n freshLqSlot)).withIds
    { (s.withLq (Table.put s.lq n freshLqSlot)).ids with next := (s.withLq (Table.put s.lq n freshLqSlot)).ids.next + 1 }) =
    (s.withLq (Table.put s.lq n freshLqSlot)).withIds { s.ids with next := s.ids.next + 1 } from rfl, hd]

theorem lifeOf_store {s : State} {form : Record} (hf : MemForm s form) (hr : s.memReady)
    (hslot : ∃ n < Config.queueDepth, Table.at? s.sq n = none) (hl : isStoreOpcode form.opcode = true)
    (hc : isCondStoreOpcode form.opcode = true → olderLockInFlight s s.ids.next = false) (ex : Executor) :
    ∃ n, Table.at? s.sq n = none ∧ lifeOf .store form ex s = (do
      let res ← ex (s.takenMem.withSq (Table.put s.sq n freshSqSlot)) { form with slot := n }
      if res.out = .noException then commitInstruction .store res.st res.record
      else takeException .store res.st res.record res.out) := by
  obtain ⟨n, hg, hn, -⟩ := getSqSlot_of_free hslot
  refine ⟨n, hn, ?_⟩
  have hd := dispatch_store hf hr hl hc ex n (Table.put s.sq n freshSqSlot)
  simp only [lifeOf, destPreloaded_of_settled hr.2.2 hf.id hf.dest, Bool.not_true, Bool.false_eq_true, if_false,
    allocateSlot, hg, bind, Except.bind]
  rw [show ((s.withSq (Table.put s.sq n freshSqSlot)).withIds
    { (s.withSq (Table.put s.sq n freshSqSlot)).ids with next := (s.withSq (Table.put s.sq n freshSqSlot)).ids.next + 1 }) =
    (s.withSq (Table.put s.sq n freshSqSlot)).withIds { s.ids with next := s.ids.next + 1 } from rfl, hd]

/-- A load that can be made. -/
theorem runInstr_load {s : State} {form : Record} {w : Width} {tag : Completion} {adjust : Word → Word} {pa : PhysAddr}
    (hf : MemForm s form) (hl : isLoadOpcode form.opcode = true) (hs : isStoreOpcode form.opcode = false)
    (hc : isCondStoreOpcode form.opcode = false) (h : s.CanLoad (accessAddress s form w adjust) w pa) :
    ∃ m, runInstr .load form (loadExec w tag adjust) s =
        .next ((s.afterMem m).writeReg form.aDest
          (complete tag (assemble (fun k => s.mem.byteAt s.cfg (pa.toNat + k)) w))) ∧
      s.mem.unchanged s.cfg m := by
  obtain ⟨m, hm, hu⟩ := unchanged_of_read h.mem h.coherent h.paAligned
  refine ⟨m, ?_, hu⟩
  obtain ⟨n, hn, he⟩ := lifeOf_load hf h.ids h.slot hl hc (loadExec w tag adjust)
  rw [runInstr, he]
  have hx : loadExec w tag adjust (s.takenMem.withLq (Table.put s.lq n freshLqSlot)) { form with slot := n } =
      done (s.takenMem.withLq (Table.put s.lq n (pendingSlot (accessAddress s form w adjust) pa w s.ids.next)))
        { form with slot := n, completion := tag } .noException := by
    have hrm := readMem_fresh (s := s.takenMem.withLq (Table.put s.lq n freshLqSlot))
      (r := { form with slot := n, completion := tag }) (t := .ok pa) (b := s.dtb) (by simp) h.aligned h.translates
    simp only [hf.id, State.withLq_lq, Table.put_put] at hrm
    show Except.bind (readMem _ _ (accessAddress s form w adjust) w) _ = _
    rw [hf.id, hrm]
    rfl
  rw [hx]
  simp only [done, bind, Except.bind, if_true]
  rw [commit_load h.ids h.quiet hm hn]
  · simp only [hf.lock, Bool.false_eq_true, if_false, toOutcome]
  all_goals first | exact hf.id | exact hl | exact hs | exact hf.clear | rfl

/-- A load-locked that can be made. -/
theorem runInstr_loadLocked {s : State} {form : Record} {w : Width} {tag : Completion} {pa : PhysAddr}
    (hf : MemForm s form) (hl : isLoadOpcode form.opcode = true) (hs : isStoreOpcode form.opcode = false)
    (hc : isCondStoreOpcode form.opcode = false) (h : s.CanLoad (accessAddress s form w id) w pa) :
    ∃ m, runInstr .load form (loadLockedExec w tag) s =
        .next (((s.afterMem m).writeReg form.aDest
          (complete tag (assemble (fun k => s.mem.byteAt s.cfg (pa.toNat + k)) w))).setLock true
            (accessAddress s form w id) (pa.setWidth 64)) ∧
      s.mem.unchanged s.cfg m := by
  obtain ⟨m, hm, hu⟩ := unchanged_of_read h.mem h.coherent h.paAligned
  refine ⟨m, ?_, hu⟩
  obtain ⟨n, hn, he⟩ := lifeOf_load hf h.ids h.slot hl hc (loadLockedExec w tag)
  rw [runInstr, he]
  have hx : loadLockedExec w tag (s.takenMem.withLq (Table.put s.lq n freshLqSlot)) { form with slot := n } =
      done (s.takenMem.withLq (Table.put s.lq n (pendingSlot (accessAddress s form w id) pa w s.ids.next)))
        { form with slot := n, completion := tag, lockPending := true, lockVa := accessAddress s form w id,
                    lockPa := pa.setWidth 64 } .noException := by
    have hrm := readMem_fresh (s := s.takenMem.withLq (Table.put s.lq n freshLqSlot))
      (r := { form with slot := n, completion := tag }) (t := .ok pa) (b := s.dtb) (by simp) h.aligned h.translates
    simp only [hf.id, State.withLq_lq, Table.put_put] at hrm
    show Except.bind (readMem _ _ (accessAddress s form w id) w) _ = _
    rw [hf.id, hrm]
    simp only [Except.bind, if_true, slotPhysical, State.withLq_lq, Table.at?_put_self]
    rfl
  rw [hx]
  simp only [done, bind, Except.bind, if_true]
  rw [commit_load h.ids h.quiet hm hn]
  · simp only [if_true, toOutcome]
  all_goals first | exact hf.id | exact hl | exact hs | exact hf.clear | rfl

theorem commit_store {s : State} {r : Record} {n : Nat} {q : SqSlot} (hr : s.memReady) {m : MemSys}
    (hfree : Table.at? s.sq n = none) (hid : r.id = s.ids.next) (hslot : r.slot = n) (hqi : q.instrId = s.ids.next)
    (hm : q.state = .pending ∧ s.mem.write s.cfg q.pa q.width q.value = .ok m ∨ q.state = .completed ∧ m = s.mem)
    (hl : isLoadOpcode r.opcode = false) (hs : isStoreOpcode r.opcode = true) (hst : r.state = .waitingRetirement)
    (ho : r.outcome = some .noException) (hc : r.lockPending = false) :
    commitInstruction .store (s.takenMem.withSq (Table.put s.sq n q)) r =
      .ok (let t := (s.afterMem m).writeReg r.aDest r.destv.bits
           if r.clearLockPending then t.clearLockFlag else t) := by
  have hmx : max s.ids.doneBelow (s.ids.next + 1) = s.ids.next + 1 := by have := hr.1; omega
  have hret : ∃ q1, q1.state = SlotState.completed ∧ retireRecord (s.takenMem.withSq (Table.put s.sq n q)) r =
      .ok ((let t := ((s.withMem m).spendMem).writeReg r.aDest r.destv.bits
            if r.clearLockPending then t.clearLockFlag else t).withSq (Table.put s.sq n q1)) := by
    rcases hm with ⟨hq, hm⟩ | ⟨hq, rfl⟩
    · refine ⟨{ q with state := .completed }, rfl, ?_⟩
      unfold retireRecord
      rw [if_neg (by simp [hst]), if_neg (by simp [ho]), if_neg (by simpa [hid, State.takenMem] using hr.1),
        if_neg (by simp [loadIsComplete, hl])]
      by_cases hcl : r.clearLockPending
      · simp only [commitStore, hs, if_true, commitLock, hc, Bool.false_eq_true, if_false, hcl, State.clearLockFlag,
          State.writeReg_eq, State.withCpu_sq, State.withF_sq, State.withX_sq, State.withSq_sq, hslot,
          Table.at?_put_self, hqi, hid, hq, and_self, drainSlot, bind, Except.bind, State.withCpu_mem,
          State.withF_mem, State.withX_mem, State.withSq_mem, State.withCpu_cfg, State.withF_cfg, State.withX_cfg,
          State.withSq_cfg, State.takenMem, State.withIds_mem, State.withIds_cfg, hm, noteDone, Table.put_put]
        simp only [State.withSq_ids, State.withMem_ids, State.withCpu_ids, State.withF_ids, State.withX_ids,
          State.withIds_ids, hmx]
        rfl
      · simp only [commitStore, hs, if_true, commitLock, hc, Bool.false_eq_true, if_false, hcl,
          State.writeReg_eq, State.withF_sq, State.withX_sq, State.withSq_sq, hslot,
          Table.at?_put_self, hqi, hid, hq, and_self, drainSlot, bind, Except.bind,
          State.withF_mem, State.withX_mem, State.withSq_mem, State.withF_cfg, State.withX_cfg,
          State.withSq_cfg, State.takenMem, State.withIds_mem, State.withIds_cfg, hm, noteDone, Table.put_put]
        simp only [State.withSq_ids, State.withMem_ids, State.withF_ids, State.withX_ids,
          State.withIds_ids, hmx]
        rfl
    · refine ⟨q, hq, ?_⟩
      unfold retireRecord
      rw [if_neg (by simp [hst]), if_neg (by simp [ho]), if_neg (by simpa [hid, State.takenMem] using hr.1),
        if_neg (by simp [loadIsComplete, hl])]
      by_cases hcl : r.clearLockPending
      · simp only [commitStore, hs, if_true, commitLock, hc, Bool.false_eq_true, if_false, hcl, State.clearLockFlag,
          State.writeReg_eq, State.withCpu_sq, State.withF_sq, State.withX_sq, State.withSq_sq, hslot,
          Table.at?_put_self, hqi, hid, hq, reduceCtorEq, and_false, bind, Except.bind, State.takenMem, noteDone,
          State.withCpu_ids, State.withF_ids, State.withX_ids, State.withSq_ids, State.withIds_ids, hmx]
        rfl
      · simp only [commitStore, hs, if_true, commitLock, hc, Bool.false_eq_true, if_false, hcl,
          State.writeReg_eq, State.withF_sq, State.withX_sq, State.withSq_sq, hslot,
          Table.at?_put_self, hqi, hid, hq, reduceCtorEq, and_false, bind, Except.bind, State.takenMem, noteDone,
          State.withF_ids, State.withX_ids, State.withSq_ids, State.withIds_ids, hmx]
        rfl
  obtain ⟨q1, hq1, hret⟩ := hret
  have hdel : Table.del (Table.put s.sq n q1) n = s.sq := Table.del_put _ hfree
  unfold commitInstruction completeAtOnce
  simp only [bind, Except.bind, hret, hslot, releaseSlot, putSqSlot, State.withSq_sq, Table.at?_put_self, hq1,
    reduceCtorEq, if_false, hdel]
  by_cases hcl : r.clearLockPending
  · simp only [hcl, if_true, State.clearLockFlag, State.writeReg_eq]; rfl
  · simp only [hcl, State.writeReg_eq]; rfl

theorem stored_of_write {cfg : Cfg} {m : MemSys} (hwf : m.wf cfg) (hc : m.coherent cfg) {pa : PhysAddr} {w : Width}
    (ha : pa.toNat % w.bytes = 0) (v : Word) :
    ∃ m', m.write cfg pa w v = .ok m' ∧ m.stored cfg m' pa.toNat w.bytes v := by
  obtain ⟨m', h1, h2, -, h4⟩ := MemSys.write_spec hwf pa w v
  have hoff : offsetOf pa + w.bytes ≤ 64 := by
    unfold offsetOf; cases w <;> simp only [Width.bytes] at * <;> omega
  obtain ⟨h5, h6⟩ := h4 hc
  refine ⟨m', h1, h2, h5, fun k hk => ?_, fun c hcc => ?_⟩
  · rw [h6 hoff, if_pos ⟨by omega, by omega⟩]; congr 1; omega
  · rw [h6 hoff, if_neg hcc]

theorem runInstr_store {s : State} {form : Record} {w : Width} {adjust : Word → Word} {pa : PhysAddr}
    (hf : MemForm s form) (hl : isLoadOpcode form.opcode = false) (hs : isStoreOpcode form.opcode = true)
    (hc : isCondStoreOpcode form.opcode = false) (h : s.CanStore (accessAddress s form w adjust) w pa) :
    ∃ m, runInstr .store form (storeExec w adjust) s = .next ((s.afterMem m).writeReg form.aDest form.destv.bits) ∧
      s.mem.stored s.cfg m pa.toNat w.bytes form.src2v.bits := by
  obtain ⟨m, hm, hu⟩ := stored_of_write h.mem h.coherent h.paAligned form.src2v.bits
  refine ⟨m, ?_, hu⟩
  obtain ⟨n, hn, he⟩ := lifeOf_store hf h.ids h.slot hs (by simp [hc]) (storeExec w adjust)
  rw [runInstr, he]
  have hx : storeExec w adjust (s.takenMem.withSq (Table.put s.sq n freshSqSlot)) { form with slot := n } =
      done (s.takenMem.withSq (Table.put s.sq n
        { va := accessAddress s form w adjust, pa := pa, paValid := true, width := w, state := .pending,
          instrId := s.ids.next, value := form.src2v.bits, doWrite := true }))
        { form with slot := n } .noException := by
    have hrm := writeMem_fresh (s := s.takenMem.withSq (Table.put s.sq n freshSqSlot)) (d := true)
      (v := form.src2v.bits) (r := { form with slot := n }) (t := .ok pa) (b := s.dtb) (by simp) h.aligned h.translates
    simp only [hf.id, State.withSq_sq, Table.put_put, if_true] at hrm
    show Except.bind (writeMem _ _ (accessAddress s form w adjust) w form.src2v.bits true) _ = _
    rw [hf.id, hrm]
    rfl
  rw [hx]
  simp only [done, bind, Except.bind, if_true]
  rw [commit_store h.ids (m := m) hn]
  · simp only [hf.clear, Bool.false_eq_true, if_false, toOutcome]
  case hm => exact Or.inl ⟨rfl, hm⟩
  all_goals first | exact hf.id | exact hl | exact hs | exact hf.lock | rfl

theorem runInstr_condStore {s : State} {form : Record} {w : Width} {pa : PhysAddr}
    (hf : MemForm s form) (hl : isLoadOpcode form.opcode = false) (hs : isStoreOpcode form.opcode = true)
    (hc : olderLockInFlight s s.ids.next = false) (h : s.CanStore (accessAddress s form w id) w pa) :
    (s.cpu.lockFlag = true → ∃ m, runInstr .store form (condStoreExec w) s =
        .next (((s.afterMem m).writeReg form.aDest 1).clearLockFlag) ∧
      s.mem.stored s.cfg m pa.toNat w.bytes form.src2v.bits) ∧
    (s.cpu.lockFlag = false → runInstr .store form (condStoreExec w) s =
        .next (((s.afterMem s.mem).writeReg form.aDest 0).clearLockFlag)) := by
  obtain ⟨m, hm, hu⟩ := stored_of_write h.mem h.coherent h.paAligned form.src2v.bits
  obtain ⟨n, hn, he⟩ := lifeOf_store hf h.ids h.slot hs (fun _ => hc) (condStoreExec w)
  have hx : condStoreExec w (s.takenMem.withSq (Table.put s.sq n freshSqSlot)) { form with slot := n } =
      doneWith (s.takenMem.withSq (Table.put s.sq n
        { va := accessAddress s form w id, pa := pa, paValid := true, width := w,
          state := if s.cpu.lockFlag then .pending else .completed,
          instrId := s.ids.next, value := form.src2v.bits, doWrite := s.cpu.lockFlag }))
        { form with slot := n, lockPending := false, clearLockPending := true } (boolWord s.cpu.lockFlag) := by
    have hrm := writeMem_fresh (s := s.takenMem.withSq (Table.put s.sq n freshSqSlot)) (d := s.cpu.lockFlag)
      (v := form.src2v.bits) (r := { form with slot := n }) (t := .ok pa) (b := s.dtb) (by simp) h.aligned h.translates
    simp only [hf.id, State.withSq_sq, Table.put_put] at hrm
    show Except.bind (writeMem _ _ (accessAddress s form w id) w form.src2v.bits s.cpu.lockFlag) _ = _
    rw [hf.id, hrm]
    rfl
  constructor
  · intro hlk
    refine ⟨m, ?_, hu⟩
    rw [runInstr, he, hx]
    simp only [doneWith, done, bind, Except.bind, if_true, hlk]
    rw [commit_store h.ids (m := m) hn]
    · rfl
    case hm => exact Or.inl ⟨rfl, hm⟩
    all_goals first | exact hf.id | exact hl | exact hs | exact hf.lock | rfl
  · intro hlk
    rw [runInstr, he, hx]
    simp only [doneWith, done, bind, Except.bind, if_true, hlk, Bool.false_eq_true, if_false]
    rw [commit_store h.ids (m := s.mem) hn]
    · rfl
    case hm => exact Or.inr ⟨rfl, rfl⟩
    all_goals first | exact hf.id | exact hl | exact hs | exact hf.lock | rfl

/-! ### Loads and stores that end otherwise -/

/-- The executor calls `readMem` and ends in its outcome. -/
def ReadsAt (ex : Executor) (s : State) (form : Record) (va : Word) (w : Width) : Prop :=
  ∀ n, (∀ o s1, readMem (s.takenMem.withLq (Table.put s.lq n freshLqSlot)) { form with slot := n } va w = .ok (o, s1) →
      o ≠ .noException → ∃ r, r.id = form.id ∧ r.opcode = form.opcode ∧ r.slot = n ∧
        ex (s.takenMem.withLq (Table.put s.lq n freshLqSlot)) { form with slot := n } = done s1 r o) ∧
    ∀ e, readMem (s.takenMem.withLq (Table.put s.lq n freshLqSlot)) { form with slot := n } va w = .error e →
      ex (s.takenMem.withLq (Table.put s.lq n freshLqSlot)) { form with slot := n } = .error e

theorem readMem_tag (s : State) (r : Record) (tag : Completion) (va : Word) (w : Width) :
    readMem s { r with completion := tag } va w = readMem s r va w := rfl

theorem readsAt_load (s : State) (form : Record) (w : Width) (tag : Completion) (adjust : Word → Word) :
    ReadsAt (loadExec w tag adjust) s form (accessAddress s form w adjust) w := by
  intro n
  refine ⟨fun o s1 h _ => ⟨{ form with slot := n, completion := tag }, rfl, rfl, rfl, ?_⟩, fun e h => ?_⟩
  all_goals
    show Except.bind (readMem _ _ (accessAddress s form w adjust) w) _ = _
    rw [readMem_tag _ { form with slot := n }, h]
    rfl

theorem readsAt_loadLocked (s : State) (form : Record) (w : Width) (tag : Completion) :
    ReadsAt (loadLockedExec w tag) s form (accessAddress s form w id) w := by
  intro n
  refine ⟨fun o s1 h ho => ⟨{ form with slot := n, completion := tag }, rfl, rfl, rfl, ?_⟩, fun e h => ?_⟩
  all_goals
    show Except.bind (readMem _ _ (accessAddress s form w id) w) _ = _
    rw [readMem_tag _ { form with slot := n }, h]
    simp only [Except.bind, *, if_false]

theorem runInstr_load_trap {s : State} {form : Record} {w : Width} {va : Word} {ex : Executor} {t : Tlb}
    {o : ExceptionOutcome} (hf : MemForm s form) (hr : s.memReady) (hl : isLoadOpcode form.opcode = true)
    (hs : isStoreOpcode form.opcode = false) (hc : isCondStoreOpcode form.opcode = false)
    (hex : ReadsAt ex s form va w) (hslot : ∃ n < Config.queueDepth, Table.at? s.lq n = none)
    (ha : va.toNat % w.bytes = 0) (ht : translateOn s.cpu s.dtb va .read = .ok (.fault o, t))
    (ho : o ≠ .noException) : runInstr .load form ex s = .next (s.afterMemTrap t o) := by
  obtain ⟨n, hn, he⟩ := lifeOf_load hf hr hslot hl hc ex
  have hrm := readMem_fresh (s := s.takenMem.withLq (Table.put s.lq n freshLqSlot)) (r := { form with slot := n })
    (t := .fault o) (b := t) (by simp) ha ht
  obtain ⟨r, hri, hro, hrs, hx⟩ := (hex n).1 _ _ hrm ho
  have hmx : max s.ids.doneBelow (s.ids.next + 1) = s.ids.next + 1 := by have := hr.1; omega
  rw [runInstr, he, hx]
  simp only [done, bind, Except.bind, ho, if_false, takeException, discardRecord, ne_eq, not_true_eq_false,
    cancelStore, hro, hs, Bool.false_eq_true, noteDone, hri, hf.id, releaseSlot, putLqSlot, State.withIds_lq,
    State.withLq_lq, hrs, Table.at?_put_self, reduceCtorEq, Table.put_put, Table.del_put _ hn, toOutcome,
    State.withLq_ids, State.withDtb_ids, State.takenMem, State.withIds_ids, hmx]
  rfl

/-- The executor calls `writeMem` and ends in its outcome. -/
def WritesAt (ex : Executor) (s : State) (form : Record) (va : Word) (w : Width) (v : Word) (d : Bool) : Prop :=
  ∀ n, (∀ o s1, writeMem (s.takenMem.withSq (Table.put s.sq n freshSqSlot)) { form with slot := n } va w v d =
        .ok (o, s1) → o ≠ .noException → ∃ r, r.id = form.id ∧ r.opcode = form.opcode ∧ r.slot = n ∧
        ex (s.takenMem.withSq (Table.put s.sq n freshSqSlot)) { form with slot := n } = done s1 r o) ∧
    ∀ e, writeMem (s.takenMem.withSq (Table.put s.sq n freshSqSlot)) { form with slot := n } va w v d = .error e →
      ex (s.takenMem.withSq (Table.put s.sq n freshSqSlot)) { form with slot := n } = .error e

theorem writesAt_store (s : State) (form : Record) (w : Width) (adjust : Word → Word) :
    WritesAt (storeExec w adjust) s form (accessAddress s form w adjust) w form.src2v.bits true := by
  intro n
  refine ⟨fun o s1 h _ => ⟨{ form with slot := n }, rfl, rfl, rfl, ?_⟩, fun e h => ?_⟩
  all_goals
    show Except.bind (writeMem _ _ (accessAddress s form w adjust) w form.src2v.bits true) _ = _
    rw [h]
    rfl

theorem writesAt_condStore (s : State) (form : Record) (w : Width) :
    WritesAt (condStoreExec w) s form (accessAddress s form w id) w form.src2v.bits s.cpu.lockFlag := by
  intro n
  refine ⟨fun o s1 h ho =>
    ⟨{ form with slot := n, lockPending := false, clearLockPending := true }, rfl, rfl, rfl, ?_⟩, fun e h => ?_⟩
  all_goals
    show Except.bind (writeMem _ _ (accessAddress s form w id) w form.src2v.bits s.cpu.lockFlag) _ = _
    rw [h]
    simp only [Except.bind, *, if_false]

theorem runInstr_store_trap {s : State} {form : Record} {w : Width} {va v : Word} {d : Bool} {ex : Executor} {t : Tlb}
    {o : ExceptionOutcome} (hf : MemForm s form) (hr : s.memReady)
    (hs : isStoreOpcode form.opcode = true)
    (hc : isCondStoreOpcode form.opcode = true → olderLockInFlight s s.ids.next = false)
    (hex : WritesAt ex s form va w v d) (hslot : ∃ n < Config.queueDepth, Table.at? s.sq n = none)
    (ha : va.toNat % w.bytes = 0) (ht : translateOn s.cpu s.dtb va .write = .ok (.fault o, t))
    (ho : o ≠ .noException) : runInstr .store form ex s = .next (s.afterMemTrap t o) := by
  obtain ⟨n, hn, he⟩ := lifeOf_store hf hr hslot hs hc ex
  have hrm := writeMem_fresh (s := s.takenMem.withSq (Table.put s.sq n freshSqSlot)) (r := { form with slot := n })
    (v := v) (d := d) (t := .fault o) (b := t) (by simp) ha ht
  obtain ⟨r, hri, hro, hrs, hx⟩ := (hex n).1 _ _ hrm ho
  have hmx : max s.ids.doneBelow (s.ids.next + 1) = s.ids.next + 1 := by have := hr.1; omega
  rw [runInstr, he, hx]
  simp only [done, bind, Except.bind, ho, if_false, takeException, discardRecord, ne_eq, not_true_eq_false,
    cancelStore, hro, hs, if_true, noteDone, hri, hf.id, releaseSlot, putSqSlot, State.withIds_sq,
    State.withSq_sq, hrs, Table.at?_put_self, reduceCtorEq, Table.put_put, Table.del_put _ hn, toOutcome,
    State.withSq_ids, State.withDtb_ids, State.takenMem, State.withIds_ids, hmx]
  rfl

theorem runInstr_store_misaligned {s : State} {form : Record} {w : Width} {va v : Word} {d : Bool} {ex : Executor}
    (hf : MemForm s form) (hr : s.memReady) (hs : isStoreOpcode form.opcode = true)
    (hc : isCondStoreOpcode form.opcode = true → olderLockInFlight s s.ids.next = false)
    (hex : WritesAt ex s form va w v d) (hslot : ∃ n < Config.queueDepth, Table.at? s.sq n = none)
    (ha : va.toNat % w.bytes ≠ 0) : runInstr .store form ex s = .refused .misaligned := by
  obtain ⟨n, hn, he⟩ := lifeOf_store hf hr hslot hs hc ex
  have hrm := writeMem_misaligned (s := s.takenMem.withSq (Table.put s.sq n freshSqSlot))
    (r := { form with slot := n }) (v := v) (d := d) (by simp) ha
  rw [runInstr, he, (hex n).2 _ hrm]
  rfl

theorem runInstr_load_misaligned {s : State} {form : Record} {w : Width} {va : Word} {ex : Executor}
    (hf : MemForm s form) (hr : s.memReady) (hl : isLoadOpcode form.opcode = true)
    (hc : isCondStoreOpcode form.opcode = false)
    (hex : ReadsAt ex s form va w) (hslot : ∃ n < Config.queueDepth, Table.at? s.lq n = none)
    (ha : va.toNat % w.bytes ≠ 0) : runInstr .load form ex s = .refused .misaligned := by
  obtain ⟨n, hn, he⟩ := lifeOf_load hf hr hslot hl hc ex
  have hrm := readMem_misaligned (s := s.takenMem.withLq (Table.put s.lq n freshLqSlot)) (r := { form with slot := n })
    (by simp) ha
  rw [runInstr, he, (hex n).2 _ hrm]
  rfl

end Sys2Proof.Machine
end

