-- ==== Sys2Proof/Laws/Transactions.lean ====
section
/-!
SUPPORT. The Mbox's own step, load completion, fills from outside and the configuration input: what each does when
it answers.
-/

namespace Sys2Proof.Machine

/-! ### The Mbox's own step (70 R534) -/

/-- If it answers a state, that is the completion of a `Pending` slot of the list. -/
theorem mboxStep_some {s t : State} {l : Table LqSlot} (h : mboxStep s l = .ok (some t)) :
    ∃ e ∈ l, e.2.state = .pending ∧ lqCompletePort s e.1 = .ok t := by
  induction l with
  | nil => cases h
  | cons e rest ih =>
    unfold mboxStep at h
    split at h
    · rename_i hp
      split at h
      · rename_i ht; cases h; exact ⟨e, List.mem_cons_self, hp, ht⟩
      · obtain ⟨e', he', hx⟩ := ih h; exact ⟨e', List.mem_cons_of_mem _ he', hx⟩
      · cases h
    · obtain ⟨e', he', hx⟩ := ih h; exact ⟨e', List.mem_cons_of_mem _ he', hx⟩

/-- If it answers none, no `Pending` slot of the list has its completion enabled. -/
theorem mboxStep_none {s : State} {l : Table LqSlot} (h : mboxStep s l = .ok none) :
    ∀ e ∈ l, e.2.state = .pending → lqCompletePort s e.1 = .error .completionNotEnabled := by
  induction l with
  | nil => exact fun e he => absurd he List.not_mem_nil
  | cons e rest ih =>
    unfold mboxStep at h
    intro e' he' hp
    split at h
    · split at h
      · cases h
      · rename_i hn
        rcases List.mem_cons.1 he' with rfl | hr
        · exact hn
        · exact ih h e' hr hp
      · cases h
    · rename_i hq
      rcases List.mem_cons.1 he' with rfl | hr
      · exact absurd hp hq
      · exact ih h e' hr hp

/-- If it refuses, that is a completion's refusal of another name than `completionNotEnabled`. -/
theorem mboxStep_error {s : State} {l : Table LqSlot} {r : Refusal} (h : mboxStep s l = .error r) :
    r ≠ .completionNotEnabled ∧ ∃ e ∈ l, e.2.state = .pending ∧ lqCompletePort s e.1 = .error r := by
  induction l with
  | nil => cases h
  | cons e rest ih =>
    unfold mboxStep at h
    split at h
    · rename_i hp
      split at h
      · cases h
      · obtain ⟨hr, e', he', hx⟩ := ih h; exact ⟨hr, e', List.mem_cons_of_mem _ he', hx⟩
      · rename_i hne hx
        cases h
        exact ⟨hne, e, List.mem_cons_self, hp, hx⟩
    · obtain ⟨hr, e', he', hx⟩ := ih h; exact ⟨hr, e', List.mem_cons_of_mem _ he', hx⟩

/-- A completion that answers: the value, the memory system after its read, the slot `Completed`, and at most the
slot's record changed (20_memory R108). -/
theorem lqCompletePort_ok {s t : State} {n : Nat} (h : lqCompletePort s n = .ok t) :
    ∃ q v m, Table.at? s.lq n = some q ∧ q.state = .pending ∧ loadValue s q = .ok (v, m) ∧
      (let s1 := (s.withMem m).withLq (Table.put s.lq n { q with state := .completed })
       (Table.at? s.inflight q.instrId = none ∧ t = s1) ∨
       ∃ r, Table.at? s.inflight q.instrId = some r ∧
        t = s1.withInflight (Table.put s.inflight r.id (r.setDest (complete r.completion v)))) := by
  unfold lqCompletePort completeSlot at h
  cases hq : Table.at? s.lq n with
  | none => rw [hq] at h; cases h
  | some q =>
    rw [hq] at h
    simp only at h
    by_cases hp : q.state = .pending
    · cases hl : loadValue s q with
      | error e => simp [hp, hl, bind, Except.bind] at h
      | ok vm =>
        obtain ⟨v, m⟩ := vm
        simp only [hp, hl, bind, Except.bind, ne_eq, not_true_eq_false, if_false, Option.bind] at h
        refine ⟨q, v, m, rfl, hp, hl, ?_⟩
        cases hr : Table.at? s.inflight q.instrId with
        | none => rw [hr] at h; cases h; exact .inl ⟨rfl, rfl⟩
        | some r => rw [hr] at h; cases h; exact .inr ⟨r, rfl, rfl⟩
    · simp [hp, bind, Except.bind] at h

/-- The value of a load leaves the memory system good and its bytes as they were (20_memory R109). -/
theorem loadValue_unchanged {s : State} {q : LqSlot} {v : Word} {m : MemSys} (h : loadValue s q = .ok (v, m))
    (hw : s.mem.wf s.cfg) (hc : s.mem.coherent s.cfg) : s.mem.unchanged s.cfg m := by
  unfold loadValue at h
  split at h
  · obtain ⟨v', m', h1, h2, -, -, h5⟩ := MemSys.read_spec hw q.pa q.width
    rw [h1] at h; cases h; exact ⟨h2, h5 hc⟩
  · split at h
    · cases h; exact ⟨hw, hc, fun _ => rfl⟩
    · cases h

/-! ### Fills from outside (49_cache R455, R464) -/

/-- Two memory systems with one data side and one store show the same bytes. -/
theorem MemSys.unchanged_of_data {cfg : Cfg} {m m' : MemSys} (hd : m'.dcache = m.dcache) (hb : m'.bcache = m.bcache)
    (hs : m'.store = m.store) (hc : m.coherent cfg) : m'.coherent cfg ∧ m.sameBytes cfg m' := by
  unfold MemSys.coherent MemSys.sameBytes MemSys.byteAt
  rw [hd, hb, hs]
  exact ⟨hc, fun _ => rfl⟩

/-- What a data-side fill that is not refused brings. -/
theorem fillKeeps_ok {s : State} {line : Nat} {data : Block} {dirty : Bool} {u : Unit}
    (h : fillKeeps s line data dirty = .ok u) :
    dirty = false ∧ (s.cfg.mp = false → data = Memory.readBlock s.mem.store line) := by
  unfold fillKeeps at h
  cases dirty
  · refine ⟨rfl, fun hm => ?_⟩
    by_contra hd
    simp [hm, hd] at h
  · cases h

/-- A fill that answers changes the memory system alone, keeps it good, and, with `MP` false, changes no byte a load
sees. -/
theorem fillPort_spec {s t : State} {c : CacheId} {line : Nat} {data : Block} {dirty shared : Bool}
    (hl : line < 2 ^ Config.lineBits) (hwf : s.mem.wf s.cfg) (h : fillPort s c line data dirty shared = .ok t) :
    ∃ m, t = s.withMem m ∧ m.wf s.cfg ∧
      (s.mem.coherent s.cfg → s.cfg.mp = false → m.coherent s.cfg ∧ s.mem.sameBytes s.cfg m) := by
  unfold fillPort at h
  have hlook : ∀ c, s.mem.lookup s.cfg c line =
      .ok ((s.mem.cache c).find (s.cfg.setBits c) (s.cfg.ways c) line) := by
    rintro (_ | _ | _)
    · exact Cache.lookup_eq hwf.icache line
    · exact Cache.lookup_eq hwf.dcache line
    · exact Cache.lookup_eq hwf.bcache line
  -- the two data-side caches, by their own lemma
  have hend : ∀ m, (∀ l, ¬ s.mem.Holds s.cfg line l) →
      (s.cfg.mp = false → data = Memory.readBlock s.mem.store line) →
      (s.mem.coherent s.cfg → (dirty = false → lineAgrees s.mem.store line data) → m.coherent s.cfg ∧
        ∀ a, m.byteAt s.cfg a = if a / 64 = line then blockByte data (a % 64) else s.mem.byteAt s.cfg a) →
      s.mem.coherent s.cfg → s.cfg.mp = false → m.coherent s.cfg ∧ s.mem.sameBytes s.cfg m := by
    intro m habs hdata hm hco hmp
    have hag : lineAgrees s.mem.store line data := by
      rw [hdata hmp]; exact fun k hk => Memory.blockByte_readBlock _ _ _ hk
    obtain ⟨h1, h2⟩ := hm hco fun _ => hag
    refine ⟨h1, fun a => ?_⟩
    rw [h2 a]
    split
    · rename_i ha
      rw [MemSys.byteAt_of_not_holds hwf (by rw [ha]; exact habs), ← lineAgrees_read (ha ▸ hag)]
    · rfl
  by_cases hsh : (shared && !s.cfg.mp) = true
  · simp [hsh] at h
  have hs : shared = true → s.cfg.mp = true := by revert hsh; cases shared <;> cases s.cfg.mp <;> simp
  simp only [hsh, Bool.false_eq_true, if_false] at h
  cases c with
  | icache =>
    simp only [bind, Except.bind] at h
    cases hf : s.mem.fillI s.cfg line data with
    | error e => simp [hf] at h
    | ok m =>
      simp only [hf] at h; cases h
      obtain ⟨w, hd, hb, hst⟩ := MemSys.fillI_spec hwf hl hf
      exact ⟨m, rfl, w, fun hco _ => MemSys.unchanged_of_data hd hb hst hco⟩
  | dcache =>
    simp only [hlook, bind, Except.bind] at h
    cases hb : (s.mem.cache .bcache).find (s.cfg.setBits .bcache) (s.cfg.ways .bcache) line with
    | some r => simp [hb] at h
    | none =>
      simp only [hb] at h
      cases hk : fillKeeps s line data dirty with
      | error e => simp [hk] at h
      | ok u =>
        have k2 := (fillKeeps_ok hk).2
        simp only [hk] at h
        cases hd : (s.mem.cache .dcache).find (s.cfg.setBits .dcache) (s.cfg.ways .dcache) line with
        | some r => simp [MemSys.fillD, hlook, hd, bind, Except.bind] at h
        | none =>
          have habs : ∀ l, ¬ s.mem.Holds s.cfg line l := by
            rintro l (⟨key, hm, hh⟩ | ⟨key, hm, hh⟩)
            · exact (Cache.find_eq_none hwf.dcache).1 hd _ hm hh
            · exact (Cache.find_eq_none hwf.bcache).1 hb _ hm hh
          obtain ⟨m, key, e1, e2, -, -, e5⟩ := MemSys.fillD_spec hwf hl habs data dirty shared hs
          rw [e1] at h; cases h
          exact ⟨m, rfl, e2, hend m habs k2 e5⟩
  | bcache =>
    simp only [hlook, bind, Except.bind] at h
    by_cases hp : s.cfg.bcPresent = true
    · simp only [hp, Bool.not_true, Bool.false_eq_true, if_false] at h
      cases hd : (s.mem.cache .dcache).find (s.cfg.setBits .dcache) (s.cfg.ways .dcache) line with
      | some r => simp [hd] at h
      | none =>
        simp only [hd] at h
        cases hk : fillKeeps s line data dirty with
        | error e => simp [hk] at h
        | ok u =>
          have k2 := (fillKeeps_ok hk).2
          simp only [hk] at h
          cases hb : (s.mem.cache .bcache).find (s.cfg.setBits .bcache) (s.cfg.ways .bcache) line with
          | some r => simp [MemSys.fillB, hlook, hb, bind, Except.bind] at h
          | none =>
            have habs : ∀ l, ¬ s.mem.Holds s.cfg line l := by
              rintro l (⟨key, hm, hh⟩ | ⟨key, hm, hh⟩)
              · exact (Cache.find_eq_none hwf.dcache).1 hd _ hm hh
              · exact (Cache.find_eq_none hwf.bcache).1 hb _ hm hh
            obtain ⟨m, e1, e2, -, -, -, -, e5⟩ := MemSys.fillB_spec hwf hp hl habs data dirty shared hs
            rw [e1] at h; cases h
            exact ⟨m, rfl, e2, hend m habs k2 e5⟩
    · simp [hp] at h

/-! ### The configuration input (10_state R34, 49_cache R467) -/

/-- A configuration that is accepted keeps the hierarchy good and every byte a load sees. -/
theorem configAccepted_spec {s : State} {c : Cfg} (h : configAccepted s c = true) (hmp : s.cfg.mp = false)
    (hw : s.mem.wf s.cfg) (hc : s.mem.coherent s.cfg) :
    s.mem.wf c ∧ s.mem.coherent c ∧ ∀ a, s.mem.byteAt c a = s.mem.byteAt s.cfg a := by
  simp only [configAccepted, Bool.and_eq_true, Bool.or_eq_true, decide_eq_true_eq, List.isEmpty_iff] at h
  obtain ⟨⟨⟨⟨h1, h2⟩, h3⟩, h4⟩, h5⟩ := h
  have hi : s.mem.icache.wf Config.cacheSetBits c.icWays.count := by
    rcases h2 with h2 | h2
    · rw [h2]; exact hw.icache
    · obtain ⟨a, b, -, -, e⟩ := hw.icache
      exact ⟨a, b, by simp [h2], by simp [h2], e⟩
  have hd : s.mem.dcache.wf Config.cacheSetBits c.dcWays.count := by
    rcases h3 with h2 | h2
    · rw [h2]; exact hw.dcache
    · obtain ⟨a, b, -, -, e⟩ := hw.dcache
      exact ⟨a, b, by simp [h2], by simp [h2], e⟩
  have hb : s.mem.bcache.wf c.bcSetBits 1 := by
    rcases h4 with h2 | h2
    · rw [h2.2]; exact hw.bcache
    · obtain ⟨a, b, -, -, e⟩ := hw.bcache
      exact ⟨a, b, by simp [h2], by simp [h2], e⟩
  have he : s.mem.exclusive c := by
    rcases h4 with h2 | h2
    · unfold MemSys.exclusive; rw [h2.2]; exact hw.exclusive
    · unfold MemSys.exclusive; rw [h2]; simp
  refine ⟨⟨hw.store, h1, hi, hd, hb, he, hw.icacheClean, fun _ => hw.unshared hmp, fun hp => ?_⟩, ⟨hc.1, ?_⟩, fun a => ?_⟩
  · rcases h4 with h2 | h2
    · exact hw.noBcache (h2.1 ▸ hp)
    · exact h2
  · rcases h4 with h2 | h2
    · rw [h2.2]; exact hc.2
    · unfold Cache.cleanAgrees; rw [h2]; simp
  · unfold MemSys.byteAt
    have e1 : s.mem.dcache.byte? Config.cacheSetBits c.dcWays.count a =
        s.mem.dcache.byte? Config.cacheSetBits s.cfg.dcWays.count a := by
      rcases h3 with h2 | h2
      · rw [h2]
      · simp [Cache.byte?, Cache.find, Cache.inWay, h2]
    have e2 : s.mem.bcache.byte? c.bcSetBits 1 a = s.mem.bcache.byte? s.cfg.bcSetBits 1 a := by
      rcases h4 with h2 | h2
      · rw [h2.2]
      · simp [Cache.byte?, Cache.find, Cache.inWay, h2]
    rw [e1, e2]

end Sys2Proof.Machine
end

