-- ==== Sys2Proof/Tests/Slice0.lean ====
section
/-!
SUPPORT. Our own tests: the well-formedness smoke tests, one word for every constructor written out from the
format tables of 30_encoding, one-step runs of rows of 95_test_vectors, and a witness for the hypotheses of every
statement that has some.
-/

namespace Sys2Proof.Tests

open Sys2Proof Sys2Proof.Machine

/-! ### Well-formedness (30_encoding R140, R143) -/

theorem test_smoke_ieee_trp : (Instr.adds 1 2 3 0b010 0b10).wellFormed = false ∧
    (Instr.addt 1 2 3 0b100 0b10).wellFormed = false ∧ (Instr.muls 1 2 3 0b011 0b10).wellFormed = false ∧
    (Instr.mult 1 2 3 0b110 0b10).wellFormed = false := by decide

theorem test_smoke_vax_trp : (Instr.addf 1 2 3 0b111 0b10).wellFormed = false ∧
    (Instr.mulg 1 2 3 0b010 0b00).wellFormed = false := by decide

theorem test_smoke_vax_rnd : (Instr.addg 1 2 3 0b000 0b01).wellFormed = false ∧
    (Instr.mulf 1 2 3 0b001 0b11).wellFormed = false := by decide

theorem test_refused_words : decodeWord 0 = .error (.undefinedOpcode 0) ∧
    decodeWord 0x40220023 = .error (.undefinedFunction 0x10 0x01) ∧
    decodeWord 0x58225403 = .error (.undefinedQualifier 0b010 0b10) ∧
    decodeBytes [0, 0, 0] = .error (.wrongLength 3) := by decide

/-! ### Decoding of every constructor -/

/-- The word decodes to the instruction, through the decoder and through the table's numbering. -/
def decodesTo (p : InstrWord × Instr) : Bool :=
  decide (decodeWord p.1 = .ok p.2) && decide (decodeTableWord 32 p.1.toNat = some p.2)

theorem test_decode_mem_a : ([
    (0b001000#6 ++ 0b00001#5 ++ 0b01110#5 ++ 0b0000000000000101#16, .lda 1 14 0x5),
    (0b001001#6 ++ 0b00010#5 ++ 0b01111#5 ++ 0b1000000000100101#16, .ldah 2 15 0x8025),
    (0b001010#6 ++ 0b00011#5 ++ 0b10000#5 ++ 0b0000000001001111#16, .ldbu 3 16 0x4f),
    (0b001011#6 ++ 0b00100#5 ++ 0b10001#5 ++ 0b1000000001101111#16, .ldq_u 4 17 0x806f),
    (0b001100#6 ++ 0b00101#5 ++ 0b10010#5 ++ 0b0000000010011001#16, .ldwu 5 18 0x99),
    (0b001101#6 ++ 0b00110#5 ++ 0b10011#5 ++ 0b1000000010111001#16, .stw 6 19 0x80b9),
    (0b001110#6 ++ 0b00111#5 ++ 0b10100#5 ++ 0b0000000011100011#16, .stb 7 20 0xe3),
    (0b001111#6 ++ 0b01000#5 ++ 0b10101#5 ++ 0b1000000100000011#16, .stq_u 8 21 0x8103),
    (0b101000#6 ++ 0b01001#5 ++ 0b10110#5 ++ 0b0000000100101101#16, .ldl 9 22 0x12d),
    (0b101001#6 ++ 0b01010#5 ++ 0b10111#5 ++ 0b1000000101001101#16, .ldq 10 23 0x814d),
    (0b101010#6 ++ 0b01011#5 ++ 0b11000#5 ++ 0b0000000101110111#16, .ldl_l 11 24 0x177),
    (0b101011#6 ++ 0b01100#5 ++ 0b11001#5 ++ 0b1000000110010111#16, .ldq_l 12 25 0x8197),
    (0b101100#6 ++ 0b01101#5 ++ 0b11010#5 ++ 0b0000000111000001#16, .stl 13 26 0x1c1),
    (0b101101#6 ++ 0b00001#5 ++ 0b11011#5 ++ 0b1000000111100001#16, .stq 1 27 0x81e1)] : List (InstrWord × Instr)).all decodesTo = true := by decide

theorem test_decode_mem_b : ([
    (0b101110#6 ++ 0b00010#5 ++ 0b11100#5 ++ 0b0000001000001011#16, .stl_c 2 28 0x20b),
    (0b101111#6 ++ 0b00011#5 ++ 0b11101#5 ++ 0b1000001000101011#16, .stq_c 3 29 0x822b)] : List (InstrWord × Instr)).all decodesTo = true := by decide

theorem test_decode_10_a : ([
    (0b010000#6 ++ 0b00100#5 ++ 0b01110#5 ++ 0b000#3 ++ 0#1 ++ 0b0000000#7 ++ 0b10011#5, .addl 4 (.reg 14) 19),
    (0b010000#6 ++ 0b00101#5 ++ 0b01111#5 ++ 0b000#3 ++ 0#1 ++ 0b0000010#7 ++ 0b11010#5, .s4addl 5 (.reg 15) 26),
    (0b010000#6 ++ 0b00110#5 ++ 0b01000111#8 ++ 1#1 ++ 0b0001001#7 ++ 0b00010#5, .subl 6 (.lit 71) 2),
    (0b010000#6 ++ 0b00111#5 ++ 0b10001#5 ++ 0b000#3 ++ 0#1 ++ 0b0001011#7 ++ 0b01001#5, .s4subl 7 (.reg 17) 9),
    (0b010000#6 ++ 0b01000#5 ++ 0b10010#5 ++ 0b000#3 ++ 0#1 ++ 0b0001111#7 ++ 0b10000#5, .cmpbge 8 (.reg 18) 16),
    (0b010000#6 ++ 0b01001#5 ++ 0b01101000#8 ++ 1#1 ++ 0b0010010#7 ++ 0b10111#5, .s8addl 9 (.lit 104) 23),
    (0b010000#6 ++ 0b01010#5 ++ 0b10100#5 ++ 0b000#3 ++ 0#1 ++ 0b0011011#7 ++ 0b11110#5, .s8subl 10 (.reg 20) 30),
    (0b010000#6 ++ 0b01011#5 ++ 0b10101#5 ++ 0b000#3 ++ 0#1 ++ 0b0011101#7 ++ 0b00110#5, .cmpult 11 (.reg 21) 6),
    (0b010000#6 ++ 0b01100#5 ++ 0b10001001#8 ++ 1#1 ++ 0b0100000#7 ++ 0b01101#5, .addq 12 (.lit 137) 13),
    (0b010000#6 ++ 0b01101#5 ++ 0b10111#5 ++ 0b000#3 ++ 0#1 ++ 0b0100010#7 ++ 0b10100#5, .s4addq 13 (.reg 23) 20),
    (0b010000#6 ++ 0b00001#5 ++ 0b11000#5 ++ 0b000#3 ++ 0#1 ++ 0b0101001#7 ++ 0b11011#5, .subq 1 (.reg 24) 27),
    (0b010000#6 ++ 0b00010#5 ++ 0b10101010#8 ++ 1#1 ++ 0b0101011#7 ++ 0b00011#5, .s4subq 2 (.lit 170) 3),
    (0b010000#6 ++ 0b00011#5 ++ 0b11010#5 ++ 0b000#3 ++ 0#1 ++ 0b0101101#7 ++ 0b01010#5, .cmpeq 3 (.reg 26) 10),
    (0b010000#6 ++ 0b00100#5 ++ 0b11011#5 ++ 0b000#3 ++ 0#1 ++ 0b0110010#7 ++ 0b10001#5, .s8addq 4 (.reg 27) 17)] : List (InstrWord × Instr)).all decodesTo = true := by decide

theorem test_decode_10_b : ([
    (0b010000#6 ++ 0b00101#5 ++ 0b11001011#8 ++ 1#1 ++ 0b0111011#7 ++ 0b11000#5, .s8subq 5 (.lit 203) 24),
    (0b010000#6 ++ 0b00110#5 ++ 0b11101#5 ++ 0b000#3 ++ 0#1 ++ 0b0111101#7 ++ 0b00000#5, .cmpule 6 (.reg 29) 0),
    (0b010000#6 ++ 0b00111#5 ++ 0b01110#5 ++ 0b000#3 ++ 0#1 ++ 0b1000000#7 ++ 0b00111#5, .addl_v 7 (.reg 14) 7),
    (0b010000#6 ++ 0b01000#5 ++ 0b11101100#8 ++ 1#1 ++ 0b1001001#7 ++ 0b01110#5, .subl_v 8 (.lit 236) 14),
    (0b010000#6 ++ 0b01001#5 ++ 0b10000#5 ++ 0b000#3 ++ 0#1 ++ 0b1001101#7 ++ 0b10101#5, .cmplt 9 (.reg 16) 21),
    (0b010000#6 ++ 0b01010#5 ++ 0b10001#5 ++ 0b000#3 ++ 0#1 ++ 0b1100000#7 ++ 0b11100#5, .addq_v 10 (.reg 17) 28),
    (0b010000#6 ++ 0b01011#5 ++ 0b00001101#8 ++ 1#1 ++ 0b1101001#7 ++ 0b00100#5, .subq_v 11 (.lit 13) 4),
    (0b010000#6 ++ 0b01100#5 ++ 0b10011#5 ++ 0b000#3 ++ 0#1 ++ 0b1101101#7 ++ 0b01011#5, .cmple 12 (.reg 19) 11)] : List (InstrWord × Instr)).all decodesTo = true := by decide

theorem test_decode_11 : ([
    (0b010001#6 ++ 0b01101#5 ++ 0b10100#5 ++ 0b000#3 ++ 0#1 ++ 0b0000000#7 ++ 0b10010#5, .and 13 (.reg 20) 18),
    (0b010001#6 ++ 0b00001#5 ++ 0b00101110#8 ++ 1#1 ++ 0b0001000#7 ++ 0b11001#5, .bic 1 (.lit 46) 25),
    (0b010001#6 ++ 0b00010#5 ++ 0b10110#5 ++ 0b000#3 ++ 0#1 ++ 0b0010100#7 ++ 0b00001#5, .cmovlbs 2 (.reg 22) 1),
    (0b010001#6 ++ 0b00011#5 ++ 0b10111#5 ++ 0b000#3 ++ 0#1 ++ 0b0010110#7 ++ 0b01000#5, .cmovlbc 3 (.reg 23) 8),
    (0b010001#6 ++ 0b00100#5 ++ 0b01001111#8 ++ 1#1 ++ 0b0100000#7 ++ 0b01111#5, .bis 4 (.lit 79) 15),
    (0b010001#6 ++ 0b00101#5 ++ 0b11001#5 ++ 0b000#3 ++ 0#1 ++ 0b0100100#7 ++ 0b10110#5, .cmoveq 5 (.reg 25) 22),
    (0b010001#6 ++ 0b00110#5 ++ 0b11010#5 ++ 0b000#3 ++ 0#1 ++ 0b0100110#7 ++ 0b11101#5, .cmovne 6 (.reg 26) 29),
    (0b010001#6 ++ 0b00111#5 ++ 0b01110000#8 ++ 1#1 ++ 0b0101000#7 ++ 0b00101#5, .ornot 7 (.lit 112) 5),
    (0b010001#6 ++ 0b01000#5 ++ 0b11100#5 ++ 0b000#3 ++ 0#1 ++ 0b1000000#7 ++ 0b01100#5, .xor 8 (.reg 28) 12),
    (0b010001#6 ++ 0b01001#5 ++ 0b11101#5 ++ 0b000#3 ++ 0#1 ++ 0b1000100#7 ++ 0b10011#5, .cmovlt 9 (.reg 29) 19),
    (0b010001#6 ++ 0b01010#5 ++ 0b10010001#8 ++ 1#1 ++ 0b1000110#7 ++ 0b11010#5, .cmovge 10 (.lit 145) 26),
    (0b010001#6 ++ 0b01011#5 ++ 0b01111#5 ++ 0b000#3 ++ 0#1 ++ 0b1001000#7 ++ 0b00010#5, .eqv 11 (.reg 15) 2),
    (0b010001#6 ++ 0b01100#5 ++ 0b10000#5 ++ 0b000#3 ++ 0#1 ++ 0b1100100#7 ++ 0b01001#5, .cmovle 12 (.reg 16) 9),
    (0b010001#6 ++ 0b01101#5 ++ 0b10110010#8 ++ 1#1 ++ 0b1100110#7 ++ 0b10000#5, .cmovgt 13 (.lit 178) 16)] : List (InstrWord × Instr)).all decodesTo = true := by decide

theorem test_decode_12_a : ([
    (0b010010#6 ++ 0b00001#5 ++ 0b10010#5 ++ 0b000#3 ++ 0#1 ++ 0b0000010#7 ++ 0b10111#5, .mskbl 1 (.reg 18) 23),
    (0b010010#6 ++ 0b00010#5 ++ 0b10011#5 ++ 0b000#3 ++ 0#1 ++ 0b0000110#7 ++ 0b11110#5, .extbl 2 (.reg 19) 30),
    (0b010010#6 ++ 0b00011#5 ++ 0b11010011#8 ++ 1#1 ++ 0b0001011#7 ++ 0b00110#5, .insbl 3 (.lit 211) 6),
    (0b010010#6 ++ 0b00100#5 ++ 0b10101#5 ++ 0b000#3 ++ 0#1 ++ 0b0010010#7 ++ 0b01101#5, .mskwl 4 (.reg 21) 13),
    (0b010010#6 ++ 0b00101#5 ++ 0b10110#5 ++ 0b000#3 ++ 0#1 ++ 0b0010110#7 ++ 0b10100#5, .extwl 5 (.reg 22) 20),
    (0b010010#6 ++ 0b00110#5 ++ 0b11110100#8 ++ 1#1 ++ 0b0011011#7 ++ 0b11011#5, .inswl 6 (.lit 244) 27),
    (0b010010#6 ++ 0b00111#5 ++ 0b11000#5 ++ 0b000#3 ++ 0#1 ++ 0b0100010#7 ++ 0b00011#5, .mskll 7 (.reg 24) 3),
    (0b010010#6 ++ 0b01000#5 ++ 0b11001#5 ++ 0b000#3 ++ 0#1 ++ 0b0100110#7 ++ 0b01010#5, .extll 8 (.reg 25) 10),
    (0b010010#6 ++ 0b01001#5 ++ 0b00010101#8 ++ 1#1 ++ 0b0101011#7 ++ 0b10001#5, .insll 9 (.lit 21) 17),
    (0b010010#6 ++ 0b01010#5 ++ 0b11011#5 ++ 0b000#3 ++ 0#1 ++ 0b0110000#7 ++ 0b11000#5, .zap 10 (.reg 27) 24),
    (0b010010#6 ++ 0b01011#5 ++ 0b11100#5 ++ 0b000#3 ++ 0#1 ++ 0b0110001#7 ++ 0b00000#5, .zapnot 11 (.reg 28) 0),
    (0b010010#6 ++ 0b01100#5 ++ 0b00110110#8 ++ 1#1 ++ 0b0110010#7 ++ 0b00111#5, .mskql 12 (.lit 54) 7),
    (0b010010#6 ++ 0b01101#5 ++ 0b01110#5 ++ 0b000#3 ++ 0#1 ++ 0b0110100#7 ++ 0b01110#5, .srl 13 (.reg 14) 14),
    (0b010010#6 ++ 0b00001#5 ++ 0b01111#5 ++ 0b000#3 ++ 0#1 ++ 0b0110110#7 ++ 0b10101#5, .extql 1 (.reg 15) 21)] : List (InstrWord × Instr)).all decodesTo = true := by decide

theorem test_decode_12_b : ([
    (0b010010#6 ++ 0b00010#5 ++ 0b01010111#8 ++ 1#1 ++ 0b0111001#7 ++ 0b11100#5, .sll 2 (.lit 87) 28),
    (0b010010#6 ++ 0b00011#5 ++ 0b10001#5 ++ 0b000#3 ++ 0#1 ++ 0b0111011#7 ++ 0b00100#5, .insql 3 (.reg 17) 4),
    (0b010010#6 ++ 0b00100#5 ++ 0b10010#5 ++ 0b000#3 ++ 0#1 ++ 0b0111100#7 ++ 0b01011#5, .sra 4 (.reg 18) 11),
    (0b010010#6 ++ 0b00101#5 ++ 0b01111000#8 ++ 1#1 ++ 0b1010010#7 ++ 0b10010#5, .mskwh 5 (.lit 120) 18),
    (0b010010#6 ++ 0b00110#5 ++ 0b10100#5 ++ 0b000#3 ++ 0#1 ++ 0b1010111#7 ++ 0b11001#5, .inswh 6 (.reg 20) 25),
    (0b010010#6 ++ 0b00111#5 ++ 0b10101#5 ++ 0b000#3 ++ 0#1 ++ 0b1011010#7 ++ 0b00001#5, .extwh 7 (.reg 21) 1),
    (0b010010#6 ++ 0b01000#5 ++ 0b10011001#8 ++ 1#1 ++ 0b1100010#7 ++ 0b01000#5, .msklh 8 (.lit 153) 8),
    (0b010010#6 ++ 0b01001#5 ++ 0b10111#5 ++ 0b000#3 ++ 0#1 ++ 0b1100111#7 ++ 0b01111#5, .inslh 9 (.reg 23) 15),
    (0b010010#6 ++ 0b01010#5 ++ 0b11000#5 ++ 0b000#3 ++ 0#1 ++ 0b1101010#7 ++ 0b10110#5, .extlh 10 (.reg 24) 22),
    (0b010010#6 ++ 0b01011#5 ++ 0b10111010#8 ++ 1#1 ++ 0b1110010#7 ++ 0b11101#5, .mskqh 11 (.lit 186) 29),
    (0b010010#6 ++ 0b01100#5 ++ 0b11010#5 ++ 0b000#3 ++ 0#1 ++ 0b1110111#7 ++ 0b00101#5, .insqh 12 (.reg 26) 5),
    (0b010010#6 ++ 0b01101#5 ++ 0b11011#5 ++ 0b000#3 ++ 0#1 ++ 0b1111010#7 ++ 0b01100#5, .extqh 13 (.reg 27) 12)] : List (InstrWord × Instr)).all decodesTo = true := by decide

theorem test_decode_13 : ([
    (0b010011#6 ++ 0b00001#5 ++ 0b11011011#8 ++ 1#1 ++ 0b0000000#7 ++ 0b10011#5, .mull 1 (.lit 219) 19),
    (0b010011#6 ++ 0b00010#5 ++ 0b11101#5 ++ 0b000#3 ++ 0#1 ++ 0b0100000#7 ++ 0b11010#5, .mulq 2 (.reg 29) 26),
    (0b010011#6 ++ 0b00011#5 ++ 0b01110#5 ++ 0b000#3 ++ 0#1 ++ 0b0110000#7 ++ 0b00010#5, .umulh 3 (.reg 14) 2),
    (0b010011#6 ++ 0b00100#5 ++ 0b11111100#8 ++ 1#1 ++ 0b1000000#7 ++ 0b01001#5, .mull_v 4 (.lit 252) 9),
    (0b010011#6 ++ 0b00101#5 ++ 0b10000#5 ++ 0b000#3 ++ 0#1 ++ 0b1100000#7 ++ 0b10000#5, .mulq_v 5 (.reg 16) 16)] : List (InstrWord × Instr)).all decodesTo = true := by decide

theorem test_decode_1c_a : ([
    (0b011100#6 ++ 0b00110#5 ++ 0b10001#5 ++ 0b000#3 ++ 0#1 ++ 0b0000000#7 ++ 0b10111#5, .sextb 6 (.reg 17) 23),
    (0b011100#6 ++ 0b00111#5 ++ 0b00011101#8 ++ 1#1 ++ 0b0000001#7 ++ 0b11110#5, .sextw 7 (.lit 29) 30),
    (0b011100#6 ++ 0b01000#5 ++ 0b10011#5 ++ 0b000#3 ++ 0#1 ++ 0b0110001#7 ++ 0b00110#5, .perr 8 (.reg 19) 6),
    (0b011100#6 ++ 0b01001#5 ++ 0b10100#5 ++ 0b000#3 ++ 0#1 ++ 0b0110010#7 ++ 0b01101#5, .ctlz 9 (.reg 20) 13),
    (0b011100#6 ++ 0b01010#5 ++ 0b00111110#8 ++ 1#1 ++ 0b0110011#7 ++ 0b10100#5, .cttz 10 (.lit 62) 20),
    (0b011100#6 ++ 0b01011#5 ++ 0b10110#5 ++ 0b000#3 ++ 0#1 ++ 0b0110100#7 ++ 0b11011#5, .unpkbw 11 (.reg 22) 27),
    (0b011100#6 ++ 0b01100#5 ++ 0b10111#5 ++ 0b000#3 ++ 0#1 ++ 0b0110101#7 ++ 0b00011#5, .unpkbl 12 (.reg 23) 3),
    (0b011100#6 ++ 0b01101#5 ++ 0b01011111#8 ++ 1#1 ++ 0b0110110#7 ++ 0b01010#5, .pkwb 13 (.lit 95) 10),
    (0b011100#6 ++ 0b00001#5 ++ 0b11001#5 ++ 0b000#3 ++ 0#1 ++ 0b0110111#7 ++ 0b10001#5, .pklb 1 (.reg 25) 17),
    (0b011100#6 ++ 0b00010#5 ++ 0b11010#5 ++ 0b000#3 ++ 0#1 ++ 0b0111000#7 ++ 0b11000#5, .minsb8 2 (.reg 26) 24),
    (0b011100#6 ++ 0b00011#5 ++ 0b10000000#8 ++ 1#1 ++ 0b0111001#7 ++ 0b00000#5, .minsw4 3 (.lit 128) 0),
    (0b011100#6 ++ 0b00100#5 ++ 0b11100#5 ++ 0b000#3 ++ 0#1 ++ 0b0111010#7 ++ 0b00111#5, .minub8 4 (.reg 28) 7),
    (0b011100#6 ++ 0b00101#5 ++ 0b11101#5 ++ 0b000#3 ++ 0#1 ++ 0b0111011#7 ++ 0b01110#5, .minuw4 5 (.reg 29) 14),
    (0b011100#6 ++ 0b00110#5 ++ 0b10100001#8 ++ 1#1 ++ 0b0111100#7 ++ 0b10101#5, .maxub8 6 (.lit 161) 21)] : List (InstrWord × Instr)).all decodesTo = true := by decide

theorem test_decode_1c_b : ([
    (0b011100#6 ++ 0b00111#5 ++ 0b01111#5 ++ 0b000#3 ++ 0#1 ++ 0b0111101#7 ++ 0b11100#5, .maxuw4 7 (.reg 15) 28),
    (0b011100#6 ++ 0b01000#5 ++ 0b10000#5 ++ 0b000#3 ++ 0#1 ++ 0b0111110#7 ++ 0b00100#5, .maxsb8 8 (.reg 16) 4),
    (0b011100#6 ++ 0b01001#5 ++ 0b11000010#8 ++ 1#1 ++ 0b0111111#7 ++ 0b01011#5, .maxsw4 9 (.lit 194) 11)] : List (InstrWord × Instr)).all decodesTo = true := by decide

theorem test_decode_15 : ([
    (0b010101#6 ++ 0b01010#5 ++ 0b10010#5 ++ 0b101#3 ++ 0b10#2 ++ 0b000000#6 ++ 0b10010#5, .addf 10 18 18 5 2),
    (0b010101#6 ++ 0b01011#5 ++ 0b10011#5 ++ 0b101#3 ++ 0b10#2 ++ 0b000010#6 ++ 0b11001#5, .mulf 11 19 25 5 2),
    (0b010101#6 ++ 0b01100#5 ++ 0b10100#5 ++ 0b101#3 ++ 0b10#2 ++ 0b100000#6 ++ 0b00001#5, .addg 12 20 1 5 2),
    (0b010101#6 ++ 0b01101#5 ++ 0b10101#5 ++ 0b101#3 ++ 0b10#2 ++ 0b100010#6 ++ 0b01000#5, .mulg 13 21 8 5 2)] : List (InstrWord × Instr)).all decodesTo = true := by decide

theorem test_decode_16 : ([
    (0b010110#6 ++ 0b00001#5 ++ 0b10110#5 ++ 0b111#3 ++ 0b11#2 ++ 0b000000#6 ++ 0b01111#5, .adds 1 22 15 7 3),
    (0b010110#6 ++ 0b00010#5 ++ 0b10111#5 ++ 0b111#3 ++ 0b11#2 ++ 0b000010#6 ++ 0b10110#5, .muls 2 23 22 7 3),
    (0b010110#6 ++ 0b00011#5 ++ 0b11000#5 ++ 0b111#3 ++ 0b11#2 ++ 0b100000#6 ++ 0b11101#5, .addt 3 24 29 7 3),
    (0b010110#6 ++ 0b00100#5 ++ 0b11001#5 ++ 0b111#3 ++ 0b11#2 ++ 0b100010#6 ++ 0b00101#5, .mult 4 25 5 7 3)] : List (InstrWord × Instr)).all decodesTo = true := by decide

theorem test_decode_17_a : ([
    (0b010111#6 ++ 0b00101#5 ++ 0b11010#5 ++ 0b00000010000#11 ++ 0b01100#5, .cvtlq 5 26 12),
    (0b010111#6 ++ 0b00110#5 ++ 0b11011#5 ++ 0b00000100000#11 ++ 0b10011#5, .cpys 6 27 19),
    (0b010111#6 ++ 0b00111#5 ++ 0b11100#5 ++ 0b00000100001#11 ++ 0b11010#5, .cpysn 7 28 26),
    (0b010111#6 ++ 0b01000#5 ++ 0b11101#5 ++ 0b00000100010#11 ++ 0b00010#5, .cpyse 8 29 2),
    (0b010111#6 ++ 0b01001#5 ++ 0b01110#5 ++ 0b00000100100#11 ++ 0b01001#5, .mt_fpcr 9 14 9),
    (0b010111#6 ++ 0b01010#5 ++ 0b01111#5 ++ 0b00000100101#11 ++ 0b10000#5, .mf_fpcr 10 15 16),
    (0b010111#6 ++ 0b01011#5 ++ 0b10000#5 ++ 0b00000101010#11 ++ 0b10111#5, .fcmoveq 11 16 23),
    (0b010111#6 ++ 0b01100#5 ++ 0b10001#5 ++ 0b00000101011#11 ++ 0b11110#5, .fcmovne 12 17 30),
    (0b010111#6 ++ 0b01101#5 ++ 0b10010#5 ++ 0b00000101100#11 ++ 0b00110#5, .fcmovlt 13 18 6),
    (0b010111#6 ++ 0b00001#5 ++ 0b10011#5 ++ 0b00000101101#11 ++ 0b01101#5, .fcmovge 1 19 13),
    (0b010111#6 ++ 0b00010#5 ++ 0b10100#5 ++ 0b00000101110#11 ++ 0b10100#5, .fcmovle 2 20 20),
    (0b010111#6 ++ 0b00011#5 ++ 0b10101#5 ++ 0b00000101111#11 ++ 0b11011#5, .fcmovgt 3 21 27),
    (0b010111#6 ++ 0b00100#5 ++ 0b10110#5 ++ 0b00000110000#11 ++ 0b00011#5, .cvtql 4 22 3),
    (0b010111#6 ++ 0b00101#5 ++ 0b10111#5 ++ 0b00100110000#11 ++ 0b01010#5, .cvtql_v 5 23 10)] : List (InstrWord × Instr)).all decodesTo = true := by decide

theorem test_decode_17_b : ([
    (0b010111#6 ++ 0b00110#5 ++ 0b11000#5 ++ 0b10100110000#11 ++ 0b10001#5, .cvtql_sv 6 24 17)] : List (InstrWord × Instr)).all decodesTo = true := by decide

theorem test_decode_18 : ([
    (0b011000#6 ++ 0b00111#5 ++ 0b11001#5 ++ 0b1110000000000000#16, .rc 7 25),
    (0b011000#6 ++ 0b01000#5 ++ 0b11010#5 ++ 0b1111000000000000#16, .rs 8 26)] : List (InstrWord × Instr)).all decodesTo = true := by decide

/-! ### One step of rows of 95_test_vectors -/

/-- Word, A in R1, B in R2, R3 afterwards (9 before), whether the outcome is an integer overflow trap. -/
abbrev IntVector := Nat × Word × Word × Word × Bool

def passesX (bigEndian : Bool) (v : IntVector) : Bool :=
  let s := ((State.reset.writeX 1 v.2.1).writeX 2 v.2.2.1).writeX 3 9
  let s := s.withCpu { s.cpu with bigEndian := bigEndian }
  match step (s.withFetchWord 32 v.1) with
  | .next t => t.readX 3 == v.2.2.2.1 &&
      t.stopped == if v.2.2.2.2 then some (.arithmeticTraps { integerOverflow := true }) else none
  | _ => false

/-- Word, A in F1, B in F2, FPCR before, F3 afterwards (9 before), FPCR afterwards, outcome: 0 none, 1 arithmetic
trap, 2 illegal operand. -/
abbrev FpVector := Nat × Word × Word × Word × Word × Word × Nat

def passesF (v : FpVector) : Bool :=
  let s := ((State.reset.writeF 1 v.2.1).writeF 2 v.2.2.1).writeF 3 9
  match step ((s.setFpcr v.2.2.2.1).withFetchWord 32 v.1) with
  | .next t => t.readF 3 == v.2.2.2.2.1 && t.cpu.fpcr == v.2.2.2.2.2.1 &&
      (match t.stopped with
       | none => v.2.2.2.2.2.2 == 0
       | some (.arithmeticTraps _) => v.2.2.2.2.2.2 == 1
       | some .illegalOperand => v.2.2.2.2.2.2 == 2
       | _ => false)
  | _ => false

/-- The eight bytes of a quadword, low byte first. -/
def quadBytes (v : Word) : List Byte := (List.range 8).map (byteOf v)

/-- The start state of V13: one page mapped, two quadwords in memory, R1 the page, R2 the data, R3 9. -/
def page : State :=
  let s := ((State.reset.writeX 1 0x2000).writeX 2 0x0123456789ABCDEF).writeX 3 9
  let bytes := quadBytes 0x8877665544332211 ++ quadBytes 0xFFEEDDCCBBAA9988
  let s := s.withMem { s.mem with store := Memory.writeBytes [] 0x2000 bytes }
  s.withDtb (Tlb.reset.addEntry ⟨1, 1, true, false, true, false, false, 0, 0⟩)

/-- Word, endian mode, R3 afterwards, an address and the quadword there afterwards, whether it misses. -/
abbrev MemVector := Nat × Bool × Word × Nat × Word × Bool

def passesM (v : MemVector) : Bool :=
  let s := page.withCpu { page.cpu with bigEndian := v.2.1 }
  match step (s.withFetchWord 32 v.1) with
  | .next t => t.readX 3 == v.2.2.1 && t.stopped == (if v.2.2.2.2.2 then some .singleMiss else none) &&
      (List.range 8).all fun k => t.mem.byteAt t.cfg (v.2.2.2.1 + k) == byteOf v.2.2.2.2.1 k
  | _ => false

/-- Virtual address, kind, mode, ASN, superpage enables, pending flag before, result, pending flag after. -/
abbrev TlbVector := Word × AccessKind × Mode × BitVec 8 × BitVec 3 × Bool × Translation × Bool

def passesT (v : TlbVector) : Bool :=
  let (va, kind, mode, asn, spe, before, result, after) := v
  let t := (Tlb.reset.addEntry ⟨0x10, 0x80, true, true, true, false, false, 5, 1⟩).addEntry
    ⟨0x40, 0x7, true, false, false, false, true, 0, 0⟩
  match translateOn { State.reset.cpu with mode := mode, asn := asn, spe := spe }
      { t with missPending := before } va kind with
  | .ok (r, t') => r == result && t'.missPending == after && t'.entries == t.entries
  | .error _ => false

/-- Mode, counter variant, the three counters, the prediction, the direction, the counters, the local history and
the global history afterwards; at pc 0x2A54 with both histories as in V16. -/
abbrev PredVector := Nat × Ctr3Update × (BitVec 3 × BitVec 2 × BitVec 2) × (Bool × Bool × Bool × Bool) × Bool ×
  (BitVec 3 × BitVec 2 × BitVec 2) × BitVec 10 × BitVec 12

def passesP (v : PredVector) : Bool :=
  let (mode, u, (l, g, c), (o, lp, gp, ch), taken, (l', g', c'), lh, gph) := v
  let p : Predictor := { lht := [(0x295, 0x2AA)], lpt := Table.putD [] 0 0x2AA l, gpt := Table.putD [] 0 0xABC g,
                         cpt := Table.putD [] 0 0xABC c, gph := 0xABC }
  let a := p.predict mode 0x2A54
  let q := p.train u 0x2A54 taken lp gp
  a.overall == o && a.localTaken == lp && a.globalTaken == gp && a.choice == ch &&
  Table.atD q.lpt 0 0x2AA == l' && Table.atD q.gpt 0 0xABC == g' && Table.atD q.cpt 0 0xABC == c' &&
  Table.atD q.lht 0 0x295 == lh && q.gph == gph

/-- Physical address, line address, offset, set and tag in the Icache and Dcache, set and tag in the Bcache. -/
abbrev AddrVector := PhysAddr × Nat × Nat × Nat × Nat × Nat × Nat

def passesA (v : AddrVector) : Bool :=
  let (pa, la, off, s1, t1, s2, t2) := v
  64 * lineOf pa == la && offsetOf pa == off && setIndex 9 (lineOf pa) == s1 && tagIndex 9 (lineOf pa) == t1 &&
  setIndex 15 (lineOf pa) == s2 && tagIndex 15 (lineOf pa) == t2

/-- 95_test_vectors V1. -/
theorem test_add_subtract : ([
    (0x40220003, 0x100000005, 0x3, 0x8, false),
    (0x40203003, 0xffffffffffffffff, 0xbeef, 0x0, false),
    (0x40220803, 0x7fffffff, 0x1, 0x9, true),
    (0x40220803, 0x100000000, 0x0, 0x9, true),
    (0x40220403, 0x10, 0x20, 0x30, false),
    (0x403FF403, 0x1, 0xbeef, 0x100, false),
    (0x40220C03, 0x7ffffffffffffffe, 0x1, 0x7fffffffffffffff, false),
    (0x40220C03, 0xffffffffffffffff, 0x1, 0x0, false),
    (0x40220123, 0xa, 0x3, 0x7, false),
    (0x40220123, 0xffffffff80000000, 0x1, 0x7fffffff, false),
    (0x40220923, 0x0, 0x1, 0xffffffffffffffff, false),
    (0x40220923, 0x0, 0xffffffff80000000, 0x9, true),
    (0x40220523, 0x30, 0x10, 0x20, false),
    (0x40220523, 0x8000000000000000, 0x1, 0x7fffffffffffffff, false),
    (0x40220D23, 0x5, 0x7, 0xfffffffffffffffe, false),
    (0x40220D23, 0x0, 0x8000000000000000, 0x9, true),
    (0x40220043, 0x3, 0x5, 0x11, false),
    (0x40220043, 0x20000000, 0x1, 0xffffffff80000001, false),
    (0x40220243, 0x3, 0x5, 0x1d, false),
    (0x40220163, 0x3, 0x5, 0x7, false),
    (0x40220363, 0x3, 0x5, 0x13, false),
    (0x40220443, 0x1000, 0x8, 0x4008, false),
    (0x40220443, 0x4000000000000000, 0x1, 0x1, false),
    (0x40220643, 0x1000, 0x8, 0x8008, false),
    (0x4020F643, 0x2000000000000000, 0xbeef, 0x7, false),
    (0x40220563, 0x1000, 0x8, 0x3ff8, false),
    (0x40220763, 0x1000, 0x8, 0x7ff8, false),
    (0x40220763, 0x0, 0x1, 0xffffffffffffffff, false)] : List IntVector).all (passesX false) = true := by decide

/-- 95_test_vectors V2. -/
theorem test_compare_multiply : ([
    (0x402205A3, 0xffffffffffffffff, 0xffffffffffffffff, 0x1, false),
    (0x402205A3, 0x1, 0x2, 0x0, false),
    (0x402209A3, 0xffffffffffffffff, 0x0, 0x1, false),
    (0x402209A3, 0x7, 0x7, 0x0, false),
    (0x40220DA3, 0x1, 0xffffffffffffffff, 0x0, false),
    (0x40220DA3, 0x7, 0x7, 0x1, false),
    (0x402203A3, 0x0, 0xffffffffffffffff, 0x1, false),
    (0x402203A3, 0xffffffffffffffff, 0x0, 0x0, false),
    (0x402207A3, 0xffffffffffffffff, 0x0, 0x0, false),
    (0x403017A3, 0x80, 0xbeef, 0x1, false),
    (0x4C220003, 0x6, 0x7, 0x2a, false),
    (0x4C220003, 0xffffffffffffffff, 0x5, 0xfffffffffffffffb, false),
    (0x4C220803, 0xfffffffffffffffe, 0x3, 0xfffffffffffffffa, false),
    (0x4C220803, 0xffffffff80000000, 0xffffffffffffffff, 0x9, true),
    (0x4C220403, 0x123456789abcdef0, 0xfedcba9876543210, 0x236d88fe5618cf00, false),
    (0x4C220403, 0x8000000000000000, 0xffffffffffffffff, 0x8000000000000000, false),
    (0x4C220C03, 0x7fffffff, 0x100000000, 0x7fffffff00000000, false),
    (0x4C220C03, 0x100000000, 0x100000000, 0x9, true),
    (0x4C220603, 0x123456789abcdef0, 0xfedcba9876543210, 0x121fa00ad77d7422, false),
    (0x4C205603, 0xffffffffffffffff, 0xbeef, 0x1, false)] : List IntVector).all (passesX false) = true := by decide

/-- 95_test_vectors V3. -/
theorem test_logical_shift : ([
    (0x44220003, 0xff00ff00ff00ff00, 0xff00ff00ff00ff0, 0xf000f000f000f00, false),
    (0x443FF003, 0xffffffffffffffff, 0xbeef, 0xff, false),
    (0x44220103, 0xffff, 0xff0, 0xf00f, false),
    (0x44220403, 0xf0, 0xf, 0xff, false),
    (0x44220503, 0x0, 0xffffffff, 0xffffffff00000000, false),
    (0x44220803, 0xaaaa, 0xffff, 0x5555, false),
    (0x44220903, 0x1234, 0x1234, 0xffffffffffffffff, false),
    (0x44220903, 0x0, 0x0, 0xffffffffffffffff, false),
    (0x48220723, 0x1, 0x3f, 0x8000000000000000, false),
    (0x48211723, 0xff, 0xbeef, 0xff00, false),
    (0x48220683, 0x8000000000000000, 0x3f, 0x1, false),
    (0x48220683, 0x8000000000000000, 0x47, 0x100000000000000, false),
    (0x48220783, 0x8000000000000000, 0x4, 0xf800000000000000, false),
    (0x48220783, 0x4000000000000000, 0x3e, 0x1, false)] : List IntVector).all (passesX false) = true := by decide

/-- 95_test_vectors V4. -/
theorem test_cmov : ([
    (0x44220483, 0, 7, 7, false),
    (0x44220483, 1, 7, 9, false),
    (0x442204C3, 0xffffffffffffffff, 7, 7, false),
    (0x442204C3, 0, 7, 9, false),
    (0x44220883, 0xffffffffffffffff, 7, 7, false),
    (0x44220883, 0, 7, 9, false),
    (0x442208C3, 2, 7, 7, false),
    (0x442208C3, 0x8000000000000000, 7, 9, false),
    (0x44220C83, 0xffffffffffffffff, 7, 7, false),
    (0x44220C83, 1, 7, 9, false),
    (0x44220CC3, 2, 7, 7, false),
    (0x44220CC3, 0, 7, 9, false),
    (0x44220283, 0xffffffffffffffff, 7, 7, false),
    (0x44220283, 0, 7, 9, false),
    (0x442202C3, 0x8000000000000000, 7, 7, false),
    (0x442202C3, 1, 7, 9, false)] : List IntVector).all (passesX false) = true := by decide

/-- 95_test_vectors V5. -/
theorem test_byte_little_endian : ([
    (0x482200C3, 0x8877665544332211, 7, 0x88, false),
    (0x482202C3, 0x8877665544332211, 7, 0x88, false),
    (0x482204C3, 0x8877665544332211, 7, 0x88, false),
    (0x482206C3, 0x8877665544332211, 7, 0x88, false),
    (0x48220B43, 0x8877665544332211, 7, 0x1100, false),
    (0x48220D43, 0x8877665544332211, 7, 0x33221100, false),
    (0x48220F43, 0x8877665544332211, 7, 0x7766554433221100, false),
    (0x48220163, 0x8877665544332211, 7, 0x1100000000000000, false),
    (0x48220363, 0x8877665544332211, 7, 0x1100000000000000, false),
    (0x48220563, 0x8877665544332211, 7, 0x1100000000000000, false),
    (0x48220763, 0x8877665544332211, 7, 0x1100000000000000, false),
    (0x48220AE3, 0x8877665544332211, 7, 0x22, false),
    (0x48220CE3, 0x8877665544332211, 7, 0x443322, false),
    (0x48220EE3, 0x8877665544332211, 7, 0x88776655443322, false),
    (0x48220043, 0x8877665544332211, 7, 0x77665544332211, false),
    (0x48220243, 0x8877665544332211, 7, 0x77665544332211, false),
    (0x48220443, 0x8877665544332211, 7, 0x77665544332211, false),
    (0x48220643, 0x8877665544332211, 7, 0x77665544332211, false),
    (0x48220A43, 0x8877665544332211, 7, 0x8877665544332200, false),
    (0x48220C43, 0x8877665544332211, 7, 0x8877665544000000, false),
    (0x48220E43, 0x8877665544332211, 7, 0x8800000000000000, false)] : List IntVector).all (passesX false) = true := by decide

/-- 95_test_vectors V6. -/
theorem test_byte_big_endian : ([
    (0x482200C3, 0x8877665544332211, 1, 0x77, false),
    (0x482202C3, 0x8877665544332211, 1, 0x88, false),
    (0x482204C3, 0x8877665544332211, 1, 0x887766, false),
    (0x482206C3, 0x8877665544332211, 1, 0x88776655443322, false),
    (0x48220B43, 0x8877665544332211, 1, 0x1100, false),
    (0x48220D43, 0x8877665544332211, 1, 0x11000000, false),
    (0x48220F43, 0x8877665544332211, 1, 0x1100000000000000, false),
    (0x48220163, 0x8877665544332211, 1, 0x11000000000000, false),
    (0x48220363, 0x8877665544332211, 1, 0x1100000000000000, false),
    (0x48220563, 0x8877665544332211, 1, 0x3322110000000000, false),
    (0x48220763, 0x8877665544332211, 1, 0x7766554433221100, false),
    (0x48220AE3, 0x8877665544332211, 1, 0x22, false),
    (0x48220CE3, 0x8877665544332211, 1, 0x44, false),
    (0x48220EE3, 0x8877665544332211, 1, 0x88, false),
    (0x48220043, 0x8877665544332211, 1, 0x8800665544332211, false),
    (0x48220243, 0x8877665544332211, 1, 0x77665544332211, false),
    (0x48220443, 0x8877665544332211, 1, 0x5544332211, false),
    (0x48220643, 0x8877665544332211, 1, 0x11, false),
    (0x48220A43, 0x8877665544332211, 1, 0x8877665544332200, false),
    (0x48220C43, 0x8877665544332211, 1, 0x8877665544332200, false),
    (0x48220E43, 0x8877665544332211, 1, 0x8877665544332200, false)] : List IntVector).all (passesX true) = true := by decide

/-- 95_test_vectors V7. -/
theorem test_zap_count_extend : ([
    (0x48220603, 0x8877665544332211, 0xf, 0x8877665500000000, false),
    (0x48355603, 0x8877665544332211, 0xbeef, 0x77005500330011, false),
    (0x48220623, 0x8877665544332211, 0xf, 0x44332211, false),
    (0x48220623, 0x8877665544332211, 0xff, 0x8877665544332211, false),
    (0x402201E3, 0x8877665544332211, 0x4444444444444444, 0xf8, false),
    (0x402201E3, 0x0, 0xff00ff00ff00ff, 0xaa, false),
    (0x73E20003, 0xdead, 0x1280, 0xffffffffffffff80, false),
    (0x73F01003, 0xdead, 0xbeef, 0xffffffffffffff80, false),
    (0x73E20023, 0xdead, 0x12348000, 0xffffffffffff8000, false),
    (0x73E20023, 0xdead, 0x7fff, 0x7fff, false),
    (0x73E20643, 0xdead, 0x0, 0x40, false),
    (0x73E20643, 0xdead, 0x100000000000, 0x13, false),
    (0x73E20663, 0xdead, 0x0, 0x40, false),
    (0x73EA1663, 0xdead, 0xbeef, 0x4, false)] : List IntVector).all (passesX false) = true := by decide

/-- 95_test_vectors V8. -/
theorem test_multimedia : ([
    (0x70220743, 0x80ff017f10207f80, 0x7f01ff8020107f81, 0x7f01017f10107f80, false),
    (0x70321743, 0x80ff017f10207f80, 0xbeef, 0x80, false),
    (0x70220703, 0x80ff017f10207f80, 0x7f01ff8020107f81, 0x80ffff8010107f80, false),
    (0x70220763, 0x80ff017f10207f80, 0x7f01ff8020107f81, 0x7f01017f10207f80, false),
    (0x70220723, 0x80ff017f10207f80, 0x7f01ff8020107f81, 0x80ffff8010207f80, false),
    (0x703FF723, 0x80ff017f10207f80, 0xbeef, 0x80ff0000000000ff, false),
    (0x70220783, 0x80ff017f10207f80, 0x7f01ff8020107f81, 0x80ffff8020207f81, false),
    (0x702207C3, 0x80ff017f10207f80, 0x7f01ff8020107f81, 0x7f01017f20207f81, false),
    (0x703217C3, 0x80ff017f10207f80, 0xbeef, 0x17f10207f90, false),
    (0x702207A3, 0x80ff017f10207f80, 0x7f01ff8020107f81, 0x80ffff8020107f81, false),
    (0x702207E3, 0x80ff017f10207f80, 0x7f01ff8020107f81, 0x7f01017f20107f81, false),
    (0x70220623, 0x80ff017f10207f80, 0x7f01ff8020107f81, 0x21f, false),
    (0x70220623, 0x80ff017f10207f80, 0x80ff017f10207f80, 0x0, false),
    (0x73E206E3, 0xdead, 0x1122334455667788, 0x4488, false),
    (0x73E206C3, 0xdead, 0x1122334455667788, 0x22446688, false),
    (0x73E206A3, 0xdead, 0x1122334455667788, 0x7700000088, false),
    (0x73E20683, 0xdead, 0x1122334455667788, 0x55006600770088, false),
    (0x73FFF683, 0xdead, 0xbeef, 0xff, false)] : List IntVector).all (passesX false) = true := by decide

/-- 95_test_vectors V10. -/
theorem test_ieee : ([
    (0x58221003, 0x3ff0000000000000, 0x3ff0000000000000, 0x0, 0x4000000000000000, 0x0, 0),
    (0x58221003, 0x3ff0000000000000, 0x3e70000000000000, 0x0, 0x3ff0000000000000, 0x8100000000000000, 0),
    (0x58221803, 0x3ff0000000000000, 0x3e70000000000000, 0xc00000000000000, 0x3ff0000020000000, 0x8d00000000000000, 0),
    (0x58221403, 0x3ff0000000000000, 0x3ca0000000000000, 0x0, 0x3ff0000000000000, 0x8100000000000000, 0),
    (0x58221403, 0x7fefffffffffffff, 0x7fefffffffffffff, 0x8000000000000, 0x7ff0000000000000, 0x8148000000000000, 0),
    (0x58220403, 0x3ff0000000000000, 0x3ca0000000000000, 0x0, 0x3ff0000000000000, 0x8100000000000000, 0),
    (0x58220403, 0x7fefffffffffffff, 0x7fefffffffffffff, 0x8000000000000, 0x7fefffffffffffff, 0x8148000000000000, 0),
    (0x58221C03, 0x3ff0000000000000, 0x3ca0000000000000, 0xc00000000000000, 0x3ff0000000000001, 0x8d00000000000000, 0),
    (0x5822F403, 0x3ff0000000000000, 0x3ca0000000000000, 0x0, 0x9, 0x8100000000000000, 1),
    (0x5822F403, 0x3ff0000000000000, 0x3ca0000000000000, 0x4000000000000000, 0x3ff0000000000000, 0xc100000000000000, 0),
    (0x58220C03, 0x3ff0000000000000, 0xbff0000000000000, 0x0, 0x8000000000000000, 0x0, 0),
    (0x58221043, 0x47efffffe0000000, 0x4000000000000000, 0x0, 0x9, 0x8140000000000000, 1),
    (0x58221043, 0x4008000000000000, 0x3fd5555560000000, 0x0, 0x3ff0000000000000, 0x8100000000000000, 0),
    (0x58221443, 0x3ff8000000000000, 0x3ff8000000000000, 0x0, 0x4002000000000000, 0x0, 0),
    (0x58221443, 0x8000000000000000, 0x4014000000000000, 0x0, 0x8000000000000000, 0x0, 0),
    (0x58223443, 0x10000000000000, 0x3fe0000000000000, 0x0, 0x9, 0x8080000000000000, 1),
    (0x5822B443, 0x10000000000000, 0x3fe0000000000000, 0x2000000000000000, 0x8000000000000, 0xa080000000000000, 0),
    (0x5822B443, 0x10000000000000, 0x3fe0000000000000, 0x3000000000000000, 0x0, 0xb180000000000000, 0)] : List FpVector).all passesF = true := by decide

/-- 95_test_vectors V11. -/
theorem test_vax : ([
    (0x54221003, 0x4010000000000000, 0x4010000000000000, 0x0, 0x4020000000000000, 0x0, 0),
    (0x54221003, 0x47ffffffe0000000, 0x47ffffffe0000000, 0x0, 0x9, 0x8040000000000000, 1),
    (0x54220003, 0x4010000000000000, 0x3e90000000000000, 0x0, 0x4010000000000000, 0x0, 0),
    (0x54221403, 0x4010000000000000, 0x4010000000000000, 0x0, 0x4020000000000000, 0x0, 0),
    (0x54221403, 0x1, 0x4010000000000000, 0x0, 0x9, 0x8010000000000000, 2),
    (0x54220403, 0x4010000000000000, 0x3cc0000000000000, 0x0, 0x4010000000000000, 0x0, 0),
    (0x54221043, 0x4008000000000000, 0x4008000000000000, 0x0, 0x4002000000000000, 0x0, 0),
    (0x54221043, 0x3810000000000000, 0x3810000000000000, 0x0, 0x0, 0x0, 0),
    (0x54223043, 0x3810000000000000, 0x3810000000000000, 0x0, 0x9, 0x8080000000000000, 1),
    (0x54221443, 0x4018000000000000, 0x4018000000000000, 0x0, 0x4022000000000000, 0x0, 0),
    (0x54221443, 0x10000000000000, 0x4000000000000000, 0x0, 0x0, 0x0, 0),
    (0x5422B443, 0x10000000000000, 0x4000000000000000, 0x0, 0x9, 0x8080000000000000, 1)] : List FpVector).all passesF = true := by decide

/-- 95_test_vectors V12. -/
theorem test_fp_copy_convert : ([
    (0x5C220403, 0x8000000000000000, 0x3ff0000000000000, 0x0, 0xbff0000000000000, 0x0, 0),
    (0x5C220403, 0x7fffffffffffffff, 0xfff8000000000001, 0x0, 0x7ff8000000000001, 0x0, 0),
    (0x5C220423, 0x3ff0000000000000, 0x3ff0000000000000, 0x0, 0xbff0000000000000, 0x0, 0),
    (0x5C220443, 0xc010000000000000, 0x3ff8000000000000, 0x0, 0xc018000000000000, 0x0, 0),
    (0x5FE20203, 0xdead, 0x4000000020000000, 0x0, 0x40000001, 0x0, 0),
    (0x5FE20203, 0xdead, 0xf80000001fffffff, 0x0, 0xffffffffc0000000, 0x0, 0),
    (0x5FE20603, 0xdead, 0x40000001, 0x0, 0x4000000020000000, 0x0, 0),
    (0x5FE20603, 0xdead, 0x123456789abcdef0, 0x0, 0x83579bde00000000, 0x0, 0),
    (0x5FE22603, 0xdead, 0xffffffff80000000, 0x0, 0x8000000000000000, 0x0, 0),
    (0x5FE22603, 0xdead, 0x80000000, 0x0, 0x9, 0x8200000000000000, 1),
    (0x5FE2A603, 0xdead, 0x80000000, 0x0, 0x9, 0x8200000000000000, 1)] : List FpVector).all passesF = true := by decide

/-- 95_test_vectors V12. -/
theorem test_fcmov : ([
    (0x5C220543, 0x8000000000000000, 5, 0, 5, 0, 0),
    (0x5C220543, 0x3ff0000000000000, 5, 0, 9, 0, 0),
    (0x5C220563, 0xfff8000000000000, 5, 0, 5, 0, 0),
    (0x5C220563, 0, 5, 0, 9, 0, 0),
    (0x5C220583, 0xfff8000000000000, 5, 0, 5, 0, 0),
    (0x5C220583, 0, 5, 0, 9, 0, 0),
    (0x5C2205A3, 0x7ff8000000000000, 5, 0, 5, 0, 0),
    (0x5C2205A3, 0xbff0000000000000, 5, 0, 9, 0, 0),
    (0x5C2205C3, 0xfff8000000000000, 5, 0, 5, 0, 0),
    (0x5C2205C3, 0x3ff0000000000000, 5, 0, 9, 0, 0),
    (0x5C2205E3, 0x7ff8000000000000, 5, 0, 5, 0, 0),
    (0x5C2205E3, 0, 5, 0, 9, 0, 0)] : List FpVector).all passesF = true := by decide

/-- 95_test_vectors V13. -/
theorem test_load_store : ([
    (0x20617FFF, false, 0x9fff, 0x2000, 0x8877665544332211, false),
    (0x24610001, false, 0x12000, 0x2000, 0x8877665544332211, false),
    (0x28610001, false, 0x22, 0x2000, 0x8877665544332211, false),
    (0x30610002, false, 0x4433, 0x2000, 0x8877665544332211, false),
    (0xA0610004, false, 0xffffffff88776655, 0x2000, 0x8877665544332211, false),
    (0xA4610008, false, 0xffeeddccbbaa9988, 0x2000, 0x8877665544332211, false),
    (0x2C61000F, false, 0xffeeddccbbaa9988, 0x2000, 0x8877665544332211, false),
    (0xA8610004, false, 0xffffffff88776655, 0x2000, 0x8877665544332211, false),
    (0xAC610008, false, 0xffeeddccbbaa9988, 0x2000, 0x8877665544332211, false),
    (0x38410001, false, 0x9, 0x2000, 0x887766554433ef11, false),
    (0x34410002, false, 0x9, 0x2000, 0x88776655cdef2211, false),
    (0xB0410004, false, 0x9, 0x2000, 0x89abcdef44332211, false),
    (0xB4410008, false, 0x9, 0x2008, 0x123456789abcdef, false),
    (0x3C41000D, false, 0x9, 0x2008, 0x123456789abcdef, false),
    (0x28612000, false, 0x9, 0x2000, 0x8877665544332211, true),
    (0x28610001, true, 0x77, 0x2000, 0x8877665544332211, false),
    (0x30610002, true, 0x6655, 0x2000, 0x8877665544332211, false),
    (0xA0610004, true, 0x44332211, 0x2000, 0x8877665544332211, false),
    (0xA4610008, true, 0xffeeddccbbaa9988, 0x2000, 0x8877665544332211, false),
    (0x2C61000F, true, 0xffeeddccbbaa9988, 0x2000, 0x8877665544332211, false),
    (0xA8610004, true, 0x44332211, 0x2000, 0x8877665544332211, false),
    (0xAC610008, true, 0xffeeddccbbaa9988, 0x2000, 0x8877665544332211, false),
    (0x38410001, true, 0x9, 0x2000, 0x88ef665544332211, false),
    (0x34410002, true, 0x9, 0x2000, 0x8877cdef44332211, false),
    (0xB0410004, true, 0x9, 0x2000, 0x8877665589abcdef, false),
    (0xB4410008, true, 0x9, 0x2008, 0x123456789abcdef, false),
    (0x3C41000D, true, 0x9, 0x2008, 0x123456789abcdef, false),
    (0x28612000, true, 0x9, 0x2000, 0x8877665544332211, true)] : List MemVector).all passesM = true := by decide

/-- 95_test_vectors V15. -/
theorem test_translate : ([
    (0x20008, .read, .user, 5, 0, false, .ok 0x100008, false),
    (0x2bff8, .read, .kernel, 5, 0, false, .ok 0x10bff8, false),
    (0x2bff8, .write, .kernel, 5, 0, false, .ok 0x10bff8, false),
    (0x2bff8, .write, .user, 5, 0, false, .fault .accessViolation, false),
    (0x2bff8, .read, .kernel, 6, 0, false, .fault .singleMiss, true),
    (0x2bff8, .read, .kernel, 6, 0, true, .fault .doubleMiss, true),
    (0x30000, .read, .kernel, 5, 0, false, .fault .singleMiss, true),
    (0x80010, .read, .kernel, 9, 0, false, .ok 0xe010, false),
    (0x80010, .read, .user, 9, 0, false, .fault .accessViolation, false),
    (0x80010, .write, .kernel, 9, 0, false, .fault .accessViolation, false),
    (0x80010, .read, .kernel, 9, 0, true, .ok 0xe010, true),
    (0xffff800012345678, .read, .kernel, 5, 4, false, .ok 0x12345678, false),
    (0xffff800012345678, .read, .kernel, 5, 0, false, .fault .singleMiss, true),
    (0xffff800012345678, .read, .user, 5, 4, true, .fault .doubleMiss, true),
    (0xfffffc0000002000, .write, .kernel, 5, 2, false, .ok 0x2000, false),
    (0xfffffd0000002000, .write, .kernel, 5, 2, false, .ok 0xf0000002000, false),
    (0xffffffff80001000, .fetch, .kernel, 5, 1, false, .ok 0x1000, false),
    (0xffffffff80001000, .fetch, .kernel, 5, 6, false, .fault .singleMiss, true),
    (0x1000000020008, .read, .user, 5, 0, false, .ok 0x100008, false)] : List TlbVector).all passesT = true := by decide

/-- 95_test_vectors V16. -/
theorem test_predictor : ([
    (0, .plain, (4, 1, 1), (true, true, false, false), false, (3, 0, 2), 0x154, 0x578),
    (0, .plain, (4, 1, 2), (false, true, false, true), false, (3, 0, 3), 0x154, 0x578),
    (0, .plain, (4, 1, 1), (true, true, false, false), true, (5, 2, 0), 0x155, 0x579),
    (0, .plain, (3, 2, 2), (true, false, true, true), true, (4, 3, 3), 0x155, 0x579),
    (0, .plain, (3, 2, 0), (false, false, true, false), false, (2, 1, 0), 0x154, 0x578),
    (0, .plain, (7, 3, 3), (true, true, true, true), true, (7, 3, 3), 0x155, 0x579),
    (0, .plain, (0, 0, 0), (false, false, false, false), false, (0, 0, 0), 0x154, 0x578),
    (1, .plain, (3, 3, 3), (false, false, true, true), true, (4, 3, 3), 0x155, 0x579),
    (2, .plain, (7, 3, 3), (false, true, true, true), true, (7, 3, 3), 0x155, 0x579),
    (0, .hysteresis, (3, 2, 3), (true, false, true, true), true, (7, 3, 3), 0x155, 0x579),
    (0, .hysteresis, (4, 1, 0), (true, true, false, false), false, (0, 0, 1), 0x154, 0x578)] : List PredVector).all passesP = true := by decide

/-- 95_test_vectors V17. -/
theorem test_cache_address : ([
    (0x2040, 0x2040, 0x00, 0x081, 0x0, 0x0081, 0x0),
    (0xA000, 0xA000, 0x00, 0x080, 0x1, 0x0280, 0x0),
    (0x20018, 0x20000, 0x18, 0x000, 0x4, 0x0800, 0x0),
    (0x10040, 0x10040, 0x00, 0x001, 0x2, 0x0401, 0x0),
    (0x8041, 0x8040, 0x01, 0x001, 0x1, 0x0201, 0x0),
    (0x1014, 0x1000, 0x14, 0x040, 0x0, 0x0040, 0x0),
    (0xFFFFFFFFFFF, 0xFFFFFFFFFC0, 0x3F, 0x1FF, 0x1FFFFFFF, 0x7FFF, 0x7FFFFF)] : List AddrVector).all passesA = true := by decide

/-- 95_test_vectors V9: RC and RS with the flag 1 and 0. -/
theorem test_rc_rs :
    (∃ t, step ((State.reset.setIntrFlag true).withFetchWord 32 0x60BFE000) = .next t ∧ t.readX 5 = 1 ∧
      t.cpu.intrFlag = false) ∧
    ∃ t, step (State.reset.withFetchWord 32 0x60BFF000) = .next t ∧ t.readX 5 = 0 ∧ t.cpu.intrFlag = true :=
  ⟨⟨_, rfl, by decide, rfl⟩, _, rfl, by decide, rfl⟩

/-- 95_test_vectors V12: MT_FPCR drops bits 46:0, MF_FPCR reads the register. -/
theorem test_fpcr_moves :
    (∃ t, step ((State.reset.writeF 4 0xFFFFFFFFFFFFFFFF).withFetchWord 32 0x5C840484) = .next t ∧
      t.cpu.fpcr = 0xFFFF800000000000) ∧
    ∃ t, step ((State.reset.setFpcr 0x8100000000000000).withFetchWord 32 0x5C8404A4) = .next t ∧
      t.readF 4 = 0x8100000000000000 :=
  ⟨⟨_, rfl, by decide⟩, _, rfl, by decide⟩

/-- What a store-conditional leaves: R2, the flag, the first byte of the quadword. -/
def conditional (flag : Bool) (w : Nat) : Option (Word × Bool × Byte) :=
  match step ((page.setLock flag 0 0).withFetchWord 32 w) with
  | .next t => some (t.readX 2, t.cpu.lockFlag, t.mem.byteAt t.cfg 0x2000)
  | _ => none

/-- 95_test_vectors V14: STQ_C with and without the lock; the flag is clear either way. -/
theorem test_stq_c : conditional true 0xBC410000 = some (1, false, 0xEF) ∧
    conditional false 0xBC410000 = some (0, false, 0x11) := by decide

theorem test_stl_c : conditional true 0xB8410000 = some (1, false, 0xEF) ∧
    conditional false 0xB8410000 = some (0, false, 0x11) := by decide

/-- 95_test_vectors V14: LDQ_L commits the flag and both addresses. -/
theorem test_ldq_l : (match step (page.withFetchWord 32 0xAC610008) with
    | .next t => some (t.cpu.lockFlag, t.cpu.lockVa, t.cpu.lockPa)
    | _ => none) = some (true, 0x2008, 0x2008) := by decide

/-- 20_memory R79: a misaligned longword is refused. -/
theorem test_misaligned : step (page.withFetchWord 32 0xA0610002) = .refused .misaligned := rfl

/-- 95_test_vectors P4: BNE R1, -2 taken and not taken. -/
theorem test_bne :
    (∃ t, step (((State.reset.writeX 1 5).withPc 0x1008).withFetchWord 32 0xF43FFFFE) = .next t ∧ t.pc = 0x1004) ∧
    ∃ t, step ((State.reset.withPc 0x1008).withFetchWord 32 0xF43FFFFE) = .next t ∧ t.pc = 0x100C :=
  ⟨⟨_, rfl, by decide⟩, _, rfl, by decide⟩

/-- 95_test_vectors S1: the counters at their ends. -/
theorem test_counters : inc2 3 = 3 ∧ dec2 0 = 0 ∧ inc3 .plain 7 = 7 ∧ dec3 .plain 0 = 0 ∧
    inc3 .hysteresis 3 = 7 ∧ dec3 .hysteresis 4 = 0 := by decide

/-! ### Ports -/

/-- R166, R360: an FPo record has no literal form, so CPYS of a record with `use_literal` set copies `src2v`; an Opr
record takes the literal. -/
theorem test_fpo_has_no_literal :
    let r := { blankRecord 0 0x17 0x020 with aDest := ⟨.fp, 3⟩, src1v := ⟨0, .fpT⟩, src2v := ⟨5, .fpT⟩, literal := 9,
                                             useLiteral := true }
    (exCpys State.reset r).toOption.map (·.record.destv.bits) = some 5 ∧
    { r with opcode := 0x10 }.b = 9 ∧ { r with opcode := 0x1C }.b = 9 ∧ { r with opcode := 0x16 }.b = 5 := by decide

/-- The codes of R480, in its table's order. -/
theorem test_outcome_codes : ([.noException, .arithmeticTraps { overflow := true }, .illegalOperand, .accessViolation,
    .translationNotValid, .singleMiss, .doubleMiss] : List ExceptionOutcome).map (·.code) = List.range 7 := by decide

/-- R464 (d) and (e): a Dcache fill from outside is clean, and without `MP` it brings the backing store's bytes. -/
theorem test_fill_port :
    fillPort State.reset .dcache 1 (Vector.replicate 64 0) true false = .error .fillDirty ∧
    fillPort State.reset .dcache 1 (Vector.replicate 64 7) false false = .error .fillMismatch ∧
    (fillPort State.reset .dcache 1 (Vector.replicate 64 0) false false).isOk = true := by decide

/-! ### Witnesses

For each statement with hypotheses, a concrete state and operands that meet them. -/

/-- Kernel mode with the superpage window of R89 that maps virtual 0x8000_0000_0000 + a to a. -/
def window : State := State.reset.withCpu { State.reset.cpu with spe := 4 }

/-- The same in big-endian mode. -/
def windowBig : State := window.withCpu { window.cpu with bigEndian := true }

theorem reset_mem_wf : State.reset.mem.wf State.reset.cfg where
  store := ⟨List.Pairwise.nil, by simp [State.reset]⟩
  bits := by decide
  icache := Cache.wf_reset _ _
  dcache := Cache.wf_reset _ _
  bcache := Cache.wf_reset _ _
  exclusive := fun _ h => absurd h List.not_mem_nil
  icacheClean := fun _ h => absurd h List.not_mem_nil
  unshared := fun _ => ⟨fun _ h => absurd h List.not_mem_nil, fun _ h => absurd h List.not_mem_nil⟩
  noBcache := fun _ => rfl

theorem reset_coherent : State.reset.mem.coherent State.reset.cfg :=
  ⟨fun _ h => absurd h List.not_mem_nil, fun _ h => absurd h List.not_mem_nil⟩

theorem reset_tlb_wf : Tlb.reset.wf := ⟨List.Pairwise.nil, fun _ h => absurd h List.not_mem_nil⟩

/-- `s.ready`, for the register statements. -/
theorem witness_ready : State.reset.ready := ⟨by decide, State.settled_of_inflight_nil rfl⟩

theorem witness_DecodeOfEncode : (Instr.adds 1 2 3 0b111 0b01).wellFormed = true ∧
    (Instr.addf 31 0 31 0b101 0b00).wellFormed = true ∧ (Instr.lda 31 31 0x8000).wellFormed = true := by decide

/-- Both branches of the encoding: ignored bits set, and a literal. -/
theorem witness_EncodeOfDecode : decodeWord 0x4022E003 = .ok (.addl 1 (.reg 2) 3) ∧
    decodeWord 0x403FF003 = .ok (.addl 1 (.lit 255) 3) := by decide

theorem witness_DecodableWords : opcodeField 0 ≠ bneOpcode ∧ ∀ i, decodeWord 0 ≠ .ok i :=
  ⟨by decide, fun _ h => nomatch h⟩

theorem witness_StepRunsInstruction :
    (∃ s1, (State.reset.withFetchWord 32 0x40220003).stopped = none ∧
      decodeBytes (bytesOfWord 0x40220003) = .ok (.addl 1 (.reg 2) 3) ∧
      (State.reset.withFetchWord 32 0x40220003).agenda = [] ∧
      fetchWord (State.reset.withFetchWord 32 0x40220003) = .ok (.word 0x40220003, s1)) ∧
    (∃ (s1 s : State) (rest : List Transaction), s.stopped = none ∧ s.agenda = .sequence :: rest ∧
      fetchWord (s.withAgenda rest) = .ok (.word 0x40220003, s1)) ∧
    (∃ (s : State) (t : Transaction) (rest : List Transaction), s.agenda = t :: rest ∧ t ≠ .sequence) ∧
    Table.at? (State.reset.withFetchWord 32 0x40220003).program
      ((State.reset.withFetchWord 32 0x40220003).pc &&& ~~~3#64).toNat = some 0x40220003 :=
  ⟨⟨_, rfl, by decide, rfl, rfl⟩,
   ⟨_, (State.reset.withFetchWord 32 0x40220003).withAgenda [.sequence], [], rfl, rfl, rfl⟩,
   ⟨State.reset.withAgenda [.clearLock], .clearLock, [], rfl, by decide⟩, by decide⟩

theorem witness_FetchFromMemory : ((window.withPc 0x800000002000).mem.wf (window.withPc 0x800000002000).cfg) ∧
    Table.at? (window.withPc 0x800000002000).program
      ((window.withPc 0x800000002000).pc &&& ~~~3#64).toNat = none ∧
    translateOn (window.withPc 0x800000002000).cpu (window.withPc 0x800000002000).itb
      ((window.withPc 0x800000002000).pc &&& ~~~3#64) .fetch =
      .ok (.ok 0x2000, (window.withPc 0x800000002000).itb) ∧
    (window.withPc 0x800000002000).mem.icache.lines = [] ∧ (window.withPc 0x800000002000).mem.bcache.lines = [] :=
  ⟨reset_mem_wf, by decide, by decide, rfl, rfl⟩

/-- A stopped sequencer with one load slot `Pending`: at 0x2000 of the backing store, or behind the pending quadword
store of `pendingStore` that it overlaps by one byte. -/
def stoppedLoad (s : State) (pa : PhysAddr) : State :=
  (s.withStopped (some .doubleMiss)).withLq [(0, ⟨0x2000, pa, true, .byte, .pending, 2⟩)]

/-- A pending store of quadword 0x2000 by id 1. -/
def pendingStore : State :=
  State.reset.withSq [(0, ⟨0x2000, 0x2000, true, .quad, .pending, 1, 0x1122334455667788, true⟩)]

/-- A fetch that misses; stopped with no slot, with a slot that completes, and with one that must wait. -/
theorem witness_SequencerStops :
    (∃ s1, State.reset.agenda = [] ∧ State.reset.stopped = none ∧ fetchWord State.reset = .ok (.fault .singleMiss, s1)) ∧
    ((State.reset.withStopped (some .doubleMiss)).agenda = [] ∧ (State.reset.withStopped (some .doubleMiss)).lq = []) ∧
    (∃ e ∈ (stoppedLoad State.reset 0x2000).lq, e.2.state = .pending ∧
      ∃ t, transact (.lqComplete e.1) (stoppedLoad State.reset 0x2000) = .ok t) ∧
    ∃ e ∈ (stoppedLoad pendingStore 0x2007).lq, e.2.state = .pending ∧
      transact (.lqComplete e.1) (stoppedLoad pendingStore 0x2007) = .error .completionNotEnabled :=
  ⟨⟨_, rfl, rfl, rfl⟩, ⟨rfl, rfl⟩, ⟨_, List.mem_singleton_self _, rfl, _, rfl⟩, _, List.mem_singleton_self _, rfl, rfl⟩

/-- Both sides of the longword overflow test, at its boundary. -/
theorem witness_LongwordOverflow :
    sext32 (0x7FFFFFFE#64 + 1) = 0x7FFFFFFE#64 + 1 ∧ sext32 (0x7FFFFFFF#64 + 1) ≠ 0x7FFFFFFF#64 + 1 ∧
    sext32 (0xFFFFFFFF80000001#64 - 1) = 0xFFFFFFFF80000001#64 - 1 ∧
    sext32 (0xFFFFFFFF80000000#64 - 1) ≠ 0xFFFFFFFF80000000#64 - 1 ∧
    sext32 (0xFFFFFFFFC0000000#64 * 2) = 0xFFFFFFFFC0000000#64 * 2 ∧
    sext32 (0x40000000#64 * 2) ≠ 0x40000000#64 * 2 := by decide

/-- Both sides of the quadword overflow test, at its boundary: sum, difference, product. -/
theorem witness_QuadwordOverflow :
    ((0x7FFFFFFFFFFFFFFE#64).toInt + (1#64).toInt < 2 ^ 63 ∧ ¬ (0x7FFFFFFFFFFFFFFF#64).toInt + (1#64).toInt < 2 ^ 63) ∧
    (-(2 ^ 63) ≤ (0x8000000000000001#64).toInt - (1#64).toInt ∧
      ¬ -(2 ^ 63) ≤ (0x8000000000000000#64).toInt - (1#64).toInt) ∧
    (-(2 ^ 63) ≤ (0x8000000000000000#64).toInt * (1#64).toInt ∧
      ¬ (0x8000000000000000#64).toInt * (-1#64).toInt < 2 ^ 63) := by decide

theorem witness_ShiftCount :
    State.reset.cpu.bigEndian = false ∧
    (windowBig.cpu.bigEndian = true ∧ windowBig.cfg.shiftXform = .byWidth) ∧
    (windowBig.withCfg { windowBig.cfg with shiftXform := .xor7All }).cpu.bigEndian = true ∧
    (windowBig.withCfg { windowBig.cfg with shiftXform := .xor7All }).cfg.shiftXform = .xor7All := by decide

theorem witness_PixelErrorPack : (3 : RegIdx) ≠ 31 ∧
    (∃ t, exec (.unpkbw 1 (.reg 2) 3) State.reset = .next t) ∧
    ∃ t, exec (.unpkbl 1 (.reg 2) 3) State.reset = .next t :=
  ⟨by decide, ⟨_, rfl⟩, _, rfl⟩

theorem witness_CountZeros : (0 : Word) = 0 ∧ (1 : Word) ≠ 0 ∧ (0x8000000000000000 : Word) ≠ 0 := by decide

/-- Each width at the end of a line; R2 holds the window's base. -/
def based : State := window.writeX 2 0x800000002000

theorem based_canLoad {va : Word} {w : Width} {pa : PhysAddr} (ha : va.toNat % w.bytes = 0)
    (ht : translateOn window.cpu Tlb.reset va .read = .ok (.ok pa, Tlb.reset)) : based.CanLoad va w pa :=
  ⟨⟨by decide, by decide, State.settled_of_inflight_nil rfl⟩, ⟨0, by decide, rfl⟩, ha, ht,
    fun _ h => absurd h List.not_mem_nil, reset_mem_wf,
    reset_coherent⟩

theorem based_canStore {va : Word} {w : Width} {pa : PhysAddr} (ha : va.toNat % w.bytes = 0)
    (ht : translateOn window.cpu Tlb.reset va .write = .ok (.ok pa, Tlb.reset)) : based.CanStore va w pa :=
  ⟨⟨by decide, by decide, State.settled_of_inflight_nil rfl⟩, ⟨0, by decide, rfl⟩, ha, ht, reset_mem_wf, reset_coherent⟩

theorem witness_LoadCompletes :
    (based.effectiveAddress 2 63 = 0x80000000203F ∧ based.CanLoad 0x80000000203F .byte 0x203F) ∧
    (based.effectiveAddress 2 62 = 0x80000000203E ∧ based.CanLoad 0x80000000203E .word 0x203E) ∧
    (based.effectiveAddress 2 60 = 0x80000000203C ∧ based.CanLoad 0x80000000203C .long 0x203C) ∧
    (based.effectiveAddress 2 56 = 0x800000002038 ∧ based.CanLoad 0x800000002038 .quad 0x2038) ∧
    (based.effectiveAddress 2 63 &&& ~~~7#64 = 0x800000002038 ∧ based.CanLoad 0x800000002038 .quad 0x2038) :=
  ⟨⟨by decide, based_canLoad (by decide) (by decide)⟩, ⟨by decide, based_canLoad (by decide) (by decide)⟩,
   ⟨by decide, based_canLoad (by decide) (by decide)⟩, ⟨by decide, based_canLoad (by decide) (by decide)⟩,
   ⟨by decide, based_canLoad (by decide) (by decide)⟩⟩

/-- The same base in big-endian mode: a byte, word and longword at 0x38 of the line lie at its end. -/
def bigBased : State := windowBig.writeX 2 0x800000002000

theorem witness_LoadCompletes_bigEndian : bigBased.cpu.bigEndian = true ∧
    bigBased.effectiveAddress 2 56 = 0x800000002038 ∧
    (endianAddress true 0x800000002038 .byte = 0x80000000203F ∧ bigBased.CanLoad 0x80000000203F .byte 0x203F) ∧
    (endianAddress true 0x800000002038 .word = 0x80000000203E ∧ bigBased.CanLoad 0x80000000203E .word 0x203E) ∧
    (endianAddress true 0x800000002038 .long = 0x80000000203C ∧ bigBased.CanLoad 0x80000000203C .long 0x203C) ∧
    bigBased.CanLoad 0x800000002038 .quad 0x2038 := by
  have h : ∀ {va : Word} {w : Width} {pa : PhysAddr}, va.toNat % w.bytes = 0 →
      translateOn windowBig.cpu Tlb.reset va .read = .ok (.ok pa, Tlb.reset) → bigBased.CanLoad va w pa := fun ha ht =>
    ⟨⟨by decide, by decide, State.settled_of_inflight_nil rfl⟩, ⟨0, by decide, rfl⟩, ha, ht,
    fun _ h => absurd h List.not_mem_nil, reset_mem_wf,
      reset_coherent⟩
  exact ⟨rfl, by decide, ⟨by decide, h (by decide) (by decide)⟩, ⟨by decide, h (by decide) (by decide)⟩,
    ⟨by decide, h (by decide) (by decide)⟩, h (by decide) (by decide)⟩

theorem witness_StoreCompletes_bigEndian : bigBased.cpu.bigEndian = true ∧
    bigBased.effectiveAddress 2 56 = 0x800000002038 ∧
    bigBased.CanStore 0x80000000203F .byte 0x203F ∧ bigBased.CanStore 0x80000000203E .word 0x203E ∧
    bigBased.CanStore 0x80000000203C .long 0x203C ∧ bigBased.CanStore 0x800000002038 .quad 0x2038 := by
  have h : ∀ {va : Word} {w : Width} {pa : PhysAddr}, va.toNat % w.bytes = 0 →
      translateOn windowBig.cpu Tlb.reset va .write = .ok (.ok pa, Tlb.reset) → bigBased.CanStore va w pa := fun ha ht =>
    ⟨⟨by decide, by decide, State.settled_of_inflight_nil rfl⟩, ⟨0, by decide, rfl⟩, ha, ht, reset_mem_wf, reset_coherent⟩
  exact ⟨rfl, by decide, h (by decide) (by decide), h (by decide) (by decide), h (by decide) (by decide),
    h (by decide) (by decide)⟩

theorem witness_LoadLockedCompletes :
    (based.effectiveAddress 2 60 = 0x80000000203C ∧ based.CanLoad 0x80000000203C .long 0x203C) ∧
    (based.effectiveAddress 2 56 = 0x800000002038 ∧ based.CanLoad 0x800000002038 .quad 0x2038) :=
  ⟨⟨by decide, based_canLoad (by decide) (by decide)⟩, ⟨by decide, based_canLoad (by decide) (by decide)⟩⟩

theorem witness_StoreCompletes :
    (based.effectiveAddress 2 63 = 0x80000000203F ∧ based.CanStore 0x80000000203F .byte 0x203F) ∧
    (based.effectiveAddress 2 62 = 0x80000000203E ∧ based.CanStore 0x80000000203E .word 0x203E) ∧
    (based.effectiveAddress 2 60 = 0x80000000203C ∧ based.CanStore 0x80000000203C .long 0x203C) ∧
    (based.effectiveAddress 2 56 = 0x800000002038 ∧ based.CanStore 0x800000002038 .quad 0x2038) ∧
    (based.effectiveAddress 2 63 &&& ~~~7#64 = 0x800000002038 ∧ based.CanStore 0x800000002038 .quad 0x2038) :=
  ⟨⟨by decide, based_canStore (by decide) (by decide)⟩, ⟨by decide, based_canStore (by decide) (by decide)⟩,
   ⟨by decide, based_canStore (by decide) (by decide)⟩, ⟨by decide, based_canStore (by decide) (by decide)⟩,
   ⟨by decide, based_canStore (by decide) (by decide)⟩⟩

/-- With the lock flag clear (`based`) and set. -/
theorem witness_StoreConditionalCompletes :
    olderLockInFlight based based.ids.next = false ∧ based.cpu.lockFlag = false ∧
    based.CanStore 0x80000000203C .long 0x203C ∧ based.CanStore 0x800000002038 .quad 0x2038 ∧
    olderLockInFlight (based.setLock true 0 0) (based.setLock true 0 0).ids.next = false ∧
    (based.setLock true 0 0).cpu.lockFlag = true ∧
    (based.setLock true 0 0).CanStore 0x80000000203C .long 0x203C ∧
    (based.setLock true 0 0).CanStore 0x800000002038 .quad 0x2038 :=
  ⟨rfl, rfl, based_canStore (by decide) (by decide), based_canStore (by decide) (by decide), rfl, rfl,
   ⟨⟨by decide, by decide, State.settled_of_inflight_nil rfl⟩, ⟨0, by decide, rfl⟩, by decide, by decide,
    reset_mem_wf, reset_coherent⟩,
   ⟨⟨by decide, by decide, State.settled_of_inflight_nil rfl⟩, ⟨0, by decide, rfl⟩, by decide, by decide,
    reset_mem_wf, reset_coherent⟩⟩

/-- Reset maps nothing: every access misses. -/
theorem witness_MemoryFaults : State.reset.memReady ∧ State.reset.effectiveAddress 2 8 = 8 ∧
    (∀ w : Width, (8#64).toNat % w.bytes = 0) ∧ Table.at? State.reset.lq 31 = none ∧
    translateOn State.reset.cpu State.reset.dtb 8 .read =
      .ok (.fault .singleMiss, { Tlb.reset with missPending := true }) ∧
    Table.at? State.reset.sq 31 = none ∧ olderLockInFlight State.reset State.reset.ids.next = false ∧
    translateOn State.reset.cpu State.reset.dtb 8 .write =
      .ok (.fault .singleMiss, { Tlb.reset with missPending := true }) :=
  ⟨⟨by decide, by decide, State.settled_of_inflight_nil rfl⟩, by decide, by rintro (_ | _ | _ | _) <;> decide, by decide,
   by decide, by decide, by decide, by decide⟩

theorem witness_AlignmentAndEndian : State.reset.memReady ∧
    (State.reset.effectiveAddress 2 1).toNat % Width.word.bytes ≠ 0 ∧
    (State.reset.effectiveAddress 2 2).toNat % Width.long.bytes ≠ 0 ∧
    (State.reset.effectiveAddress 2 4).toNat % Width.quad.bytes ≠ 0 ∧
    Table.at? State.reset.lq 31 = none ∧ Table.at? State.reset.sq 31 = none ∧
    olderLockInFlight State.reset State.reset.ids.next = false :=
  ⟨⟨by decide, by decide, State.settled_of_inflight_nil rfl⟩, by decide, by decide, by decide, by decide, by decide, by decide⟩

/-- One entry, then two that both match page 1. -/
def oneEntry : Tlb := Tlb.reset.addEntry ⟨1, 1, true, false, false, false, false, 0, 0⟩
def twoEntries : Tlb := oneEntry.addEntry ⟨0, 0, true, false, true, false, false, 0, 1⟩

theorem oneEntry_wf : oneEntry.wf := by unfold Tlb.wf; decide
theorem twoEntries_wf : twoEntries.wf := by unfold Tlb.wf; decide

/-- The three windows at a boundary address each, no window with no match, one match permitted and not, two. -/
theorem witness_Translation : Tlb.reset.wf ∧ oneEntry.wf ∧ twoEntries.wf ∧
    (window.cpu.mode = .kernel ∧ window.cpu.spe.getLsbD 2 = true ∧ (0x800000000000#64).extractLsb' 46 2 = 0b10#2) ∧
    ((2#3).getLsbD 2 = false ∧ (2#3).getLsbD 1 = true ∧ (0xFC0000000000#64).extractLsb' 41 7 = 0b1111110#7) ∧
    ((1#3).getLsbD 2 = false ∧ (1#3).getLsbD 1 = false ∧ (1#3).getLsbD 0 = true ∧
      (0xFFFF80000000#64).extractLsb' 30 18 = 0x3FFFE#18) ∧
    (State.reset.cpu.spe = 0 ∧ ∀ e ∈ Tlb.reset.entries, e.2.hits 0 0x2000 = false) ∧
    (∃ e ∈ oneEntry.entries, e.2.hits 0 0x3FFF = true ∧
      (∀ e' ∈ oneEntry.entries, e'.2.hits 0 0x3FFF = true → e' = e) ∧
      e.2.permits .kernel .read = true ∧ e.2.permits .kernel .write = false) ∧
    ∃ e ∈ twoEntries.entries, ∃ e' ∈ twoEntries.entries, e ≠ e' ∧ e.2.hits 0 0x2000 = true ∧
      e'.2.hits 0 0x2000 = true :=
  ⟨reset_tlb_wf, oneEntry_wf, twoEntries_wf, by decide, by decide, by decide, by decide, by decide, by decide⟩

/-- A key that is present, and one that is not with the pointer at the last entry. -/
theorem witness_AddEntry : oneEntry.wf ∧ (∃ p ∈ oneEntry.entries, p.2.vpn = 1 ∧ p.2.gh = 0 ∧ p.2.asm = false ∧ p.2.asn = 0) ∧
    ({ oneEntry with next := 127 } : Tlb).wf ∧
    ∀ p ∈ ({ oneEntry with next := 127 } : Tlb).entries, ¬ (p.2.vpn = 2 ∧ p.2.gh = 0 ∧ p.2.asm = false ∧ p.2.asn = 0) :=
  ⟨oneEntry_wf, by decide, oneEntry_wf, by decide⟩

/-- A user read through an entry with the user read enable. -/
theorem witness_UserModeIsolation : ({ State.reset.cpu with mode := .user } : Cpu).mode = .user ∧
    translateOn { State.reset.cpu with mode := .user }
      (Tlb.reset.addEntry ⟨1, 3, false, true, false, false, true, 0, 0⟩) 0x2008 .read =
      .ok (.ok 0x6008, Tlb.reset.addEntry ⟨1, 3, false, true, false, false, true, 0, 0⟩) := by decide

/-- A load slot of id 2. -/
def loadOf (pa : PhysAddr) (w : Width) : LqSlot := ⟨0x2000, pa, true, w, .pending, 2⟩

/-- No overlap just past the store, the exact match, and an overlap of another width at its last byte. -/
theorem witness_LoadCompletion :
    (∀ p ∈ pendingStore.sq, ¬ p.2.mustForward (loadOf 0x2008 .quad)) ∧
    (∃ p ∈ pendingStore.sq, p.2.mustForward (loadOf 0x2000 .quad) ∧
      (∀ p' ∈ pendingStore.sq, p'.2.mustForward (loadOf 0x2000 .quad) → p' ≠ p → p'.2.instrId < p.2.instrId) ∧
      p.2.pa = (loadOf 0x2000 .quad).pa ∧ p.2.width = (loadOf 0x2000 .quad).width) ∧
    ∃ p ∈ pendingStore.sq, p.2.mustForward (loadOf 0x2007 .byte) ∧
      (∀ p' ∈ pendingStore.sq, p'.2.mustForward (loadOf 0x2007 .byte) → p' ≠ p → p'.2.instrId < p.2.instrId) ∧
      ¬ (p.2.pa = (loadOf 0x2007 .byte).pa ∧ p.2.width = (loadOf 0x2007 .byte).width) := by
  unfold SqSlot.mustForward; decide

/-- lq_complete of a free, of a completed and of a pending slot: forwarded, waiting, and with its record in flight. -/
theorem witness_LoadCompletion_port :
    Table.at? pendingStore.lq 31 = none ∧
    (let s := pendingStore.withLq [(31, { loadOf 0x2000 .quad with state := .completed })]
     Table.at? s.lq 31 = some { loadOf 0x2000 .quad with state := .completed }) ∧
    (let s := pendingStore.withLq [(31, loadOf 0x2000 .quad)]
     Table.at? s.lq 31 = some (loadOf 0x2000 .quad) ∧ (loadOf 0x2000 .quad).state = .pending ∧
      loadValue s (loadOf 0x2000 .quad) = .ok (0x1122334455667788, s.mem) ∧
      loadValue s (loadOf 0x2007 .byte) = .error .completionNotEnabled ∧
      Table.at? s.inflight (loadOf 0x2000 .quad).instrId = none ∧
      let s' := s.withInflight [(2, blankRecord 2 0x29 0)]
      Table.at? s'.inflight (loadOf 0x2000 .quad).instrId = some (blankRecord 2 0x29 0) ∧
        (blankRecord 2 0x29 0).id = (loadOf 0x2000 .quad).instrId) :=
  ⟨rfl, rfl, rfl, rfl, rfl, rfl, rfl, rfl, rfl⟩

theorem witness_ReadAfterWrite : State.reset.mem.wf State.reset.cfg ∧ State.reset.mem.coherent State.reset.cfg ∧
    ∀ w : Width, (0xFFFFFFFFFF8 : PhysAddr).toNat % w.bytes = 0 :=
  ⟨reset_mem_wf, reset_coherent, by rintro (_ | _ | _ | _) <;> decide⟩

/-- The last line of memory; a fill of the Icache that answers. -/
theorem witness_CachesAreTransparent : State.reset.mem.wf State.reset.cfg ∧
    State.reset.mem.coherent State.reset.cfg ∧ 2 ^ 38 - 1 < 2 ^ Config.lineBits ∧
    State.reset.mem.dcache.lines = [] ∧ ∃ m', State.reset.mem.icacheFill State.reset.cfg (2 ^ 38 - 1) = .ok m' :=
  ⟨reset_mem_wf, reset_coherent, by decide, rfl, _, rfl⟩

theorem witness_FlushReachesStore : State.reset.mem.wf State.reset.cfg ∧
    State.reset.mem.coherent State.reset.cfg := ⟨reset_mem_wf, reset_coherent⟩

/-- A record in flight: id 0, destination R3, of an opcode, in a state, with an outcome. -/
def record (op : BitVec 6) (st : RecordState) (o : Option ExceptionOutcome) : Record where
  id := 0
  opcode := op
  function := 0x20
  aSrc1 := ⟨.int, 1⟩
  aSrc2 := ⟨.int, 2⟩
  aDest := ⟨.int, 3⟩
  pSrc1 := 1
  pSrc2 := 2
  pDest := 3
  src1v := ⟨5, .intQuad⟩
  src2v := ⟨6, .intQuad⟩
  destv := ⟨0, .intQuad⟩
  disp := 0
  literal := 0
  useLiteral := false
  slot := 0
  state := st
  completion := .none
  lockPending := false
  lockVa := 0
  lockPa := 0
  clearLockPending := false
  outcome := o

def flying (r : Record) : State := (pendingStore.withInflight [(0, r)]).withIds ⟨1, 0, 0⟩

/-- An ADDQ that may retire, a store with its own pending slot (id 0), and one record for each refusal. -/
theorem witness_RetireCommits :
    (flying (record 0x10 .waitingRetirement (some .noException))).mem.wf State.reset.cfg ∧
    (flying (record 0x10 .waitingRetirement (some .noException))).mem.coherent State.reset.cfg ∧
    (let r := record 0x10 .waitingRetirement (some .noException)
     Table.at? (flying r).inflight r.id = some r ∧ (flying r).ids.doneBelow ≤ r.id ∧ isLoadOpcode r.opcode = false) ∧
    (let r := record 0x2D .waitingRetirement (some .noException)
     let s := (flying r).withSq [(0, ⟨0x2000, 0x2000, true, .quad, .pending, 0, 7, true⟩)]
     Table.at? s.inflight r.id = some r ∧ isStoreOpcode r.opcode = true ∧
      ∃ q, Table.at? s.sq r.slot = some q ∧ q.instrId = r.id ∧ q.state = .pending ∧ q.pa.toNat % q.width.bytes = 0) ∧
    (record 0x10 .executing none).state ≠ .waitingRetirement ∧
    (record 0x10 .waitingRetirement (some .singleMiss)).outcome ≠ some .noException ∧
    (0 < ((flying (record 0x10 .executing none)).withIds ⟨1, 1, 0⟩).ids.doneBelow) ∧
    (isLoadOpcode (record 0x29 .waitingRetirement (some .noException)).opcode = true ∧
      Table.at? (flying (record 0x29 .waitingRetirement (some .noException))).lq 0 = none) :=
  ⟨reset_mem_wf, reset_coherent, by decide, by decide, by decide, by decide, by decide, by decide⟩

theorem witness_DiscardCommitsNothing :
    (let r := record 0x10 .executing none
     Table.at? (flying r).inflight r.id = some r ∧ r.state ≠ .waitingRetirement) ∧
    let r := record 0x2D .waitingRetirement (some .noException)
    let s := (flying r).withSq [(0, ⟨0x2000, 0x2000, true, .quad, .pending, 0, 7, true⟩)]
    Table.at? s.inflight r.id = some r ∧ r.state = .waitingRetirement ∧ isStoreOpcode r.opcode = true ∧
      ∃ q, Table.at? s.sq r.slot = some q ∧ q.instrId = r.id := by decide

/-- ADDQ completes; ADDQ/V of the largest number and one ends in an outcome. -/
theorem witness_OnlyRetirementCommits :
    (∃ t, dispatchPort State.reset (record 0x10 .executing none) = .ok t ∧ t.result = .outcome .noException) ∧
    ∃ t, dispatchPort State.reset
      { record 0x10 .executing none with function := 0x60, src1v := ⟨0x7FFFFFFFFFFFFFFF, .intQuad⟩ } = .ok t ∧
      t.result = .outcome (.arithmeticTraps { integerOverflow := true }) :=
  ⟨⟨_, rfl, rfl⟩, _, rfl, rfl⟩

/-- Record 5 of R3, dispatched and waiting, with 0x55 in `destv`. -/
def writer5 : Record :=
  { record 0x10 .waitingRetirement (some .noException) with id := 5, destv := ⟨0x55, .intQuad⟩ }

/-- It is in flight, R3 holds 0x66, and id 7 is next; every id below `done` is retired. -/
def overtaken (done : Nat) : State :=
  ((State.reset.writeX 3 0x66).withInflight [(5, writer5)]).withIds ⟨7, done, 0⟩

/-- The record of id 7 with a pre-load of R3. -/
def preloads (v : Word) : Record := { record 0x10 .executing none with id := 7, destv := ⟨v, .intQuad⟩ }

/-- A load of R3 in flight that is not completed. -/
def loadingR3 : State :=
  (State.reset.withInflight [(0, record 0x29 .waitingRetirement (some .noException))]).withIds ⟨1, 0, 1⟩

/-- 70 R525: while id 5 can retire its value is the current one; once id 6 is retired past it, the register's is
(20_memory R115). -/
theorem test_preload_previousWriter :
    (dispatchPort (overtaken 5) (preloads 0x55)).toBool = true ∧
    dispatchPort (overtaken 5) (preloads 0x66) = .error .destNotPreloaded ∧
    (dispatchPort (overtaken 7) (preloads 0x66)).toBool = true ∧
    dispatchPort (overtaken 7) (preloads 0x55) = .error .destNotPreloaded := ⟨by decide, rfl, by decide, rfl⟩

/-- A conditional move of the sequencer beside record 5 (log 38). -/
theorem test_preload_sequencer :
    exec (.cmoveq 31 (.reg 31) 3) (overtaken 5) = .refused .destNotPreloaded ∧
    exec (.cmovne 31 (.reg 31) 3) (overtaken 7) = .next ((overtaken 7).spend.advance) := ⟨rfl, rfl⟩

theorem witness_OnlyRetirementCommits_preload :
    ((overtaken 5).idsWf ∧ (overtaken 5).pendingWriter 7 ⟨.int, 3⟩ writer5 ∧
      writer5.destv.bits ≠ (preloads 0x66).destv.bits ∧ writer5.destv.bits ≠ (overtaken 5).readX 3) ∧
    ((overtaken 7).idsWf ∧ (∀ p, ¬ (overtaken 7).pendingWriter 7 ⟨.int, 3⟩ p) ∧
      (preloads 0x55).destv.bits ≠ (overtaken 7).readX 3) ∧
    loadingR3.idsWf ∧ loadingR3.pendingWriter 1 ⟨.int, 3⟩ (record 0x29 .waitingRetirement (some .noException)) ∧
      loadIsComplete loadingR3 (record 0x29 .waitingRetirement (some .noException)) = false :=
  ⟨by unfold State.idsWf State.pendingWriter; decide,
   ⟨by unfold State.idsWf; decide, previousWriter_none rfl, by decide⟩,
   by unfold State.idsWf State.pendingWriter; decide⟩

/-- `s.ready` with a record in flight: its register holds its value already. -/
theorem witness_ready_inflight : ((overtaken 5).writeX 3 0x55).ready := by
  refine ⟨by decide, fun d p _ h => ?_⟩
  have hp := previousWriter_some (s := (overtaken 5).writeX 3 0x55) (by unfold State.idsWf; decide) h
  obtain ⟨-, rfl⟩ : p.id = 5 ∧ p = writer5 := by
    simpa using (Table.mem_of_at? hp.1 : (p.id, p) ∈ [(5, writer5)])
  obtain rfl := hp.2.2.1
  decide

/-- A transaction of each kind the frame clauses speak of answers from reset, where `MP` is false. -/
theorem witness_OnlyRetirementCommits_transactions :
    (∃ t, transact (.fill .dcache 0x40 (Vector.replicate 64 0) false false) State.reset = .ok t) ∧
    (∃ t, transact (.lqComplete 0) (stoppedLoad State.reset 0x2000) = .ok t) ∧
    (∃ t, transact (.flush .dcache) State.reset = .ok t) ∧
    (∃ t, transact (.configure ⟨{ Cfg.default with mp := true, dcWays := .one }, true, 1, 7, 2⟩) State.reset = .ok t) ∧
    State.reset.cfg.mp = false ∧ State.reset.mem.wf State.reset.cfg ∧ State.reset.mem.coherent State.reset.cfg :=
  ⟨⟨_, rfl⟩, ⟨_, rfl⟩, ⟨_, rfl⟩, ⟨_, rfl⟩, rfl, reset_mem_wf, reset_coherent⟩

/-- All 32 slots of a queue. -/
def fullLq : Table LqSlot := (List.range 32).map fun i => (i, freshLqSlot)
def fullSq : Table SqSlot := (List.range 32).map fun i => (i, freshSqSlot)

theorem witness_SlotAllocation :
    (Table.at? State.reset.lq 0 = none ∧ Table.at? State.reset.sq 0 = none) ∧
    (Table.at? (Table.del fullLq 31) 31 = none ∧ ∀ j < 31, Table.at? (Table.del fullLq 31) j ≠ none) ∧
    (Table.at? (Table.del fullSq 31) 31 = none ∧ ∀ j < 31, Table.at? (Table.del fullSq 31) j ≠ none) ∧
    (∀ j < 32, Table.at? fullLq j ≠ none) ∧ (∀ j < 32, Table.at? fullSq j ≠ none) ∧
    Table.at? fullLq 31 = some freshLqSlot ∧ Table.at? fullSq 31 = some freshSqSlot := by decide

theorem witness_FpSignAndConvert : sext32 0xFFFFFFFF80000000#64 = 0xFFFFFFFF80000000#64 ∧
    sext32 0x80000000#64 ≠ 0x80000000#64 := by decide

/-- 1 + 1 with no condition, the largest number doubled with a trap: S and T, sum and product. -/
theorem witness_IeeeEnds : ieeeTrpOk 0 = true ∧ ieeeTrpOk 7 = true ∧
    (∃ st en v, ieeeArith 0 (fpFunction 0 2 0x00#6) .s .add 0x3FF0000000000000 0x3FF0000000000000 = .exit st en v ∧
      en.any = false) ∧
    (∃ st en v, ieeeArith 0 (fpFunction 0 2 0x00#6) .s .add 0x47EFFFFFE0000000 0x47EFFFFFE0000000 = .exit st en v ∧
      en.any = true) ∧
    (∃ st en v, ieeeArith 0 (fpFunction 0 2 0x20#6) .t .add 0x3FF0000000000000 0x3FF0000000000000 = .exit st en v ∧
      en.any = false) ∧
    (∃ st en v, ieeeArith 0 (fpFunction 0 2 0x20#6) .t .add 0x7FEFFFFFFFFFFFFF 0x7FEFFFFFFFFFFFFF = .exit st en v ∧
      en.any = true) ∧
    (∃ st en v, ieeeArith 0 (fpFunction 0 2 0x02#6) .s .mul 0x3FF0000000000000 0x3FF0000000000000 = .exit st en v ∧
      en.any = false) ∧
    (∃ st en v, ieeeArith 0 (fpFunction 0 2 0x02#6) .s .mul 0x47EFFFFFE0000000 0x4000000000000000 = .exit st en v ∧
      en.any = true) ∧
    (∃ st en v, ieeeArith 0 (fpFunction 0 2 0x22#6) .t .mul 0x3FF0000000000000 0x3FF0000000000000 = .exit st en v ∧
      en.any = false) ∧
    ∃ st en v, ieeeArith 0 (fpFunction 0 2 0x22#6) .t .mul 0x7FF0000000000000 0 = .exit st en v ∧ en.any = true :=
  ⟨by decide, by decide, ⟨_, _, _, rfl, rfl⟩, ⟨_, _, _, rfl, rfl⟩, ⟨_, _, _, rfl, rfl⟩, ⟨_, _, _, rfl, rfl⟩,
   ⟨_, _, _, rfl, rfl⟩, ⟨_, _, _, rfl, rfl⟩, ⟨_, _, _, rfl, rfl⟩, _, _, _, rfl, rfl⟩

/-- The same of F and G, and an operand of each refused class. -/
theorem witness_VaxEnds : vaxTrpOk 0 = true ∧ vaxRndOk 2 = true ∧
    (∃ st en v, vaxArith .away (fpFunction 0 2 0x00#6) .f .add 0x4010000000000000 0x4010000000000000 = .exit st en v ∧
      en.any = false) ∧
    (∃ st en v, vaxArith .away (fpFunction 0 2 0x00#6) .f .add 0x47FFFFFFE0000000 0x47FFFFFFE0000000 = .exit st en v ∧
      en.any = true) ∧
    (∃ st en v, vaxArith .away (fpFunction 0 2 0x20#6) .g .add 0x4010000000000000 0x4010000000000000 = .exit st en v ∧
      en.any = false) ∧
    (∃ st en v, vaxArith .away (fpFunction 0 2 0x20#6) .g .add 0x7FFFFFFFFFFFFFFF 0x7FFFFFFFFFFFFFFF = .exit st en v ∧
      en.any = true) ∧
    (∃ st en v, vaxArith .away (fpFunction 0 2 0x02#6) .f .mul 0x4008000000000000 0x4008000000000000 = .exit st en v ∧
      en.any = false) ∧
    (∃ st en v, vaxArith .away (fpFunction 1 2 0x02#6) .f .mul 0x3810000000000000 0x3810000000000000 = .exit st en v ∧
      en.any = true) ∧
    (∃ st en v, vaxArith .away (fpFunction 0 2 0x22#6) .g .mul 0x4018000000000000 0x4018000000000000 = .exit st en v ∧
      en.any = false) ∧
    (∃ st en v, vaxArith .away (fpFunction 0 2 0x22#6) .g .mul 0x7FFFFFFFFFFFFFFF 0x4020000000000000 = .exit st en v ∧
      en.any = true) ∧
    fpClass .f 0x8000000000000000 = .reserved ∧ fpClass .g 0x8000000000000000 = .reserved ∧
    fpClass .g 0x0000000000000001 = .dirtyZero ∧ fpClass .f 0x0000000020000000 = .dirtyZero :=
  ⟨by decide, by decide, ⟨_, _, _, rfl, rfl⟩, ⟨_, _, _, rfl, rfl⟩, ⟨_, _, _, rfl, rfl⟩, ⟨_, _, _, rfl, rfl⟩,
   ⟨_, _, _, rfl, rfl⟩, ⟨_, _, _, rfl, rfl⟩, ⟨_, _, _, rfl, rfl⟩, ⟨_, _, _, rfl, rfl⟩, by decide, by decide, by decide,
   by decide⟩

/-- An S and a T number of each class, signaling and quiet; DNZ and DNOD. -/
theorem witness_IeeeSpecialOperands :
    fpClass .t 0x0000000000000001 = .denormal ∧ fpClass .t 0x000FFFFFFFFFFFFF = .denormal ∧
    (0x0001000000000000 : Word).getLsbD 48 = true ∧ (0x0000800000000000 : Word).getLsbD 47 = true ∧
    (0 : Word).getLsbD 48 = false ∧ (0 : Word).getLsbD 47 = false ∧
    fpClass .t 0x7FF0000000000001 = .notANumber ∧ fpClass .t 0xFFFFFFFFFFFFFFFF = .notANumber ∧
    fpClass .t 0x7FF0000000000000 = .infinity ∧ fpClass .t 0xFFF0000000000000 = .infinity ∧
    fpClass .t 0x0010000000000000 = .finite ∧ fpClass .t 0x7FEFFFFFFFFFFFFF = .finite ∧
    fpClass .t 0 = .zero ∧ fpClass .t 0x8000000000000000 = .zero ∧
    fpClass .s 0x0000000020000000 = .denormal ∧ fpClass .s 0x7FF0000020000000 = .notANumber ∧
    fpClass .s 0xFFFFFFFFE0000000 = .notANumber ∧ fpClass .s 0x7FF0000000000000 = .infinity ∧
    fpClass .s 0xC7F000001FFFFFFF = .infinity ∧ fpClass .s 0x3810000000000000 = .finite ∧ fpClass .s 0 = .zero := by decide

/-- The value of a register that holds a power of two. -/
theorem fpValue_pow {fmt : FpFormat} {v : Word} {a : Nat} {e k : Int} (h : valueOf fmt (fieldsOf fmt v) = ⟨2 ^ a, e⟩)
    (hk : a + e = k) : fpValue fmt v = (2 : ℚ) ^ k := by
  unfold fpValue
  rw [h, ← hk, zpow_add₀ (by norm_num)]
  simp [Machine.Dyadic.toRat]

/-- A power of two rounds to itself, whatever the mode. -/
theorem rounds_pow (mode : RoundMode) {p : Nat} (hp : 1 ≤ p) (k : Int) :
    RoundsToPrec mode p ((2 : ℚ) ^ k) ((2 : ℚ) ^ k) := by
  have hpos : (0 : ℚ) < (2 : ℚ) ^ k := by positivity
  have hq : (2 : ℚ) ^ k / (2 : ℚ) ^ (k - (p - 1 : Nat)) = ((2 ^ (p - 1) : Nat) : ℚ) := by
    rw [← zpow_sub₀ (by norm_num), sub_sub_cancel, zpow_natCast]; push_cast; rfl
  refine ⟨k - (p - 1 : Nat), ?_, ?_, 2 ^ (p - 1), ?_, ?_⟩
  · rw [abs_of_pos hpos, hq]; push_cast; exact le_rfl
  · rw [abs_of_pos hpos, hq]; push_cast; exact pow_lt_pow_right₀ (by norm_num) (by omega)
  · rw [if_neg hpos.not_gt, ← hq, div_mul_cancel₀ _ (by positivity)]
  · rw [abs_of_pos hpos, hq]
    cases mode <;> simp only [hpos, if_true, Int.floor_natCast, Int.ceil_natCast, sub_self, abs_zero] <;> norm_num

/-- Twice the largest power of two, the square of the smallest, 1 + 1 and 1 - 1, in S and T, with an FPCR and a
qualifier for every row; each exact result is a power of two, so it is its own rounding (`rounds_pow`). -/
theorem witness_IeeeFiniteResults :
    (fpValue .s 0x47E0000000000000 + fpValue .s 0x47E0000000000000 = (2 : ℚ) ^ (128 : ℤ) ∧
     fpValue .s 0x3810000000000000 * fpValue .s 0x3810000000000000 = (2 : ℚ) ^ (-252 : ℤ) ∧
     fpValue .s 0x3FF0000000000000 + fpValue .s 0x3FF0000000000000 = (2 : ℚ) ^ (1 : ℤ)) ∧
    (fpValue .t 0x7FE0000000000000 + fpValue .t 0x7FE0000000000000 = (2 : ℚ) ^ (1024 : ℤ) ∧
     fpValue .t 0x0010000000000000 * fpValue .t 0x0010000000000000 = (2 : ℚ) ^ (-2044 : ℤ) ∧
     fpValue .t 0x3FF0000000000000 + fpValue .t 0x3FF0000000000000 = (2 : ℚ) ^ (1 : ℤ)) ∧
    fpValue .t 0x3FF0000000000000 + fpValue .t 0xBFF0000000000000 = 0 ∧
    (fpClass .s 0x47E0000000000000 = .finite ∧ fpClass .s 0x3810000000000000 = .finite ∧
      fpClass .s 0x3FF0000000000000 = .finite) ∧
    (fpClass .t 0x7FE0000000000000 = .finite ∧ fpClass .t 0x0010000000000000 = .finite ∧
      fpClass .t 0xBFF0000000000000 = .finite) ∧
    fpClass .s 0x0000000020000000 = .denormal ∧
    (0x0100#11).getLsbD 8 = true ∧ (0x0080#11).getLsbD 8 = false ∧
    (0x2000000000000000#64).getLsbD 61 = true ∧ (0x2000000000000000#64).getLsbD 60 = false ∧
    (State.reset.setFpcr 0x000B000000000000).ready ∧
    (State.reset.setFpcr 0x000B000000000000).cpu.fpcr.getLsbD 49 = true ∧
    (State.reset.setFpcr 0x000B000000000000).cpu.fpcr.getLsbD 51 = true ∧
    (State.reset.setFpcr 0x000B000000000000).cpu.fpcr.getLsbD 48 = true := by
  have two : ∀ k l : ℤ, k + 1 = l → (2 : ℚ) ^ k + (2 : ℚ) ^ k = (2 : ℚ) ^ l := by
    rintro k _ rfl; rw [zpow_add₀ (by norm_num)]; ring
  have sq : ∀ k l : ℤ, k + k = l → (2 : ℚ) ^ k * (2 : ℚ) ^ k = (2 : ℚ) ^ l := by
    rintro k _ rfl; rw [zpow_add₀ (by norm_num)]
  refine ⟨⟨?_, ?_, ?_⟩, ⟨?_, ?_, ?_⟩, ?_, by decide, by decide, by decide, by decide, by decide, by decide, by decide,
    ⟨by decide, State.settled_of_inflight_nil rfl⟩, by decide, by decide, by decide⟩
  · rw [fpValue_pow (k := 127) (a := 23) (e := 104) (by decide) (by decide)]; exact two _ _ rfl
  · rw [fpValue_pow (k := -126) (a := 23) (e := -149) (by decide) (by decide)]; exact sq _ _ rfl
  · rw [fpValue_pow (k := 0) (a := 23) (e := -23) (by decide) (by decide)]; exact two _ _ rfl
  · rw [fpValue_pow (k := 1023) (a := 52) (e := 971) (by decide) (by decide)]; exact two _ _ rfl
  · rw [fpValue_pow (k := -1022) (a := 52) (e := -1074) (by decide) (by decide)]; exact sq _ _ rfl
  · rw [fpValue_pow (k := 0) (a := 52) (e := -52) (by decide) (by decide)]; exact two _ _ rfl
  · rw [fpValue_pow (k := 0) (a := 52) (e := -52) (by decide) (by decide)]
    unfold fpValue
    rw [show valueOf .t (fieldsOf .t 0xBFF0000000000000) = ⟨-2 ^ 52, -52⟩ by decide]
    simp only [Machine.Dyadic.toRat]; norm_num

/-- Non-zero numbers of either sign, precision 1; exact, and halfway between two neighbours. -/
theorem witness_RoundingIsCorrect : 1 ≤ 1 ∧ (⟨1, 0⟩ : Machine.Dyadic).m ≠ 0 ∧ (⟨-3, -5⟩ : Machine.Dyadic).m ≠ 0 ∧
    (roundPrec .near 1 ⟨1, 0⟩).inexact = false ∧ (roundPrec .near 1 ⟨3, 0⟩).inexact = true := by decide

/-- 1 + 1 = 2 in each format, in its own view and in that of T or G; twice the largest power of two and the square of
the smallest in F, G and D. -/
theorem witness_ExactAndVaxResults :
    (∀ p ∈ [(FpFormat.s, 0x3FF0000000000000#64, 0x4000000000000000#64), (.t, 0x3FF0000000000000, 0x4000000000000000),
        (.f, 0x4010000000000000, 0x4020000000000000), (.g, 0x4010000000000000, 0x4020000000000000),
        (.d, 0x4080000000000000, 0x4100000000000000)],
      fpClass p.1 p.2.1 = .finite ∧ fpClass p.1 p.2.2 = .finite) ∧
    (fpValue .s 0x4000000000000000 = 2 ∧ fpValue .t 0x4000000000000000 = 2 ∧
      fpValue .s 0x3FF0000000000000 + fpValue .s 0x3FF0000000000000 = 2) ∧
    (fpValue .f 0x4020000000000000 = 2 ∧ fpValue .g 0x4020000000000000 = 2 ∧
      fpValue .f 0x4010000000000000 + fpValue .f 0x4010000000000000 = 2) ∧
    (fpValue .d 0x4100000000000000 = 2 ∧ fpValue .d 0x4080000000000000 + fpValue .d 0x4080000000000000 = 2) ∧
    (fpValue .f 0x47F0000000000000 = (2 : ℚ) ^ (126 : ℤ) ∧ fpValue .f 0x3810000000000000 = (2 : ℚ) ^ (-128 : ℤ)) ∧
    (fpValue .g 0x7FF0000000000000 = (2 : ℚ) ^ (1022 : ℤ) ∧ fpValue .g 0x0010000000000000 = (2 : ℚ) ^ (-1024 : ℤ)) ∧
    (fpValue .d 0x7F80000000000000 = (2 : ℚ) ^ (126 : ℤ) ∧ fpValue .d 0x0080000000000000 = (2 : ℚ) ^ (-128 : ℤ)) := by
  have one : ∀ {fmt : FpFormat} {v : Word} {a : Nat} {e : ℤ}, valueOf fmt (fieldsOf fmt v) = ⟨2 ^ a, e⟩ →
      (a : ℤ) + e = 0 → fpValue fmt v + fpValue fmt v = 2 := by
    intro fmt v a e h he; rw [fpValue_pow h he]; norm_num
  have two : ∀ {fmt : FpFormat} {v : Word} {a : Nat} {e : ℤ}, valueOf fmt (fieldsOf fmt v) = ⟨2 ^ a, e⟩ → (a : ℤ) + e = 1 → fpValue fmt v = 2 := by
    intro fmt v a e h he; rw [fpValue_pow h he]; norm_num
  exact ⟨by decide,
    ⟨two (a := 23) (e := -22) (by decide) (by decide), two (a := 52) (e := -51) (by decide) (by decide),
      one (a := 23) (e := -23) (by decide) (by decide)⟩,
    ⟨two (a := 23) (e := -22) (by decide) (by decide), two (a := 52) (e := -51) (by decide) (by decide),
      one (a := 23) (e := -23) (by decide) (by decide)⟩,
    ⟨two (a := 55) (e := -54) (by decide) (by decide), one (a := 55) (e := -55) (by decide) (by decide)⟩,
    ⟨fpValue_pow (a := 23) (e := 103) (by decide) (by decide), fpValue_pow (a := 23) (e := -151) (by decide) (by decide)⟩,
    ⟨fpValue_pow (a := 52) (e := 970) (by decide) (by decide), fpValue_pow (a := 52) (e := -1076) (by decide) (by decide)⟩,
    fpValue_pow (a := 55) (e := 71) (by decide) (by decide), fpValue_pow (a := 55) (e := -183) (by decide) (by decide)⟩

/-- A configuration that fits, two ways over no line; one that does not, by the Bcache's sets. -/
theorem witness_ResetAndConfiguration :
    (∃ t, transact (.configure ⟨{ Cfg.default with icWays := .one, bcSetBits := 38 }, true, 1, 7, 2⟩) State.reset = .ok t) ∧
    transact (.configure ⟨{ Cfg.default with bcSetBits := 39 }, true, 1, 7, 2⟩) State.reset = .error .configRejected ∧
    ∃ s, transact (.fill .dcache 0x40 (Vector.replicate 64 0) false false) State.reset = .ok s ∧
      transact (.configure ⟨{ Cfg.default with dcWays := .one }, true, 1, 7, 2⟩) s = .error .configRejected :=
  ⟨⟨_, rfl⟩, rfl, _, rfl, rfl⟩

theorem reset_Inv : State.reset.Inv where
  mem := reset_mem_wf
  fpcr := by unfold Cpu.fpcrReserved; decide
  itb := reset_tlb_wf
  dtb := reset_tlb_wf
  pred := by simp [Predictor.wf, counterTable, State.reset, Predictor.reset]
  queues := by simp [State.queuesWf, State.reset]
  ids := by simp [State.idsWf, State.reset]

/-- A good state and a step of it: the fetch that misses. -/
theorem witness_StepKeepsInv : State.reset.Inv ∧ ∃ t, step State.reset = .next t := ⟨reset_Inv, _, rfl⟩

/-- An instruction that ends in an outcome and one that does not. -/
theorem witness_ExceptionsArePrecise : State.reset.stopped = none ∧
    (∃ t, exec (.addq 1 (.reg 2) 3) State.reset = .next t ∧ t.stopped = none) ∧
    ∃ t, exec (.ldq 1 2 0) State.reset = .next t ∧ t.stopped = some .singleMiss :=
  ⟨rfl, ⟨_, rfl, rfl⟩, _, rfl, rfl⟩

/-- Each exempt kind of instruction, with the lock set. -/
theorem witness_WhoWritesCpuState :
    (∃ t, exec (.addq 1 (.reg 2) 3) (State.reset.setLock true 0 0) = .next t) ∧
    (∃ t, exec (.ldq_l 1 2 0) (based.setLock true 0 0) = .next t) ∧
    (∃ t, exec (.stq_c 1 2 0) (based.setLock true 0 0) = .next t) ∧
    (∃ t, exec (.mt_fpcr 1 1 1) State.reset = .next t) ∧ ∃ t, exec (.rs 1 31) State.reset = .next t :=
  ⟨⟨_, rfl⟩, ⟨_, rfl⟩, ⟨_, rfl⟩, ⟨_, rfl⟩, _, rfl⟩

end Sys2Proof.Tests
end

section
/-!
PROOFS of the state family: the end states and reset (O8, O57), the invariant and its step lemma (O58), which
instruction writes which part of the CPU state (O60), and what dispatch and the transactions leave alone (O42).
-/

namespace Sys2Proof.Machine

/-! ### Tables with keys below a bound -/

/-- Rising keys, all below `n`: the shape of the queues, the translation buffers and the predictor's tables. -/
def Table.Within {α : Type} (n : Nat) (t : Table α) : Prop := Table.Sorted t ∧ ∀ e ∈ t, e.1 < n

namespace Table.Within

variable {α : Type} {n k : Nat} {t : Table α}

theorem nil : Table.Within n ([] : Table α) := ⟨Table.sorted_nil, List.forall_mem_nil _⟩

theorem put (h : Table.Within n t) (hk : k < n) (v : α) : Table.Within n (Table.put t k v) := by
  refine ⟨Table.sorted_put h.1 k v, fun e he => ?_⟩
  rcases Table.mem_put he with rfl | he
  · exact hk
  · exact h.2 e he

theorem key_lt (h : Table.Within n t) (hk : (Table.at? t k).isSome) : k < n := by
  obtain ⟨v, hv⟩ := Option.isSome_iff_exists.1 hk
  exact h.2 _ (Table.mem_of_at? hv)

/-- Writing to a slot that is taken needs no bound of its own. -/
theorem put_taken (h : Table.Within n t) (hk : (Table.at? t k).isSome) (v : α) : Table.Within n (Table.put t k v) :=
  h.put (h.key_lt hk) v

theorem del (h : Table.Within n t) (k : Nat) : Table.Within n (Table.del t k) :=
  ⟨Table.sorted_del h.1 k, fun e he => h.2 e (Table.mem_del he).1⟩

end Table.Within

theorem State.queuesWf_iff {s : State} :
    s.queuesWf ↔ Table.Within Config.queueDepth s.lq ∧ Table.Within Config.queueDepth s.sq := by
  unfold State.queuesWf Table.Within
  tauto

theorem Tlb.wf_iff {t : Tlb} : t.wf ↔ Table.Within Config.tlbEntries t.entries := Iff.rfl

theorem counterTable_iff {n entries : Nat} {t : Table (BitVec n)} :
    counterTable entries t ↔ Table.Within entries t ∧ ∀ e ∈ t, e.2 ≠ 0 := by
  unfold counterTable Table.Within
  exact ⟨fun ⟨h1, h2⟩ => ⟨⟨h1, fun e he => (h2 e he).1⟩, fun e he => (h2 e he).2⟩,
    fun ⟨⟨h1, h2⟩, h3⟩ => ⟨h1, fun e he => ⟨h2 e he, h3 e he⟩⟩⟩

/-! ### Reset (10_state R44, 70 R520) -/

theorem MemSys.wf_cachesReset {cfg : Cfg} {m : MemSys} (hs : Memory.wf m.store)
    (hb : cfg.bcSetBits ≤ Config.lineBits) :
    MemSys.wf cfg { m with icache := Cache.reset, dcache := Cache.reset, bcache := Cache.reset } where
  store := hs
  bits := hb
  icache := Cache.wf_reset _ _
  dcache := Cache.wf_reset _ _
  bcache := Cache.wf_reset _ _
  exclusive := List.forall_mem_nil _
  icacheClean := List.forall_mem_nil _
  unshared := fun _ => ⟨List.forall_mem_nil _, List.forall_mem_nil _⟩
  noBcache := fun _ => rfl

theorem Tlb.wf_reset : Tlb.reset.wf := Table.Within.nil

theorem counterTable_nil {n entries : Nat} : counterTable entries ([] : Table (BitVec n)) :=
  ⟨Table.sorted_nil, List.forall_mem_nil _⟩

theorem Predictor.wf_reset : Predictor.reset.wf :=
  ⟨counterTable_nil, counterTable_nil, counterTable_nil, counterTable_nil⟩

/-- With every table empty the invariant is a matter of the memory, the FPCR and the two id bounds. -/
theorem State.Inv.of_cleared {s : State} (hmem : s.mem.wf s.cfg) (hfpcr : s.cpu.fpcrReserved) (hitb : s.itb = Tlb.reset)
    (hdtb : s.dtb = Tlb.reset) (hpred : s.pred = Predictor.reset) (hlq : s.lq = []) (hsq : s.sq = [])
    (hinflight : s.inflight = []) (hdone : s.ids.doneBelow ≤ s.ids.next) (hmb : s.ids.memBelow ≤ s.ids.next) :
    s.Inv where
  mem := hmem
  fpcr := hfpcr
  itb := hitb ▸ Tlb.wf_reset
  dtb := hdtb ▸ Tlb.wf_reset
  pred := hpred ▸ Predictor.wf_reset
  queues := State.queuesWf_iff.2 ⟨hlq ▸ .nil, hsq ▸ .nil⟩
  ids := ⟨hdone, hmb, by rw [hinflight]; exact ⟨Table.sorted_nil, List.forall_mem_nil _⟩⟩

theorem State.reset_inv : State.reset.Inv :=
  .of_cleared (MemSys.wf_cachesReset (m := State.reset.mem) Memory.wf_nil (by decide))
    (by unfold Cpu.fpcrReserved; decide) rfl rfl rfl rfl rfl rfl (Nat.le_refl _) (Nat.le_refl _)

/-- Settles O57: at reset every table is empty. -/
theorem resetIsGood : Obligations.ResetIsGood :=
  ⟨State.reset_inv, ⟨List.forall_mem_nil _, List.forall_mem_nil _⟩,
    ⟨Nat.le_refl _, Nat.le_refl _, State.settled_of_inflight_nil rfl⟩, rfl⟩

/-! ### End states -/

theorem State.afterX_eq (s : State) (rc : RegIdx) (v : Word) : s.afterX rc v = { s with
    x := setReg s.x rc v, pc := s.pc + 4,
    ids := { next := s.ids.next + 1, doneBelow := s.ids.next + 1, memBelow := s.ids.memBelow } } := by
  rw [State.afterX, State.writeX_eq]; rfl

theorem State.afterF_eq (s : State) (fc : RegIdx) (v : Word) : s.afterF fc v = { s with
    f := setReg s.f fc v, pc := s.pc + 4,
    ids := { next := s.ids.next + 1, doneBelow := s.ids.next + 1, memBelow := s.ids.memBelow } } := by
  rw [State.afterF, State.writeF_eq]; rfl

theorem setReg_31 (x : Vector Word 32) (v : Word) : setReg x 31 v = x := if_pos rfl

/-- Settles O8: the end states touch the registers through `writeX` and `writeF` alone. -/
theorem endStates : Obligations.EndStates := by
  intro s rc v o
  refine ⟨fun j => s.readX_writeX rc j v, fun j => s.readF_writeF rc j v, ?_, ?_, ⟨_, s.afterX_eq rc v⟩,
    ⟨_, s.afterF_eq rc v⟩, rfl, fun _ => rfl, rfl⟩
  · rw [State.afterX_eq, setReg_31]
  · rw [State.afterF_eq, setReg_31]

end Sys2Proof.Machine
end

section
/-!
O58: the invariant is kept by every update the operations are made of, hence by every operation, every transaction
and every instruction, hence by `step`.
-/

namespace Sys2Proof.Machine

/-! ### The invariant and one update -/

namespace State.Inv

variable {s : State} (h : s.Inv)
include h

theorem withX (v : Vector Word 32) : (s.withX v).Inv := ⟨h.mem, h.fpcr, h.itb, h.dtb, h.pred, h.queues, h.ids⟩
theorem withF (v : Vector Word 32) : (s.withF v).Inv := ⟨h.mem, h.fpcr, h.itb, h.dtb, h.pred, h.queues, h.ids⟩
theorem withPc (v : Word) : (s.withPc v).Inv := ⟨h.mem, h.fpcr, h.itb, h.dtb, h.pred, h.queues, h.ids⟩
theorem withStopped (v : Option ExceptionOutcome) : (s.withStopped v).Inv :=
  ⟨h.mem, h.fpcr, h.itb, h.dtb, h.pred, h.queues, h.ids⟩
theorem withAgenda (v : List Transaction) : (s.withAgenda v).Inv :=
  ⟨h.mem, h.fpcr, h.itb, h.dtb, h.pred, h.queues, h.ids⟩
theorem withResult (v : PortResult) : (s.withResult v).Inv := ⟨h.mem, h.fpcr, h.itb, h.dtb, h.pred, h.queues, h.ids⟩

theorem withMem {m : MemSys} (hm : m.wf s.cfg) : (s.withMem m).Inv :=
  ⟨hm, h.fpcr, h.itb, h.dtb, h.pred, h.queues, h.ids⟩

theorem withCfg {c : Cfg} (hm : s.mem.wf c) : (s.withCfg c).Inv :=
  ⟨hm, h.fpcr, h.itb, h.dtb, h.pred, h.queues, h.ids⟩

theorem withCpu {c : Cpu} (hc : c.fpcrReserved) : (s.withCpu c).Inv :=
  ⟨h.mem, hc, h.itb, h.dtb, h.pred, h.queues, h.ids⟩

theorem withItb {b : Tlb} (hb : b.wf) : (s.withItb b).Inv := ⟨h.mem, h.fpcr, hb, h.dtb, h.pred, h.queues, h.ids⟩
theorem withDtb {b : Tlb} (hb : b.wf) : (s.withDtb b).Inv := ⟨h.mem, h.fpcr, h.itb, hb, h.pred, h.queues, h.ids⟩
theorem withPred {p : Predictor} (hp : p.wf) : (s.withPred p).Inv :=
  ⟨h.mem, h.fpcr, h.itb, h.dtb, hp, h.queues, h.ids⟩

theorem lq : Table.Within Config.queueDepth s.lq := (State.queuesWf_iff.1 h.queues).1
theorem sq : Table.Within Config.queueDepth s.sq := (State.queuesWf_iff.1 h.queues).2

theorem withLq {t : Table LqSlot} (ht : Table.Within Config.queueDepth t) : (s.withLq t).Inv :=
  ⟨h.mem, h.fpcr, h.itb, h.dtb, h.pred, State.queuesWf_iff.2 ⟨ht, h.sq⟩, h.ids⟩

theorem withSq {t : Table SqSlot} (ht : Table.Within Config.queueDepth t) : (s.withSq t).Inv :=
  ⟨h.mem, h.fpcr, h.itb, h.dtb, h.pred, State.queuesWf_iff.2 ⟨h.lq, ht⟩, h.ids⟩

/-- The next id may grow; the two bounds stay under it. -/
theorem withIds {v : Ids} (hn : s.ids.next ≤ v.next) (hd : v.doneBelow ≤ v.next) (hm : v.memBelow ≤ v.next) :
    (s.withIds v).Inv := by
  obtain ⟨-, -, hsorted, hkeys⟩ := h.ids
  exact ⟨h.mem, h.fpcr, h.itb, h.dtb, h.pred, h.queues, hd, hm, hsorted,
    fun e he => ⟨(hkeys e he).1, Nat.lt_of_lt_of_le (hkeys e he).2 hn⟩⟩

/-- A record of a used id is put in flight, or changed there. -/
theorem putInflight {r : Record} (hr : r.id < s.ids.next) :
    (s.withInflight (Table.put s.inflight r.id r)).Inv := by
  obtain ⟨hd, hm, hsorted, hkeys⟩ := h.ids
  refine ⟨h.mem, h.fpcr, h.itb, h.dtb, h.pred, h.queues, hd, hm, Table.sorted_put hsorted _ _, fun e he => ?_⟩
  rcases Table.mem_put he with rfl | he
  · exact ⟨rfl, hr⟩
  · exact hkeys e he

theorem delInflight (id : Nat) : (s.withInflight (Table.del s.inflight id)).Inv := by
  obtain ⟨hd, hm, hsorted, hkeys⟩ := h.ids
  exact ⟨h.mem, h.fpcr, h.itb, h.dtb, h.pred, h.queues, hd, hm, Table.sorted_del hsorted _,
    fun e he => hkeys e (Table.mem_del he).1⟩

theorem inflight_id {id : Nat} {r : Record} (hr : Table.at? s.inflight id = some r) : r.id = id ∧ r.id < s.ids.next :=
  ⟨(h.ids.2.2.2 _ (Table.mem_of_at? hr)).1.symm, (h.ids.2.2.2 _ (Table.mem_of_at? hr)).2⟩

/-- A used id is noted as done. -/
theorem withDone {id : Nat} (hid : id < s.ids.next) :
    (s.withIds { s.ids with doneBelow := max s.ids.doneBelow (id + 1) }).Inv :=
  h.withIds (Nat.le_refl _) (Nat.max_le.2 ⟨h.ids.1, hid⟩) h.ids.2.1

end State.Inv

/-! ### The parts of the state -/

/-- The sticky update sets SUM and status bits only, and no bit that was set is lost (46 R372). -/
theorem fpcrWithStatus_eq_or (fpcr : Word) (st : TrapDetail) :
    ∃ k, fpcrWithStatus fpcr st = fpcr ||| k ∧ k &&& ~~~fpcrSticky = 0 := by
  unfold fpcrWithStatus
  split
  · refine ⟨statusBits st ||| (1#64 <<< fpcrSUM), BitVec.or_assoc .., ?_⟩
    obtain ⟨iov, inv, ovf, unf, ine⟩ := st
    revert iov inv ovf unf ine
    decide
  · exact ⟨0, by simp, by simp⟩

theorem fpcrWithStatus_reserved {fpcr : Word} (h : fpcr &&& ~~~fpcrWritable = 0) (st : TrapDetail) :
    fpcrWithStatus fpcr st &&& ~~~fpcrWritable = 0 := by
  obtain ⟨k, he, hk⟩ := fpcrWithStatus_eq_or fpcr st
  have hsticky : ~~~fpcrWritable = ~~~fpcrSticky &&& ~~~fpcrWritable := by decide
  have hk' : k &&& ~~~fpcrWritable = 0 := by rw [hsticky, ← BitVec.and_assoc, hk]; simp
  rw [he, BitVec.and_comm, BitVec.and_or_distrib_left, BitVec.and_comm _ fpcr, h, BitVec.and_comm _ k, hk']
  simp

theorem Tlb.wf_of_entries {t t' : Tlb} (h : t.wf) (he : t'.entries = t.entries) : t'.wf := by
  rw [Tlb.wf_iff, he]; exact h

/-- `add_entry` writes over an entry it found, or at the pointer, which names one of 128 (20_memory R96). -/
theorem Tlb.addEntry_wf {t : Tlb} (h : t.wf) (e : TlbEntry) : (t.addEntry e).wf := by
  unfold Tlb.addEntry
  split
  · rename_i p hp
    exact (Tlb.wf_iff.1 h).put (h.2 _ (List.mem_of_find?_eq_some hp)) e
  · exact (Tlb.wf_iff.1 h).put t.next.isLt e

theorem counterTable_putD {n entries k : Nat} {t : Table (BitVec n)} (h : counterTable entries t) (hk : k < entries)
    (v : BitVec n) : counterTable entries (Table.putD t 0 k v) := by
  refine ⟨Table.sorted_putD h.1 0 k v, fun e he => ?_⟩
  rcases Table.mem_putD he with ⟨rfl, hv⟩ | he
  · exact ⟨hk, hv⟩
  · exact h.2 e he

theorem Predictor.train_wf {p : Predictor} (h : p.wf) (u : Ctr3Update) (pc : Word) (taken lp gp : Bool) :
    (p.train u pc taken lp gp).wf := by
  obtain ⟨hlht, hlpt, hgpt, hcpt⟩ := h
  exact ⟨counterTable_putD hlht (BitVec.isLt _) _, counterTable_putD hlpt (BitVec.isLt _) _,
    counterTable_putD hgpt (BitVec.isLt _) _, counterTable_putD hcpt (BitVec.isLt _) _⟩

theorem memAfter_wf {s : State} {m : MemSys} (h : memAfter s m) (hwf : s.mem.wf s.cfg) : m.wf s.cfg := by
  rcases h with rfl | ⟨pa, w, v, hr⟩ | ⟨pa, w, v, hw⟩
  · exact hwf
  · obtain ⟨v', m', hr', hm', -⟩ := MemSys.read_spec hwf pa w
    rw [hr'] at hr; cases hr; exact hm'
  · obtain ⟨m', hw', hm', -⟩ := MemSys.write_spec hwf pa w v
    rw [hw'] at hw; cases hw; exact hm'

theorem loadValue_memAfter {s : State} {q : LqSlot} {v : Word} {m : MemSys} (h : loadValue s q = .ok (v, m)) :
    memAfter s m := by
  unfold loadValue at h
  split at h
  · exact .inr (.inl ⟨_, _, _, h⟩)
  · split at h
    · cases h; exact .inl rfl
    · cases h

/-- A cache keeps its form under a geometry that changes only while it is empty (49_cache R467). -/
theorem Cache.wf_reshape {c : Cache} {b b' ways ways' : Nat} (h : c.wf b ways)
    (hc : (b' = b ∧ ways' = ways) ∨ c.lines = []) : c.wf b' ways' := by
  rcases hc with ⟨rfl, rfl⟩ | hnil
  · exact h
  · obtain ⟨hs, hrs, -, -, hrr⟩ := h
    exact ⟨hs, hrs, by simp [hnil], by simp [hnil], hrr⟩

/-- A configuration that is accepted keeps the hierarchy well formed, whatever `MP` is. -/
theorem configAccepted_wf {s : State} {c : Cfg} (h : configAccepted s c = true) (hw : s.mem.wf s.cfg) :
    s.mem.wf c := by
  simp only [configAccepted, Bool.and_eq_true, Bool.or_eq_true, decide_eq_true_eq, List.isEmpty_iff] at h
  obtain ⟨⟨⟨⟨hbits, hic⟩, hdc⟩, hbc⟩, hmp⟩ := h
  exact {
    store := hw.store
    bits := hbits
    icache := Cache.wf_reshape hw.icache (hic.imp_left fun e => ⟨rfl, by rw [e]⟩)
    dcache := Cache.wf_reshape hw.dcache (hdc.imp_left fun e => ⟨rfl, by rw [e]⟩)
    bcache := Cache.wf_reshape hw.bcache (hbc.imp_left fun e => ⟨e.2, rfl⟩)
    exclusive := by
      rcases hbc with ⟨-, e⟩ | e
      · unfold MemSys.exclusive; rw [e]; exact hw.exclusive
      · simp [MemSys.exclusive, e]
    icacheClean := hw.icacheClean
    unshared := fun hoff => by
      rcases hmp with e | ⟨hd, hb⟩
      · exact hw.unshared (e ▸ hoff)
      · simp [hd, hb]
    noBcache := fun hoff => by
      rcases hbc with ⟨e, -⟩ | e
      · exact hw.noBcache (e ▸ hoff)
      · exact e }

/-! ### The operations -/

/-- The answer of a bind, taken apart. -/
theorem ok_of_bind {α β : Type} {e : Except Refusal α} {k : α → Except Refusal β} {b : β}
    (h : (e >>= k) = .ok b) : ∃ a, e = .ok a ∧ k a = .ok b := by
  cases e with
  | error r => cases h
  | ok a => exact ⟨a, rfl, h⟩

theorem getLqSlot_keepsInv {s t : State} {n : Nat} (h : s.Inv) (hg : getLqSlot s = .ok (n, t)) : t.Inv := by
  obtain ⟨hn, -, -, rfl⟩ := getLqSlot_inv hg
  exact h.withLq (h.lq.put hn _)

theorem getSqSlot_keepsInv {s t : State} {n : Nat} (h : s.Inv) (hg : getSqSlot s = .ok (n, t)) : t.Inv := by
  obtain ⟨hn, -, -, rfl⟩ := getSqSlot_inv hg
  exact h.withSq (h.sq.put hn _)

theorem putLqSlot_keepsInv {s t : State} {n : Nat} (h : s.Inv) (hp : putLqSlot s n = .ok t) : t.Inv := by
  obtain ⟨-, -, -, rfl⟩ := putLqSlot_inv hp
  exact h.withLq (h.lq.del n)

theorem putSqSlot_keepsInv {s t : State} {n : Nat} (h : s.Inv) (hp : putSqSlot s n = .ok t) : t.Inv := by
  obtain ⟨-, -, -, rfl⟩ := putSqSlot_inv hp
  exact h.withSq (h.sq.del n)

/-- A translation that answers changes one buffer, and of it at most the miss flag. -/
theorem translate_cases {s t : State} {va : Word} {side : Side} {kind : AccessKind} {a : Translation}
    (h : translate s va side kind = .ok (a, t)) :
    (∃ b, t = s.withItb b ∧ b.entries = s.itb.entries) ∨ ∃ b, t = s.withDtb b ∧ b.entries = s.dtb.entries := by
  cases side <;> cases kind
  case instr.fetch =>
    obtain ⟨⟨a', b⟩, ht, hk⟩ := ok_of_bind h
    cases hk; exact .inl ⟨b, rfl, (translateOn_buffer ht).1⟩
  case data.read =>
    obtain ⟨⟨a', b⟩, ht, hk⟩ := ok_of_bind h
    cases hk; exact .inr ⟨b, rfl, (translateOn_buffer ht).1⟩
  case data.write =>
    obtain ⟨⟨a', b⟩, ht, hk⟩ := ok_of_bind h
    cases hk; exact .inr ⟨b, rfl, (translateOn_buffer ht).1⟩
  all_goals cases h

theorem translate_keepsInv {s t : State} {va : Word} {side : Side} {kind : AccessKind} {a : Translation} (h : s.Inv)
    (ht : translate s va side kind = .ok (a, t)) : t.Inv := by
  rcases translate_cases ht with ⟨b, rfl, hb⟩ | ⟨b, rfl, hb⟩
  · exact h.withItb (Tlb.wf_of_entries h.itb hb)
  · exact h.withDtb (Tlb.wf_of_entries h.dtb hb)

/-- What an executor leaves meets the invariant, whatever the record. -/
theorem ExecFrame.keepsInv {i : Instr} {s : State} {r : Record} {res : ExecResult} (hx : ExecFrame i s r res)
    (h : s.Inv) : res.st.Inv := by
  obtain ⟨dtb, lq, sq, hst⟩ := hx.frame
  have hdtb : res.st.dtb = dtb := congrArg State.dtb hst
  have hlq : res.st.lq = lq := congrArg State.lq hst
  have hsq : res.st.sq = sq := congrArg State.sq hst
  have hfpcr : res.st.cpu.fpcr &&& ~~~fpcrWritable = 0 := by
    rcases hx.fpcr with ⟨st, e⟩ | ⟨-, e⟩
    · rw [e]; exact fpcrWithStatus_reserved h.fpcr st
    · exact e
  have hlq' : Table.Within Config.queueDepth lq := by
    rw [← hlq]
    rcases hx.lq with e | ⟨-, hslot, q, e⟩
    · rw [e]; exact h.lq
    · rw [e]; exact h.lq.put_taken hslot q
  have hsq' : Table.Within Config.queueDepth sq := by
    rw [← hsq]
    rcases hx.sq with e | ⟨-, hslot, q, e⟩
    · rw [e]; exact h.sq
    · rw [e]; exact h.sq.put_taken hslot q
  have hdtb' : dtb.wf := Tlb.wf_of_entries h.dtb (hdtb ▸ hx.dtb.1)
  generalize res.st.cpu.intrFlag = intr at hst
  generalize res.st.cpu.fpcr = fpcr at hst hfpcr
  rw [hst]
  exact (((h.withCpu (c := { s.cpu with fpcr := fpcr, intrFlag := intr }) hfpcr).withDtb hdtb').withLq hlq').withSq hsq'

theorem selectExecutor_ok {op : BitVec 6} {fn : BitVec 16} {ex : Executor} (h : selectExecutor op fn = .ok ex) :
    ∃ i, ex = executorOf i := by
  unfold selectExecutor at h
  split at h
  · cases h
  · split at h
    · rename_i i _; cases h; exact ⟨i, rfl⟩
    · cases h

/-- A dispatch that answers is one executor's work at a state with new id bounds; the record goes in flight. -/
theorem dispatchPort_cases {s t : State} {r : Record} (h : dispatchPort s r = .ok t) :
    ∃ i mb res, (mb = s.ids.memBelow ∨ mb = r.id + 1) ∧
      ExecFrame i (s.withIds { s.ids with next := max s.ids.next (r.id + 1), memBelow := mb }) r res ∧
      t = (res.st.withInflight (Table.put res.st.inflight r.id res.record)).withResult (.outcome res.out) := by
  unfold dispatchPort at h
  split at h
  · cases h
  split at h
  · cases h
  obtain ⟨ex, hex, hk⟩ := ok_of_bind h
  obtain ⟨res, hd, hk⟩ := ok_of_bind hk
  cases hk
  obtain ⟨i, rfl⟩ := selectExecutor_ok hex
  obtain ⟨-, mb, hmb, hrun⟩ := dispatchRecord_inv hd
  exact ⟨i, mb, res, hmb, executorOf_frame i hrun, rfl⟩

/-- The state an executor leaves, as updates of the state it saw. -/
theorem ExecFrame.st_eq {i : Instr} {s : State} {r : Record} {res : ExecResult} (hx : ExecFrame i s r res) :
    ∃ fpcr intr dtb lq sq, res.st =
      (((s.withCpu { s.cpu with fpcr := fpcr, intrFlag := intr }).withDtb dtb).withLq lq).withSq sq := by
  obtain ⟨dtb, lq, sq, hst⟩ := hx.frame
  exact ⟨_, _, dtb, lq, sq, hst⟩

/-- An executor leaves the ids and the records in flight alone. -/
theorem ExecFrame.ids_inflight {i : Instr} {s : State} {r : Record} {res : ExecResult} (hx : ExecFrame i s r res) :
    res.st.ids = s.ids ∧ res.st.inflight = s.inflight := by
  obtain ⟨fpcr, intr, dtb, lq, sq, hst⟩ := hx.st_eq
  rw [hst]
  exact ⟨rfl, rfl⟩

theorem dispatchPort_keepsInv {s t : State} {r : Record} (h : s.Inv) (hd : dispatchPort s r = .ok t) : t.Inv := by
  obtain ⟨i, mb, res, hmb, hx, rfl⟩ := dispatchPort_cases hd
  obtain ⟨hdone, hmem, -⟩ := h.ids
  have h1 : (s.withIds { s.ids with next := max s.ids.next (r.id + 1), memBelow := mb }).Inv :=
    h.withIds (Nat.le_max_left _ _) (Nat.le_trans hdone (Nat.le_max_left _ _)) (by simp only; omega)
  have hlt : res.record.id < res.st.ids.next := by
    rw [hx.ids_inflight.1, hx.id]
    exact Nat.lt_of_lt_of_le (Nat.lt_succ_self _) (Nat.le_max_right _ _)
  rw [← hx.id]
  exact ((hx.keepsInv h1).putInflight hlt).withResult _

theorem recordOf_ok {s : State} {id : Nat} {r : Record} (h : recordOf s id = .ok r) :
    Table.at? s.inflight id = some r := by
  unfold recordOf at h
  split at h
  · rename_i r' hr; cases h; exact hr
  · cases h

theorem retirePort_cases {s t : State} {id : Nat} (h : retirePort s id = .ok t) :
    ∃ r u, Table.at? s.inflight id = some r ∧ retireRecord s r = .ok u ∧
      t = u.withInflight (Table.del u.inflight id) := by
  obtain ⟨r, hr, hk⟩ := ok_of_bind h
  obtain ⟨u, hu, hk⟩ := ok_of_bind hk
  cases hk
  exact ⟨r, u, recordOf_ok hr, hu, rfl⟩

theorem discardPort_cases {s t : State} {id : Nat} (h : discardPort s id = .ok t) :
    ∃ r u, Table.at? s.inflight id = some r ∧ discardRecord s r = .ok u ∧
      t = u.withInflight (Table.del u.inflight id) := by
  obtain ⟨r, hr, hk⟩ := ok_of_bind h
  obtain ⟨u, hu, hk⟩ := ok_of_bind hk
  cases hk
  exact ⟨r, u, recordOf_ok hr, hu, rfl⟩

theorem retirePort_keepsInv {s t : State} {id : Nat} (h : s.Inv) (hr : retirePort s id = .ok t) : t.Inv := by
  obtain ⟨r, u, hat, hu, rfl⟩ := retirePort_cases hr
  obtain ⟨-, hlt⟩ := h.inflight_id hat
  obtain ⟨-, -, -, -, m, sq, rfl, hms⟩ := retireRecord_inv hu
  have hmem : m.wf s.cfg ∧ Table.Within Config.queueDepth sq := by
    rcases hms with ⟨rfl, rfl⟩ | ⟨q, -, hq, hw, rfl⟩
    · exact ⟨h.mem, h.sq⟩
    · exact ⟨memAfter_wf (.inr (.inr ⟨_, _, _, hw⟩)) h.mem, h.sq.put_taken (by rw [hq]; rfl) _⟩
  have hfpcr : (commitLock s r).cpu.fpcrReserved := by rw [commitLock_eq]; exact h.fpcr
  rw [State.writeReg_eq]
  have hregs := (h.withX (regsAfter s r.aDest r.destv.bits).1).withF (regsAfter s r.aDest r.destv.bits).2
  exact ((((hregs.withCpu hfpcr).withMem hmem.1).withSq hmem.2).withDone hlt).delInflight id

theorem discardPort_keepsInv {s t : State} {id : Nat} (h : s.Inv) (hr : discardPort s id = .ok t) : t.Inv := by
  obtain ⟨r, u, hat, hu, rfl⟩ := discardPort_cases hr
  obtain ⟨-, hlt⟩ := h.inflight_id hat
  obtain ⟨-, sq, rfl, hsq⟩ := discardRecord_inv hu
  have hsq' : Table.Within Config.queueDepth sq := by
    rcases hsq with rfl | ⟨q, -, hq, -, rfl⟩
    · exact h.sq
    · exact h.sq.put_taken (by rw [hq]; rfl) _
  exact ((h.withSq hsq').withDone hlt).delInflight id

theorem lqCompletePort_keepsInv {s t : State} {n : Nat} (h : s.Inv) (hc : lqCompletePort s n = .ok t) : t.Inv := by
  obtain ⟨q, v, m, hq, -, hv, hend⟩ := lqCompletePort_ok hc
  have h1 : ((s.withMem m).withLq (Table.put s.lq n { q with state := .completed })).Inv :=
    (h.withMem (memAfter_wf (loadValue_memAfter hv) h.mem)).withLq (h.lq.put_taken (by rw [hq]; rfl) _)
  rcases hend with ⟨-, rfl⟩ | ⟨r, hr, rfl⟩
  · exact h1
  · exact h1.putInflight (r := r.setDest (complete r.completion v)) (h.inflight_id hr).2

theorem writePort_cases {s t : State} {line off : Nat} {w : Width} {v : Word} (h : writePort s line off w v = .ok t) :
    ∃ key l, s.mem.lookup s.cfg .dcache line = .ok (some (key, l)) ∧ off + w.bytes ≤ 64 ∧
      t = s.withMem (s.mem.writeLine key l off w v) := by
  obtain ⟨found, hl, hk⟩ := ok_of_bind h
  cases found with
  | none => cases hk
  | some e =>
    dsimp only at hk
    split at hk
    · rename_i hoff; cases hk; exact ⟨e.1, e.2, hl, hoff, rfl⟩
    · cases hk

theorem writePort_keepsInv {s t : State} {line off : Nat} {w : Width} {v : Word} (h : s.Inv)
    (hw : writePort s line off w v = .ok t) : t.Inv := by
  obtain ⟨key, l, hl, -, rfl⟩ := writePort_cases hw
  have hfind : s.mem.dcache.find Config.cacheSetBits s.cfg.dcWays.count line = some (key, l) :=
    Except.ok.inj ((Cache.lookup_eq h.mem.dcache line).symm.trans hl)
  obtain ⟨hin, hheld⟩ := (Cache.find_eq_some h.mem.dcache).1 hfind
  exact h.withMem (MemSys.writeLine_spec h.mem hin hheld off w v).1

theorem configurePort_cases {s t : State} {c : ConfigInput} (h : configurePort s c = .ok t) :
    configAccepted s c.cfg = true ∧ t = (s.withCfg c.cfg).withCpu
      { s.cpu with bigEndian := c.bigEndian, asn := c.asn, spe := c.spe, predMode := c.predMode } := by
  unfold configurePort at h
  split at h
  · rename_i ha; cases h; exact ⟨ha, rfl⟩
  · cases h

theorem configurePort_keepsInv {s t : State} {c : ConfigInput} (h : s.Inv) (hc : configurePort s c = .ok t) :
    t.Inv := by
  obtain ⟨ha, rfl⟩ := configurePort_cases hc
  exact (h.withCfg (configAccepted_wf ha h.mem)).withCpu h.fpcr

theorem resetPort_keepsInv {s : State} (h : s.Inv) : (resetPort s).Inv :=
  .of_cleared (MemSys.wf_cachesReset h.mem.store h.mem.bits)
    (by unfold Cpu.fpcrReserved; simp only [resetPort]; rw [BitVec.and_assoc, BitVec.and_not_self]; simp)
    rfl rfl rfl rfl rfl rfl (Nat.zero_le _) (Nat.zero_le _)

theorem storeWrite_wf {cfg : Cfg} {m : MemSys} (h : m.wf cfg) {a : Nat} {bytes : List Byte}
    (ha : a + bytes.length ≤ 2 ^ 44) : MemSys.wf cfg { m with store := Memory.writeBytes m.store a bytes } :=
  MemSys.wf_of_caches h rfl rfl rfl (Memory.wf_writeBytes h.store ha)

/-! ### Transactions -/

theorem transact_keepsInv {τ : Transaction} {s t : State} (h : s.Inv) (ht : transact τ s = .ok t) : t.Inv := by
  cases τ with
  | dispatch r => exact dispatchPort_keepsInv h ht
  | getLqSlot =>
    obtain ⟨⟨n, u⟩, hg, hk⟩ := ok_of_bind ht
    cases hk; exact (getLqSlot_keepsInv h hg).withResult _
  | getSqSlot =>
    obtain ⟨⟨n, u⟩, hg, hk⟩ := ok_of_bind ht
    cases hk; exact (getSqSlot_keepsInv h hg).withResult _
  | putLqSlot n => exact putLqSlot_keepsInv h ht
  | putSqSlot n => exact putSqSlot_keepsInv h ht
  | lqComplete n => exact lqCompletePort_keepsInv h ht
  | retire id => exact retirePort_keepsInv h ht
  | discard id => exact discardPort_keepsInv h ht
  | predict pc => cases ht; exact h.withResult _
  | train pc taken lp gp => cases ht; exact h.withPred (Predictor.train_wf h.pred _ _ _ _ _)
  | translate va side kind =>
    obtain ⟨⟨a, u⟩, hu, hk⟩ := ok_of_bind ht
    cases hk; exact (translate_keepsInv h hu).withResult _
  | addEntry side e =>
    cases side with
    | instr => cases ht; exact h.withItb (Tlb.addEntry_wf h.itb e)
    | data => cases ht; exact h.withDtb (Tlb.addEntry_wf h.dtb e)
  | icacheFetch pa =>
    obtain ⟨w, -, hk⟩ := ok_of_bind ht
    cases hk; exact h.withResult _
  | icacheFill la =>
    obtain ⟨m, hm, hk⟩ := ok_of_bind ht
    cases hk; exact h.withMem (MemSys.icacheFill_spec h.mem (lineOf_lt la) hm).1
  | lookup c la =>
    obtain ⟨l, -, hk⟩ := ok_of_bind ht
    cases hk; exact h.withResult _
  | fill c la data dirty shared =>
    obtain ⟨m, rfl, hm, -⟩ := fillPort_spec (lineOf_lt la) h.mem ht
    exact h.withMem hm
  | write la off w v => exact writePort_keepsInv h ht
  | flush c => cases ht; exact h.withMem (MemSys.flush_spec h.mem c).1
  | invalidate c pa =>
    obtain ⟨m, hm, hk⟩ := ok_of_bind ht
    obtain ⟨m', hm', hwf, -⟩ := MemSys.invalidate_spec h.mem c (lineOf pa)
    cases hk; cases hm.symm.trans hm'
    exact h.withMem hwf
  | configure input => exact configurePort_keepsInv h ht
  | setMode m => cases ht; exact h.withCpu h.fpcr
  | setAsn a => cases ht; exact h.withCpu h.fpcr
  | clearLock =>
    simp only [transact] at ht
    split at ht
    · cases ht; exact h.withCpu h.fpcr
    · cases ht
  | storeWrite pa bytes =>
    simp only [transact] at ht
    split at ht
    · rename_i hfit; cases ht; exact h.withMem (storeWrite_wf h.mem hfit)
    · cases ht
  | writeReg r v => cases ht; rw [State.writeReg_eq]; exact (h.withX _).withF _
  | resume pc => cases ht; exact (h.withPc _).withStopped _
  | reset => cases ht; exact resetPort_keepsInv h
  | sequence => cases ht; exact h

/-! ### The sequencer -/

/-- The ids after one instruction are in order. -/
theorem State.Inv.withIdsAfter {s : State} (h : s.Inv) {mb : Nat} (hmb : mb = s.ids.memBelow ∨ mb = s.ids.next + 1) :
    (s.withIds (idsAfter s mb)).Inv := by
  obtain ⟨hdone, hmem, -⟩ := h.ids
  refine h.withIds (Nat.le_succ _) ?_ ?_
  · simp only [idsAfter]; omega
  · simp only [idsAfter]; omega

theorem exec_keepsInv {i : Instr} {s t : State} (h : s.Inv) (he : exec i s = .next t) : t.Inv := by
  obtain ⟨c, dtb, mb, hc, hdtb, -, hmb, hend⟩ := exec_cases he
  have hfpcr : c.fpcrReserved := by
    rcases hc.fpcr with ⟨st, e⟩ | ⟨-, e⟩
    · unfold Cpu.fpcrReserved; rw [e]; exact fpcrWithStatus_reserved h.fpcr st
    · exact e
  have hbuf : dtb.wf := Tlb.wf_of_entries h.dtb hdtb
  rcases hend with ⟨o, -, -, -, -, -, rfl⟩ | ⟨x, f, m, hm, rfl⟩
  · exact (((h.withIdsAfter hmb).withCpu hfpcr).withDtb hbuf).withStopped _
  · exact ((((((h.withIdsAfter hmb).withCpu hfpcr).withX x).withF f).withMem (memAfter_wf hm h.mem)).withDtb
      hbuf).withPc _

theorem fetchThroughIcache_keepsInv {s t : State} {pa : PhysAddr} {got : Fetched} (h : s.Inv)
    (hf : fetchThroughIcache s pa = .ok (got, t)) : t.Inv := by
  obtain ⟨hit, -, hk⟩ := ok_of_bind hf
  cases hit with
  | some w => cases hk; exact h
  | none =>
    obtain ⟨m, hm, hk⟩ := ok_of_bind hk
    obtain ⟨again, -, hk⟩ := ok_of_bind hk
    cases again with
    | none => cases hk
    | some w => cases hk; exact h.withMem (MemSys.icacheFill_spec h.mem (lineOf_lt pa) hm).1

theorem fetchWord_keepsInv {s t : State} {got : Fetched} (h : s.Inv) (hf : fetchWord s = .ok (got, t)) : t.Inv := by
  unfold fetchWord at hf
  split at hf
  · cases hf; exact h
  · obtain ⟨⟨a, u⟩, hu, hk⟩ := ok_of_bind hf
    have hinv := translate_keepsInv h hu
    cases a with
    | fault o => cases hk; exact hinv
    | ok pa => exact fetchThroughIcache_keepsInv hinv hk

theorem runWord_keepsInv {w : InstrWord} {s t : State} (h : s.Inv) (hr : runWord w s = .next t) : t.Inv := by
  unfold runWord at hr
  split at hr
  · cases hr; exact (h.withPred (Predictor.train_wf h.pred _ _ _ _ _)).withPc _
  · split at hr
    · exact exec_keepsInv h hr
    · cases hr

theorem stoppedStep_keepsInv {s t : State} {o : ExceptionOutcome} (h : s.Inv) (hs : stoppedStep s o = .next t) :
    t.Inv := by
  unfold stoppedStep at hs
  split at hs
  · cases hs
  · rename_i u hu
    cases hs
    obtain ⟨e, -, -, hc⟩ := mboxStep_some hu
    exact lqCompletePort_keepsInv h hc
  · split at hs <;> cases hs

theorem sequencerStep_keepsInv {s t : State} (h : s.Inv) (hs : sequencerStep s = .next t) : t.Inv := by
  unfold sequencerStep at hs
  split at hs
  · exact stoppedStep_keepsInv h hs
  · split at hs
    · cases hs
    · rename_i o u hf; cases hs; exact (fetchWord_keepsInv h hf).withStopped _
    · rename_i w u hf; exact runWord_keepsInv (fetchWord_keepsInv h hf) hs

/-- Settles O58: the head of the agenda, or the sequencer's turn. -/
theorem stepKeepsInv : Obligations.StepKeepsInv := by
  intro s t h hs
  unfold step at hs
  split at hs
  · exact sequencerStep_keepsInv h hs
  · exact sequencerStep_keepsInv (h.withAgenda _) hs
  · exact transact_keepsInv (h.withAgenda _) (toOutcome_next hs)

end Sys2Proof.Machine
end

section
/-!
O60: which instruction writes which part of the CPU state. `exec_cases` gives the CPU state after an instruction; what
is left is the FPCR's bits, the four exempt kinds of instruction by name, and the Icache under the data path.
-/

namespace Sys2Proof.Machine

/-! ### The data path leaves the Icache alone (49_cache R460, R461) -/

theorem MemSys.fillB_icache {cfg : Cfg} {m m' : MemSys} {line : Nat} {data : Block} {dirty shared : Bool}
    (h : m.fillB cfg line data dirty shared = .ok m') : m'.icache = m.icache := by
  obtain ⟨found, -, hk⟩ := ok_of_bind h
  cases found with
  | some _ => cases hk
  | none =>
    cases hk
    dsimp only
    split
    · exact (MemSys.writeBack_caches _ _ _).1
    · rfl

theorem MemSys.evictD_icache {cfg : Cfg} {m m' : MemSys} {key : Nat} (h : m.evictD cfg key = .ok m') :
    m'.icache = m.icache := by
  unfold MemSys.evictD at h
  split at h
  · cases h; rfl
  · dsimp only at h
    split at h
    · exact (MemSys.fillB_icache h).trans rfl
    · cases h; exact (MemSys.writeBack_caches _ _ _).1.trans rfl

theorem MemSys.fillD_icache {cfg : Cfg} {m m' : MemSys} {line : Nat} {data : Block} {dirty shared : Bool}
    (h : m.fillD cfg line data dirty shared = .ok m') : m'.icache = m.icache := by
  obtain ⟨found, -, hk⟩ := ok_of_bind h
  cases found with
  | some _ => cases hk
  | none =>
    obtain ⟨m1, he, hk⟩ := ok_of_bind hk
    cases hk
    exact (MemSys.evictD_icache he :)

theorem MemSys.dcacheFill_icache {cfg : Cfg} {m m' : MemSys} {line : Nat} (h : m.dcacheFill cfg line = .ok m') :
    m'.icache = m.icache := by
  obtain ⟨found, -, hk⟩ := ok_of_bind h
  cases found with
  | some e => exact (MemSys.fillD_icache hk).trans rfl
  | none => exact (MemSys.fillD_icache hk).trans rfl

theorem MemSys.ensureD_icache {cfg : Cfg} {m m' : MemSys} {line key : Nat} {l : Line}
    (h : m.ensureD cfg line = .ok (key, l, m')) : m'.icache = m.icache := by
  obtain ⟨found, -, hk⟩ := ok_of_bind h
  cases found with
  | some e => cases hk; rfl
  | none =>
    obtain ⟨m1, hm, hk⟩ := ok_of_bind hk
    obtain ⟨again, -, hk⟩ := ok_of_bind hk
    cases again with
    | none => cases hk
    | some e => cases hk; exact MemSys.dcacheFill_icache hm

theorem memAfter_icache {s : State} {m : MemSys} (h : memAfter s m) : m.icache = s.mem.icache := by
  rcases h with rfl | ⟨pa, w, v, hr⟩ | ⟨pa, w, v, hw⟩
  · rfl
  · obtain ⟨⟨key, l, m1⟩, he, hk⟩ := ok_of_bind hr
    cases hk; exact MemSys.ensureD_icache he
  · obtain ⟨⟨key, l, m1⟩, he, hk⟩ := ok_of_bind hw
    cases hk; exact (MemSys.ensureD_icache he).trans rfl

/-! ### The exempt kinds of instruction, by name -/

theorem writesFpcr_iff {i : Instr} : writesFpcr i ↔ ∃ fa fb fc, i = .mt_fpcr fa fb fc := by
  unfold writesFpcr
  split
  · exact ⟨fun _ => ⟨_, _, _, rfl⟩, fun _ => trivial⟩
  · rename_i hne; exact ⟨nofun, fun ⟨_, _, _, e⟩ => hne _ _ _ e⟩

theorem writesFlag_iff {i : Instr} : writesFlag i ↔ ∃ ra rb, i = .rc ra rb ∨ i = .rs ra rb := by
  unfold writesFlag
  split
  · exact ⟨fun _ => ⟨_, _, .inl rfl⟩, fun _ => trivial⟩
  · exact ⟨fun _ => ⟨_, _, .inr rfl⟩, fun _ => trivial⟩
  · rename_i hrc hrs; exact ⟨nofun, fun ⟨_, _, e⟩ => e.elim (hrc _ _) (hrs _ _)⟩

theorem setsLock_iff {i : Instr} : setsLock i ↔ ∃ ra rb d, i = .ldl_l ra rb d ∨ i = .ldq_l ra rb d := by
  unfold setsLock
  split
  · exact ⟨fun _ => ⟨_, _, _, .inl rfl⟩, fun _ => trivial⟩
  · exact ⟨fun _ => ⟨_, _, _, .inr rfl⟩, fun _ => trivial⟩
  · rename_i hl hq; exact ⟨nofun, fun ⟨_, _, _, e⟩ => e.elim (hl _ _ _) (hq _ _ _)⟩

theorem clearsLock_iff {i : Instr} : clearsLock i ↔ ∃ ra rb d, i = .stl_c ra rb d ∨ i = .stq_c ra rb d := by
  unfold clearsLock
  split
  · exact ⟨fun _ => ⟨_, _, _, .inl rfl⟩, fun _ => trivial⟩
  · exact ⟨fun _ => ⟨_, _, _, .inr rfl⟩, fun _ => trivial⟩
  · rename_i hl hq; exact ⟨nofun, fun ⟨_, _, _, e⟩ => e.elim (hl _ _ _) (hq _ _ _)⟩

/-! ### What an instruction leaves of the state -/

/-- Whatever its end, an instruction leaves the configuration, the instruction-side buffer, the predictor and the
Icache as they were. -/
theorem exec_frame {i : Instr} {s t : State} (h : exec i s = .next t) :
    CpuAfter i s t.cpu ∧ t.cfg = s.cfg ∧ t.itb = s.itb ∧ t.pred = s.pred ∧ t.mem.icache = s.mem.icache := by
  obtain ⟨c, dtb, mb, hc, -, -, -, hend⟩ := exec_cases h
  rcases hend with ⟨o, -, -, -, -, -, rfl⟩ | ⟨x, f, m, hm, rfl⟩
  · exact ⟨hc, rfl, rfl, rfl, rfl⟩
  · exact ⟨hc, rfl, rfl, rfl, memAfter_icache hm⟩

/-- A sticky update clears no bit and changes sticky bits only (46 R372). -/
theorem fpcrWithStatus_sticky (fpcr : Word) (st : TrapDetail) :
    fpcr &&& ~~~fpcrWithStatus fpcr st = 0 ∧ (fpcrWithStatus fpcr st ^^^ fpcr) &&& ~~~fpcrSticky = 0 := by
  obtain ⟨k, he, hk⟩ := fpcrWithStatus_eq_or fpcr st
  rw [he]
  refine ⟨?_, ?_⟩
  · rw [BitVec.not_or, ← BitVec.and_assoc, BitVec.and_not_self]; exact BitVec.zero_and
  · ext n hn
    have hbit : (k &&& ~~~fpcrSticky)[n] = false := by rw [hk]; exact BitVec.getElem_zero hn
    simp only [BitVec.getElem_and, BitVec.getElem_xor, BitVec.getElem_or] at hbit ⊢
    cases hf : fpcr[n] with
    | false => simpa using hbit
    | true => simp

/-- Settles O60, part by part from `CpuAfter`. -/
theorem whoWritesCpuState : Obligations.WhoWritesCpuState := by
  intro i s t h
  obtain ⟨hc, hcfg, hitb, hpred, hicache⟩ := exec_frame h
  have hrest := hc.rest
  refine ⟨by rw [hrest], by rw [hrest], by rw [hrest], by rw [hrest], by rw [hrest], hcfg, hitb,
    hpred, hicache, fun hno => ?_, fun hno => ?_, fun hno => ?_,
    fun hno hset => ?_⟩
  · rcases hc.fpcr with ⟨st, e⟩ | ⟨hw, -⟩
    · rw [e]; exact fpcrWithStatus_sticky s.cpu.fpcr st
    · obtain ⟨fa, fb, fc, e⟩ := writesFpcr_iff.1 hw
      exact absurd e (hno fa fb fc)
  · have hflag : ¬ writesFlag i := fun hw => by
      obtain ⟨ra, rb, e⟩ := writesFlag_iff.1 hw
      exact e.elim (hno ra rb).1 (hno ra rb).2
    exact hc.flag.resolve_right hflag
  · have hlock : ¬ setsLock i := fun hw => by
      obtain ⟨ra, rb, d, e⟩ := setsLock_iff.1 hw
      exact e.elim (hno ra rb d).1 (hno ra rb d).2
    obtain ⟨hva, hpa⟩ := hc.lockAddr.resolve_right hlock
    refine ⟨hva, hpa, fun hset => ?_⟩
    rcases hc.lockFlag with e | ⟨hw, -⟩ | ⟨-, e⟩
    · exact e ▸ hset
    · exact absurd hw hlock
    · rw [e] at hset; cases hset
  · have hclear : ¬ clearsLock i := fun hw => by
      obtain ⟨ra, rb, d, e⟩ := clearsLock_iff.1 hw
      exact e.elim (hno ra rb d).1 (hno ra rb d).2
    rcases hc.lockFlag with e | ⟨-, e⟩ | ⟨hw, -⟩
    · exact e ▸ hset
    · exact e
    · exact absurd hw hclear

end Sys2Proof.Machine
end

section
/-!
O42: what a dispatch leaves alone, when its destination counts as pre-loaded, and which transaction commits a
register, the lock or a byte a load sees.
-/

namespace Sys2Proof.Machine

/-! ### What a dispatch leaves alone (10_state R21, R29) -/

/-- The committed part of the CPU: both register files and the lock. -/
def State.committed (s : State) : Vector Word 32 × Vector Word 32 × Bool × Word × Word :=
  (s.x, s.f, s.cpu.lockFlag, s.cpu.lockVa, s.cpu.lockPa)

theorem State.committed_eq_iff {s t : State} : t.committed = s.committed ↔
    t.x = s.x ∧ t.f = s.f ∧ t.cpu.lockFlag = s.cpu.lockFlag ∧ t.cpu.lockVa = s.cpu.lockVa ∧
      t.cpu.lockPa = s.cpu.lockPa := by
  simp only [State.committed, Prod.mk.injEq]

theorem dispatchPort_frame {s t : State} {r : Record} (h : dispatchPort s r = .ok t) :
    t.committed = s.committed ∧ t.mem = s.mem ∧ t.pc = s.pc ∧ t.program = s.program ∧ t.pred = s.pred ∧
      t.itb = s.itb ∧ t.cfg = s.cfg := by
  obtain ⟨i, mb, res, -, hx, rfl⟩ := dispatchPort_cases h
  obtain ⟨fpcr, intr, dtb, lq, sq, hst⟩ := hx.st_eq
  rw [hst]
  exact ⟨rfl, rfl, rfl, rfl, rfl, rfl, rfl⟩

/-- The record waits for retirement with the answered outcome (60_exceptions R489, 70 R526). -/
theorem dispatchPort_record {s t : State} {r : Record} (h : dispatchPort s r = .ok t) :
    ∃ r' o, Table.at? t.inflight r.id = some r' ∧ r'.id = r.id ∧ r'.state = .waitingRetirement ∧
      r'.outcome = some o ∧ t.result = .outcome o ∧
      (o ≠ .noException → r'.destv = r.destv ∧ (r.lockPending = false → r'.lockPending = false)) := by
  obtain ⟨i, mb, res, -, hx, rfl⟩ := dispatchPort_cases h
  refine ⟨res.record, res.out, Table.at?_put_self _ _ _, hx.id, hx.state, hx.outcome, rfl, fun ho => ?_⟩
  obtain ⟨hdest, -, hlock⟩ := hx.trap ho
  exact ⟨hdest, hlock⟩

/-! ### The pre-load check (42 R239, 70 R525) -/

theorem not_destPreloaded_of_writer {s : State} {r p : Record} (hw : s.idsWf) (h31 : r.aDest.idx ≠ 31)
    (hp : s.pendingWriter r.id r.aDest p) (hbad : loadIsComplete s p = false ∨ r.destv.bits ≠ p.destv.bits) :
    destPreloaded s r = false := by
  rw [Bool.eq_false_iff]
  intro h
  rcases (destPreloaded_iff hw).1 h with h | ⟨q, hq, hload, hval⟩ | ⟨hnone, -⟩
  · exact h31 h
  · obtain rfl := State.pendingWriter_unique hq hp
    rcases hbad with e | e
    · exact absurd (hload.symm.trans e) (by decide)
    · exact e hval
  · exact hnone p hp

theorem not_destPreloaded_of_file {s : State} {r : Record} (hw : s.idsWf) (h31 : r.aDest.idx ≠ 31)
    (hnone : ∀ p, ¬ s.pendingWriter r.id r.aDest p) (hbad : r.destv.bits ≠ s.readReg r.aDest) :
    destPreloaded s r = false := by
  rw [Bool.eq_false_iff]
  intro h
  rcases (destPreloaded_iff hw).1 h with h | ⟨q, hq, -⟩ | ⟨-, hval⟩
  · exact h31 h
  · exact hnone q hq
  · exact hbad hval

theorem dispatchPort_destNotPreloaded {s : State} {r : Record} (hfree : Table.at? s.inflight r.id = none)
    (hd : destPreloaded s r = false) : dispatchPort s r = .error .destNotPreloaded := by
  simp [dispatchPort, hfree, hd]

theorem exec_destNotPreloaded {i : Instr} {s : State} (hd : destPreloaded s (formOf s i) = false) :
    exec i s = .refused .destNotPreloaded := by
  rw [exec_eq, runInstr, lifeOf, hd]
  rfl

theorem oprRecord_dest (s : State) (op : BitVec 6) (fn : BitVec 7) (ra : RegIdx) (b : Opnd) (rc : RegIdx) :
    (oprRecord s op fn ra b rc).aDest = ⟨.int, rc⟩ ∧ (oprRecord s op fn ra b rc).destv.bits = s.readReg ⟨.int, rc⟩ := by
  cases b <;> exact ⟨rfl, rfl⟩

/-- The destination of a conditional move and the value it is pre-loaded with. -/
theorem formOf_cmov_dest (s : State) {ra rb rc : RegIdx} {b : Opnd} {d : RegRef} {i : Instr}
    (h : d = ⟨.int, rc⟩ ∧ i ∈ [.cmoveq ra b rc, .cmovne ra b rc, .cmovlt ra b rc, .cmovge ra b rc, .cmovle ra b rc,
        .cmovgt ra b rc, .cmovlbs ra b rc, .cmovlbc ra b rc] ∨
      d = ⟨.fp, rc⟩ ∧ i ∈ [.fcmoveq ra rb rc, .fcmovne ra rb rc, .fcmovlt ra rb rc, .fcmovge ra rb rc,
        .fcmovle ra rb rc, .fcmovgt ra rb rc]) :
    d.idx = rc ∧ (formOf s i).aDest = d ∧ (formOf s i).destv.bits = s.readReg d := by
  simp only [List.mem_cons, List.not_mem_nil, or_false] at h
  rcases h with ⟨rfl, hi⟩ | ⟨rfl, hi⟩
  · refine ⟨rfl, ?_⟩
    rcases hi with rfl | rfl | rfl | rfl | rfl | rfl | rfl | rfl <;> exact oprRecord_dest ..
  · refine ⟨rfl, ?_⟩
    rcases hi with rfl | rfl | rfl | rfl | rfl | rfl <;> exact ⟨rfl, rfl⟩

/-! ### Which transactions commit -/

/-- The transactions that change a register, the lock or a byte a load sees. -/
def Transaction.commits : Transaction → Prop
  | .retire .. | .writeReg .. | .clearLock | .write .. | .storeWrite .. | .reset => True
  | _ => False

/-- With `MP` false, a good hierarchy stays good and shows the same bytes (49_cache R464). -/
def HierarchyKept (s t : State) : Prop :=
  s.cfg.mp = false → s.mem.wf s.cfg → s.mem.coherent s.cfg →
    t.mem.wf t.cfg ∧ t.mem.coherent t.cfg ∧ ∀ a, t.mem.byteAt t.cfg a = s.mem.byteAt s.cfg a

theorem HierarchyKept.of_eq {s t : State} (hm : t.mem = s.mem) (hc : t.cfg = s.cfg) : HierarchyKept s t := by
  intro _ hwf hco
  rw [hm, hc]
  exact ⟨hwf, hco, fun _ => rfl⟩

theorem HierarchyKept.of_unchanged {s t : State} (hc : t.cfg = s.cfg)
    (h : s.cfg.mp = false → s.mem.wf s.cfg → s.mem.coherent s.cfg → s.mem.unchanged s.cfg t.mem) :
    HierarchyKept s t := by
  intro hmp hwf hco
  rw [hc]
  exact h hmp hwf hco

/-- A translation changes a buffer only. -/
theorem translate_frame {s t : State} {va : Word} {side : Side} {kind : AccessKind} {a : Translation}
    (h : translate s va side kind = .ok (a, t)) : t.committed = s.committed ∧ t.mem = s.mem ∧ t.cfg = s.cfg := by
  rcases translate_cases h with ⟨b, rfl, -⟩ | ⟨b, rfl, -⟩ <;> exact ⟨rfl, rfl, rfl⟩

/-- A completion writes no register: the value goes to the record (20_memory R108). -/
theorem lqCompletePort_frame {s t : State} {n : Nat} (h : lqCompletePort s n = .ok t) :
    t.committed = s.committed ∧ HierarchyKept s t := by
  obtain ⟨q, v, m, -, -, hv, hend⟩ := lqCompletePort_ok h
  have hm : s.mem.wf s.cfg → s.mem.coherent s.cfg → s.mem.unchanged s.cfg m := loadValue_unchanged hv
  rcases hend with ⟨-, rfl⟩ | ⟨r, -, rfl⟩
  · exact ⟨rfl, .of_unchanged rfl fun _ => hm⟩
  · exact ⟨rfl, .of_unchanged rfl fun _ => hm⟩

/-- A discard cancels the record's store and commits nothing (20_memory R116). -/
theorem discardPort_frame {s t : State} {id : Nat} (h : discardPort s id = .ok t) :
    t.committed = s.committed ∧ HierarchyKept s t := by
  obtain ⟨r, u, -, hu, rfl⟩ := discardPort_cases h
  obtain ⟨-, sq, rfl, -⟩ := discardRecord_inv hu
  exact ⟨rfl, .of_eq rfl rfl⟩

/-- A fill that answers changes the memory system alone, also where the hierarchy was not good. -/
theorem fillPort_withMem {s t : State} {c : CacheId} {line : Nat} {data : Block} {dirty shared : Bool}
    (h : fillPort s c line data dirty shared = .ok t) : ∃ m, t = s.withMem m := by
  unfold fillPort at h
  split at h
  · cases h
  cases c with
  | icache =>
    obtain ⟨m, -, hk⟩ := ok_of_bind h
    cases hk; exact ⟨m, rfl⟩
  | dcache =>
    obtain ⟨found, -, hk⟩ := ok_of_bind h
    cases found with
    | some e => cases hk
    | none =>
      obtain ⟨-, -, hk⟩ := ok_of_bind hk
      obtain ⟨m, -, hk⟩ := ok_of_bind hk
      cases hk; exact ⟨m, rfl⟩
  | bcache =>
    dsimp only at h
    split at h
    · cases h
    obtain ⟨found, -, hk⟩ := ok_of_bind h
    cases found with
    | some e => cases hk
    | none =>
      obtain ⟨-, -, hk⟩ := ok_of_bind hk
      obtain ⟨m, -, hk⟩ := ok_of_bind hk
      cases hk; exact ⟨m, rfl⟩

theorem fillPort_frame {s t : State} {c : CacheId} {la : PhysAddr} {data : Block} {dirty shared : Bool}
    (h : fillPort s c (lineOf la) data dirty shared = .ok t) : t.committed = s.committed ∧ HierarchyKept s t := by
  obtain ⟨m, hm⟩ := fillPort_withMem h
  refine ⟨by rw [hm]; rfl, fun hmp hwf hco => ?_⟩
  obtain ⟨m', rfl, hwf', hkept⟩ := fillPort_spec (lineOf_lt la) hwf h
  exact ⟨hwf', hkept hco hmp⟩

/-- Every other transaction leaves the registers, the lock and the bytes a load sees as they were. -/
theorem transact_of_not_commits {τ : Transaction} {s t : State} (hτ : ¬ τ.commits) (h : transact τ s = .ok t) :
    t.committed = s.committed ∧ HierarchyKept s t := by
  cases τ with
  | retire | writeReg | clearLock | write | storeWrite | reset => exact absurd trivial hτ
  | dispatch r =>
    obtain ⟨hcom, hmem, -, -, -, -, hcfg⟩ := dispatchPort_frame h
    exact ⟨hcom, .of_eq hmem hcfg⟩
  | getLqSlot =>
    obtain ⟨⟨n, u⟩, hg, hk⟩ := ok_of_bind h
    obtain ⟨-, -, -, rfl⟩ := getLqSlot_inv hg
    cases hk; exact ⟨rfl, .of_eq rfl rfl⟩
  | getSqSlot =>
    obtain ⟨⟨n, u⟩, hg, hk⟩ := ok_of_bind h
    obtain ⟨-, -, -, rfl⟩ := getSqSlot_inv hg
    cases hk; exact ⟨rfl, .of_eq rfl rfl⟩
  | putLqSlot n => obtain ⟨q, -, -, rfl⟩ := putLqSlot_inv h; exact ⟨rfl, .of_eq rfl rfl⟩
  | putSqSlot n => obtain ⟨q, -, -, rfl⟩ := putSqSlot_inv h; exact ⟨rfl, .of_eq rfl rfl⟩
  | lqComplete n => exact lqCompletePort_frame h
  | discard id => exact discardPort_frame h
  | predict | train | setMode | setAsn | resume | sequence => cases h; exact ⟨rfl, .of_eq rfl rfl⟩
  | translate va side kind =>
    obtain ⟨⟨a, u⟩, hu, hk⟩ := ok_of_bind h
    obtain ⟨hcom, hmem, hcfg⟩ := translate_frame hu
    cases hk; exact ⟨hcom, .of_eq hmem hcfg⟩
  | addEntry side e => cases side <;> (cases h; exact ⟨rfl, .of_eq rfl rfl⟩)
  | icacheFetch pa =>
    obtain ⟨w, -, hk⟩ := ok_of_bind h
    cases hk; exact ⟨rfl, .of_eq rfl rfl⟩
  | lookup c la =>
    obtain ⟨l, -, hk⟩ := ok_of_bind h
    cases hk; exact ⟨rfl, .of_eq rfl rfl⟩
  | icacheFill la =>
    obtain ⟨m, hm, hk⟩ := ok_of_bind h
    cases hk
    refine ⟨rfl, .of_unchanged rfl fun _ hwf hco => ?_⟩
    obtain ⟨hwf', hd, hb, hst⟩ := MemSys.icacheFill_spec hwf (lineOf_lt la) hm
    exact ⟨hwf', MemSys.unchanged_of_data hd hb hst hco⟩
  | fill c la data dirty shared => exact fillPort_frame h
  | flush c =>
    cases h
    refine ⟨rfl, .of_unchanged rfl fun _ hwf hco => ?_⟩
    obtain ⟨hwf', -, hkept⟩ := MemSys.flush_spec hwf c
    exact ⟨hwf', hkept hco⟩
  | invalidate c pa =>
    obtain ⟨m, hm, hk⟩ := ok_of_bind h
    cases hk
    refine ⟨rfl, .of_unchanged rfl fun _ hwf hco => ?_⟩
    obtain ⟨m', hm', hwf', hkept⟩ := MemSys.invalidate_spec hwf c (lineOf pa)
    cases hm.symm.trans hm'
    exact ⟨hwf', hkept hco⟩
  | configure input =>
    obtain ⟨hacc, rfl⟩ := configurePort_cases h
    exact ⟨rfl, fun hmp hwf hco => configAccepted_spec hacc hmp hwf hco⟩

/-- The frame of every transaction but `retire`, from `transact_of_not_commits` and the commits one by one. -/
theorem transact_frame {τ : Transaction} {s t : State} (h : transact τ s = .ok t) (hret : ∀ id, τ ≠ .retire id) :
    ((∀ r v, τ ≠ .writeReg r v) → t.x = s.x ∧ t.f = s.f) ∧
    t.cpu.lockVa = s.cpu.lockVa ∧ t.cpu.lockPa = s.cpu.lockPa ∧
    (τ ≠ .clearLock → τ ≠ .reset → t.cpu.lockFlag = s.cpu.lockFlag) ∧
    ((∀ la off w v, τ ≠ .write la off w v) → (∀ pa bytes, τ ≠ .storeWrite pa bytes) → τ ≠ .reset →
      HierarchyKept s t) := by
  by_cases hτ : τ.commits
  · unfold Transaction.commits at hτ
    split at hτ
    next id => exact absurd rfl (hret id)
    next r v =>
      cases h
      refine ⟨fun hno => absurd rfl (hno r v), ?_⟩
      rw [State.writeReg_eq]
      exact ⟨rfl, rfl, fun _ _ => rfl, fun _ _ _ => .of_eq rfl rfl⟩
    next =>
      simp only [transact] at h
      split at h
      · cases h; exact ⟨fun _ => ⟨rfl, rfl⟩, rfl, rfl, fun hno => absurd rfl hno, fun _ _ _ => .of_eq rfl rfl⟩
      · cases h
    next la off w v =>
      obtain ⟨key, l, -, -, rfl⟩ := writePort_cases h
      exact ⟨fun _ => ⟨rfl, rfl⟩, rfl, rfl, fun _ _ => rfl, fun hno => absurd rfl (hno la off w v)⟩
    next pa bytes =>
      simp only [transact] at h
      split at h
      · cases h; exact ⟨fun _ => ⟨rfl, rfl⟩, rfl, rfl, fun _ _ => rfl, fun _ hno => absurd rfl (hno pa bytes)⟩
      · cases h
    next =>
      cases h
      exact ⟨fun _ => ⟨rfl, rfl⟩, rfl, rfl, fun _ hno => absurd rfl hno, fun _ _ hno => absurd rfl hno⟩
    next => exact hτ.elim
  · obtain ⟨hcom, hmem⟩ := transact_of_not_commits hτ h
    obtain ⟨hx, hf, hflag, hva, hpa⟩ := State.committed_eq_iff.1 hcom
    exact ⟨fun _ => ⟨hx, hf⟩, hva, hpa, fun _ _ => hflag, fun _ _ _ => hmem⟩

/-- Settles O42: the dispatch frame, the pre-load refusals of `dispatch` and of the sequencer's conditional moves, the
frame of the other transactions, the codes. -/
theorem onlyRetirementCommits : Obligations.OnlyRetirementCommits := by
  refine ⟨fun s t r h => ?_, fun s r hw hfree h31 => ⟨fun p hp hbad => ?_, fun hnone hbad => ?_⟩,
    fun s ra rb rc b d i p hw h31 hi hp hbad => ?_, fun s t τ h hret => ?_,
    rfl, fun _ => rfl, rfl, rfl, rfl, rfl, rfl⟩
  · obtain ⟨hcom, hmem, hpc, hprog, hpred, hitb, hcfg⟩ := dispatchPort_frame h
    obtain ⟨hx, hf, hlock⟩ := State.committed_eq_iff.1 hcom
    exact ⟨hx, hf, hmem, hpc, hprog, hpred, hitb, hcfg, hlock.1, hlock.2.1, hlock.2.2, dispatchPort_record h⟩
  · exact dispatchPort_destNotPreloaded hfree (not_destPreloaded_of_writer hw h31 hp hbad)
  · exact dispatchPort_destNotPreloaded hfree (not_destPreloaded_of_file hw h31 hnone hbad)
  · obtain ⟨hidx, hdest, hval⟩ := formOf_cmov_dest s hi
    refine exec_destNotPreloaded (not_destPreloaded_of_writer (p := p) hw ?_ ?_ ?_)
    · rw [hdest, hidx]; exact h31
    · rw [hdest, (formOf_spec i s).id]; exact hp
    · rw [hval]; exact hbad.imp_right Ne.symm
  · obtain ⟨hreg, hva, hpa, hflag, hmem⟩ := transact_frame h hret
    exact ⟨hreg, hva, hpa, hflag, fun h1 h2 h3 => hmem h1 h2 h3⟩

end Sys2Proof.Machine
end

section
/-!
PROOFS of the memory family: queue slots (O43), translation and the buffers (O32, O33, O34), store forwarding and the
completion of a load (O36), the data path and its flushes (O37, O39), retirement and discard (O40, O41).
-/

namespace Sys2Proof.Machine

/-! ### Tables: one lookup after an update, the first free key, the values that pass a test -/

theorem Table.at?_put {α : Type} (t : Table α) (k j : Nat) (v : α) :
    Table.at? (Table.put t k v) j = if j = k then some v else Table.at? t j := by
  split
  · next h => rw [h, Table.at?_put_self]
  · next h => exact Table.at?_put_ne t v h

theorem Table.firstFree_eq_some {α : Type} {t : Table α} {d n : Nat} (hn : n < d) (hfree : Table.at? t n = none)
    (hleast : ∀ j < n, Table.at? t j ≠ none) : Table.firstFree t d = some n := by
  obtain ⟨m, hm, -, hmfree⟩ := Table.firstFree_of_free hn hfree
  obtain ⟨-, -, hmleast⟩ := Table.firstFree_spec hm
  rcases Nat.lt_trichotomy m n with h | rfl | h
  · exact absurd hmfree (hleast m h)
  · exact hm
  · exact absurd hfree (hmleast n h)

theorem Table.firstFree_eq_none {α : Type} {t : Table α} {d : Nat} (hfull : ∀ j < d, Table.at? t j ≠ none) :
    Table.firstFree t d = none := by
  cases h : Table.firstFree t d with
  | none => rfl
  | some n =>
    obtain ⟨hn, hfree, -⟩ := Table.firstFree_spec h
    exact absurd hfree (hfull n hn)

theorem Table.Sorted.nodup {α : Type} {t : Table α} (hs : Table.Sorted t) : t.Nodup := by
  refine List.Pairwise.imp ?_ hs
  rintro a _ hlt rfl
  exact Nat.lt_irrefl _ hlt

/-! ### Queue slots (20_memory R104) -/

theorem getLqSlot_of_firstFree {s : State} {n : Nat} (h : Table.firstFree s.lq Config.queueDepth = some n) :
    getLqSlot s = .ok (n, s.withLq (Table.put s.lq n freshLqSlot)) := by simp only [getLqSlot, h]

theorem getSqSlot_of_firstFree {s : State} {n : Nat} (h : Table.firstFree s.sq Config.queueDepth = some n) :
    getSqSlot s = .ok (n, s.withSq (Table.put s.sq n freshSqSlot)) := by simp only [getSqSlot, h]

theorem getLqSlot_of_full {s : State} (h : Table.firstFree s.lq Config.queueDepth = none) :
    getLqSlot s = .error .noFreeSlot := by simp only [getLqSlot, h]

theorem getSqSlot_of_full {s : State} (h : Table.firstFree s.sq Config.queueDepth = none) :
    getSqSlot s = .error .noFreeSlot := by simp only [getSqSlot, h]

theorem putLqSlot_of_taken {s : State} {n : Nat} {q : LqSlot} (h : Table.at? s.lq n = some q) :
    putLqSlot s n =
      if q.state = .pending then .error .slotNotReleasable else .ok (s.withLq (Table.del s.lq n)) := by
  simp only [putLqSlot, h]

theorem putSqSlot_of_taken {s : State} {n : Nat} {q : SqSlot} (h : Table.at? s.sq n = some q) :
    putSqSlot s n =
      if q.state = .pending then .error .slotNotReleasable else .ok (s.withSq (Table.del s.sq n)) := by
  simp only [putSqSlot, h]

theorem putLqSlot_of_free {s : State} {n : Nat} (h : Table.at? s.lq n = none) :
    putLqSlot s n = .error .slotNotReleasable := by simp only [putLqSlot, h]

theorem putSqSlot_of_free {s : State} {n : Nat} (h : Table.at? s.sq n = none) :
    putSqSlot s n = .error .slotNotReleasable := by simp only [putSqSlot, h]

/-- Settles O43: `firstFree` finds the smallest free index, and a release looks at the slot alone. -/
theorem slotAllocation : Obligations.SlotAllocation := by
  intro s n
  refine ⟨fun hn hfree hleast => ⟨_, getLqSlot_of_firstFree (Table.firstFree_eq_some hn hfree hleast), rfl, rfl⟩,
    fun hfull => getLqSlot_of_full (Table.firstFree_eq_none hfull),
    fun hn hfree hleast => ⟨_, getSqSlot_of_firstFree (Table.firstFree_eq_some hn hfree hleast), rfl, rfl, rfl⟩,
    fun hfull => getSqSlot_of_full (Table.firstFree_eq_none hfull),
    fun q hq => putLqSlot_of_taken hq, fun q hq => putSqSlot_of_taken hq, putLqSlot_of_free, putSqSlot_of_free⟩

/-! ### One translation-buffer entry (20_memory R87, R88, R92) -/

theorem getLsbD_ghMask (gh : BitVec 2) {i : Nat} (hi : i < 31) :
    (ghMask gh).getLsbD i = decide (i < 3 * gh.toNat) := by
  have key : ∀ (g : BitVec 2) (j : Fin 31), (ghMask g).getLsbD j = decide (j.val < 3 * g.toNat) := by decide
  exact key gh ⟨i, hi⟩

theorem getLsbD_vpnOf (va : Word) {i : Nat} (hi : i < 35) : (vpnOf va).getLsbD i = va.getLsbD (13 + i) := by
  simp [vpnOf, hi]

theorem TlbEntry.hits_iff {e : TlbEntry} {asn : BitVec 8} {va : Word} : e.hits asn va = true ↔
    vpnOf va >>> (3 * e.gh.toNat) = e.vpn >>> (3 * e.gh.toNat) ∧ (e.asm = true ∨ e.asn = asn) := by
  simp only [TlbEntry.hits, Bool.and_eq_true, Bool.or_eq_true, beq_iff_eq]

/-- The page number of a hit takes its low `3 * gh` bits from the virtual address (R92). -/
theorem TlbEntry.getLsbD_physical (e : TlbEntry) (va : Word) {i : Nat} (hi : i < 44) :
    (e.physical va).getLsbD i = if i < 13 + 3 * e.gh.toNat then va.getLsbD i else e.ppn.getLsbD (i - 13) := by
  simp only [TlbEntry.physical, BitVec.getLsbD_append]
  by_cases h13 : i < 13
  · rw [if_pos h13, if_pos (Nat.lt_add_right _ h13)]
    simp [h13]
  · have h31 : i - 13 < 31 := by omega
    have hvpn : (vpnOf va).getLsbD (i - 13) = va.getLsbD i := by
      rw [getLsbD_vpnOf va (by omega)]; congr 1; omega
    simp only [h13, if_false, BitVec.getLsbD_or, BitVec.getLsbD_and, BitVec.getLsbD_not, BitVec.getLsbD_setWidth, h31,
      hvpn, getLsbD_ghMask e.gh h31, decide_true, Bool.true_and]
    by_cases hgh : i < 13 + 3 * e.gh.toNat
    · have hlow : i - 13 < 3 * e.gh.toNat := by omega
      simp [hgh, hlow]
    · have hhigh : ¬ i - 13 < 3 * e.gh.toNat := by omega
      simp [hgh, hhigh]

/-- Settles O33: the hit condition, the permissions by mode and kind, the address bit by bit. -/
theorem pageMatchAndAddress : Obligations.PageMatchAndAddress :=
  fun e _ va => ⟨e.hits_iff, rfl, rfl, rfl, rfl, rfl, rfl, fun _ hi => e.getLsbD_physical va hi⟩

/-! ### Translation (20_memory R89 to R93) -/

/-- The windows in their order, each with its own conditions (R89). -/
theorem superpage_eq (cpu : Cpu) (va : Word) : superpage cpu va =
    if cpu.mode = .kernel ∧ cpu.spe.getLsbD 2 = true ∧ va.extractLsb' 46 2 = 0b10#2 then
      some (va.extractLsb' 0 44)
    else if cpu.mode = .kernel ∧ cpu.spe.getLsbD 1 = true ∧ va.extractLsb' 41 7 = 0b1111110#7 then
      some ((va.extractLsb' 0 41).signExtend 44)
    else if cpu.mode = .kernel ∧ cpu.spe.getLsbD 0 = true ∧ va.extractLsb' 30 18 = 0x3FFFE#18 then
      some ((va.extractLsb' 0 30).setWidth 44)
    else none := by
  unfold superpage
  cases cpu.mode with
  | user => simp only [if_true, reduceCtorEq, false_and, if_false]
  | kernel => simp only [reduceCtorEq, if_false, true_and, Bool.and_eq_true, beq_iff_eq]

theorem translateOn_of_superpage {cpu : Cpu} {t : Tlb} {va : Word} {kind : AccessKind} {pa : PhysAddr}
    (h : superpage cpu va = some pa) : translateOn cpu t va kind = .ok (.ok pa, t) := by
  simp only [translateOn, h]

/-- The entries that hit, with their indices. -/
def Tlb.hitting (t : Tlb) (asn : BitVec 8) (va : Word) : List (Nat × TlbEntry) :=
  t.entries.filter fun e => e.2.hits asn va

theorem Tlb.matching_eq (t : Tlb) (asn : BitVec 8) (va : Word) :
    t.matching asn va = (t.hitting asn va).map Prod.snd := List.filter_map ..

theorem Tlb.mem_hitting {t : Tlb} {asn : BitVec 8} {va : Word} {e : Nat × TlbEntry} :
    e ∈ t.hitting asn va ↔ e ∈ t.entries ∧ e.2.hits asn va = true := List.mem_filter

section Lookup

variable {cpu : Cpu} {t : Tlb} {va : Word} {kind : AccessKind}

theorem translateOn_miss (hsp : superpage cpu va = none) (hno : ∀ e ∈ t.entries, e.2.hits cpu.asn va = false) :
    translateOn cpu t va kind =
      .ok (.fault (if t.missPending then .doubleMiss else .singleMiss), { t with missPending := true }) := by
  have hnil : t.hitting cpu.asn va = [] := List.filter_eq_nil_iff.2 fun e he => by simp [hno e he]
  simp only [translateOn, hsp, Tlb.matching_eq, hnil, List.map_nil]

theorem translateOn_hit (hsp : superpage cpu va = none) (hwf : t.wf) {e : Nat × TlbEntry} (he : e ∈ t.entries)
    (hhit : e.2.hits cpu.asn va = true) (hone : ∀ e' ∈ t.entries, e'.2.hits cpu.asn va = true → e' = e) :
    translateOn cpu t va kind =
      if e.2.permits cpu.mode kind then .ok (.ok (e.2.physical va), t) else .ok (.fault .accessViolation, t) := by
  have hmem : ∀ x, x ∈ t.hitting cpu.asn va ↔ x ∈ [e] := by
    intro x
    rw [Tlb.mem_hitting, List.mem_singleton]
    exact ⟨fun ⟨hx, hxhit⟩ => hone x hx hxhit, fun hx => hx ▸ ⟨he, hhit⟩⟩
  have hsingle : t.hitting cpu.asn va = [e] := List.perm_singleton.1
    ((List.perm_ext_iff_of_nodup (hwf.1.nodup.filter _) (List.nodup_singleton e)).2 hmem)
  simp only [translateOn, hsp, Tlb.matching_eq, hsingle, List.map_cons, List.map_nil]

theorem translateOn_multiHit (hsp : superpage cpu va = none) {e e' : Nat × TlbEntry} (he : e ∈ t.entries)
    (he' : e' ∈ t.entries) (hne : e ≠ e') (hhit : e.2.hits cpu.asn va = true) (hhit' : e'.2.hits cpu.asn va = true) :
    translateOn cpu t va kind = .error .tlbMultiHit := by
  have hm : e ∈ t.hitting cpu.asn va := Tlb.mem_hitting.2 ⟨he, hhit⟩
  have hm' : e' ∈ t.hitting cpu.asn va := Tlb.mem_hitting.2 ⟨he', hhit'⟩
  simp only [translateOn, hsp, Tlb.matching_eq]
  match t.hitting cpu.asn va, hm, hm' with
  | [x], hm, hm' => exact absurd ((List.mem_singleton.1 hm).trans (List.mem_singleton.1 hm').symm) hne
  | _ :: _ :: _, _, _ => rfl

end Lookup

/-- Settles O32: the superpage windows in their order, then the number of entries that hit. -/
theorem translation : Obligations.Translation := by
  intro cpu t va kind w2 w1 w0 hwf h2 h1 h0
  obtain rfl := propext h2
  obtain rfl := propext h1
  obtain rfl := propext h0
  have hsp := superpage_eq cpu va
  refine ⟨fun hw2 => ?_, fun hw2 hw1 => ?_, fun hw2 hw1 hw0 => ?_, fun hw2 hw1 hw0 => ?_⟩
  · rw [if_pos hw2] at hsp; exact translateOn_of_superpage hsp
  · rw [if_neg hw2, if_pos hw1] at hsp; exact translateOn_of_superpage hsp
  · rw [if_neg hw2, if_neg hw1, if_pos hw0] at hsp; exact translateOn_of_superpage hsp
  · rw [if_neg hw2, if_neg hw1, if_neg hw0] at hsp
    refine ⟨translateOn_miss hsp, fun e he hhit hone => ?_,
      fun e he e' he' hne hhit hhit' => translateOn_multiHit hsp he he' hne hhit hhit'⟩
    rw [translateOn_hit hsp hwf he hhit hone]
    exact ⟨fun hp => if_pos hp, fun hp => if_neg (by simp [hp])⟩

/-! ### Adding an entry to a translation buffer (20_memory R96) -/

theorem TlbEntry.sameKey_iff {a b : TlbEntry} :
    a.sameKey b = true ↔ a.vpn = b.vpn ∧ a.gh = b.gh ∧ a.asm = b.asm ∧ a.asn = b.asn := by
  simp [TlbEntry.sameKey, and_assoc]

/-- The entry `addEntry` overwrites in place, if there is one. -/
def Tlb.keyOf (t : Tlb) (e : TlbEntry) : Option (Nat × TlbEntry) := t.entries.find? fun p => p.2.sameKey e

theorem Tlb.addEntry_of_key {t : Tlb} {e : TlbEntry} {p : Nat × TlbEntry} (h : t.keyOf e = some p) :
    t.addEntry e = { entries := Table.put t.entries p.1 e, next := t.next, missPending := false } := by
  unfold Tlb.keyOf at h
  simp only [Tlb.addEntry, h]

theorem Tlb.addEntry_of_new {t : Tlb} {e : TlbEntry} (h : t.keyOf e = none) :
    t.addEntry e = { entries := Table.put t.entries t.next.toNat e, next := t.next + 1, missPending := false } := by
  unfold Tlb.keyOf at h
  simp only [Tlb.addEntry, h]

theorem Tlb.keyOf_eq_some {t : Tlb} {e : TlbEntry} {p : Nat × TlbEntry} (h : t.keyOf e = some p) :
    p ∈ t.entries ∧ p.2.vpn = e.vpn ∧ p.2.gh = e.gh ∧ p.2.asm = e.asm ∧ p.2.asn = e.asn :=
  ⟨List.mem_of_find?_eq_some h, TlbEntry.sameKey_iff.1 <|
    List.find?_some (p := fun p : Nat × TlbEntry => p.2.sameKey e) h⟩

theorem Tlb.keyOf_eq_none {t : Tlb} {e : TlbEntry} : t.keyOf e = none ↔
    ∀ p ∈ t.entries, ¬ (p.2.vpn = e.vpn ∧ p.2.gh = e.gh ∧ p.2.asm = e.asm ∧ p.2.asn = e.asn) := by
  simp only [Tlb.keyOf, List.find?_eq_none, TlbEntry.sameKey_iff]

/-- Settles O34, by whether the buffer holds the key. -/
theorem addEntry : Obligations.AddEntry := by
  intro t e _
  cases hk : t.keyOf e with
  | some p =>
    obtain ⟨hp, hkey⟩ := Tlb.keyOf_eq_some hk
    rw [Tlb.addEntry_of_key hk]
    exact ⟨rfl, fun _ => ⟨rfl, p, hp, hkey, fun j => Table.at?_put ..⟩, fun hnew => absurd hkey (hnew p hp)⟩
  | none =>
    have hnew := Tlb.keyOf_eq_none.1 hk
    rw [Tlb.addEntry_of_new hk]
    refine ⟨rfl, fun ⟨p, hp, hkey⟩ => absurd hkey (hnew p hp), fun _ => ⟨?_, fun j => Table.at?_put ..⟩⟩
    exact BitVec.toNat_add t.next 1

/-! ### The low bytes of a value (20_memory R74, R109) -/

theorem getLsbD_byteOf (v : Word) (k i : Nat) : (byteOf v k).getLsbD i = (decide (i < 8) && v.getLsbD (8 * k + i)) :=
  BitVec.getLsbD_extractLsb' ..

theorem truncate_eq_setWidth (v : Word) (w : Width) : truncate v w = (v.setWidth (8 * w.bytes)).setWidth 64 := by
  apply BitVec.eq_of_getLsbD_eq
  intro i hi
  cases w <;>
    simp only [truncate, assemble, ofBytes, Width.bytes, BitVec.getLsbD_setWidth, BitVec.getLsbD_append, getLsbD_byteOf] <;>
    grind

theorem truncate_toNat (v : Word) (w : Width) : (truncate v w).toNat = v.toNat % 2 ^ (8 * w.bytes) := by
  rw [truncate_eq_setWidth, BitVec.toNat_setWidth, BitVec.toNat_setWidth]
  cases w <;> simp only [Width.bytes] <;> omega

/-! ### Reading what was written, and flushing it (20_memory R110, R114, R120) -/

/-- What a read of the bytes just stored returns: the store's low bytes (R110, R114). -/
theorem assemble_of_stored {cfg : Cfg} {m m' : MemSys} {a : Nat} {w : Width} {v : Word}
    (h : m.stored cfg m' a w.bytes v) : assemble (fun k => m'.byteAt cfg (a + k)) w = truncate v w := by
  obtain ⟨-, -, hbytes, -⟩ := h
  exact assemble_congr hbytes

/-- Settles O37: the write stores the bytes, and a read assembles them again. -/
theorem readAfterWrite : Obligations.ReadAfterWrite := by
  intro cfg m pa w v hwf hco hal
  obtain ⟨m', hwrite, hstored⟩ := stored_of_write hwf hco hal v
  have ⟨hwf', hco', _, _⟩ := hstored
  obtain ⟨m'', hread, hsame⟩ := unchanged_of_read hwf' hco' hal
  refine ⟨m', hwrite, hstored, _, m'', hread, ?_, hsame⟩
  rw [assemble_of_stored hstored, truncate_toNat]

theorem MemSys.flush_bcache_dcache (cfg : Cfg) (m : MemSys) : (m.flush cfg .bcache).dcache = m.dcache :=
  (writeBackAll_caches cfg.bcSetBits m.bcache.lines m).2.1

theorem MemSys.byteAt_of_caches_empty {cfg : Cfg} {m : MemSys} (hwf : m.wf cfg) (hd : m.dcache = Cache.reset)
    (hb : m.bcache = Cache.reset) (a : Nat) : m.byteAt cfg a = Memory.read m.store a := by
  refine MemSys.byteAt_of_not_holds hwf ?_
  rintro l (⟨key, hm, -⟩ | ⟨key, hm, -⟩)
  · rw [hd] at hm; cases hm
  · rw [hb] at hm; cases hm

/-- Settles O39: no flush changes a byte a load sees, and after both a load sees the store. -/
theorem flushReachesStore : Obligations.FlushReachesStore := by
  intro cfg m hwf hco a
  obtain ⟨hwf1, hempty1, hkept1⟩ := MemSys.flush_spec hwf .dcache
  obtain ⟨hco1, hsame1⟩ := hkept1 hco
  obtain ⟨hwf2, hempty2, hkept2⟩ := MemSys.flush_spec hwf1 .bcache
  obtain ⟨-, hsame2⟩ := hkept2 hco1
  have hd : ((m.flush cfg .dcache).flush cfg .bcache).dcache = Cache.reset :=
    (MemSys.flush_bcache_dcache ..).trans hempty1
  calc Memory.read ((m.flush cfg .dcache).flush cfg .bcache).store a
      = ((m.flush cfg .dcache).flush cfg .bcache).byteAt cfg a :=
        (MemSys.byteAt_of_caches_empty hwf2 hd hempty2 a).symm
    _ = (m.flush cfg .dcache).byteAt cfg a := hsame2 a
    _ = m.byteAt cfg a := hsame1 a

/-! ### Store forwarding (20_memory R109) -/

theorem forwards_iff {q : LqSlot} {p : SqSlot} : forwards q p = true ↔ p.mustForward q := by
  simp only [forwards, overlaps, SqSlot.mustForward, Bool.and_eq_true, beq_iff_eq, decide_eq_true_eq, and_assoc]

theorem youngest_mem {l : List SqSlot} {y : SqSlot} (h : youngest l = some y) : y ∈ l := by
  induction l generalizing y with
  | nil => cases h
  | cons p rest ih =>
    simp only [youngest] at h
    split at h
    · cases h; exact List.mem_cons_self
    · next z hz =>
      split at h <;> cases h
      · exact List.mem_cons_of_mem _ (ih hz)
      · exact List.mem_cons_self

/-- `youngest` finds the member whose id exceeds every other's. -/
theorem youngest_eq_some {l : List SqSlot} {p : SqSlot} (hp : p ∈ l)
    (hmax : ∀ x ∈ l, x ≠ p → x.instrId < p.instrId) : youngest l = some p := by
  induction l with
  | nil => cases hp
  | cons x rest ih =>
    by_cases hrest : p ∈ rest
    · simp only [youngest, ih hrest fun z hz => hmax z (List.mem_cons_of_mem _ hz)]
      split
      · rfl
      · next hlt => exact congrArg some (by_contra fun hne => hlt (hmax x List.mem_cons_self hne))
    · obtain rfl : p = x := (List.mem_cons.1 hp).resolve_right hrest
      cases hy : youngest rest with
      | none => simp only [youngest, hy]
      | some y =>
        have hmem := youngest_mem hy
        have hlt := hmax y (List.mem_cons_of_mem _ hmem) fun heq => hrest (heq ▸ hmem)
        simp only [youngest, hy, if_neg (Nat.lt_asymm hlt)]

/-- The set `F` of R109. -/
def State.forwarders (s : State) (q : LqSlot) : List SqSlot := (s.sq.map Prod.snd).filter (forwards q)

theorem State.mem_forwarders {s : State} {q : LqSlot} {x : SqSlot} :
    x ∈ s.forwarders q ↔ ∃ e ∈ s.sq, e.2.mustForward q ∧ e.2 = x := by
  simp only [State.forwarders, List.mem_filter, forwards_iff, List.mem_map]
  exact ⟨fun ⟨⟨e, he, heq⟩, hx⟩ => ⟨e, he, heq ▸ hx, heq⟩, fun ⟨e, he, hx, heq⟩ => ⟨⟨e, he, heq⟩, heq ▸ hx⟩⟩

theorem loadValue_of_no_forwarder {s : State} {q : LqSlot} (h : ∀ e ∈ s.sq, ¬ e.2.mustForward q) :
    loadValue s q = s.mem.read s.cfg q.pa q.width := by
  have hnil : (s.sq.map Prod.snd).filter (forwards q) = [] := by
    refine List.eq_nil_iff_forall_not_mem.2 fun x hx => ?_
    obtain ⟨e, he, hf, -⟩ := State.mem_forwarders.1 hx
    exact h e he hf
  simp only [loadValue, hnil, youngest]

theorem loadValue_of_youngest {s : State} {q : LqSlot} {e : Nat × SqSlot} (he : e ∈ s.sq) (hf : e.2.mustForward q)
    (hmax : ∀ e' ∈ s.sq, e'.2.mustForward q → e' ≠ e → e'.2.instrId < e.2.instrId) :
    loadValue s q = if e.2.pa = q.pa ∧ e.2.width = q.width then .ok (truncate e.2.value q.width, s.mem)
      else .error .completionNotEnabled := by
  have hy : youngest ((s.sq.map Prod.snd).filter (forwards q)) = some e.2 := by
    refine youngest_eq_some (State.mem_forwarders.2 ⟨e, he, hf, rfl⟩) fun x hx hne => ?_
    obtain ⟨e', he', hf', rfl⟩ := State.mem_forwarders.1 hx
    exact hmax e' he' hf' fun heq => hne (congrArg Prod.snd heq)
  simp only [loadValue, hy]

/-! ### Completing a load (20_memory R108) -/

section Completion

variable {s : State} {n : Nat} {q : LqSlot}

theorem lqCompletePort_of_free (h : Table.at? s.lq n = none) :
    lqCompletePort s n = .error .completionNotEnabled := by
  simp only [lqCompletePort, completeSlot, h]; rfl

theorem lqCompletePort_of_not_pending (h : Table.at? s.lq n = some q) (hst : q.state ≠ .pending) :
    lqCompletePort s n = .error .completionNotEnabled := by
  simp only [lqCompletePort, completeSlot, h, if_pos hst]; rfl

/-- The state of a completed load before its record is written: the memory the value left and the slot `Completed`. -/
def State.loadDone (s : State) (n : Nat) (q : LqSlot) (m : MemSys) : State :=
  (s.withMem m).withLq (Table.put s.lq n { q with state := .completed })

theorem completeSlot_of_pending (h : Table.at? s.lq n = some q) (hst : q.state = .pending) :
    completeSlot s n = (loadValue s q).map fun vm => (vm.1, s.loadDone n q vm.2) := by
  simp only [completeSlot, h, hst, ne_eq, not_true_eq_false, if_false]
  cases loadValue s q <;> rfl

theorem lqCompletePort_of_error {e : Refusal} (h : Table.at? s.lq n = some q) (hst : q.state = .pending)
    (hv : loadValue s q = .error e) : lqCompletePort s n = .error e := by
  rw [lqCompletePort, completeSlot_of_pending h hst, hv]; rfl

theorem lqCompletePort_no_record {v : Word} {m : MemSys} (h : Table.at? s.lq n = some q) (hst : q.state = .pending)
    (hv : loadValue s q = .ok (v, m)) (hr : Table.at? s.inflight q.instrId = none) :
    lqCompletePort s n = .ok (s.loadDone n q m) := by
  rw [lqCompletePort, completeSlot_of_pending h hst, hv, h]
  simp only [Except.map, Option.bind_some, hr]; rfl

theorem lqCompletePort_record {v : Word} {m : MemSys} {r : Record} (h : Table.at? s.lq n = some q)
    (hst : q.state = .pending) (hv : loadValue s q = .ok (v, m)) (hr : Table.at? s.inflight q.instrId = some r) :
    lqCompletePort s n = .ok ((s.loadDone n q m).withInflight
      (Table.put s.inflight r.id (r.setDest (complete r.completion v)))) := by
  rw [lqCompletePort, completeSlot_of_pending h hst, hv, h]
  simp only [Except.map, Option.bind_some, hr]; rfl

end Completion

/-- Settles O36: the value from the set of forwarding stores, then the completion by the slot's state, the value's
refusal, and whether the slot's record is still in flight. -/
theorem loadCompletion : Obligations.LoadCompletion := by
  intro s n q
  refine ⟨loadValue_of_no_forwarder, fun p hp hf hmax => ?_, lqCompletePort_of_free, lqCompletePort_of_not_pending,
    fun hq hst => ⟨fun e => lqCompletePort_of_error hq hst, fun v m hv => ?_⟩⟩
  · rw [loadValue_of_youngest hp hf hmax]
    exact ⟨fun hmatch => ⟨_, if_pos hmatch, truncate_toNat ..⟩, fun hno => if_neg hno⟩
  · have hself : Table.at? (s.loadDone n q m).lq n = some { q with state := .completed } := Table.at?_put_self ..
    have hother : ∀ k ≠ n, Table.at? (s.loadDone n q m).lq k = Table.at? s.lq k := fun k hk => Table.at?_put_ne _ _ hk
    cases hr : Table.at? s.inflight q.instrId with
    | none =>
      exact ⟨_, lqCompletePort_no_record hq hst hv hr, hself, hother, rfl, rfl, rfl, rfl, rfl,
        fun _ h => absurd h.symm (Option.some_ne_none _), fun _ => rfl⟩
    | some r =>
      refine ⟨_, lqCompletePort_record hq hst hv hr, hself, hother, rfl, rfl, rfl, rfl, rfl,
        fun r' hr' hid => ?_, fun h => absurd h (Option.some_ne_none _)⟩
      obtain rfl := Option.some.inj hr'
      rw [State.withInflight_inflight, ← hid, Table.at?_put_self]
      refine ⟨congrArg (fun b => some (r.setDest b)) ?_, fun k hk => Table.at?_put_ne _ _ hk⟩
      cases r.completion <;> rfl

/-! ### Retirement and discard (20_memory R115, R116) -/

/-- The store-queue slot of a record: the one under its index, if that is tagged with its id (log 35). -/
def State.ownSlot (s : State) (r : Record) (q : SqSlot) : Prop :=
  isStoreOpcode r.opcode = true ∧ Table.at? s.sq r.slot = some q ∧ q.instrId = r.id

theorem State.ownSlot_unique {s : State} {r : Record} {q p : SqSlot} (hq : s.ownSlot r q) (hp : s.ownSlot r p) :
    q = p := by
  obtain ⟨-, hq, -⟩ := hq
  obtain ⟨-, hp, -⟩ := hp
  exact Option.some.inj (hq.symm.trans hp)

theorem commitStore_of_own {s : State} {r : Record} {q : SqSlot} {m : MemSys} (hq : s.ownSlot r q)
    (hp : q.state = .pending) (hm : s.mem.write s.cfg q.pa q.width q.value = .ok m) :
    commitStore s r = .ok ((s.withMem m).withSq (Table.put s.sq r.slot { q with state := .completed })) := by
  obtain ⟨hst, hat, hid⟩ := hq
  simp only [commitStore, hst, hat, hid, hp, and_self, if_true, drainSlot, hm]; rfl

theorem commitStore_of_no_pending {s : State} {r : Record} (h : ∀ q, s.ownSlot r q → q.state ≠ .pending) :
    commitStore s r = .ok s := by
  unfold commitStore
  split
  · next hst =>
    split
    · next q hat => exact if_neg fun ⟨hid, hp⟩ => h q ⟨hst, hat, hid⟩ hp
    · rfl
  · rfl

theorem cancelStore_of_own {s : State} {r : Record} {q : SqSlot} (hq : s.ownSlot r q) :
    cancelStore s r = s.withSq (Table.put s.sq r.slot { q with state := .completed }) := by
  obtain ⟨hst, hat, hid⟩ := hq
  simp only [cancelStore, hst, hat, hid, if_true]

theorem cancelStore_of_no_own {s : State} {r : Record} (h : ∀ q, ¬ s.ownSlot r q) : cancelStore s r = s := by
  unfold cancelStore
  split
  · next hst =>
    split
    · next q hat => exact if_neg fun hid => h q ⟨hst, hat, hid⟩
    · rfl
  · rfl

/-- What the commit of a store does: the own pending slot is written and completed, or nothing happens (R113). -/
theorem commitStore_spec {s : State} {r : Record} (hwf : s.mem.wf s.cfg) (hco : s.mem.coherent s.cfg)
    (hal : ∀ q, s.ownSlot r q → q.pa.toNat % q.width.bytes = 0) :
    ∃ m sq, commitStore s r = .ok ((s.withMem m).withSq sq) ∧
      (∀ q, s.ownSlot r q → q.state = .pending → s.mem.stored s.cfg m q.pa.toNat q.width.bytes q.value ∧
        sq = Table.put s.sq r.slot { q with state := .completed }) ∧
      ((∀ q, s.ownSlot r q → q.state ≠ .pending) → m = s.mem ∧ sq = s.sq) := by
  by_cases h : ∃ q, s.ownSlot r q ∧ q.state = .pending
  · obtain ⟨q, hq, hp⟩ := h
    obtain ⟨m, hm, hstored⟩ := stored_of_write hwf hco (hal q hq) q.value
    refine ⟨m, _, commitStore_of_own hq hp hm, fun q' hq' _ => ?_, fun hno => absurd hp (hno q hq)⟩
    obtain rfl := State.ownSlot_unique hq hq'
    exact ⟨hstored, rfl⟩
  · have hno : ∀ q, s.ownSlot r q → q.state ≠ .pending := fun q hq hp => h ⟨q, hq, hp⟩
    exact ⟨s.mem, s.sq, commitStore_of_no_pending hno, fun q hq hp => absurd hp (hno q hq), fun _ => ⟨rfl, rfl⟩⟩

theorem loadIsComplete_iff {s : State} {r : Record} : loadIsComplete s r = true ↔
    (isLoadOpcode r.opcode = true →
      ∃ q, Table.at? s.lq r.slot = some q ∧ q.instrId = r.id ∧ q.state = .completed) := by
  unfold loadIsComplete
  split
  · next hld => cases Table.at? s.lq r.slot <;> simp [hld]
  · next hld => simp [hld]

/-- A record may retire: it waits, without an exception, in id order, its load completed (R115). -/
structure State.MayRetire (s : State) (r : Record) : Prop where
  waiting : r.state = .waitingRetirement
  outcome : r.outcome = some .noException
  inOrder : s.ids.doneBelow ≤ r.id
  loaded : loadIsComplete s r = true

theorem retireRecord_of_mayRetire {s : State} {r : Record} (h : s.MayRetire r) :
    retireRecord s r = (commitStore (commitLock (s.writeReg r.aDest r.destv.bits) r) r).map (noteDone · r.id) := by
  simp only [retireRecord, h.waiting, h.outcome, Nat.not_lt.2 h.inOrder, h.loaded, ne_eq, not_true_eq_false,
    Bool.not_true, Bool.false_eq_true, if_false]
  cases commitStore (commitLock (s.writeReg r.aDest r.destv.bits) r) r <;> rfl

theorem retireRecord_of_not_mayRetire {s : State} {r : Record} (h : ¬ s.MayRetire r) :
    ∃ e, retireRecord s r = .error e := by
  cases hr : retireRecord s r with
  | error e => exact ⟨e, rfl⟩
  | ok t =>
    obtain ⟨hwait, hout, hord, hload, -⟩ := retireRecord_inv hr
    exact absurd ⟨hwait, hout, hord, hload⟩ h

/-- The state a retirement leaves, but for its record: destination, lock, memory and store queue, ids. -/
def State.retired (s : State) (r : Record) (m : MemSys) (sq : Table SqSlot) : State :=
  noteDone ((((s.writeReg r.aDest r.destv.bits).withCpu (commitLock s r).cpu).withMem m).withSq sq) r.id

theorem State.retired_doneBelow {s : State} {r : Record} (h : s.ids.doneBelow ≤ r.id) (m : MemSys)
    (sq : Table SqSlot) : (s.retired r m sq).ids.doneBelow = r.id + 1 := by
  unfold State.retired
  rw [State.writeReg_eq]
  exact Nat.max_eq_right (Nat.le_succ_of_le h)

theorem commitLock_writeReg (s : State) (r : Record) (d : RegRef) (v : Word) :
    commitLock (s.writeReg d v) r = (s.writeReg d v).withCpu (commitLock s r).cpu := by
  rw [State.writeReg_eq, commitLock_eq, commitLock_eq]; rfl

/-- What a retirement commits (R115). -/
theorem retireRecord_spec {s : State} {r : Record} (h : s.MayRetire r) (hwf : s.mem.wf s.cfg)
    (hco : s.mem.coherent s.cfg) (hal : ∀ q, s.ownSlot r q → q.pa.toNat % q.width.bytes = 0) :
    ∃ m sq, retireRecord s r = .ok (s.retired r m sq) ∧
      (∀ q, s.ownSlot r q → q.state = .pending → s.mem.stored s.cfg m q.pa.toNat q.width.bytes q.value ∧
        sq = Table.put s.sq r.slot { q with state := .completed }) ∧
      ((∀ q, s.ownSlot r q → q.state ≠ .pending) → m = s.mem ∧ sq = s.sq) := by
  rw [retireRecord_of_mayRetire h, commitLock_writeReg]
  unfold State.retired
  rw [State.writeReg_eq]
  obtain ⟨m, sq, hrun, hown, hnone⟩ := commitStore_spec (s := ((s.withX (regsAfter s r.aDest r.destv.bits).1).withF
    (regsAfter s r.aDest r.destv.bits).2).withCpu (commitLock s r).cpu) (r := r) hwf hco hal
  exact ⟨m, sq, by rw [hrun]; rfl, hown, hnone⟩

theorem retirePort_eq {s : State} {r : Record} {id : Nat} (h : Table.at? s.inflight id = some r) :
    retirePort s id = (retireRecord s r).map fun u => u.withInflight (Table.del u.inflight id) := by
  simp only [retirePort, recordOf, h, bind, Except.bind]
  cases retireRecord s r <;> rfl

theorem discardPort_eq {s : State} {r : Record} {id : Nat} (h : Table.at? s.inflight id = some r) :
    discardPort s id = (discardRecord s r).map fun u => u.withInflight (Table.del u.inflight id) := by
  simp only [discardPort, recordOf, h, bind, Except.bind]
  cases discardRecord s r <;> rfl

/-- Settles O40: a retirement that may not happen is refused, another commits `State.retired`. -/
theorem retireCommits : Obligations.RetireCommits := by
  intro s r hat hwf hco
  rw [retirePort_eq hat]
  refine ⟨fun hbad => ?_, fun hwait hout hord hload hal => ?_⟩
  · obtain ⟨e, he⟩ := retireRecord_of_not_mayRetire (s := s) (r := r) fun hmay => by
      rcases hbad with hst | hout | hord | ⟨hld, hno⟩
      · exact hst hmay.waiting
      · exact hout hmay.outcome
      · exact Nat.not_lt.2 hmay.inOrder hord
      · exact hno (loadIsComplete_iff.1 hmay.loaded hld)
    exact ⟨e, by rw [he]; rfl⟩
  · obtain ⟨m, sq, hrun, hown, hnone⟩ := retireRecord_spec ⟨hwait, hout, hord, loadIsComplete_iff.2 hload⟩ hwf hco
      fun q ⟨hst, hq, _⟩ => hal q hst hq
    rw [hrun]
    refine ⟨_, rfl, rfl, rfl, congrArg State.cpu (commitLock_eq s r), State.retired_doneBelow hord m sq,
      Table.at?_del_self .., fun q hst hq hid hp => ?_, fun hno => hnone fun q ⟨hst, hq, hid⟩ hp =>
        hno ⟨q, hst, hq, hid, hp⟩⟩
    obtain ⟨hstored, hsq⟩ := hown q ⟨hst, hq, hid⟩ hp
    exact ⟨hstored, (congrArg (Table.at? · r.slot) hsq).trans (Table.at?_put_self ..)⟩

theorem discardRecord_of_not_waiting {s : State} {r : Record} (h : r.state ≠ .waitingRetirement) :
    discardRecord s r = .error .recordNotWaiting := if_pos h

theorem discardRecord_of_waiting {s : State} {r : Record} (h : r.state = .waitingRetirement) :
    discardRecord s r = .ok (noteDone (cancelStore s r) r.id) := if_neg (not_not_intro h)

/-- What the cancellation of a store does: the own slot is completed unwritten, and no other slot changes. -/
theorem cancelStore_spec (s : State) (r : Record) :
    ∃ sq, cancelStore s r = s.withSq sq ∧
      (∀ q, s.ownSlot r q → Table.at? sq r.slot = some { q with state := .completed }) ∧
      ∀ j, (isStoreOpcode r.opcode = true → j ≠ r.slot) → Table.at? sq j = Table.at? s.sq j := by
  by_cases h : ∃ q, s.ownSlot r q
  · obtain ⟨q, hq⟩ := h
    refine ⟨_, cancelStore_of_own hq, fun q' hq' => ?_, fun j hj => Table.at?_put_ne _ _ (hj hq.1)⟩
    obtain rfl := State.ownSlot_unique hq hq'
    exact Table.at?_put_self ..
  · have hno : ∀ q, ¬ s.ownSlot r q := fun q hq => h ⟨q, hq⟩
    exact ⟨s.sq, cancelStore_of_no_own hno, fun q hq => absurd hq (hno q), fun _ _ => rfl⟩

/-- Settles O41: a discard changes the store queue by `cancelStore`, the ids and the records in flight. -/
theorem discardCommitsNothing : Obligations.DiscardCommitsNothing := by
  intro s r hat
  rw [discardPort_eq hat]
  refine ⟨fun hst => ⟨_, by rw [discardRecord_of_not_waiting hst]; rfl⟩, fun hwait => ?_⟩
  obtain ⟨sq, hcancel, hown, hframe⟩ := cancelStore_spec s r
  rw [discardRecord_of_waiting hwait, hcancel]
  refine ⟨_, rfl, rfl, rfl, rfl, rfl, rfl, Table.at?_del_self .., Nat.lt_of_lt_of_le (Nat.lt_succ_self _)
    (Nat.le_max_right ..), fun q hst hq hid => hown q ⟨hst, hq, hid⟩, hframe⟩

end Sys2Proof.Machine
end

section
/-!
PROOFS of the encoding family: decoding gives an encoded instruction back (O1, O4), and one specification of the
decoder's answer for every word (O2, O3).
-/

namespace Sys2Proof

/-! ### From an instruction to its word and back (30_encoding R131 to R142) -/

theorem decodeBytes_bytesOfWord (w : InstrWord) : decodeBytes (Machine.bytesOfWord w) = decodeWord w :=
  congrArg decodeWord (wordOfBytes_bytes w)

/-- The opcodes that need a function, and the decoder of each. -/
theorem decodeWord_of_opcode (w : InstrWord) :
    (opcodeField w = 0x10#6 → decodeWord w = decodeOp10 w) ∧
    (opcodeField w = 0x11#6 → decodeWord w = decodeOp11 w) ∧
    (opcodeField w = 0x12#6 → decodeWord w = decodeOp12 w) ∧
    (opcodeField w = 0x13#6 → decodeWord w = decodeOp13 w) ∧
    (opcodeField w = 0x1C#6 → decodeWord w = decodeOp1C w) ∧
    (opcodeField w = 0x15#6 → decodeWord w = (decodeOp15 w).bind (checkQualifiers w)) ∧
    (opcodeField w = 0x16#6 → decodeWord w = (decodeOp16 w).bind (checkQualifiers w)) ∧
    (opcodeField w = 0x17#6 → decodeWord w = decodeOp17 w) ∧
    (opcodeField w = 0x18#6 → decodeWord w = decodeOp18 w) := by
  refine ⟨?_, ?_, ?_, ?_, ?_, ?_, ?_, ?_, ?_⟩ <;> intro h <;> simp only [decodeWord, h]

theorem checkQualifiers_of_wellFormed {i : Instr} (w : InstrWord) (h : i.wellFormed = true) :
    checkQualifiers w i = .ok i := if_pos h

theorem decodeWord_encode (i : Instr) (h : i.wellFormed = true) : decodeWord (encode i) = .ok i := by
  cases i with
  | lda | ldah | ldbu | ldq_u | ldwu | stw | stb | stq_u | ldl | ldq | ldl_l | ldq_l | stl | stq | stl_c | stq_c =>
    simp only [encode, decodeWord, fields_encodeMem]
  | rc | rs => simp only [encode, decodeWord_of_opcode, decodeOp18, fields_encodeMem]
  | addl | s4addl | subl | s4subl | cmpbge | s8addl | s8subl | cmpult | addq | s4addq | subq | s4subq | cmpeq
  | s8addq | s8subq | cmpule | addl_v | subl_v | cmplt | addq_v | subq_v | cmple =>
    simp only [encode, decodeWord_of_opcode, decodeOp10, fields_encodeOpr]
  | and | bic | cmovlbs | cmovlbc | bis | cmoveq | cmovne | ornot | xor | cmovlt | cmovge | eqv | cmovle | cmovgt =>
    simp only [encode, decodeWord_of_opcode, decodeOp11, fields_encodeOpr]
  | mskbl | extbl | insbl | mskwl | extwl | inswl | mskll | extll | insll | zap | zapnot | mskql | srl | extql | sll
  | insql | sra | mskwh | inswh | extwh | msklh | inslh | extlh | mskqh | insqh | extqh =>
    simp only [encode, decodeWord_of_opcode, decodeOp12, fields_encodeOpr]
  | mull | mulq | umulh | mull_v | mulq_v => simp only [encode, decodeWord_of_opcode, decodeOp13, fields_encodeOpr]
  | sextb | sextw | perr | ctlz | cttz | unpkbw | unpkbl | pkwb | pklb | minsb8 | minsw4 | minub8 | minuw4 | maxub8
  | maxuw4 | maxsb8 | maxsw4 => simp only [encode, decodeWord_of_opcode, decodeOp1C, fields_encodeOpr]
  | addf | mulf | addg | mulg =>
    simp only [encode, decodeWord_of_opcode, decodeOp15, fields_encodeFp, fields_encodeFp_arith, Except.bind,
      checkQualifiers_of_wellFormed _ h]
  | adds | muls | addt | mult =>
    simp only [encode, decodeWord_of_opcode, decodeOp16, fields_encodeFp, fields_encodeFp_arith, Except.bind,
      checkQualifiers_of_wellFormed _ h]
  | cvtlq | cpys | cpysn | cpyse | mt_fpcr | mf_fpcr | fcmoveq | fcmovne | fcmovlt | fcmovge | fcmovle | fcmovgt
  | cvtql | cvtql_v | cvtql_sv => simp only [encode, decodeWord_of_opcode, decodeOp17, fields_encodeFp]

/-- Settles O1: the four bytes are the word, and the word gives the instruction back. -/
theorem decodeOfEncode : Obligations.DecodeOfEncode := fun i h =>
  (decodeBytes_bytesOfWord (encode i)).trans (decodeWord_encode i h)

/-- Settles O4: each word is the encoding of its instruction; the rejected one is evaluated. -/
theorem decodeSanity : Obligations.DecodeSanity :=
  ⟨decodeWord_encode (.lda 1 2 0xFFF8) rfl, decodeWord_encode (.stq_c 3 30 0x0010) rfl,
    decodeWord_encode (.addq_v 1 (.reg 2) 3) rfl, decodeWord_encode (.extbl 4 (.lit 255) 5) rfl,
    decodeWord_encode (.maxsw4 6 (.reg 7) 8) rfl, decodeWord_encode (.mult 1 2 3 0b111 0b10) rfl, by decide,
    decodeWord_encode (.cvtql_sv 31 2 3) rfl, decodeWord_encode (.rs 9 31) rfl⟩

/-! ### The word an instruction comes back as (R135, R144) -/

/-- The opcodes of the `Opr` format. -/
def oprOpcodes : List (BitVec 6) := [0x10#6, 0x11#6, 0x12#6, 0x13#6, 0x1C#6]

/-- The word with the ignored bits 15:13 of the register form of the `Opr` format cleared. -/
def canonicalWord (w : InstrWord) : InstrWord :=
  if opcodeField w ∈ oprOpcodes ∧ useLiteralField w = 0#1 then w &&& 0xFFFF1FFF#32 else w

section
variable {w : InstrWord} {op : BitVec 6}

theorem canonicalWord_of_not_opr (h : opcodeField w = op) (hop : op ∉ oprOpcodes) : canonicalWord w = w :=
  if_neg fun hc => hop (h ▸ hc.1)

theorem canonicalWord_eq_encodeOpr (h : opcodeField w = op) (hop : op ∈ oprOpcodes) :
    canonicalWord w = encodeOpr op (oprFunctionField w) (raField w) (opndField w) (rcField w) := by
  subst h
  rw [encodeOpr_fields, canonicalWord]
  simp only [hop, true_and]

theorem canonicalWord_eq_encodeMem (h : opcodeField w = op) (hop : op ∉ oprOpcodes) :
    canonicalWord w = encodeMem op (raField w) (rbField w) (dispField w) := by
  rw [canonicalWord_of_not_opr h hop, ← h, encodeMem_fields]

theorem canonicalWord_eq_encodeFp (h : opcodeField w = op) (hop : op ∉ oprOpcodes) :
    canonicalWord w = encodeFp op (fpFunctionField w) (raField w) (rbField w) (rcField w) := by
  rw [canonicalWord_of_not_opr h hop, ← h, encodeFp_fields]

theorem canonicalWord_eq_encodeFp_arith (h : opcodeField w = op) (hop : op ∉ oprOpcodes) :
    canonicalWord w =
      encodeFp op (fpFunction (trpField w) (rndField w) (srcFncField w)) (raField w) (rbField w) (rcField w) := by
  rw [canonicalWord_of_not_opr h hop, ← h, encodeFp_fields_arith]

end

/-! ### The opcode map (R140 to R142) -/

/-- The opcodes that are an instruction of the `Mem` format by themselves. -/
def memOpcodes : List (BitVec 6) :=
  [0x08#6, 0x09#6, 0x0A#6, 0x0B#6, 0x0C#6, 0x0D#6, 0x0E#6, 0x0F#6, 0x28#6, 0x29#6, 0x2A#6, 0x2B#6,
    0x2C#6, 0x2D#6, 0x2E#6, 0x2F#6]

/-- The functions of opcode `0x10`. -/
def functions10 : List (BitVec 7) :=
  [0x00#7, 0x02#7, 0x09#7, 0x0B#7, 0x0F#7, 0x12#7, 0x1B#7, 0x1D#7, 0x20#7, 0x22#7, 0x29#7, 0x2B#7,
    0x2D#7, 0x32#7, 0x3B#7, 0x3D#7, 0x40#7, 0x49#7, 0x4D#7, 0x60#7, 0x69#7, 0x6D#7]

/-- The functions of opcode `0x11`. -/
def functions11 : List (BitVec 7) :=
  [0x00#7, 0x08#7, 0x14#7, 0x16#7, 0x20#7, 0x24#7, 0x26#7, 0x28#7, 0x40#7, 0x44#7, 0x46#7, 0x48#7,
    0x64#7, 0x66#7]

/-- The functions of opcode `0x12`. -/
def functions12 : List (BitVec 7) :=
  [0x02#7, 0x06#7, 0x0B#7, 0x12#7, 0x16#7, 0x1B#7, 0x22#7, 0x26#7, 0x2B#7, 0x30#7, 0x31#7, 0x32#7,
    0x34#7, 0x36#7, 0x39#7, 0x3B#7, 0x3C#7, 0x52#7, 0x57#7, 0x5A#7, 0x62#7, 0x67#7, 0x6A#7, 0x72#7,
    0x77#7, 0x7A#7]

/-- The functions of opcode `0x13`. -/
def functions13 : List (BitVec 7) := [0x00#7, 0x20#7, 0x30#7, 0x40#7, 0x60#7]

/-- The functions of opcode `0x1C`. -/
def functions1C : List (BitVec 7) :=
  [0x00#7, 0x01#7, 0x31#7, 0x32#7, 0x33#7, 0x34#7, 0x35#7, 0x36#7, 0x37#7, 0x38#7, 0x39#7, 0x3A#7,
    0x3B#7, 0x3C#7, 0x3D#7, 0x3E#7, 0x3F#7]

/-- `SRC` and `FNC` of the floating arithmetic rows, the same for opcodes `0x15` and `0x16`. -/
def arithFunctions : List (BitVec 6) := [0x00#6, 0x02#6, 0x20#6, 0x22#6]

/-- The functions of opcode `0x17`. -/
def functions17 : List (BitVec 11) :=
  [0x010#11, 0x020#11, 0x021#11, 0x022#11, 0x024#11, 0x025#11, 0x02A#11, 0x02B#11, 0x02C#11,
    0x02D#11, 0x02E#11, 0x02F#11, 0x030#11, 0x130#11, 0x530#11]

/-- The word has an opcode and function of the map, with defined qualifiers. -/
def InOpcodeMap (w : InstrWord) : Prop :=
  opcodeField w ∈ memOpcodes ∨
  (opcodeField w = 0x10#6 ∧ oprFunctionField w ∈ functions10) ∨
  (opcodeField w = 0x11#6 ∧ oprFunctionField w ∈ functions11) ∨
  (opcodeField w = 0x12#6 ∧ oprFunctionField w ∈ functions12) ∨
  (opcodeField w = 0x13#6 ∧ oprFunctionField w ∈ functions13) ∨
  (opcodeField w = 0x1C#6 ∧ oprFunctionField w ∈ functions1C) ∨
  (opcodeField w = 0x15#6 ∧ srcFncField w ∈ arithFunctions ∧
    trpField w ∈ [0b000#3, 0b001#3, 0b100#3, 0b101#3] ∧ rndField w ∈ [0b00#2, 0b10#2]) ∨
  (opcodeField w = 0x16#6 ∧ srcFncField w ∈ arithFunctions ∧
    trpField w ∈ [0b000#3, 0b001#3, 0b101#3, 0b111#3]) ∨
  (opcodeField w = 0x17#6 ∧ fpFunctionField w ∈ functions17) ∨
  (opcodeField w = 0x18#6 ∧ dispField w ∈ [0xE000#16, 0xF000#16])

/-! ### What the decoder answers for a word (R143) -/

/-- The right answer for `w`: a well-formed instruction that encodes to the word, up to the ignored bits, if `w` is
in the map, and an error if it is not. -/
def AnswersFor (w : InstrWord) : Except DecodeError Instr → Prop
  | .ok i => InOpcodeMap w ∧ i.wellFormed = true ∧ encode i = canonicalWord w
  | .error _ => ¬ InOpcodeMap w

section
variable {w : InstrWord}

theorem decodeOp10_answers (h : opcodeField w = 0x10#6) : AnswersFor w (decodeOp10 w) := by
  have hmap : InOpcodeMap w ↔ oprFunctionField w ∈ functions10 := by simp [InOpcodeMap, memOpcodes, h]
  have hword := canonicalWord_eq_encodeOpr h (by decide)
  unfold decodeOp10
  split
  case h_23 => simp_all [AnswersFor, functions10]
  all_goals
    rename_i hfn
    rw [hfn] at hmap hword
    exact ⟨hmap.2 (by decide), rfl, hword.symm⟩

theorem decodeOp11_answers (h : opcodeField w = 0x11#6) : AnswersFor w (decodeOp11 w) := by
  have hmap : InOpcodeMap w ↔ oprFunctionField w ∈ functions11 := by simp [InOpcodeMap, memOpcodes, h]
  have hword := canonicalWord_eq_encodeOpr h (by decide)
  unfold decodeOp11
  split
  case h_15 => simp_all [AnswersFor, functions11]
  all_goals
    rename_i hfn
    rw [hfn] at hmap hword
    exact ⟨hmap.2 (by decide), rfl, hword.symm⟩

theorem decodeOp12_answers (h : opcodeField w = 0x12#6) : AnswersFor w (decodeOp12 w) := by
  have hmap : InOpcodeMap w ↔ oprFunctionField w ∈ functions12 := by simp [InOpcodeMap, memOpcodes, h]
  have hword := canonicalWord_eq_encodeOpr h (by decide)
  unfold decodeOp12
  split
  case h_27 => simp_all [AnswersFor, functions12]
  all_goals
    rename_i hfn
    rw [hfn] at hmap hword
    exact ⟨hmap.2 (by decide), rfl, hword.symm⟩

theorem decodeOp13_answers (h : opcodeField w = 0x13#6) : AnswersFor w (decodeOp13 w) := by
  have hmap : InOpcodeMap w ↔ oprFunctionField w ∈ functions13 := by simp [InOpcodeMap, memOpcodes, h]
  have hword := canonicalWord_eq_encodeOpr h (by decide)
  unfold decodeOp13
  split
  case h_6 => simp_all [AnswersFor, functions13]
  all_goals
    rename_i hfn
    rw [hfn] at hmap hword
    exact ⟨hmap.2 (by decide), rfl, hword.symm⟩

theorem decodeOp1C_answers (h : opcodeField w = 0x1C#6) : AnswersFor w (decodeOp1C w) := by
  have hmap : InOpcodeMap w ↔ oprFunctionField w ∈ functions1C := by simp [InOpcodeMap, memOpcodes, h]
  have hword := canonicalWord_eq_encodeOpr h (by decide)
  unfold decodeOp1C
  split
  case h_18 => simp_all [AnswersFor, functions1C]
  all_goals
    rename_i hfn
    rw [hfn] at hmap hword
    exact ⟨hmap.2 (by decide), rfl, hword.symm⟩

theorem decodeOp17_answers (h : opcodeField w = 0x17#6) : AnswersFor w (decodeOp17 w) := by
  have hmap : InOpcodeMap w ↔ fpFunctionField w ∈ functions17 := by simp [InOpcodeMap, memOpcodes, h]
  have hword := canonicalWord_eq_encodeFp h (by decide)
  unfold decodeOp17
  split
  case h_16 => simp_all [AnswersFor, functions17]
  all_goals
    rename_i hfn
    rw [hfn] at hmap hword
    exact ⟨hmap.2 (by decide), rfl, hword.symm⟩

theorem decodeOp18_answers (h : opcodeField w = 0x18#6) : AnswersFor w (decodeOp18 w) := by
  have hmap : InOpcodeMap w ↔ dispField w ∈ [0xE000#16, 0xF000#16] := by simp [InOpcodeMap, memOpcodes, h]
  have hword := canonicalWord_eq_encodeMem h (by decide)
  unfold decodeOp18
  split
  case h_3 => simp_all [AnswersFor]
  all_goals
    rename_i hfn
    rw [hfn] at hmap hword
    exact ⟨hmap.2 (by decide), rfl, hword.symm⟩

theorem vaxTrpOk_iff {trp : BitVec 3} : vaxTrpOk trp = true ↔ trp ∈ [0b000#3, 0b001#3, 0b100#3, 0b101#3] := by
  revert trp; decide

theorem vaxRndOk_iff {rnd : BitVec 2} : vaxRndOk rnd = true ↔ rnd ∈ [0b00#2, 0b10#2] := by
  revert rnd; decide

theorem ieeeTrpOk_iff {trp : BitVec 3} : ieeeTrpOk trp = true ↔ trp ∈ [0b000#3, 0b001#3, 0b101#3, 0b111#3] := by
  revert trp; decide

/-- The check keeps an instruction that encodes to the word exactly if its qualifiers are what puts `w` in the map. -/
theorem checkQualifiers_answers {i : Instr} (hmap : InOpcodeMap w ↔ i.wellFormed = true)
    (henc : encode i = canonicalWord w) : AnswersFor w (checkQualifiers w i) := by
  unfold checkQualifiers
  split
  case isTrue hwf => exact ⟨hmap.2 hwf, hwf, henc⟩
  case isFalse hwf => exact fun hw => hwf (hmap.1 hw)

theorem decodeOp15_answers (h : opcodeField w = 0x15#6) :
    AnswersFor w ((decodeOp15 w).bind (checkQualifiers w)) := by
  have hmap : InOpcodeMap w ↔
      srcFncField w ∈ arithFunctions ∧ vaxTrpOk (trpField w) = true ∧ vaxRndOk (rndField w) = true := by
    rw [vaxTrpOk_iff, vaxRndOk_iff]; simp [InOpcodeMap, memOpcodes, h]
  have hword := canonicalWord_eq_encodeFp_arith h (by decide)
  unfold decodeOp15
  split
  case h_5 => simp_all [Except.bind, AnswersFor, arithFunctions]
  all_goals exact checkQualifiers_answers (by simp_all [arithFunctions, Instr.wellFormed]) (by simp_all [encode])

theorem decodeOp16_answers (h : opcodeField w = 0x16#6) :
    AnswersFor w ((decodeOp16 w).bind (checkQualifiers w)) := by
  have hmap : InOpcodeMap w ↔ srcFncField w ∈ arithFunctions ∧ ieeeTrpOk (trpField w) = true := by
    rw [ieeeTrpOk_iff]; simp [InOpcodeMap, memOpcodes, h]
  have hword := canonicalWord_eq_encodeFp_arith h (by decide)
  unfold decodeOp16
  split
  case h_5 => simp_all [Except.bind, AnswersFor, arithFunctions]
  all_goals exact checkQualifiers_answers (by simp_all [arithFunctions, Instr.wellFormed]) (by simp_all [encode])

/-- An opcode of the `Mem` format needs no function. -/
theorem answersFor_of_mem {op : BitVec 6} {i : Instr} (h : opcodeField w = op) (hop : op ∈ memOpcodes)
    (hwf : i.wellFormed = true) (henc : encode i = encodeMem op (raField w) (rbField w) (dispField w)) :
    AnswersFor w (.ok i) :=
  have hnot : ∀ o ∈ memOpcodes, o ∉ oprOpcodes := by decide
  ⟨.inl (h ▸ hop), hwf, henc.trans (canonicalWord_eq_encodeMem h (hnot op hop)).symm⟩

end

theorem decodeWord_answers (w : InstrWord) : AnswersFor w (decodeWord w) := by
  unfold decodeWord
  split
  case h_17 h => exact decodeOp10_answers h
  case h_18 h => exact decodeOp11_answers h
  case h_19 h => exact decodeOp12_answers h
  case h_20 h => exact decodeOp13_answers h
  case h_21 h => exact decodeOp1C_answers h
  case h_22 h => exact decodeOp15_answers h
  case h_23 h => exact decodeOp16_answers h
  case h_24 h => exact decodeOp17_answers h
  case h_25 h => exact decodeOp18_answers h
  case h_26 => simp_all [AnswersFor, InOpcodeMap, memOpcodes]
  all_goals exact answersFor_of_mem ‹opcodeField w = _› (by decide) rfl rfl

/-- Settles O2, from the answer of the decoder. -/
theorem encodeOfDecode : Obligations.EncodeOfDecode := by
  intro w i h
  have hans := decodeWord_answers w
  rw [h] at hans
  obtain ⟨-, hwf, henc⟩ := hans
  exact ⟨hwf, henc⟩

theorem decodeWord_ok_iff (w : InstrWord) : (∃ i, decodeWord w = .ok i) ↔ InOpcodeMap w := by
  have hans := decodeWord_answers w
  cases hd : decodeWord w with
  | ok i =>
    rw [hd] at hans
    exact ⟨fun _ => hans.1, fun _ => ⟨i, rfl⟩⟩
  | error e =>
    rw [hd] at hans
    exact ⟨fun ⟨_, hi⟩ => (nomatch hi), fun hw => absurd hw hans⟩

theorem Machine.runWord_of_not_decodes {w : InstrWord} (s : State) (hbne : opcodeField w ≠ bneOpcode)
    (h : ∀ i, decodeWord w ≠ .ok i) : runWord w s = .refused (.undecodable w) := by
  unfold runWord
  rw [if_neg hbne, decodeBytes_bytesOfWord]
  cases hd : decodeWord w with
  | ok i => exact absurd hd (h i)
  | error e => rfl

/-- Settles O3: the words that decode are those of the opcode map, and the sequencer refuses the others. -/
theorem decodableWords : Obligations.DecodableWords := fun w =>
  ⟨decodeWord_ok_iff w, fun s => Machine.runWord_of_not_decodes s⟩

end Sys2Proof
end

section
/-!
O9 to O13: how an `Opr` instruction without a side effect ends, once for every such instruction; then what the
compares, the multiplier and the overflow tests of 41_integer_arithmetic compute.
-/

namespace Sys2Proof.Machine

/-! ### An `Opr` instruction, from its word to its end state -/

/-- `i` is the `Opr` instruction of one row of the opcode map: its word and its record carry the row's opcode and
function (30_encoding R135, R137). -/
structure OprRow (i : Instr) (op : BitVec 6) (fn : BitVec 7) (ra : RegIdx) (b : Opnd) (rc : RegIdx) : Prop where
  opcode : isOprOpcode op = true := by rfl
  wellFormed : i.wellFormed = true := by rfl
  encode_eq : encode i = encodeOpr op fn ra b rc := by rfl
  queue : queueOf i = .none := by rfl
  form : ∀ s, formOf s i = oprRecord s op fn ra b rc := by intro; rfl

theorem not_memory_of_isOprOpcode (op : BitVec 6) (h : isOprOpcode op = true) :
    isLoadOpcode op = false ∧ isStoreOpcode op = false ∧ isCondStoreOpcode op = false := by
  revert op; decide

namespace OprRow

variable {i : Instr} {op : BitVec 6} {fn : BitVec 7} {ra rc : RegIdx} {b : Opnd} {s : State} {v : Word}
  {f : Word → Word → Word} {overflow : Word → Word → Bool}

theorem decodes (h : OprRow i op fn ra b rc) : decodeWord (encodeOpr op fn ra b rc) = .ok i :=
  h.encode_eq ▸ decodeWord_encode i h.wellFormed

theorem exec_eq (h : OprRow i op fn ra b rc) :
    exec i s = runInstr .none (oprRecord s op fn ra b rc) (executorOf i) s := by
  rw [Machine.exec_eq, h.queue, h.form]

theorem regForm (h : OprRow i op fn ra b rc) : RegForm s (oprRecord s op fn ra b rc) :=
  have ⟨hl, hs, hc⟩ := not_memory_of_isOprOpcode op h.opcode
  oprRecord_form s fn ra b rc hl hs hc

/-- An instruction computed from its operands alone decodes and writes its result. -/
theorem writes (h : OprRow i op fn ra b rc) (hr : s.ready) (hx : executorOf i = pureExec f)
    (hv : v = f (s.readX ra) (s.operand b)) :
    decodeWord (encodeOpr op fn ra b rc) = .ok i ∧ exec i s = .next (s.afterX rc v) := by
  obtain ⟨hl, hs, hc⟩ := not_memory_of_isOprOpcode op h.opcode
  refine ⟨h.decodes, ?_⟩
  rw [h.exec_eq, hx, runInstr_opr hr op h.opcode hl hs hc, ← hv]

/-- An overflow-checked form whose test passes writes its result (41 R208). -/
theorem checked_writes (h : OprRow i op fn ra b rc) (hr : s.ready) (hx : executorOf i = checkedExec overflow f)
    (hov : overflow (s.readX ra) (s.operand b) = false) (hv : v = f (s.readX ra) (s.operand b)) :
    exec i s = .next (s.afterX rc v) := by
  obtain ⟨ha, hb, hd⟩ := oprRecord_ports s fn ra b rc h.opcode
  rw [h.exec_eq, hx, runInstr_doneWith h.regForm hr (c := s.cpu) (v := v)]
  · rw [hd]; rfl
  · rw [checkedExec, ha, hb, hov, ← hv]; rfl

/-- An overflow-checked form whose test fails traps with `IntegerOverflow` and writes nothing (41 R208). -/
theorem checked_traps (h : OprRow i op fn ra b rc) (hr : s.ready) (hx : executorOf i = checkedExec overflow f)
    (hov : overflow (s.readX ra) (s.operand b) = true) :
    exec i s = .next (s.afterTrap (.arithmeticTraps { integerOverflow := true })) := by
  obtain ⟨ha, hb, -⟩ := oprRecord_ports s fn ra b rc h.opcode
  rw [h.exec_eq, hx, runInstr_trap h.regForm hr (c := s.cpu) (o := .arithmeticTraps .integerOverflowOnly) nofun]
  · rfl
  · rw [checkedExec, ha, hb, hov]; rfl

/-- Both ends of an overflow-checked form whose test is that `fits` fails. -/
theorem checked_ends (h : OprRow i op fn ra b rc) (hr : s.ready) (hx : executorOf i = checkedExec overflow f)
    {fits : Prop} (hov : overflow (s.readX ra) (s.operand b) = true ↔ ¬ fits)
    (hv : fits → v = f (s.readX ra) (s.operand b)) :
    (fits → exec i s = .next (s.afterX rc v)) ∧
    (¬ fits → exec i s = .next (s.afterTrap (.arithmeticTraps { integerOverflow := true }))) :=
  ⟨fun hf => h.checked_writes hr hx (Bool.eq_false_iff.2 fun e => hov.1 e hf) (hv hf),
    fun hf => h.checked_traps hr hx (hov.2 hf)⟩

end OprRow

/-! ### Add and subtract (41 R181 to R196) -/

/-- Settles O9: each form is an `Opr` row computed from its operands. -/
theorem addSubtract : Obligations.AddSubtract := by
  rintro s ra rc b hr A B rfl rfl
  exact ⟨OprRow.writes (f := fun x y => sext32 (x + y)) {} hr rfl rfl,
    OprRow.writes (f := fun x y => x + y) {} hr rfl rfl,
    OprRow.writes (f := fun x y => sext32 (x - y)) {} hr rfl rfl,
    OprRow.writes (f := fun x y => x - y) {} hr rfl rfl,
    OprRow.writes (f := fun x y => sext32 ((x <<< 2) + y)) {} hr rfl rfl,
    OprRow.writes (f := fun x y => sext32 ((x <<< 3) + y)) {} hr rfl rfl,
    OprRow.writes (f := fun x y => sext32 ((x <<< 2) - y)) {} hr rfl rfl,
    OprRow.writes (f := fun x y => sext32 ((x <<< 3) - y)) {} hr rfl rfl,
    OprRow.writes (f := fun x y => (x <<< 2) + y) {} hr rfl rfl,
    OprRow.writes (f := fun x y => (x <<< 3) + y) {} hr rfl rfl,
    OprRow.writes (f := fun x y => (x <<< 2) - y) {} hr rfl rfl,
    OprRow.writes (f := fun x y => (x <<< 3) - y) {} hr rfl rfl⟩

/-! ### Compare (41 R197 to R201) -/

theorem boolWord_eq_ite {t : Bool} {p : Prop} [Decidable p] (h : t = true ↔ p) : boolWord t = if p then 1 else 0 :=
  if_congr h rfl rfl

/-- Settles O10: each test of the model is the comparison it stands for. -/
theorem compare : Obligations.Compare := by
  rintro s ra rc b hr A B rfl rfl
  exact ⟨OprRow.writes (f := fun x y => boolWord (x == y)) {} hr rfl (boolWord_eq_ite beq_iff_eq).symm,
    OprRow.writes (f := fun x y => boolWord (x.slt y)) {} hr rfl (boolWord_eq_ite BitVec.slt_iff_toInt_lt).symm,
    OprRow.writes (f := fun x y => boolWord (x.sle y)) {} hr rfl (boolWord_eq_ite BitVec.sle_iff_toInt_le).symm,
    OprRow.writes (f := fun x y => boolWord (x.ult y)) {} hr rfl (boolWord_eq_ite BitVec.ult_iff_toNat_lt).symm,
    OprRow.writes (f := fun x y => boolWord (x.ule y)) {} hr rfl (boolWord_eq_ite BitVec.ule_iff_toNat_le).symm⟩

/-! ### The multiplier's algorithm (40_primitives R168) -/

/-- The carry out of a sum, found by comparing the sum with its addend. -/
theorem carry_add (x y : Word) :
    (boolWord ((x + y).ult x)).toNat * 2 ^ 64 + (x + y).toNat = x.toNat + y.toNat := by
  have hx := x.isLt
  have hy := y.isLt
  rw [boolWord_eq_ite BitVec.ult_iff_toNat_lt, BitVec.toNat_add]
  split <;> simp <;> omega

/-- A partial product shifted left by 32 loses its high half, which is what the right shift keeps. -/
theorem shift_halves (x : Word) : (x >>> 32).toNat * 2 ^ 64 + (x <<< 32).toNat = x.toNat * 2 ^ 32 := by
  have hx := x.isLt
  simp only [BitVec.toNat_ushiftRight, BitVec.toNat_shiftLeft, Nat.shiftRight_eq_div_pow, Nat.shiftLeft_eq]
  omega

theorem longword_halves (x : Word) :
    (x >>> 32).toNat * 2 ^ 32 + (x &&& 0xFFFFFFFF#64).toNat = x.toNat ∧
    (x >>> 32).toNat < 2 ^ 32 ∧ (x &&& 0xFFFFFFFF#64).toNat < 2 ^ 32 := by
  have hx := x.isLt
  have hlow : (x &&& 0xFFFFFFFF#64).toNat = x.toNat % 2 ^ 32 := by
    rw [BitVec.toNat_and]; exact Nat.and_two_pow_sub_one_eq_mod x.toNat 32
  rw [hlow, BitVec.toNat_ushiftRight, Nat.shiftRight_eq_div_pow]
  omega

/-- The product of two longwords fits a quadword. -/
theorem toNat_mul_longwords {x y : Word} (hx : x.toNat < 2 ^ 32) (hy : y.toNat < 2 ^ 32) :
    (x * y).toNat = x.toNat * y.toNat := by
  rw [BitVec.toNat_mul, Nat.mod_eq_of_lt]
  calc x.toNat * y.toNat < 2 ^ 32 * 2 ^ 32 := Nat.mul_lt_mul'' hx hy
    _ = 2 ^ 64 := by norm_num

theorem toNat_add_five (v w x y z : Word) :
    (v + w + x + y + z).toNat = (v.toNat + w.toNat + x.toNat + y.toNat + z.toNat) % 2 ^ 64 := by
  simp only [BitVec.toNat_add, Nat.mod_add_mod]

theorem mod_high_of_lt {q l p : Nat} (h : q * 2 ^ 64 + l = p) (hp : p < 2 ^ 64 * 2 ^ 64) :
    q % 2 ^ 64 * 2 ^ 64 + l = p := by
  rw [Nat.mod_eq_of_lt (by omega), h]

/-- The high word does not overflow, because the whole product is below `2 ^ 128`. -/
theorem multiply64Algorithm_exact (a b : Word) :
    (multiply64Algorithm a b).1.toNat * 2 ^ 64 + (multiply64Algorithm a b).2.toNat = a.toNat * b.toNat := by
  obtain ⟨ha, hah, hal⟩ := longword_halves a
  obtain ⟨hb, hbh, hbl⟩ := longword_halves b
  have hlt : a.toNat * b.toNat < 2 ^ 64 * 2 ^ 64 := Nat.mul_lt_mul'' a.isLt b.isLt
  unfold multiply64Algorithm
  dsimp only
  rw [← ha, ← hb] at hlt ⊢
  generalize a >>> 32 = ah at *
  generalize a &&& 0xFFFFFFFF#64 = al at *
  generalize b >>> 32 = bh at *
  generalize b &&& 0xFFFFFFFF#64 = bl at *
  have hprod : (ah.toNat * 2 ^ 32 + al.toNat) * (bh.toNat * 2 ^ 32 + bl.toNat) =
      (ah * bh).toNat * 2 ^ 64 + ((al * bh).toNat + (ah * bl).toNat) * 2 ^ 32 + (al * bl).toNat := by
    rw [toNat_mul_longwords hal hbl, toNat_mul_longwords hal hbh, toNat_mul_longwords hah hbl,
      toNat_mul_longwords hah hbh]
    ring
  have s1 := shift_halves (al * bh)
  have s2 := shift_halves (ah * bl)
  have c1 := carry_add (al * bl) ((al * bh) <<< 32)
  have c2 := carry_add (al * bl + (al * bh) <<< 32) ((ah * bl) <<< 32)
  rw [hprod] at hlt ⊢
  rw [toNat_add_five]
  exact mod_high_of_lt (by linarith only [s1, s2, c1, c2]) hlt

/-- The low word of the product is the product of words. -/
theorem multiply64_low (a b : Word) : (multiply64 a b).2 = a * b := by
  simp [multiply64, BitVec.ofNat_mul]

/-- Settles O11: the three products by `multiply64`'s contract, and the algorithm meets that contract. -/
theorem multiply : Obligations.Multiply := by
  rintro s ra rc b hr A B rfl rfl
  exact ⟨OprRow.writes (f := fun x y => sext32 (x * y)) {} hr rfl rfl,
    OprRow.writes (f := fun x y => (multiply64 x y).2) {} hr rfl rfl,
    OprRow.writes (f := fun x y => (multiply64 x y).1) {} hr rfl rfl, multiply64Algorithm_exact _ _⟩

/-! ### The longword test (41 R182, R186, R203, R209) -/

/-- The longword test (R209). -/
theorem longOverflow_iff {full : Word} : longOverflow full = true ↔ ¬ sext32 full = full := by
  rw [longOverflow, bne_iff_ne, ne_comm]

/-- Settles O12: the longword test decides between the two ends. -/
theorem longwordOverflow : Obligations.LongwordOverflow := by
  rintro s ra rc b hr A B rfl rfl
  have ends {i : Instr} {op : BitVec 6} {fn : BitVec 7} {f : Word → Word → Word} (h : OprRow i op fn ra b rc)
      (hx : executorOf i = checkedExec (fun x y => longOverflow (f x y)) f) :=
    And.intro h.decodes (h.checked_ends hr hx longOverflow_iff id)
  exact ⟨ends (f := fun x y => x + y) {} rfl, ends (f := fun x y => x - y) {} rfl,
    ends (f := fun x y => x * y) {} rfl⟩

/-! ### The quadword tests (41 R184, R188, R205) -/

/-- `n` is the value of a signed quadword. -/
def FitsQuad (n : Int) : Prop := -(2 ^ 63) ≤ n ∧ n < 2 ^ 63

/-- `SIGN_BIT` tests the top bit. -/
theorem and_signBit_ne_zero (v : Word) : ((v &&& signBit) != 0) = v.msb := by
  have h : v &&& signBit = if v.msb then signBit else 0 := by
    rw [signBit, show 0x8000000000000000#64 = BitVec.twoPow 64 63 from rfl, BitVec.and_twoPow,
      BitVec.msb_eq_getLsbD_last]
    rfl
  rw [h]
  cases v.msb <;> rfl

/-- The test by sign bits of R184. -/
theorem addOverflow_iff (a b : Word) : addOverflow a b (a + b) = true ↔ ¬ FitsQuad (a.toInt + b.toInt) := by
  have h : addOverflow a b (a + b) = a.saddOverflow b := by
    rw [addOverflow, and_signBit_ne_zero, BitVec.saddOverflow_eq]
    simp only [BitVec.msb_and, BitVec.msb_not, BitVec.msb_xor]
    cases a.msb <;> cases b.msb <;> cases (a + b).msb <;> rfl
  rw [h, BitVec.saddOverflow, FitsQuad]
  simp only [Bool.or_eq_true, decide_eq_true_eq]
  omega

/-- The test by sign bits of R188. -/
theorem subOverflow_iff (a b : Word) : subOverflow a b (a - b) = true ↔ ¬ FitsQuad (a.toInt - b.toInt) := by
  have h : subOverflow a b (a - b) = a.ssubOverflow b := by
    rw [subOverflow, and_signBit_ne_zero, BitVec.ssubOverflow_eq]
    simp only [BitVec.msb_and, BitVec.msb_xor]
    cases a.msb <;> cases b.msb <;> cases (a - b).msb <;> rfl
  rw [h, BitVec.ssubOverflow, FitsQuad]
  simp only [Bool.or_eq_true, decide_eq_true_eq]
  omega

/-- The sign of a quadword as a number. -/
def signOf (v : Word) : Int := if v.msb then 1 else 0

theorem toInt_eq_sub_signOf (v : Word) : v.toInt = v.toNat - 2 ^ 64 * signOf v := by
  rw [BitVec.toInt_eq_msb_cond, signOf]
  split <;> simp

theorem ite_msb_eq_signOf_mul (v w : Word) : (if v.msb then w else 0) = BitVec.ofInt 64 (signOf v * w.toNat) := by
  rw [signOf]
  split <;> simp

/-- The corrections for the signs turn the unsigned high word into the floor quotient of the signed product (R169). -/
theorem signedHigh_eq (a b : Word) : signedHigh a b = BitVec.ofInt 64 (a.toInt * b.toInt / 2 ^ 64) := by
  have hexp : a.toInt * b.toInt = (a.toNat * b.toNat : Nat) +
      2 ^ 64 * (-(signOf a * b.toNat) + (-(signOf b * a.toNat) + 2 ^ 64 * (signOf a * signOf b))) := by
    rw [toInt_eq_sub_signOf a, toInt_eq_sub_signOf b]
    push_cast
    ring
  have hwrap : BitVec.ofInt 64 (2 ^ 64) = 0#64 := by decide
  rw [hexp, Int.add_mul_ediv_left _ _ (by decide), BitVec.ofInt_add, BitVec.ofInt_add, BitVec.ofInt_add,
    BitVec.ofInt_neg, BitVec.ofInt_neg, BitVec.ofInt_mul (2 ^ 64), hwrap, BitVec.zero_mul, BitVec.add_zero,
    ← ite_msb_eq_signOf_mul, ← ite_msb_eq_signOf_mul, signedHigh, multiply64, ← BitVec.ofInt_natCast]
  push_cast
  ring

/-- The quotient of a product of two signed quadwords is itself a signed quadword. -/
theorem signedHigh_toInt (a b : Word) : (signedHigh a b).toInt = a.toInt * b.toInt / 2 ^ 64 := by
  have hle : a.toInt * b.toInt ≤ 2 ^ 126 := BitVec.toInt_mul_toInt_le
  have hge : -2 ^ 126 ≤ a.toInt * b.toInt := BitVec.le_toInt_mul_toInt
  rw [signedHigh_eq, BitVec.toInt_ofInt_eq_self (by decide)] <;> omega

theorem toNat_mul_eq_emod (a b : Word) : ((a * b).toNat : Int) = a.toInt * b.toInt % 2 ^ 64 := by
  have h : a * b = BitVec.ofInt 64 (a.toInt * b.toInt) := by
    rw [BitVec.ofInt_mul, BitVec.ofInt_toInt, BitVec.ofInt_toInt]
  rw [h, BitVec.toNat_ofInt, Int.toNat_of_nonneg (Int.emod_nonneg _ (by decide))]
  rfl

/-- The high word of a product that fits repeats the sign of its low word. -/
theorem mulOverflow_iff (a b : Word) : mulOverflow a b = true ↔ ¬ FitsQuad (a.toInt * b.toInt) := by
  have hhigh := signedHigh_toInt a b
  have hlow := toNat_mul_eq_emod a b
  have hones : (BitVec.allOnes 64).toInt = -1 := by decide
  rw [mulOverflow, bne_iff_ne, ne_eq, not_iff_not, ← BitVec.toInt_inj, hhigh, multiply64_low, BitVec.msb_eq_decide,
    FitsQuad]
  by_cases hs : 2 ^ 63 ≤ (a * b).toNat
  · simp only [hs, decide_true, if_true, hones]
    omega
  · simp only [hs, decide_false, if_false, Bool.false_eq_true, show (0 : Word).toInt = 0 from rfl]
    omega

/-- Settles O13: each test says that the exact signed result does not fit. -/
theorem quadwordOverflow : Obligations.QuadwordOverflow := by
  rintro s ra rc b hr A B rfl rfl
  have addq_v : OprRow (.addq_v ra b rc) 0x10#6 0x60#7 ra b rc := {}
  have subq_v : OprRow (.subq_v ra b rc) 0x10#6 0x69#7 ra b rc := {}
  have mulq_v : OprRow (.mulq_v ra b rc) 0x13#6 0x60#7 ra b rc := {}
  exact ⟨addq_v.checked_ends (overflow := fun x y => addOverflow x y (x + y)) (f := fun x y => x + y) hr rfl
      (addOverflow_iff _ _) fun _ => rfl,
    subq_v.checked_ends (overflow := fun x y => subOverflow x y (x - y)) (f := fun x y => x - y) hr rfl
      (subOverflow_iff _ _) fun _ => rfl,
    mulq_v.checked_ends (overflow := mulOverflow) (f := fun x y => (multiply64 x y).2) hr rfl
      (mulOverflow_iff _ _) fun _ => (multiply64_low _ _).symm⟩

end Sys2Proof.Machine
end

section
/-!
O14 to O16: the logical instructions and the shifts as `Opr` instructions computed from their operands, what a shift by
`B[5:0]` is as arithmetic, and how a conditional move ends in terms of its test (42_logical_shift_cmov). The five facts
of a row are written out: the default tactics of `OprRow` hold an elaboration thread until all earlier proofs are done,
and each thread counts against the memory limit of the check.
-/

namespace Sys2Proof.Machine

/-! ### Logical operations (42 R221 to R226) -/

/-- Settles O14: each form is an `Opr` row computed from its operands. -/
theorem logical : Obligations.Logical := by
  rintro s ra rc b hr A B rfl rfl
  exact ⟨OprRow.writes (f := fun x y => x &&& y) ⟨rfl, rfl, rfl, rfl, fun _ => rfl⟩ hr rfl rfl,
    OprRow.writes (f := fun x y => x &&& ~~~y) ⟨rfl, rfl, rfl, rfl, fun _ => rfl⟩ hr rfl rfl,
    OprRow.writes (f := fun x y => x ||| y) ⟨rfl, rfl, rfl, rfl, fun _ => rfl⟩ hr rfl rfl,
    OprRow.writes (f := fun x y => x ||| ~~~y) ⟨rfl, rfl, rfl, rfl, fun _ => rfl⟩ hr rfl rfl,
    OprRow.writes (f := fun x y => x ^^^ y) ⟨rfl, rfl, rfl, rfl, fun _ => rfl⟩ hr rfl rfl,
    OprRow.writes (f := fun x y => x ^^^ ~~~y) ⟨rfl, rfl, rfl, rfl, fun _ => rfl⟩ hr rfl rfl⟩

/-! ### Shifts (42 R227 to R229) -/

theorem shiftAmount_eq_mod (b : Word) : shiftAmount b = b.toNat % 64 := BitVec.extractLsb'_toNat 0 6 b

theorem toNat_shiftLeft_shiftAmount (a b : Word) :
    (a <<< shiftAmount b).toNat = a.toNat * 2 ^ (b.toNat % 64) % 2 ^ 64 := by
  rw [BitVec.toNat_shiftLeft, Nat.shiftLeft_eq, shiftAmount_eq_mod]

theorem toNat_shiftRight_shiftAmount (a b : Word) :
    (a >>> shiftAmount b).toNat = a.toNat / 2 ^ (b.toNat % 64) := by
  rw [BitVec.toNat_ushiftRight, Nat.shiftRight_eq_div_pow, shiftAmount_eq_mod]

/-- Division of integers by a positive number rounds to the floor, as R229 asks. -/
theorem toInt_sshiftRight_shiftAmount (a b : Word) :
    (a.sshiftRight (shiftAmount b)).toInt = a.toInt / 2 ^ (b.toNat % 64) := by
  rw [BitVec.toInt_sshiftRight, Int.shiftRight_eq_div_pow, shiftAmount_eq_mod, Nat.cast_pow, Nat.cast_ofNat]

/-- Settles O15: each form is an `Opr` row, and its shift is the arithmetic it stands for. -/
theorem shift : Obligations.Shift := by
  rintro s ra rc b hr A B rfl rfl
  have sll : OprRow (.sll ra b rc) 0x12#6 0x39#7 ra b rc := ⟨rfl, rfl, rfl, rfl, fun _ => rfl⟩
  have srl : OprRow (.srl ra b rc) 0x12#6 0x34#7 ra b rc := ⟨rfl, rfl, rfl, rfl, fun _ => rfl⟩
  have sra : OprRow (.sra ra b rc) 0x12#6 0x3C#7 ra b rc := ⟨rfl, rfl, rfl, rfl, fun _ => rfl⟩
  obtain ⟨sllDecodes, sllWrites⟩ := sll.writes (f := fun x y => x <<< shiftAmount y) hr rfl rfl
  obtain ⟨srlDecodes, srlWrites⟩ := srl.writes (f := fun x y => x >>> shiftAmount y) hr rfl rfl
  obtain ⟨sraDecodes, sraWrites⟩ := sra.writes (f := fun x y => x.sshiftRight (shiftAmount y)) hr rfl rfl
  exact ⟨_, _, _, sllDecodes, sllWrites, toNat_shiftLeft_shiftAmount _ _,
    srlDecodes, srlWrites, toNat_shiftRight_shiftAmount _ _,
    sraDecodes, sraWrites, toInt_sshiftRight_shiftAmount _ _⟩

/-! ### Conditional moves (42 R230 to R238) -/

/-- A conditional move decodes, and its end state is decided by what its test says of the first operand. -/
theorem OprRow.moves {i : Instr} {op : BitVec 6} {fn : BitVec 7} {ra rc : RegIdx} {b : Opnd} {s : State}
    {test : Word → Bool} {p : Prop} [Decidable p] (h : OprRow i op fn ra b rc) (hr : s.ready)
    (hx : executorOf i = cmovExec test) (hp : test (s.readX ra) = true ↔ p) :
    decodeWord (encodeOpr op fn ra b rc) = .ok i ∧
    exec i s = .next (if p then s.afterX rc (s.operand b) else s.spend.advance) := by
  refine ⟨h.decodes, ?_⟩
  obtain ⟨ha, hb, hd⟩ := oprRecord_ports s fn ra b rc h.opcode
  rw [h.exec_eq, hx]
  by_cases hc : p
  · rw [if_pos hc, runInstr_doneWith h.regForm hr (c := s.cpu) (v := s.operand b)]
    · rw [hd]; rfl
    · rw [cmovExec, ha, hb, if_pos (hp.2 hc)]; rfl
  · rw [if_neg hc, runInstr_done h.regForm hr (c := s.cpu)]
    · rfl
    · rw [cmovExec, ha, if_neg (mt hp.1 hc)]; rfl

/-- `A[63] = 1` says that `A` is negative. -/
theorem msb_iff_toInt_neg (a : Word) : a.msb = true ↔ a.toInt < 0 := by
  rw [BitVec.msb_eq_toInt, decide_eq_true_iff]

theorem eq_zero_iff_toInt (a : Word) : a = 0 ↔ a.toInt = 0 := BitVec.toInt_inj.symm

theorem not_msb_iff_toInt_nonneg (a : Word) : (!a.msb) = true ↔ 0 ≤ a.toInt := by
  rw [Bool.not_eq_true', ← Bool.not_eq_true, msb_iff_toInt_neg, not_lt]

theorem msb_or_eq_zero_iff_toInt_nonpos (a : Word) : (a.msb || a == 0) = true ↔ a.toInt ≤ 0 := by
  rw [Bool.or_eq_true, beq_iff_eq, msb_iff_toInt_neg, eq_zero_iff_toInt, le_iff_lt_or_eq]

theorem not_msb_and_ne_zero_iff_toInt_pos (a : Word) : (!a.msb && a != 0) = true ↔ 0 < a.toInt := by
  rw [Bool.and_eq_true, bne_iff_ne, not_msb_iff_toInt_nonneg, ne_eq, eq_zero_iff_toInt, lt_iff_le_and_ne, ne_comm]

/-- `A[0] = 1` says that `A` is odd. -/
theorem getLsbD_zero_iff_odd (a : Word) : a.getLsbD 0 = true ↔ a.toNat % 2 = 1 := by
  rw [← BitVec.testBit_toNat, Nat.testBit_zero, decide_eq_true_iff]

theorem not_getLsbD_zero_iff_even (a : Word) : (!a.getLsbD 0) = true ↔ a.toNat % 2 = 0 := by
  rw [Bool.not_eq_true', ← Bool.not_eq_true, getLsbD_zero_iff_odd, Nat.mod_two_not_eq_one]

/-- Settles O16: each form is an `Opr` row whose test is the comparison of `A` with zero, or of its low bit. -/
theorem conditionalMove : Obligations.ConditionalMove := by
  rintro s ra rc b hr A B rfl rfl
  exact ⟨OprRow.moves (test := fun a => a == 0) ⟨rfl, rfl, rfl, rfl, fun _ => rfl⟩ hr rfl beq_iff_eq,
    OprRow.moves (test := fun a => a != 0) ⟨rfl, rfl, rfl, rfl, fun _ => rfl⟩ hr rfl bne_iff_ne,
    OprRow.moves (test := fun a => a.msb) ⟨rfl, rfl, rfl, rfl, fun _ => rfl⟩ hr rfl (msb_iff_toInt_neg _),
    OprRow.moves (test := fun a => !a.msb) ⟨rfl, rfl, rfl, rfl, fun _ => rfl⟩ hr rfl (not_msb_iff_toInt_nonneg _),
    OprRow.moves (test := fun a => a.msb || a == 0) ⟨rfl, rfl, rfl, rfl, fun _ => rfl⟩ hr rfl
      (msb_or_eq_zero_iff_toInt_nonpos _),
    OprRow.moves (test := fun a => !a.msb && a != 0) ⟨rfl, rfl, rfl, rfl, fun _ => rfl⟩ hr rfl
      (not_msb_and_ne_zero_iff_toInt_pos _),
    OprRow.moves (test := fun a => a.getLsbD 0) ⟨rfl, rfl, rfl, rfl, fun _ => rfl⟩ hr rfl (getLsbD_zero_iff_odd _),
    OprRow.moves (test := fun a => !a.getLsbD 0) ⟨rfl, rfl, rfl, rfl, fun _ => rfl⟩ hr rfl
      (not_getLsbD_zero_iff_even _)⟩

end Sys2Proof.Machine
end

section
/-!
O17 to O22: the shift count and its big-endian transform, what every operation of the byte instructions does to one
byte, and the bit scans (43_byte_manipulation). EXT, INS and MSK are proved once for all widths.
-/

namespace Sys2Proof.Machine

/-! ### The shift count (43 R251) -/

/-- The count is taken modulo 8 from the transformed operand. -/
theorem State.shiftCountOf_eq_mod (s : State) (w : Width) (b : Word) :
    s.shiftCountOf w b = (if s.cpu.bigEndian then b ^^^ shiftXor s.cfg.shiftXform w else b).toNat % 8 :=
  BitVec.extractLsb'_toNat 0 3 _

theorem State.shiftCountOf_lt (s : State) (w : Width) (b : Word) : s.shiftCountOf w b < 8 := by
  rw [s.shiftCountOf_eq_mod]
  exact Nat.mod_lt _ (by decide)

theorem State.shiftCountOf_little {s : State} (h : s.cpu.bigEndian = false) (w : Width) (b : Word) :
    s.shiftCountOf w b = b.toNat % 8 := by
  rw [s.shiftCountOf_eq_mod, h]
  rfl

theorem State.shiftCountOf_big {s : State} (h : s.cpu.bigEndian = true) (w : Width) (b : Word) :
    s.shiftCountOf w b = (b ^^^ shiftXor s.cfg.shiftXform w).toNat % 8 := by
  rw [s.shiftCountOf_eq_mod, h]
  rfl

/-- Settles O17: the constant of the transform is read off for each parameter and width. The name `shiftCount` is the
model's function. -/
theorem shiftCount_transform : Obligations.ShiftCount := by
  intro s B
  refine ⟨fun hlittle w => State.shiftCountOf_little hlittle w B, fun hbig hx => ?_, fun hbig hx w => ?_⟩
  · rw [State.shiftCountOf_big hbig, State.shiftCountOf_big hbig, State.shiftCountOf_big hbig,
      State.shiftCountOf_big hbig, hx]
    exact ⟨rfl, rfl, rfl, congrArg (fun v : Word => v.toNat % 8) BitVec.xor_zero⟩
  · rw [State.shiftCountOf_big hbig, hx]
    cases w <;> rfl

/-! ### One byte of a word (40_primitives R163, R164) -/

theorem byteOf_ext {v : Word} {i : Nat} {x : Byte} (h : ∀ k < 8, v.getLsbD (8 * i + k) = x.getLsbD k) :
    byteOf v i = x := by
  apply BitVec.eq_of_getLsbD_eq
  intro k hk
  rw [getLsbD_byteOf, h k hk, decide_eq_true hk, Bool.true_and]

/-- There is no byte past byte 7. -/
theorem byteOf_eq_zero {i : Nat} (hi : 8 ≤ i) (v : Word) : byteOf v i = 0 :=
  byteOf_ext fun k _ => by rw [BitVec.getLsbD_of_ge v _ (by omega)]; simp

theorem byteOf_zero (i : Nat) : byteOf 0 i = 0 := byteOf_ext fun k _ => by simp

theorem byteOf_ushiftRight (v : Word) (k i : Nat) : byteOf (v >>> (8 * k)) i = byteOf v (i + k) :=
  byteOf_ext fun j hj => by
    rw [BitVec.getLsbD_ushiftRight, getLsbD_byteOf, decide_eq_true hj, Bool.true_and]
    congr 1
    omega

theorem byteOf_shiftLeft (v : Word) (k : Nat) {i : Nat} (hi : i < 8) :
    byteOf (v <<< (8 * k)) i = if k ≤ i then byteOf v (i - k) else 0 := by
  apply byteOf_ext
  intro j hj
  rw [BitVec.getLsbD_shiftLeft, decide_eq_true (by omega : 8 * i + j < 64), Bool.true_and]
  by_cases hk : k ≤ i
  · rw [if_pos hk, getLsbD_byteOf, decide_eq_false (by omega : ¬ 8 * i + j < 8 * k), decide_eq_true hj,
      show 8 * i + j - 8 * k = 8 * (i - k) + j by omega]
    rfl
  · rw [if_neg hk, decide_eq_true (by omega : 8 * i + j < 8 * k)]
    simp

/-- The lanes of `ofBytes` are the bytes it was made of. -/
theorem byteOf_ofBytes (g : Nat → Byte) {i : Nat} (hi : i < 8) : byteOf (ofBytes g) i = g i := by
  unfold ofBytes
  apply byteOf_ext
  intro k hk
  simp only [BitVec.getLsbD_append]
  interval_cases i <;> grind

theorem byteOf_byteZap (v : Word) (m : BitVec 8) {i : Nat} (hi : i < 8) :
    byteOf (byteZap v m) i = if m.getLsbD i then 0 else byteOf v i := byteOf_ofBytes _ hi

/-! ### The masks of a width (43 R252) -/

theorem getLsbD_widthMask (w : Width) {j : Nat} (hj : j < 64) : (widthMask w).getLsbD j = decide (j < 8 * w.bytes) := by
  have h : widthMask w = BitVec.ofNat 64 (2 ^ (8 * w.bytes) - 1) := by cases w <;> rfl
  rw [h, BitVec.getLsbD_ofNat, decide_eq_true hj, Bool.true_and, Nat.testBit_two_pow_sub_one]

theorem getLsbD_byteMask (w : Width) (j : Nat) : (byteMask w).getLsbD j = decide (j < w.bytes) := by
  have h : byteMask w = BitVec.ofNat 16 (2 ^ w.bytes - 1) := by cases w <;> rfl
  have hw : w.bytes ≤ 8 := by cases w <;> decide
  rw [h, BitVec.getLsbD_ofNat, Nat.testBit_two_pow_sub_one, ← Bool.decide_and]
  exact decide_eq_decide.2 (by omega)

/-- `mask(W)` keeps the low bytes. -/
theorem byteOf_and_widthMask (v : Word) (w : Width) {i : Nat} (hi : i < 8) :
    byteOf (v &&& widthMask w) i = if i < w.bytes then byteOf v i else 0 := by
  apply byteOf_ext
  intro k hk
  have hbound : 8 * i + k < 8 * w.bytes ↔ i < w.bytes := by omega
  rw [BitVec.getLsbD_and, getLsbD_widthMask w (by omega)]
  by_cases h : i < w.bytes
  · rw [if_pos h, decide_eq_true (hbound.2 h), Bool.and_true, getLsbD_byteOf, decide_eq_true hk, Bool.true_and]
  · rw [if_neg h, decide_eq_false (mt hbound.1 h), Bool.and_false]
    simp

/-! ### The results of EXT, INS and MSK, byte by byte (43 R253 to R273) -/

section
variable (w : Width) (a : Word) {sh i : Nat}

theorem byteOf_extractLow (hi : i < 8) :
    byteOf (extractLow w sh a) i = if i < w.bytes ∧ i + sh < 8 then byteOf a (i + sh) else 0 := by
  rw [extractLow, byteOf_and_widthMask _ w hi, byteOf_ushiftRight, ite_and]
  refine if_congr Iff.rfl ?_ rfl
  split
  · rfl
  · exact byteOf_eq_zero (by omega) a

/-- For count 0 the left shift is by `64 % 64`, so the bytes stay where they are. -/
theorem byteOf_extractHigh (hsh : sh < 8) (hi : i < 8) :
    byteOf (extractHigh w sh a) i =
      if i < w.bytes ∧ (sh = 0 ∨ 8 ≤ i + sh) then byteOf a ((i + sh) % 8) else 0 := by
  have hshift : (64 - 8 * sh) % 64 = 8 * ((8 - sh) % 8) := by omega
  have hreach : (8 - sh) % 8 ≤ i ↔ sh = 0 ∨ 8 ≤ i + sh := by omega
  rw [extractHigh, hshift, byteOf_and_widthMask _ w hi, byteOf_shiftLeft _ _ hi, ite_and]
  refine if_congr Iff.rfl (if_ctx_congr hreach (fun h => ?_) fun _ => rfl) rfl
  congr 1
  omega

theorem byteOf_insertLow (hi : i < 8) :
    byteOf (insertLow w sh a) i = if sh ≤ i ∧ i < sh + w.bytes then byteOf a (i - sh) else 0 := by
  rw [insertLow, byteOf_shiftLeft _ _ hi, ite_and]
  refine if_ctx_congr Iff.rfl (fun h => ?_) fun _ => rfl
  rw [byteOf_and_widthMask _ w (by omega)]
  exact if_congr (by omega) rfl rfl

/-- For count 0 nothing falls past byte 7. -/
theorem byteOf_insertHigh (hsh : sh < 8) (hi : i < 8) :
    byteOf (insertHigh w sh a) i = if i + 8 - sh < w.bytes then byteOf a (i + 8 - sh) else 0 := by
  have hw : w.bytes ≤ 8 := by cases w <;> decide
  by_cases h0 : sh = 0
  · rw [insertHigh, if_pos h0, if_neg (by omega), byteOf_zero]
  · rw [insertHigh, if_neg h0, show 64 - 8 * sh = 8 * (8 - sh) by omega, byteOf_ushiftRight,
      show i + (8 - sh) = i + 8 - sh by omega]
    by_cases hin : i + 8 - sh < 8
    · exact byteOf_and_widthMask a w hin
    · rw [byteOf_eq_zero (by omega), if_neg (by omega)]

theorem byteOf_maskLow (hi : i < 8) :
    byteOf (maskLow w sh a) i = if sh ≤ i ∧ i < sh + w.bytes then 0 else byteOf a i := by
  rw [maskLow, byteOf_byteZap _ _ hi]
  refine if_congr ?_ rfl rfl
  rw [BitVec.getLsbD_setWidth, BitVec.getLsbD_shiftLeft, getLsbD_byteMask]
  simp only [Bool.and_eq_true, Bool.not_eq_true', decide_eq_true_eq, decide_eq_false_iff_not]
  omega

theorem byteOf_maskHigh (hsh : sh < 8) (hi : i < 8) :
    byteOf (maskHigh w sh a) i = if i + 8 < sh + w.bytes then 0 else byteOf a i := by
  rw [maskHigh, byteOf_byteZap _ _ hi]
  refine if_congr ?_ rfl rfl
  rw [BitVec.getLsbD_setWidth, BitVec.getLsbD_ushiftRight, BitVec.getLsbD_shiftLeft, getLsbD_byteMask]
  simp only [Bool.and_eq_true, Bool.not_eq_true', decide_eq_true_eq, decide_eq_false_iff_not]
  omega

end

/-! ### EXT, INS and MSK as `Opr` instructions -/

section
variable {i : Instr} {op : BitVec 6} {fn : BitVec 7} {ra rc : RegIdx} {b : Opnd} {s : State}

/-- An instruction whose result depends on the count decodes and writes its result. -/
theorem OprRow.counts_writes {w : Width} {f : Width → Nat → Word → Word} (h : OprRow i op fn ra b rc) (hr : s.ready)
    (hx : executorOf i = countExec w f) :
    decodeWord (encodeOpr op fn ra b rc) = .ok i ∧
    exec i s = .next (s.afterX rc (f w (s.shiftCountOf w (s.operand b)) (s.readX ra))) := by
  refine ⟨h.decodes, ?_⟩
  obtain ⟨ha, hb, hd⟩ := oprRecord_ports s fn ra b rc h.opcode
  rw [h.exec_eq, hx, runInstr_doneWith h.regForm hr (c := s.cpu)
    (v := f w (s.shiftCountOf w (s.operand b)) (s.readX ra))]
  · rw [hd]; rfl
  · rw [countExec, ha, hb]; rfl

/-- An instruction whose result depends on the count, described byte by byte. -/
theorem OprRow.counts {w : Width} {f : Width → Nat → Word → Word} {g : Nat → Byte} (h : OprRow i op fn ra b rc)
    (hr : s.ready) (hx : executorOf i = countExec w f)
    (hg : ∀ k < 8, byteOf (f w (s.shiftCountOf w (s.operand b)) (s.readX ra)) k = g k) :
    decodeWord (encodeOpr op fn ra b rc) = .ok i ∧
    ∃ v, exec i s = .next (s.afterX rc v) ∧ ∀ k < 8, byteOf v k = g k :=
  have ⟨hdecodes, hexec⟩ := h.counts_writes hr hx
  ⟨hdecodes, _, hexec, hg⟩

/-- An instruction computed from its operands alone, described by a property of its result. -/
theorem OprRow.writes_such {f : Word → Word → Word} {p : Word → Prop} (h : OprRow i op fn ra b rc) (hr : s.ready)
    (hx : executorOf i = pureExec f) (hp : p (f (s.readX ra) (s.operand b))) :
    decodeWord (encodeOpr op fn ra b rc) = .ok i ∧ ∃ v, exec i s = .next (s.afterX rc v) ∧ p v :=
  have ⟨hdecodes, hexec⟩ := h.writes hr hx rfl
  ⟨hdecodes, _, hexec, hp⟩

end

/-- Settles O18: seven `Opr` rows of the two extracts. -/
theorem extract : Obligations.Extract := by
  rintro s ra rc b hr A B rfl rfl
  have low {i : Instr} {fn : BitVec 7} (w : Width) (h : OprRow i 0x12#6 fn ra b rc)
      (hx : executorOf i = countExec w extractLow) :=
    h.counts hr hx fun k hk => byteOf_extractLow w _ hk
  have high {i : Instr} {fn : BitVec 7} (w : Width) (h : OprRow i 0x12#6 fn ra b rc)
      (hx : executorOf i = countExec w extractHigh) :=
    h.counts hr hx fun k hk => byteOf_extractHigh w _ (s.shiftCountOf_lt w _) hk
  exact ⟨low .byte ⟨rfl, rfl, rfl, rfl, fun _ => rfl⟩ rfl, low .word ⟨rfl, rfl, rfl, rfl, fun _ => rfl⟩ rfl,
    low .long ⟨rfl, rfl, rfl, rfl, fun _ => rfl⟩ rfl, low .quad ⟨rfl, rfl, rfl, rfl, fun _ => rfl⟩ rfl,
    high .word ⟨rfl, rfl, rfl, rfl, fun _ => rfl⟩ rfl, high .long ⟨rfl, rfl, rfl, rfl, fun _ => rfl⟩ rfl,
    high .quad ⟨rfl, rfl, rfl, rfl, fun _ => rfl⟩ rfl⟩

/-- Settles O19: seven `Opr` rows of the two inserts. -/
theorem insert : Obligations.Insert := by
  rintro s ra rc b hr A B rfl rfl
  have low {i : Instr} {fn : BitVec 7} (w : Width) (h : OprRow i 0x12#6 fn ra b rc)
      (hx : executorOf i = countExec w insertLow) :=
    h.counts hr hx fun k hk => byteOf_insertLow w _ hk
  have high {i : Instr} {fn : BitVec 7} (w : Width) (h : OprRow i 0x12#6 fn ra b rc)
      (hx : executorOf i = countExec w insertHigh) :=
    h.counts hr hx fun k hk => byteOf_insertHigh w _ (s.shiftCountOf_lt w _) hk
  exact ⟨low .byte ⟨rfl, rfl, rfl, rfl, fun _ => rfl⟩ rfl, low .word ⟨rfl, rfl, rfl, rfl, fun _ => rfl⟩ rfl,
    low .long ⟨rfl, rfl, rfl, rfl, fun _ => rfl⟩ rfl, low .quad ⟨rfl, rfl, rfl, rfl, fun _ => rfl⟩ rfl,
    high .word ⟨rfl, rfl, rfl, rfl, fun _ => rfl⟩ rfl, high .long ⟨rfl, rfl, rfl, rfl, fun _ => rfl⟩ rfl,
    high .quad ⟨rfl, rfl, rfl, rfl, fun _ => rfl⟩ rfl⟩

/-- Settles O20: seven `Opr` rows of the two masks. -/
theorem mask : Obligations.Mask := by
  rintro s ra rc b hr A B rfl rfl
  have low {i : Instr} {fn : BitVec 7} (w : Width) (h : OprRow i 0x12#6 fn ra b rc)
      (hx : executorOf i = countExec w maskLow) :=
    h.counts hr hx fun k hk => byteOf_maskLow w _ hk
  have high {i : Instr} {fn : BitVec 7} (w : Width) (h : OprRow i 0x12#6 fn ra b rc)
      (hx : executorOf i = countExec w maskHigh) :=
    h.counts hr hx fun k hk => byteOf_maskHigh w _ (s.shiftCountOf_lt w _) hk
  exact ⟨low .byte ⟨rfl, rfl, rfl, rfl, fun _ => rfl⟩ rfl, low .word ⟨rfl, rfl, rfl, rfl, fun _ => rfl⟩ rfl,
    low .long ⟨rfl, rfl, rfl, rfl, fun _ => rfl⟩ rfl, low .quad ⟨rfl, rfl, rfl, rfl, fun _ => rfl⟩ rfl,
    high .word ⟨rfl, rfl, rfl, rfl, fun _ => rfl⟩ rfl, high .long ⟨rfl, rfl, rfl, rfl, fun _ => rfl⟩ rfl,
    high .quad ⟨rfl, rfl, rfl, rfl, fun _ => rfl⟩ rfl⟩

/-! ### ZAP, ZAPNOT, CMPBGE, SEXTB and SEXTW (43 R274 to R278) -/

section
variable (a b : Word) {i : Nat}

/-- The zap mask is the low byte of the second operand. -/
theorem byteOf_zap (hi : i < 8) :
    byteOf (byteZap a (b.setWidth 8)) i = if b.getLsbD i then 0 else byteOf a i := by
  rw [byteOf_byteZap _ _ hi, BitVec.getLsbD_setWidth, decide_eq_true hi, Bool.true_and]

theorem byteOf_zapnot (hi : i < 8) :
    byteOf (byteZap a (~~~b.setWidth 8)) i = if b.getLsbD i then byteOf a i else 0 := by
  rw [byteOf_byteZap _ _ hi, BitVec.getLsbD_not, BitVec.getLsbD_setWidth, decide_eq_true hi, Bool.true_and,
    Bool.true_and]
  cases b.getLsbD i <;> rfl

/-- Bits 63:8 are clear, and each bit below is its own comparison. -/
theorem getLsbD_compareBytes :
    (compareBytes a b).getLsbD i = (decide (i < 8) && (byteOf b i).ule (byteOf a i)) := by
  rw [compareBytes, BitVec.getLsbD_setWidth]
  by_cases hi : i < 8
  · simp only [BitVec.getLsbD_append, BitVec.getLsbD_ofBool]
    interval_cases i <;> simp
  · rw [BitVec.getLsbD_of_ge _ _ (by omega), Bool.and_false, decide_eq_false hi, Bool.false_and]

theorem getLsbD_compareBytes_iff :
    (compareBytes a b).getLsbD i = true ↔ i < 8 ∧ (byteOf b i).toNat ≤ (byteOf a i).toNat := by
  rw [getLsbD_compareBytes, Bool.and_eq_true, decide_eq_true_iff, BitVec.ule_iff_toNat_le]

end

theorem toInt_sext8 (v : Word) : (sext8 v).toInt = (v.setWidth 8).toInt :=
  BitVec.toInt_signExtend_of_le (by decide)

theorem toInt_sext16 (v : Word) : (sext16 v).toInt = (v.setWidth 16).toInt :=
  BitVec.toInt_signExtend_of_le (by decide)

/-- Settles O21: each form is an `Opr` row computed from its operands. -/
theorem zapCompareExtend : Obligations.ZapCompareExtend := by
  rintro s ra rc b hr A B rfl rfl
  exact ⟨OprRow.writes_such (f := fun x y => byteZap x (y.setWidth 8)) ⟨rfl, rfl, rfl, rfl, fun _ => rfl⟩ hr rfl
      fun _ hi => byteOf_zap _ _ hi,
    OprRow.writes_such (f := fun x y => byteZap x (~~~y.setWidth 8)) ⟨rfl, rfl, rfl, rfl, fun _ => rfl⟩ hr rfl
      fun _ hi => byteOf_zapnot _ _ hi,
    OprRow.writes_such (f := fun x y => compareBytes x y) ⟨rfl, rfl, rfl, rfl, fun _ => rfl⟩ hr rfl
      fun _ _ => getLsbD_compareBytes_iff _ _,
    OprRow.writes_such (f := fun _ y => sext8 y) ⟨rfl, rfl, rfl, rfl, fun _ => rfl⟩ hr rfl (toInt_sext8 _),
    OprRow.writes_such (f := fun _ y => sext16 y) ⟨rfl, rfl, rfl, rfl, fun _ => rfl⟩ hr rfl (toInt_sext16 _)⟩

/-! ### The bit scans (43 R279, R280) -/

section
variable (v : Word)

theorem leadingZeros_succ (n : Nat) :
    leadingZeros v (n + 1) = if v.getLsbD n then 0 else leadingZeros v n + 1 := rfl

theorem trailingZeros_succ (n i : Nat) :
    trailingZeros v (n + 1) i = if v.getLsbD i then 0 else trailingZeros v n (i + 1) + 1 := rfl

theorem leadingZeros_le (n : Nat) : leadingZeros v n ≤ n := by
  induction n with
  | zero => exact Nat.le_refl 0
  | succ n ih => rw [leadingZeros_succ]; split <;> omega

/-- The scan passes over zero bits only. -/
theorem getLsbD_of_passed_down {n j : Nat} (hj : j < n) (h : n - leadingZeros v n ≤ j) : v.getLsbD j = false := by
  induction n with
  | zero => omega
  | succ n ih =>
    rw [leadingZeros_succ] at h
    split at h
    · omega
    · next hbit =>
      rcases Nat.lt_succ_iff_lt_or_eq.1 hj with hlt | rfl
      · exact ih hlt (by omega)
      · exact Bool.not_eq_true _ ▸ hbit

/-- A scan that ends early ends at a one. -/
theorem getLsbD_at_leadingZeros {n : Nat} (h : leadingZeros v n < n) :
    v.getLsbD (n - 1 - leadingZeros v n) = true := by
  induction n with
  | zero => omega
  | succ n ih =>
    rw [leadingZeros_succ] at h ⊢
    split
    · next hbit => exact hbit
    · next hbit =>
      rw [if_neg hbit] at h
      have hstop := ih (by omega)
      rwa [show n + 1 - 1 - (leadingZeros v n + 1) = n - 1 - leadingZeros v n by omega]

theorem trailingZeros_le (n i : Nat) : trailingZeros v n i ≤ n := by
  induction n generalizing i with
  | zero => exact Nat.le_refl 0
  | succ n ih =>
    have hn := ih (i + 1)
    rw [trailingZeros_succ]
    split <;> omega

/-- The scan passes over zero bits only. -/
theorem getLsbD_of_passed_up {n i j : Nat} (hi : i ≤ j) (h : j < i + trailingZeros v n i) : v.getLsbD j = false := by
  induction n generalizing i with
  | zero => exact absurd h (Nat.not_lt_of_le hi)
  | succ n ih =>
    rw [trailingZeros_succ] at h
    split at h
    · omega
    · next hbit =>
      rcases Nat.eq_or_lt_of_le hi with rfl | hlt
      · exact Bool.not_eq_true _ ▸ hbit
      · exact ih (i := i + 1) hlt (by omega)

/-- A scan that ends early ends at a one. -/
theorem getLsbD_at_trailingZeros {n i : Nat} (h : trailingZeros v n i < n) :
    v.getLsbD (i + trailingZeros v n i) = true := by
  induction n generalizing i with
  | zero => omega
  | succ n ih =>
    rw [trailingZeros_succ] at h ⊢
    split
    · next hbit => exact hbit
    · next hbit =>
      rw [if_neg hbit] at h
      have hstop := ih (i := i + 1) (by omega)
      rwa [show i + (trailingZeros v n (i + 1) + 1) = i + 1 + trailingZeros v n (i + 1) by omega]

end

theorem eq_zero_of_forall_getLsbD {v : Word} (h : ∀ j < 64, v.getLsbD j = false) : v = 0 :=
  BitVec.eq_of_getLsbD_eq fun j hj => (h j hj).trans BitVec.getLsbD_zero.symm

/-- CTLZ of zero and of a word with a one (R279). -/
theorem leadingZeros_spec (v : Word) :
    (v = 0 → leadingZeros v 64 = 64) ∧
    (v ≠ 0 → leadingZeros v 64 < 64 ∧ v.getLsbD (63 - leadingZeros v 64) = true ∧
      ∀ j, 63 - leadingZeros v 64 < j → j < 64 → v.getLsbD j = false) := by
  have hle := leadingZeros_le v 64
  have hpassed : ∀ j < 64, 64 - leadingZeros v 64 ≤ j → v.getLsbD j = false := fun _ => getLsbD_of_passed_down v
  have hlt (hv : v ≠ 0) : leadingZeros v 64 < 64 :=
    Nat.lt_of_le_of_ne hle fun hall => hv (eq_zero_of_forall_getLsbD fun j hj => hpassed j hj (by omega))
  refine ⟨?_, fun hv => ⟨hlt hv, getLsbD_at_leadingZeros v (hlt hv), fun j hlow hj => hpassed j hj (by omega)⟩⟩
  rintro rfl
  by_contra hne
  exact Bool.false_ne_true (BitVec.getLsbD_zero.symm.trans (getLsbD_at_leadingZeros 0 (Nat.lt_of_le_of_ne hle hne)))

/-- CTTZ of zero and of a word with a one (R280). -/
theorem trailingZeros_spec (v : Word) :
    (v = 0 → trailingZeros v 64 0 = 64) ∧
    (v ≠ 0 → trailingZeros v 64 0 < 64 ∧ v.getLsbD (trailingZeros v 64 0) = true ∧
      ∀ j < trailingZeros v 64 0, v.getLsbD j = false) := by
  have hle := trailingZeros_le v 64 0
  have hpassed : ∀ j < trailingZeros v 64 0, v.getLsbD j = false :=
    fun j hj => getLsbD_of_passed_up v (n := 64) (Nat.zero_le j) (by omega)
  have hstop (h : trailingZeros v 64 0 < 64) : v.getLsbD (trailingZeros v 64 0) = true := by
    simpa only [Nat.zero_add] using getLsbD_at_trailingZeros v h
  have hlt (hv : v ≠ 0) : trailingZeros v 64 0 < 64 :=
    Nat.lt_of_le_of_ne hle fun hall => hv (eq_zero_of_forall_getLsbD fun j hj => hpassed j (by omega))
  refine ⟨?_, fun hv => ⟨hlt hv, hstop (hlt hv), hpassed⟩⟩
  rintro rfl
  by_contra hne
  exact Bool.false_ne_true (BitVec.getLsbD_zero.symm.trans (hstop (Nat.lt_of_le_of_ne hle hne)))

/-- Settles O22: both scans are `Opr` rows computed from the second operand. -/
theorem countZeros : Obligations.CountZeros := by
  rintro s ra rc b hr A B rfl rfl
  have ctlz : OprRow (.ctlz ra b rc) 0x1C#6 0x32#7 ra b rc := ⟨rfl, rfl, rfl, rfl, fun _ => rfl⟩
  have cttz : OprRow (.cttz ra b rc) 0x1C#6 0x33#7 ra b rc := ⟨rfl, rfl, rfl, rfl, fun _ => rfl⟩
  obtain ⟨ctlzDecodes, ctlzWrites⟩ := ctlz.writes (f := fun _ y => BitVec.ofNat 64 (leadingZeros y 64)) hr rfl rfl
  obtain ⟨cttzDecodes, cttzWrites⟩ := cttz.writes (f := fun _ y => BitVec.ofNat 64 (trailingZeros y 64 0)) hr rfl rfl
  exact ⟨⟨ctlzDecodes, _, ctlzWrites, leadingZeros_spec _⟩, cttzDecodes, _, cttzWrites, trailingZeros_spec _⟩

end Sys2Proof.Machine
end

section
/-!
O23 and O24: what each lane of a lane-wise minimum or maximum is, the sum of PERR, and packing and unpacking as moves of
single bytes, from which the round trips follow (44_multimedia).
-/

namespace Sys2Proof.Machine

/-! ### Lanes of words and longwords (40_primitives R163) -/

/-- A quadword is its eight bytes. -/
theorem eq_of_byteOf_eq {u v : Word} (h : ∀ i < 8, byteOf u i = byteOf v i) : u = v := by
  apply BitVec.eq_of_getLsbD_eq
  intro j hj
  have hbit := congrArg (fun x : Byte => x.getLsbD (j % 8)) (h (j / 8) (by omega))
  have hmod : j % 8 < 8 := Nat.mod_lt j (by decide)
  simpa only [getLsbD_byteOf, decide_eq_true hmod, Bool.true_and, Nat.div_add_mod] using hbit

theorem getLsbD_ofWords (g : Nat → BitVec 16) {j : Nat} (hj : j < 64) :
    (ofWords g).getLsbD j = (g (j / 16)).getLsbD (j % 16) := by
  have hlane : j / 16 < 4 := by omega
  simp only [ofWords, BitVec.getLsbD_append]
  interval_cases hk : j / 16 <;> grind

theorem getLsbD_ofLongs (g : Nat → BitVec 32) {j : Nat} (hj : j < 64) :
    (ofLongs g).getLsbD j = (g (j / 32)).getLsbD (j % 32) := by
  have hlane : j / 32 < 2 := by omega
  simp only [ofLongs, BitVec.getLsbD_append]
  interval_cases hk : j / 32 <;> grind

/-- The lanes of `ofWords` are the words it was made of. -/
theorem wordOf_ofWords (g : Nat → BitVec 16) {j : Nat} (hj : j < 4) : wordOf (ofWords g) j = g j := by
  apply BitVec.eq_of_getLsbD_eq
  intro k hk
  rw [wordOf, BitVec.getLsbD_extractLsb', decide_eq_true hk, Bool.true_and, getLsbD_ofWords g (by omega),
    show (16 * j + k) / 16 = j by omega, show (16 * j + k) % 16 = k by omega]

theorem byteOf_ofWords (g : Nat → BitVec 16) {i : Nat} (hi : i < 8) :
    byteOf (ofWords g) i = (g (i / 2)).extractLsb' (8 * (i % 2)) 8 :=
  byteOf_ext fun k hk => by
    rw [getLsbD_ofWords g (by omega), BitVec.getLsbD_extractLsb', decide_eq_true hk, Bool.true_and,
      show (8 * i + k) / 16 = i / 2 by omega, show (8 * i + k) % 16 = 8 * (i % 2) + k by omega]

theorem byteOf_ofLongs (g : Nat → BitVec 32) {i : Nat} (hi : i < 8) :
    byteOf (ofLongs g) i = (g (i / 4)).extractLsb' (8 * (i % 4)) 8 :=
  byteOf_ext fun k hk => by
    rw [getLsbD_ofLongs g (by omega), BitVec.getLsbD_extractLsb', decide_eq_true hk, Bool.true_and,
      show (8 * i + k) / 32 = i / 4 by omega, show (8 * i + k) % 32 = 8 * (i % 4) + k by omega]

/-! ### The lane a comparison picks (44 R301 to R308) -/

section
variable {n : Nat} (x y : BitVec n)

theorem toNat_pick_ule : (pick (fun u v => u.ule v) x y).toNat = min x.toNat y.toNat := by
  simp only [pick, BitVec.ule_iff_toNat_le, min_def, apply_ite BitVec.toNat]

theorem toNat_pick_uge : (pick (fun u v => v.ule u) x y).toNat = max x.toNat y.toNat := by
  simp only [pick, BitVec.ule_iff_toNat_le, max_comm x.toNat, max_def, apply_ite BitVec.toNat]

theorem toInt_pick_sle : (pick (fun u v => u.sle v) x y).toInt = min x.toInt y.toInt := by
  simp only [pick, BitVec.sle_iff_toInt_le, min_def, apply_ite BitVec.toInt]

theorem toInt_pick_sge : (pick (fun u v => v.sle u) x y).toInt = max x.toInt y.toInt := by
  simp only [pick, BitVec.sle_iff_toInt_le, max_comm x.toInt, max_def, apply_ite BitVec.toInt]

end

section
variable {i : Instr} {op : BitVec 6} {fn : BitVec 7} {ra rc : RegIdx} {b : Opnd} {s : State} {α : Type}
  {m : α → α → α}

/-- A bytewise instruction, described by the number `val` of each lane. -/
theorem OprRow.writes_byteLanes {le : Byte → Byte → Bool} {val : Byte → α} (h : OprRow i op fn ra b rc)
    (hr : s.ready) (hx : executorOf i = pureExec (byteLanes le))
    (hpick : ∀ x y, val (pick le x y) = m (val x) (val y)) :
    decodeWord (encodeOpr op fn ra b rc) = .ok i ∧
    ∃ v, exec i s = .next (s.afterX rc v) ∧
      ∀ j < 8, val (byteOf v j) = m (val (byteOf (s.readX ra) j)) (val (byteOf (s.operand b) j)) :=
  h.writes_such hr hx fun _ hj => (congrArg val (byteOf_ofBytes _ hj)).trans (hpick _ _)

/-- A wordwise instruction, described by the number `val` of each lane. -/
theorem OprRow.writes_wordLanes {le : BitVec 16 → BitVec 16 → Bool} {val : BitVec 16 → α}
    (h : OprRow i op fn ra b rc) (hr : s.ready) (hx : executorOf i = pureExec (wordLanes le))
    (hpick : ∀ x y, val (pick le x y) = m (val x) (val y)) :
    decodeWord (encodeOpr op fn ra b rc) = .ok i ∧
    ∃ v, exec i s = .next (s.afterX rc v) ∧
      ∀ j < 4, val (wordOf v j) = m (val (wordOf (s.readX ra) j)) (val (wordOf (s.operand b) j)) :=
  h.writes_such hr hx fun _ hj => (congrArg val (wordOf_ofWords _ hj)).trans (hpick _ _)

end

/-- Settles O23: four comparisons, each on bytes and on words. -/
theorem minMax : Obligations.MinMax := by
  rintro s ra rc b hr A B rfl rfl
  exact ⟨OprRow.writes_byteLanes ⟨rfl, rfl, rfl, rfl, fun _ => rfl⟩ hr rfl toNat_pick_ule,
    OprRow.writes_byteLanes ⟨rfl, rfl, rfl, rfl, fun _ => rfl⟩ hr rfl toInt_pick_sle,
    OprRow.writes_wordLanes ⟨rfl, rfl, rfl, rfl, fun _ => rfl⟩ hr rfl toNat_pick_ule,
    OprRow.writes_wordLanes ⟨rfl, rfl, rfl, rfl, fun _ => rfl⟩ hr rfl toInt_pick_sle,
    OprRow.writes_byteLanes ⟨rfl, rfl, rfl, rfl, fun _ => rfl⟩ hr rfl toNat_pick_uge,
    OprRow.writes_byteLanes ⟨rfl, rfl, rfl, rfl, fun _ => rfl⟩ hr rfl toInt_pick_sge,
    OprRow.writes_wordLanes ⟨rfl, rfl, rfl, rfl, fun _ => rfl⟩ hr rfl toNat_pick_uge,
    OprRow.writes_wordLanes ⟨rfl, rfl, rfl, rfl, fun _ => rfl⟩ hr rfl toInt_pick_sge⟩

/-! ### The pixel error (44 R309) -/

theorem byteDistance_eq_natAbs (a b : Word) (i : Nat) :
    byteDistance a b i = Int.natAbs ((byteOf a i).toNat - (byteOf b i).toNat : Int) := by
  unfold byteDistance
  omega

theorem byteDistance_lt (a b : Word) (i : Nat) : byteDistance a b i < 2 ^ 8 := by
  have ha := (byteOf a i).isLt
  have hb := (byteOf b i).isLt
  unfold byteDistance
  omega

/-- The sum of eight byte distances fits a quadword. -/
theorem toNat_pixelError (a b : Word) :
    (pixelError a b).toNat = ((List.range 8).map (byteDistance a b)).sum := by
  have hsum : pixelError a b = BitVec.ofNat 64 ((List.range 8).map (byteDistance a b)).sum :=
    congrArg (BitVec.ofNat 64) (by simp [List.range_succ, Nat.add_assoc])
  have hle : ((List.range 8).map (byteDistance a b)).sum ≤ 8 * 2 ^ 8 := by
    refine (List.sum_le_card_nsmul _ (2 ^ 8) fun d hd => ?_).trans_eq (by simp)
    obtain ⟨i, -, rfl⟩ := List.mem_map.1 hd
    exact (byteDistance_lt a b i).le
  rw [hsum, BitVec.toNat_ofNat, Nat.mod_eq_of_lt (by omega)]

/-! ### Packing and unpacking (44 R310 to R313, R315) -/

/-- Bytes `0, n, 2 * n, …` of a word, `m` of them, moved to the bottom: PKWB for 2 and 4, PKLB for 4 and 2. -/
def packBytes (n m : Nat) (v : Word) : Word := ofBytes fun i => if i < m then byteOf v (n * i) else 0

theorem byteOf_packBytes (n m : Nat) (v : Word) {i : Nat} (hi : i < 8) :
    byteOf (packBytes n m v) i = if i < m then byteOf v (n * i) else 0 := byteOf_ofBytes _ hi

/-- The four low bytes of a word, each zero-extended to a lane (UNPKBW). -/
def unpackWords (v : Word) : Word := ofWords fun j => (byteOf v j).setWidth 16

/-- The two low bytes of a word, each zero-extended to a lane (UNPKBL). -/
def unpackLongs (v : Word) : Word := ofLongs fun k => (byteOf v k).setWidth 32

/-- A zero-extended byte has that byte at the bottom and zero above. -/
theorem extractLsb'_setWidth_byte (x : Byte) {w : Nat} (hw : 8 ≤ w) (k : Nat) :
    (x.setWidth w).extractLsb' (8 * k) 8 = if k = 0 then x else 0 := by
  apply BitVec.eq_of_getLsbD_eq
  intro j hj
  rw [BitVec.getLsbD_extractLsb', decide_eq_true hj, Bool.true_and, BitVec.getLsbD_setWidth]
  split
  · next hk => rw [hk, Nat.mul_zero, Nat.zero_add, decide_eq_true (by omega), Bool.true_and]
  · rw [BitVec.getLsbD_of_ge x _ (by omega), Bool.and_false]
    exact BitVec.getLsbD_zero.symm

theorem byteOf_unpackWords (v : Word) {i : Nat} (hi : i < 8) :
    byteOf (unpackWords v) i = if i % 2 = 0 then byteOf v (i / 2) else 0 :=
  (byteOf_ofWords _ hi).trans (extractLsb'_setWidth_byte _ (by decide) _)

theorem byteOf_unpackLongs (v : Word) {i : Nat} (hi : i < 8) :
    byteOf (unpackLongs v) i = if i % 4 = 0 then byteOf v (i / 4) else 0 :=
  (byteOf_ofLongs _ hi).trans (extractLsb'_setWidth_byte _ (by decide) _)

/-- Zero extension of the low `m` bytes. -/
theorem byteOf_setWidth_setWidth (b : Word) (m : Nat) {i : Nat} (hi : i < 8) :
    byteOf ((b.setWidth (8 * m)).setWidth 64) i = if i < m then byteOf b i else 0 := by
  apply byteOf_ext
  intro k hk
  rw [BitVec.getLsbD_setWidth, BitVec.getLsbD_setWidth, decide_eq_true (by omega : 8 * i + k < 64), Bool.true_and]
  split
  · rw [decide_eq_true (by omega), Bool.true_and, getLsbD_byteOf, decide_eq_true hk, Bool.true_and]
  · rw [decide_eq_false (by omega), Bool.false_and]
    exact BitVec.getLsbD_zero.symm

/-- Packing takes back the bytes that unpacking spread `n` apart. -/
theorem packBytes_of_spread {n m : Nat} (hnm : n * m = 8) {v b : Word}
    (hv : ∀ i < 8, byteOf v i = if i % n = 0 then byteOf b (i / n) else 0) :
    packBytes n m v = (b.setWidth (8 * m)).setWidth 64 := by
  have hn : 0 < n := Nat.pos_of_ne_zero fun h => by simp [h] at hnm
  apply eq_of_byteOf_eq
  intro i hi
  rw [byteOf_packBytes _ _ _ hi, byteOf_setWidth_setWidth _ _ hi]
  refine if_ctx_congr Iff.rfl (fun him => ?_) fun _ => rfl
  rw [hv _ (hnm ▸ Nat.mul_lt_mul_of_pos_left him hn), if_pos (Nat.mul_mod_right n i), Nat.mul_div_cancel_left i hn]

/-! ### Two instructions in a row -/

/-- Every id below the next is spent, so no record in flight counts as a previous writer (70 R525, log 38). -/
theorem State.ready_afterX (s : State) (rc : RegIdx) (v : Word) : (s.afterX rc v).ready := by
  rw [State.afterX_eq]
  refine ⟨Nat.le_refl _, fun d p _ hp => ?_⟩
  obtain ⟨-, hq⟩ := List.mem_filter.1 (List.mem_of_getLast? hp)
  simp only [Bool.and_eq_true, decide_eq_true_eq] at hq
  obtain ⟨⟨hlt, -⟩, hge⟩ := hq
  exact absurd hlt (Nat.not_lt_of_le hge)

theorem State.readX_afterX_same (s : State) {rc : RegIdx} (h : rc ≠ 31) (v : Word) :
    (s.afterX rc v).readX rc = v := by
  obtain ⟨hread, -⟩ := endStates s rc v .noException
  rw [hread, if_neg h, if_pos rfl]

/-- An instruction computed from its second operand, run on the result of one before it. -/
theorem OprRow.writes_after {i j : Instr} {op op' : BitVec 6} {fn fn' : BitVec 7} {ra ra' rc rd : RegIdx} {b : Opnd}
    {s t : State} {f : Word → Word → Word} {g : Word → Word} (h : OprRow i op fn ra b rc)
    (h' : OprRow j op' fn' ra' (.reg rc) rd) (hr : s.ready) (hx : executorOf i = pureExec f)
    (hx' : executorOf j = pureExec fun _ y => g y) (hrc : rc ≠ 31) (ht : exec i s = .next t) :
    exec j t = .next (t.afterX rd (g (f (s.readX ra) (s.operand b)))) := by
  obtain ⟨-, hexec⟩ := h.writes hr hx rfl
  cases hexec.symm.trans ht
  refine (h'.writes (s.ready_afterX rc _) hx' ?_).2
  exact congrArg g (s.readX_afterX_same hrc _).symm

/-- Settles O24: five `Opr` rows, and two round trips, each a pack of what an unpack spread. -/
theorem pixelErrorPack : Obligations.PixelErrorPack := by
  rintro s ra rc b hr A B rfl rfl
  have unpkbw : OprRow (.unpkbw ra b rc) 0x1C#6 0x34#7 ra b rc := ⟨rfl, rfl, rfl, rfl, fun _ => rfl⟩
  have unpkbl : OprRow (.unpkbl ra b rc) 0x1C#6 0x35#7 ra b rc := ⟨rfl, rfl, rfl, rfl, fun _ => rfl⟩
  have pkwb (b : Opnd) (rc : RegIdx) : OprRow (.pkwb ra b rc) 0x1C#6 0x36#7 ra b rc :=
    ⟨rfl, rfl, rfl, rfl, fun _ => rfl⟩
  have pklb (b : Opnd) (rc : RegIdx) : OprRow (.pklb ra b rc) 0x1C#6 0x37#7 ra b rc :=
    ⟨rfl, rfl, rfl, rfl, fun _ => rfl⟩
  refine ⟨OprRow.writes_such (f := pixelError) ⟨rfl, rfl, rfl, rfl, fun _ => rfl⟩ hr rfl ?_,
    (pklb b rc).writes_such (f := fun _ y => packBytes 4 2 y) hr rfl fun _ hi => byteOf_packBytes 4 2 _ hi,
    (pkwb b rc).writes_such (f := fun _ y => packBytes 2 4 y) hr rfl fun _ hi => byteOf_packBytes 2 4 _ hi,
    unpkbl.writes_such (f := fun _ y => unpackLongs y) hr rfl fun _ hi => byteOf_unpackLongs _ hi,
    unpkbw.writes_such (f := fun _ y => unpackWords y) hr rfl fun _ hi => byteOf_unpackWords _ hi,
    fun t rd hrc ht => ?_, fun t rd hrc ht => ?_⟩
  · rw [toNat_pixelError]
    exact congrArg List.sum (List.map_congr_left fun i _ => byteDistance_eq_natAbs _ _ i)
  · rw [unpkbw.writes_after (pkwb (.reg rc) rd) (f := fun _ y => unpackWords y) (g := packBytes 2 4) hr rfl rfl hrc ht]
    exact congrArg (fun v => Host.Outcome.next (t.afterX rd v))
      (packBytes_of_spread rfl fun _ hi => byteOf_unpackWords _ hi)
  · rw [unpkbl.writes_after (pklb (.reg rc) rd) (f := fun _ y => unpackLongs y) (g := packBytes 4 2) hr rfl rfl hrc ht]
    exact congrArg (fun v => Host.Outcome.next (t.afterX rd v))
      (packBytes_of_spread rfl fun _ hi => byteOf_unpackLongs _ hi)

end Sys2Proof.Machine
end

section
/-!
PROOFS of the load and store family: address computation (O25), loads and load-locked (O26, O27), stores and
store-conditional (O28, O29), the address transform and misaligned accesses (O31).
-/

namespace Sys2Proof.Machine

/-! ### The address transform (45 R322, 20_memory R78) -/

theorem eq_endianAddress_quad {e : Bool} {ea va : Word} (h : va = ea) : va = endianAddress e ea .quad := by
  cases e <;> exact h

theorem toNat_xor_mod_two_pow (v : Word) {c : Word} {n : Nat} (hc : c.toNat % 2 ^ n = 0) :
    (v ^^^ c).toNat % 2 ^ n = v.toNat % 2 ^ n := by
  rw [BitVec.toNat_xor, Nat.xor_mod_two_pow, hc, Nat.xor_zero]

/-- Every mask of R322 is a multiple of its width. -/
theorem endianAddress_mod (e : Bool) (ea : Word) (w : Width) :
    (endianAddress e ea w).toNat % w.bytes = ea.toNat % w.bytes := by
  cases e with
  | false => rfl
  | true =>
    cases w with
    | byte => exact toNat_xor_mod_two_pow (c := 7) (n := 0) ea rfl
    | word => exact toNat_xor_mod_two_pow (c := 6) (n := 1) ea rfl
    | long => exact toNat_xor_mod_two_pow (c := 4) (n := 2) ea rfl
    | quad => rfl

/-! ### The loaded value (20_memory R74, 40_primitives R165) -/

theorem setWidth_of_widened {n : Nat} (x : BitVec n) (h : n ≤ 64) : (x.setWidth 64).setWidth n = x := by
  rw [BitVec.setWidth_setWidth_of_le x h, BitVec.setWidth_eq]

theorem complete_assemble_byte (g : Nat → Byte) : complete .zeroExtendByte (assemble g .byte) = (g 0).setWidth 64 :=
  congrArg (BitVec.setWidth 64) (setWidth_of_widened (g 0) (by decide))

theorem complete_assemble_word (g : Nat → Byte) :
    complete .zeroExtendWord (assemble g .word) = (g 1 ++ g 0).setWidth 64 :=
  congrArg (BitVec.setWidth 64) (setWidth_of_widened (g 1 ++ g 0) (by decide))

theorem complete_assemble_long (g : Nat → Byte) :
    complete .signExtendLong (assemble g .long) = (g 3 ++ g 2 ++ g 1 ++ g 0).signExtend 64 :=
  congrArg (BitVec.signExtend 64) (setWidth_of_widened (g 3 ++ g 2 ++ g 1 ++ g 0) (by decide))

/-! ### The records of the `Mem` format (30_encoding R137) -/

theorem not_store_of_load {op : BitVec 6} (h : isLoadOpcode op = true) :
    isStoreOpcode op = false ∧ isCondStoreOpcode op = false := by
  revert op; decide

theorem not_load_of_store {op : BitVec 6} (h : isStoreOpcode op = true) : isLoadOpcode op = false := by
  revert op; decide

section Record

variable (s : State) (op : BitVec 6) (ra rb : RegIdx) (disp : BitVec 16)

theorem loadRecord_memForm : MemForm s (loadRecord s op ra rb disp) := ⟨rfl, rfl, nofun, nofun, rfl, rfl, rfl⟩

theorem storeRecord_memForm : MemForm s (storeRecord s op ra rb disp) := ⟨rfl, rfl, nofun, nofun, rfl, rfl, rfl⟩

theorem condStoreRecord_memForm : MemForm s (condStoreRecord s op ra rb disp) :=
  ⟨rfl, rfl, nofun, nofun, rfl, rfl, rfl⟩

end Record

/-! ### An instruction that runs one of the four common rules (45 R335, R336, R338, R340) -/

theorem State.writeX_31 (s : State) (v : Word) : s.writeX 31 v = s := if_pos rfl

section Instruction

variable {i : Instr} {s : State} {op : BitVec 6} {ra rb : RegIdx} {disp : BitVec 16} {w : Width} {tag : Completion}
  {adjust : Word → Word} {va v : Word} {pa : PhysAddr}

theorem exec_load (hrun : exec i s = runInstr .load (loadRecord s op ra rb disp) (loadExec w tag adjust) s)
    (hop : isLoadOpcode op = true) (hva : va = endianAddress s.cpu.bigEndian (adjust (s.effectiveAddress rb disp)) w)
    (h : s.CanLoad va w pa) (hv : complete tag (assemble (fun k => s.mem.byteAt s.cfg (pa.toNat + k)) w) = v) :
    ∃ m, exec i s = .next ((s.afterMem m).writeX ra v) ∧ s.mem.unchanged s.cfg m := by
  subst hva hv
  obtain ⟨hs, hc⟩ := not_store_of_load hop
  rw [hrun]
  exact runInstr_load (loadRecord_memForm s op ra rb disp) hop hs hc h

theorem exec_loadLocked (hrun : exec i s = runInstr .load (loadRecord s op ra rb disp) (loadLockedExec w tag) s)
    (hop : isLoadOpcode op = true) (hva : va = endianAddress s.cpu.bigEndian (s.effectiveAddress rb disp) w)
    (h : s.CanLoad va w pa) (hv : complete tag (assemble (fun k => s.mem.byteAt s.cfg (pa.toNat + k)) w) = v) :
    ∃ m, exec i s = .next (((s.afterMem m).writeX ra v).setLock true va (pa.setWidth 64)) ∧
      s.mem.unchanged s.cfg m := by
  subst hva hv
  obtain ⟨hs, hc⟩ := not_store_of_load hop
  rw [hrun]
  exact runInstr_loadLocked (loadRecord_memForm s op ra rb disp) hop hs hc h

/-- An ordinary store names register 31 as its destination, so its commit writes no register (10_state R25). -/
theorem exec_store (hrun : exec i s = runInstr .store (storeRecord s op ra rb disp) (storeExec w adjust) s)
    (hop : isStoreOpcode op = true) (hc : isCondStoreOpcode op = false)
    (hva : va = endianAddress s.cpu.bigEndian (adjust (s.effectiveAddress rb disp)) w) (h : s.CanStore va w pa) :
    ∃ m, exec i s = .next (s.afterMem m) ∧ s.mem.stored s.cfg m pa.toNat w.bytes (s.readX ra) := by
  subst hva
  obtain ⟨m, hstore, hstored⟩ :=
    runInstr_store (storeRecord_memForm s op ra rb disp) (not_load_of_store hop) hop hc h
  refine ⟨m, ?_, hstored⟩
  rw [hrun, hstore]
  exact congrArg Host.Outcome.next (State.writeX_31 ..)

theorem exec_condStore (hrun : exec i s = runInstr .store (condStoreRecord s op ra rb disp) (condStoreExec w) s)
    (hop : isStoreOpcode op = true) (hlock : olderLockInFlight s s.ids.next = false)
    (hva : va = endianAddress s.cpu.bigEndian (s.effectiveAddress rb disp) w) (h : s.CanStore va w pa) :
    (s.cpu.lockFlag = true → ∃ m, exec i s = .next (((s.afterMem m).writeX ra 1).clearLockFlag) ∧
      s.mem.stored s.cfg m pa.toNat w.bytes (s.readX ra)) ∧
    (s.cpu.lockFlag = false → exec i s = .next (((s.afterMem s.mem).writeX ra 0).clearLockFlag)) := by
  subst hva
  rw [hrun]
  exact runInstr_condStore (condStoreRecord_memForm s op ra rb disp) (not_load_of_store hop) hop hlock h

theorem exec_load_misaligned (hr : s.memReady) (hslot : ∃ n < Config.queueDepth, Table.at? s.lq n = none)
    (ha : va.toNat % w.bytes ≠ 0)
    (hrun : exec i s = runInstr .load (loadRecord s op ra rb disp) (loadExec w tag adjust) s)
    (hop : isLoadOpcode op = true)
    (hva : va = endianAddress s.cpu.bigEndian (adjust (s.effectiveAddress rb disp)) w) :
    exec i s = .refused .misaligned := by
  subst hva
  exact hrun.trans (runInstr_load_misaligned (loadRecord_memForm s op ra rb disp) hr hop (not_store_of_load hop).2
    (readsAt_load _ _ _ _ _) hslot ha)

theorem exec_loadLocked_misaligned (hr : s.memReady) (hslot : ∃ n < Config.queueDepth, Table.at? s.lq n = none)
    (ha : va.toNat % w.bytes ≠ 0)
    (hrun : exec i s = runInstr .load (loadRecord s op ra rb disp) (loadLockedExec w tag) s)
    (hop : isLoadOpcode op = true) (hva : va = endianAddress s.cpu.bigEndian (s.effectiveAddress rb disp) w) :
    exec i s = .refused .misaligned := by
  subst hva
  exact hrun.trans (runInstr_load_misaligned (loadRecord_memForm s op ra rb disp) hr hop (not_store_of_load hop).2
    (readsAt_loadLocked _ _ _ _) hslot ha)

theorem exec_store_misaligned (hr : s.memReady) (hlock : olderLockInFlight s s.ids.next = false)
    (hslot : ∃ n < Config.queueDepth, Table.at? s.sq n = none) (ha : va.toNat % w.bytes ≠ 0)
    (hrun : exec i s = runInstr .store (storeRecord s op ra rb disp) (storeExec w adjust) s)
    (hop : isStoreOpcode op = true)
    (hva : va = endianAddress s.cpu.bigEndian (adjust (s.effectiveAddress rb disp)) w) :
    exec i s = .refused .misaligned := by
  subst hva
  exact hrun.trans (runInstr_store_misaligned (storeRecord_memForm s op ra rb disp) hr hop (fun _ => hlock)
    (writesAt_store _ _ _ _) hslot ha)

theorem exec_condStore_misaligned (hr : s.memReady) (hlock : olderLockInFlight s s.ids.next = false)
    (hslot : ∃ n < Config.queueDepth, Table.at? s.sq n = none) (ha : va.toNat % w.bytes ≠ 0)
    (hrun : exec i s = runInstr .store (condStoreRecord s op ra rb disp) (condStoreExec w) s)
    (hop : isStoreOpcode op = true) (hva : va = endianAddress s.cpu.bigEndian (s.effectiveAddress rb disp) w) :
    exec i s = .refused .misaligned := by
  subst hva
  exact hrun.trans (runInstr_store_misaligned (condStoreRecord_memForm s op ra rb disp) hr hop (fun _ => hlock)
    (writesAt_condStore _ _ _) hslot ha)

end Instruction

/-! ### Address computation (45 R323, R324) -/

theorem loadRecord_regForm (s : State) {op : BitVec 6} (ra rb : RegIdx) (disp : BitVec 16)
    (hl : isLoadOpcode op = false) (hs : isStoreOpcode op = false) (hc : isCondStoreOpcode op = false) :
    RegForm s (loadRecord s op ra rb disp) :=
  ⟨rfl, rfl, rfl, nofun, nofun, hl, hs, hc, rfl, rfl, rfl⟩

theorem shiftLeft_sixteen (v : Word) : v <<< 16 = v * 65536 :=
  BitVec.shiftLeft_eq_mul_twoPow v 16

/-- Settles O25: neither instruction uses a queue, and a shift by 16 is the factor 65536. -/
theorem addressComputation : Obligations.AddressComputation := by
  intro s ra rb disp hr
  have hlda := runInstr_doneWith (loadRecord_regForm s (op := 0x08#6) ra rb disp rfl rfl rfl) hr (ex := exLda)
    (c := s.cpu) (v := s.readX rb + disp.signExtend 64) rfl
  have hldah := runInstr_doneWith (loadRecord_regForm s (op := 0x09#6) ra rb disp rfl rfl rfl) hr (ex := exLdah)
    (c := s.cpu) (v := s.readX rb + disp.signExtend 64 <<< 16) rfl
  rw [shiftLeft_sixteen] at hldah
  exact ⟨decodeWord_encode (.lda ra rb disp) rfl, hlda, decodeWord_encode (.ldah ra rb disp) rfl, hldah⟩

/-! ### Loads and stores that complete (45 R325 to R341) -/

/-- Settles O26: each load is the common rule R335 with its width, completion tag and address adjustment. -/
theorem loadCompletes : Obligations.LoadCompletes := by
  rintro s ra rb disp pa ea va g rfl hg
  obtain rfl : g = fun k => s.mem.byteAt s.cfg (pa.toNat + k) := funext hg
  exact ⟨fun hva h => exec_load rfl rfl hva h (complete_assemble_byte _),
    fun hva h => exec_load rfl rfl hva h (complete_assemble_word _),
    fun hva h => exec_load rfl rfl hva h (complete_assemble_long _),
    fun hva h => exec_load rfl rfl (eq_endianAddress_quad hva) h rfl,
    fun hva h => exec_load rfl rfl (eq_endianAddress_quad hva) h rfl⟩

/-- Settles O27: the load's end, then the commit of the pending lock (R338, R115). -/
theorem loadLockedCompletes : Obligations.LoadLockedCompletes := by
  rintro s ra rb disp pa ea va g rfl hg
  obtain rfl : g = fun k => s.mem.byteAt s.cfg (pa.toNat + k) := funext hg
  exact ⟨fun hva h => exec_loadLocked rfl rfl hva h (complete_assemble_long _),
    fun hva h => exec_loadLocked rfl rfl (eq_endianAddress_quad hva) h rfl⟩

/-- Settles O28: each store is the common rule R336 with its width and address adjustment. -/
theorem storeCompletes : Obligations.StoreCompletes := by
  rintro s ra rb disp pa ea va rfl
  exact ⟨fun hva h => exec_store rfl rfl rfl hva h,
    fun hva h => exec_store rfl rfl rfl hva h,
    fun hva h => exec_store rfl rfl rfl hva h,
    fun hva h => exec_store rfl rfl rfl (eq_endianAddress_quad hva) h,
    fun hva h => exec_store rfl rfl rfl (eq_endianAddress_quad hva) h⟩

/-- Settles O29: both instructions are the common rule R340, which the committed lock flag splits. -/
theorem storeConditionalCompletes : Obligations.StoreConditionalCompletes := by
  rintro s ra rb disp pa ea va rfl hlock
  exact ⟨fun hva h => exec_condStore rfl rfl hlock hva h,
    fun hva h => exec_condStore rfl rfl hlock (eq_endianAddress_quad hva) h⟩

/-! ### Misaligned accesses (20_memory R79) -/

/-- Settles O31: the transform keeps the address modulo the width; the executors of a misaligned access hand the Mbox
the address it refuses (20_memory R79). -/
theorem alignmentAndEndian : Obligations.AlignmentAndEndian := by
  refine ⟨fun ea => ⟨fun _ => rfl, rfl, rfl, rfl, rfl, fun e w => by rw [endianAddress_mod]⟩, ?_⟩
  rintro s ra rb disp ea va w rfl hr ha
  refine ⟨fun n hn hfree => ?_, fun n hn hfree hlock => ?_⟩
  · have hslot : ∃ n < Config.queueDepth, Table.at? s.lq n = none := ⟨n, hn, hfree⟩
    exact ⟨fun hva hw => exec_load_misaligned hr hslot (hw ▸ ha) rfl rfl hva,
      fun hva hw => exec_load_misaligned hr hslot (hw ▸ ha) rfl rfl hva,
      fun hva hw => exec_load_misaligned hr hslot (hw ▸ ha) rfl rfl (eq_endianAddress_quad hva),
      fun hva hw => exec_loadLocked_misaligned hr hslot (hw ▸ ha) rfl rfl hva,
      fun hva hw => exec_loadLocked_misaligned hr hslot (hw ▸ ha) rfl rfl (eq_endianAddress_quad hva)⟩
  · have hslot : ∃ n < Config.queueDepth, Table.at? s.sq n = none := ⟨n, hn, hfree⟩
    exact ⟨fun hva hw => exec_store_misaligned hr hlock hslot (hw ▸ ha) rfl rfl hva,
      fun hva hw => exec_store_misaligned hr hlock hslot (hw ▸ ha) rfl rfl hva,
      fun hva hw => exec_store_misaligned hr hlock hslot (hw ▸ ha) rfl rfl (eq_endianAddress_quad hva),
      fun hva hw => exec_condStore_misaligned hr hlock hslot (hw ▸ ha) rfl rfl hva,
      fun hva hw => exec_condStore_misaligned hr hlock hslot (hw ▸ ha) rfl rfl (eq_endianAddress_quad hva)⟩

end Sys2Proof.Machine
end

section
/-!
PROOFS of the family 47_misc: RC and RS (O53).
-/

namespace Sys2Proof.Machine

/-! ### The VAX compatibility flag (47 R420, R421) -/

theorem mfcRecord_form (s : State) {op : BitVec 6} (fn : BitVec 16) (ra : RegIdx) (hl : isLoadOpcode op = false)
    (hs : isStoreOpcode op = false) (hc : isCondStoreOpcode op = false) : RegForm s (mfcRecord s op fn ra) :=
  ⟨rfl, rfl, rfl, nofun, nofun, hl, hs, hc, rfl, rfl, rfl⟩

/-- The executor sees the flag of the state before dispatch: taking an id leaves the CPU state as it is. -/
theorem runInstr_flag {s : State} (hr : s.ready) {op : BitVec 6} (fn : BitVec 16) (ra : RegIdx) (flag : Bool)
    (hl : isLoadOpcode op = false) (hs : isStoreOpcode op = false) (hc : isCondStoreOpcode op = false) :
    runInstr .none (mfcRecord s op fn ra) (fun t r => doneWith (t.setIntrFlag flag) r (boolWord t.cpu.intrFlag)) s =
      .next ((s.setIntrFlag flag).afterX ra (if s.cpu.intrFlag then 1 else 0)) :=
  runInstr_doneWith (mfcRecord_form s fn ra hl hs hc) hr (c := { s.cpu with intrFlag := flag })
    (v := boolWord s.cpu.intrFlag) rfl

/-- Settles O53: RC and RS differ in the flag they leave, and both write the flag they found. -/
theorem readClearReadSet : Obligations.ReadClearReadSet := by
  intro s ra rb hr
  have hrc : exec (.rc ra rb) s = .next ((s.setIntrFlag false).afterX ra (if s.cpu.intrFlag then 1 else 0)) :=
    runInstr_flag hr (op := 0x18#6) 0xE000#16 ra false rfl rfl rfl
  have hrs : exec (.rs ra rb) s = .next ((s.setIntrFlag true).afterX ra (if s.cpu.intrFlag then 1 else 0)) :=
    runInstr_flag hr (op := 0x18#6) 0xF000#16 ra true rfl rfl rfl
  exact ⟨decodeWord_encode (.rc ra rb) rfl, hrc, decodeWord_encode (.rs ra rb) rfl, hrs⟩

end Sys2Proof.Machine
end

section
/-!
PROOFS of the family 48_branch_predictor: the counters, the histories, `predict` and `train` (O54).
-/

namespace Sys2Proof.Machine

/-! ### The counters saturate (48 R432 to R434) -/

theorem toNat_inc2 (v : BitVec 2) : (inc2 v).toNat = min (v.toNat + 1) 3 := by
  unfold inc2
  split
  · subst v; rfl
  · bv_omega

theorem toNat_dec2 (v : BitVec 2) : (dec2 v).toNat = v.toNat - 1 := by
  unfold dec2
  split
  · subst v; rfl
  · bv_omega

theorem taken2_iff (v : BitVec 2) : taken2 v = true ↔ 2 ≤ v.toNat := decide_eq_true_iff

/-- Both variants of R433 at once: only `hysteresis` at 3 departs from the saturating step. -/
theorem toNat_inc3 (u : Ctr3Update) (v : BitVec 3) :
    (inc3 u v).toNat = if u = .hysteresis ∧ v = 3 then 7 else min (v.toNat + 1) 7 := by
  unfold inc3
  split
  case isTrue top => subst v; cases u <;> rfl
  case isFalse top =>
    split
    case isTrue => rfl
    case isFalse => bv_omega

/-- Both variants of R433 at once: only `hysteresis` at 4 departs from the saturating step. -/
theorem toNat_dec3 (u : Ctr3Update) (v : BitVec 3) :
    (dec3 u v).toNat = if u = .hysteresis ∧ v = 4 then 0 else v.toNat - 1 := by
  unfold dec3
  split
  case isTrue bottom => subst v; cases u <;> rfl
  case isFalse bottom =>
    split
    case isTrue => rfl
    case isFalse => bv_omega

theorem taken3_iff (v : BitVec 3) : taken3 v = true ↔ 4 ≤ v.toNat := decide_eq_true_iff

/-! ### Indices and histories (48 R431, R435) -/

theorem localIndex_eq (pc : Word) : localIndex pc = pc.toNat / 4 % 1024 := by
  simp [localIndex, Nat.shiftRight_eq_div_pow]

/-- The new outcome lands in bit 0, which doubling has left clear, so that the disjunction is a sum. -/
theorem toNat_shiftHistory {n : Nat} (h : BitVec n) (taken : Bool) :
    (shiftHistory h taken).toNat = (2 * h.toNat + taken.toNat) % 2 ^ n := by
  have hsum : h.toNat <<< 1 ||| taken.toNat = 2 * h.toNat + taken.toNat := by
    rw [← Nat.shiftLeft_add_eq_or_of_lt taken.toNat_lt, Nat.shiftLeft_eq, Nat.pow_one, Nat.mul_comm]
  rw [shiftHistory, BitVec.toNat_or, BitVec.toNat_shiftLeft, BitVec.toNat_setWidth, BitVec.toNat_ofBool,
    ← Nat.or_mod_two_pow, hsum]

/-! ### Predict (48 R436, R437) -/

theorem arbitrate_eq (predMode : Nat) (l g c : Bool) : arbitrate predMode l g c =
    if predMode = 0 then (if l = g then l else if c then g else l) else if predMode = 1 then l else false := by
  match predMode with
  | 0 => simp [arbitrate]
  | 1 => rfl
  | n + 2 => simp [arbitrate]

/-! ### Train (48 R438) -/

/-- One entry of a table whose absent entries read as `d` is written, the others are kept. -/
theorem Table.atD_putD {α : Type} [DecidableEq α] (t : Table α) (d : α) (k j : Nat) (v : α) :
    Table.atD (Table.putD t d k v) d j = if j = k then v else Table.atD t d j := by
  split
  case isTrue h => rw [h, Table.atD_putD_self]
  case isFalse h => exact Table.atD_putD_ne t d v h

theorem trainedChoice_eq (v : BitVec 2) (taken lp gp : Bool) :
    trainedChoice v taken lp gp = if lp ≠ gp then (if gp = taken then inc2 v else dec2 v) else v := by
  by_cases h : lp = gp <;> simp [trainedChoice, h]

section Train
variable (p : Predictor) (u : Ctr3Update) (pc : Word) (taken lp gp : Bool) (j : Nat)

theorem Predictor.train_lpt : Table.atD (p.train u pc taken lp gp).lpt 0 j =
    if j = (p.history pc).toNat then
      (if taken then inc3 u (Table.atD p.lpt 0 j) else dec3 u (Table.atD p.lpt 0 j))
    else Table.atD p.lpt 0 j := by
  rw [Predictor.train, Table.atD_putD]
  split
  case isTrue h => rw [h, Predictor.localCounter]
  case isFalse => rfl

theorem Predictor.train_lht : (Table.atD (p.train u pc taken lp gp).lht 0 j).toNat =
    if j = localIndex pc then (2 * (p.history pc).toNat + taken.toNat) % 2 ^ 10
    else (Table.atD p.lht 0 j).toNat := by
  rw [Predictor.train, Table.atD_putD, apply_ite BitVec.toNat, toNat_shiftHistory]

theorem Predictor.train_gpt : Table.atD (p.train u pc taken lp gp).gpt 0 j =
    if j = p.gph.toNat then (if taken then inc2 (Table.atD p.gpt 0 j) else dec2 (Table.atD p.gpt 0 j))
    else Table.atD p.gpt 0 j := by
  rw [Predictor.train, Table.atD_putD]
  split
  case isTrue h => rw [h, Predictor.globalCounter]
  case isFalse => rfl

theorem Predictor.train_cpt : Table.atD (p.train u pc taken lp gp).cpt 0 j =
    if j = p.gph.toNat ∧ lp ≠ gp then
      (if gp = taken then inc2 (Table.atD p.cpt 0 j) else dec2 (Table.atD p.cpt 0 j))
    else Table.atD p.cpt 0 j := by
  rw [Predictor.train, Table.atD_putD, trainedChoice_eq, ite_and]
  split
  case isTrue h => rw [h, Predictor.choiceCounter]
  case isFalse => rfl

theorem Predictor.train_gph :
    (p.train u pc taken lp gp).gph.toNat = (2 * p.gph.toNat + taken.toNat) % 2 ^ 12 :=
  toNat_shiftHistory p.gph taken

end Train

/-- Settles O54: the counters first, then the two ports through the indices that R431 gives them. -/
theorem predictorRules : Obligations.PredictorRules := by
  refine ⟨fun v => ⟨toNat_inc2 v, toNat_dec2 v, taken2_iff v⟩,
    fun v => ⟨by simp [toNat_inc3], by simp [toNat_dec3], by simp [toNat_inc3], by simp [toNat_dec3], taken3_iff v⟩,
    fun s pc taken lp gp li lh gi L G C hli hlh hgi hL hG hC => ?_⟩
  rw [← localIndex_eq] at hli
  subst hli hlh hgi hL hG hC
  refine ⟨?_, s.pred.train s.cfg.ctr3 pc taken lp gp, rfl, s.pred.train_lpt _ pc taken lp gp,
    s.pred.train_lht _ pc taken lp gp, s.pred.train_gpt _ pc taken lp gp, s.pred.train_cpt _ pc taken lp gp,
    s.pred.train_gph _ pc taken lp gp⟩
  rw [← arbitrate_eq]
  rfl

end Sys2Proof.Machine
end

section
/-!
PROOFS of the cache, exception and reset families: precise exceptions and the faults of loads and stores (O59, O30),
user mode (O35), the caches and the instruction side (O38, O6), the step of the sequencer (O5, O7, O55), reset and the
configuration input (O56).
-/

namespace Sys2Proof.Machine

/-! ### How an instruction ends (60_exceptions R489, R490) -/

/-- Settles O59: an instruction ends in a trap, which changes the CPU state only outside what this statement names, or
it is retired, which leaves `stopped` as it was. -/
theorem exceptionsArePrecise : Obligations.ExceptionsArePrecise := by
  intro i s t hrun h
  obtain ⟨c, dtb, mb, -, -, -, -, hend⟩ := exec_cases h
  rcases hend with ⟨o, ho, hintr, hflag, hva, hpa, rfl⟩ | ⟨x, f, m, -, rfl⟩
  · refine ⟨rfl, nofun, fun o' hstop => ?_⟩
    obtain rfl : o = o' := Option.some.inj hstop
    exact ⟨ho, rfl, rfl, rfl, rfl, rfl, rfl, rfl, rfl, rfl, rfl, hflag, hva, hpa, hintr⟩
  · refine ⟨rfl, fun _ => rfl, fun o hstop => ?_⟩
    have hnone : s.stopped = some o := hstop
    rw [hrun] at hnone
    cases hnone

/-! ### Loads and stores whose translation gives an outcome (60_exceptions R489) -/

section Fault

variable {i : Instr} {s : State} {op : BitVec 6} {ra rb : RegIdx} {disp : BitVec 16} {w : Width} {tag : Completion}
  {adjust : Word → Word} {va : Word} {o : ExceptionOutcome} {t : Tlb}

section Read

variable (hr : s.memReady) (hslot : ∃ n < Config.queueDepth, Table.at? s.lq n = none)
  (ht : translateOn s.cpu s.dtb va .read = .ok (.fault o, t)) (ha : va.toNat % w.bytes = 0)
include hr hslot ht ha

theorem exec_load_fault (hrun : exec i s = runInstr .load (loadRecord s op ra rb disp) (loadExec w tag adjust) s)
    (hop : isLoadOpcode op = true)
    (hva : va = endianAddress s.cpu.bigEndian (adjust (s.effectiveAddress rb disp)) w) :
    exec i s = .next (s.afterMemTrap t o) := by
  subst hva
  obtain ⟨hs, hc⟩ := not_store_of_load hop
  exact hrun.trans (runInstr_load_trap (loadRecord_memForm s op ra rb disp) hr hop hs hc
    (readsAt_load _ _ _ _ _) hslot ha ht (translateOn_outcome ht))

theorem exec_loadLocked_fault (hrun : exec i s = runInstr .load (loadRecord s op ra rb disp) (loadLockedExec w tag) s)
    (hop : isLoadOpcode op = true) (hva : va = endianAddress s.cpu.bigEndian (s.effectiveAddress rb disp) w) :
    exec i s = .next (s.afterMemTrap t o) := by
  subst hva
  obtain ⟨hs, hc⟩ := not_store_of_load hop
  exact hrun.trans (runInstr_load_trap (loadRecord_memForm s op ra rb disp) hr hop hs hc
    (readsAt_loadLocked _ _ _ _) hslot ha ht (translateOn_outcome ht))

end Read

section Write

variable (hr : s.memReady) (hlock : olderLockInFlight s s.ids.next = false)
  (hslot : ∃ n < Config.queueDepth, Table.at? s.sq n = none)
  (ht : translateOn s.cpu s.dtb va .write = .ok (.fault o, t)) (ha : va.toNat % w.bytes = 0)
include hr hlock hslot ht ha

theorem exec_store_fault (hrun : exec i s = runInstr .store (storeRecord s op ra rb disp) (storeExec w adjust) s)
    (hop : isStoreOpcode op = true)
    (hva : va = endianAddress s.cpu.bigEndian (adjust (s.effectiveAddress rb disp)) w) :
    exec i s = .next (s.afterMemTrap t o) := by
  subst hva
  exact hrun.trans (runInstr_store_trap (storeRecord_memForm s op ra rb disp) hr hop (fun _ => hlock)
    (writesAt_store _ _ _ _) hslot ha ht (translateOn_outcome ht))

theorem exec_condStore_fault (hrun : exec i s = runInstr .store (condStoreRecord s op ra rb disp) (condStoreExec w) s)
    (hop : isStoreOpcode op = true) (hva : va = endianAddress s.cpu.bigEndian (s.effectiveAddress rb disp) w) :
    exec i s = .next (s.afterMemTrap t o) := by
  subst hva
  exact hrun.trans (runInstr_store_trap (condStoreRecord_memForm s op ra rb disp) hr hop (fun _ => hlock)
    (writesAt_condStore _ _ _) hslot ha ht (translateOn_outcome ht))

end Write

end Fault

/-- Settles O30: each instruction is one of the four common rules, and each rule ends in the outcome that the Mbox
answers. -/
theorem memoryFaults : Obligations.MemoryFaults := by
  rintro s ra rb disp ea va w o t rfl hr ha
  refine ⟨fun n hn hfree ht => ?_, fun n hn hfree ht hlock => ?_⟩
  · have hslot : ∃ n < Config.queueDepth, Table.at? s.lq n = none := ⟨n, hn, hfree⟩
    exact ⟨fun hva hw => exec_load_fault hr hslot ht (hw ▸ ha) rfl rfl hva,
      fun hva hw => exec_load_fault hr hslot ht (hw ▸ ha) rfl rfl hva,
      fun hva hw => exec_load_fault hr hslot ht (hw ▸ ha) rfl rfl hva,
      fun hva hw => exec_load_fault hr hslot ht (hw ▸ ha) rfl rfl (eq_endianAddress_quad hva),
      fun hva hw => exec_load_fault hr hslot ht (hw ▸ ha) rfl rfl (eq_endianAddress_quad hva),
      fun hva hw => exec_loadLocked_fault hr hslot ht (hw ▸ ha) rfl rfl hva,
      fun hva hw => exec_loadLocked_fault hr hslot ht (hw ▸ ha) rfl rfl (eq_endianAddress_quad hva)⟩
  · have hslot : ∃ n < Config.queueDepth, Table.at? s.sq n = none := ⟨n, hn, hfree⟩
    exact ⟨fun hva hw => exec_store_fault hr hlock hslot ht (hw ▸ ha) rfl rfl hva,
      fun hva hw => exec_store_fault hr hlock hslot ht (hw ▸ ha) rfl rfl hva,
      fun hva hw => exec_store_fault hr hlock hslot ht (hw ▸ ha) rfl rfl hva,
      fun hva hw => exec_store_fault hr hlock hslot ht (hw ▸ ha) rfl rfl (eq_endianAddress_quad hva),
      fun hva hw => exec_store_fault hr hlock hslot ht (hw ▸ ha) rfl rfl (eq_endianAddress_quad hva),
      fun hva hw => exec_condStore_fault hr hlock hslot ht (hw ▸ ha) rfl rfl hva,
      fun hva hw => exec_condStore_fault hr hlock hslot ht (hw ▸ ha) rfl rfl (eq_endianAddress_quad hva)⟩

/-! ### User mode (60_exceptions R495, 20_memory R88 to R90) -/

theorem superpage_of_user {cpu : Cpu} (h : cpu.mode = .user) (va : Word) : superpage cpu va = none := if_pos h

/-- Outside the superpages an address comes from an entry that hits and permits the access (R90, R92). -/
theorem translateOn_ok_entry {cpu : Cpu} {t t' : Tlb} {va : Word} {kind : AccessKind} {pa : PhysAddr}
    (hsp : superpage cpu va = none) (h : translateOn cpu t va kind = .ok (.ok pa, t')) :
    ∃ e ∈ t.entries, e.2.hits cpu.asn va = true ∧ e.2.permits cpu.mode kind = true ∧ pa = e.2.physical va := by
  simp only [translateOn, hsp, Tlb.matching_eq] at h
  have hmem : ∀ e, e ∈ t.hitting cpu.asn va → e ∈ t.entries ∧ e.2.hits cpu.asn va = true := fun _ => Tlb.mem_hitting.1
  match hm : t.hitting cpu.asn va with
  | [] => rw [hm] at h; cases h
  | [e] =>
    rw [hm] at h hmem
    obtain ⟨hin, hhit⟩ := hmem e List.mem_cons_self
    by_cases hp : e.2.permits cpu.mode kind = true
    · simp only [List.map_cons, List.map_nil, hp, if_true] at h
      cases h
      exact ⟨e, hin, hhit, hp, rfl⟩
    · simp only [List.map_cons, List.map_nil, hp] at h
      cases h
  | _ :: _ :: _ => rw [hm] at h; cases h

theorem TlbEntry.permits_user_iff {e : TlbEntry} {kind : AccessKind} : e.permits .user kind = true ↔
    (kind = .write → e.uwe = true) ∧ (kind ≠ .write → e.ure = true) := by
  cases kind <;> simp [TlbEntry.permits]

/-- Settles O35: in user mode no superpage matches, so the address is that of an entry which permits the access. -/
theorem userModeIsolation : Obligations.UserModeIsolation := by
  intro cpu t t' va kind pa huser h
  obtain ⟨e, hin, hhit, hperm, hpa⟩ := translateOn_ok_entry (superpage_of_user huser va) h
  obtain ⟨-, -, hbuffer⟩ := translateOn_buffer h
  rw [huser, TlbEntry.permits_user_iff] at hperm
  exact ⟨hbuffer pa rfl, e, hin, hhit, hpa, hperm⟩

/-! ### Fills, flushes and invalidates (49_cache R460 to R464) -/

theorem MemSys.wf.cache {cfg : Cfg} {m : MemSys} (h : m.wf cfg) (c : CacheId) :
    (m.cache c).wf (cfg.setBits c) (cfg.ways c) := by
  cases c with
  | icache => exact h.icache
  | dcache => exact h.dcache
  | bcache => exact h.bcache

theorem MemSys.lookup_eq_find {cfg : Cfg} {m : MemSys} (h : m.wf cfg) (c : CacheId) (line : Nat) :
    m.lookup cfg c line = .ok ((m.cache c).find (cfg.setBits c) (cfg.ways c) line) :=
  Cache.lookup_eq (h.cache c) line

@[simp] theorem MemSys.cache_withCache (m : MemSys) (c : CacheId) (v : Cache) : (m.withCache c v).cache c = v := by
  cases c <;> rfl

/-- A cache holds a line at most once, so dropping the one that is found leaves none (R464 a). -/
theorem Cache.find_drop {c : Cache} {b ways line key : Nat} {l : Line} (h : c.wf b ways)
    (hf : c.find b ways line = some (key, l)) : (c.drop key).find b ways line = none := by
  obtain ⟨hin, hheld⟩ := (Cache.find_eq_some h).1 hf
  refine (Cache.find_eq_none (Cache.wf_drop h key)).2 fun e he heq => ?_
  obtain ⟨he, hne⟩ := Cache.mem_drop he
  exact hne (congrArg Prod.fst (Cache.held_unique h he hin (heq.trans hheld.symm)))

theorem MemSys.invalidate_cases {cfg : Cfg} {m m' : MemSys} (hwf : m.wf cfg) {c : CacheId} {line : Nat}
    (h : m.invalidate cfg c line = .ok m') :
    ((m.cache c).find (cfg.setBits c) (cfg.ways c) line = none ∧ m' = m) ∨
    ∃ key l, (m.cache c).find (cfg.setBits c) (cfg.ways c) line = some (key, l) ∧
      m'.cache c = (m.cache c).drop key := by
  obtain ⟨found, hfound, hk⟩ := ok_of_bind h
  rw [MemSys.lookup_eq_find hwf] at hfound
  cases hfound
  cases hf : (m.cache c).find (cfg.setBits c) (cfg.ways c) line with
  | none => rw [hf] at hk; cases hk; exact .inl ⟨rfl, rfl⟩
  | some r => rw [hf] at hk; cases hk; exact .inr ⟨r.1, r.2, rfl, m.writeBack line r.2 |>.cache_withCache c _⟩

theorem MemSys.lookup_invalidate {cfg : Cfg} {m m' : MemSys} (hwf : m.wf cfg) (hwf' : m'.wf cfg) {c : CacheId}
    {line : Nat} (h : m.invalidate cfg c line = .ok m') : m'.lookup cfg c line = .ok none := by
  rw [MemSys.lookup_eq_find hwf']
  rcases MemSys.invalidate_cases hwf h with ⟨hf, rfl⟩ | ⟨key, l, hf, hc⟩
  · rw [hf]
  · rw [hc, Cache.find_drop (hwf.cache c) hf]

/-- Settles O38: the four operations one by one; the Icache's fill leaves the data side and the store as they are. -/
theorem cachesAreTransparent : Obligations.CachesAreTransparent := by
  intro cfg m c line hwf hco hline
  refine ⟨?_, ?_, fun habsent => ?_, fun m' hfill => ?_⟩
  · obtain ⟨hwf', hempty, hsame⟩ := MemSys.flush_spec hwf c
    exact ⟨⟨hwf', hsame hco⟩, hempty⟩
  · obtain ⟨m', hinv, hwf', hsame⟩ := MemSys.invalidate_spec hwf c line
    exact ⟨m', hinv, ⟨hwf', hsame hco⟩, MemSys.lookup_invalidate hwf hwf' hinv⟩
  · obtain ⟨m', key, l, hfill, hwf', -, hfound, -, hsame⟩ := MemSys.dcacheFill_spec hwf hline habsent
    exact ⟨m', (key, l), hfill, ⟨hwf', hsame hco⟩, (MemSys.lookup_eq_find hwf' .dcache line).trans (congrArg _ hfound)⟩
  · obtain ⟨hwf', hd, hb, hst⟩ := MemSys.icacheFill_spec hwf hline hfill
    exact ⟨⟨hwf', MemSys.unchanged_of_data hd hb hst hco⟩, hd, hst⟩

/-! ### The instruction side (49_cache R461, 20_memory R77, R122) -/

/-- A line installed in a cache that does not hold it is found. -/
theorem Cache.find_install {c : Cache} {b ways line : Nat} (h : c.wf b ways) (hb : b ≤ Config.lineBits)
    (hline : line < 2 ^ Config.lineBits) {way : Nat} (hway : way < ways) (hways : ways ≤ 2)
    (habsent : c.find b ways line = none) {l : Line} (ht : l.tag = tagIndex b line) :
    (c.install b ways line way l).find b ways line = some (wayKey b line way, l) := by
  rw [Cache.find_eq_some (Cache.wf_install h hb hline hway hways ((Cache.find_eq_none h).1 habsent) l ht)]
  exact ⟨(Table.mem_put_iff h.1).2 (.inl rfl), by rw [ht]; exact heldLine_wayKey (by omega)⟩

theorem MemSys.fillI_of_absent {cfg : Cfg} {m : MemSys} (hwf : m.wf cfg) {line : Nat} (data : Block)
    (h : m.icache.find Config.cacheSetBits cfg.icWays.count line = none) :
    m.fillI cfg line data = .ok { m with
      icache := m.icache.install Config.cacheSetBits cfg.icWays.count line
        (m.icache.victimWay Config.cacheSetBits cfg.icWays.count line)
        ⟨tagIndex Config.cacheSetBits line, false, false, data⟩ } := by
  have hlook : m.lookup cfg .icache line = .ok none := (MemSys.lookup_eq_find hwf .icache line).trans (congrArg _ h)
  rw [MemSys.fillI, hlook]
  rfl

/-- After an Icache fill of an absent line the Icache holds the data (R455). -/
theorem MemSys.fillI_finds {cfg : Cfg} {m : MemSys} (hwf : m.wf cfg) {line : Nat} (hline : line < 2 ^ Config.lineBits)
    (data : Block) (h : m.icache.find Config.cacheSetBits cfg.icWays.count line = none) :
    ∃ m' key l, m.fillI cfg line data = .ok m' ∧
      m'.icache.find Config.cacheSetBits cfg.icWays.count line = some (key, l) ∧ l.data = data :=
  ⟨_, _, _, MemSys.fillI_of_absent hwf data h, Cache.find_install hwf.icache (by decide) hline
    (Cache.victimWay_lt _ (Ways.count_pos _)) (Ways.count_le _) h rfl, rfl⟩

theorem MemSys.icacheFill_of_bcache_absent {cfg : Cfg} {m : MemSys} (hwf : m.wf cfg) {line : Nat}
    (h : m.bcache.find cfg.bcSetBits 1 line = none) :
    m.icacheFill cfg line = (m.noteRead line).fillI cfg line (Memory.readBlock m.store line) := by
  have hlook : m.lookup cfg .bcache line = .ok none :=
    (MemSys.lookup_eq_find hwf .bcache line).trans (congrArg _ h)
  rw [MemSys.icacheFill, hlook]
  rfl

theorem MemSys.icacheFetch_eq {cfg : Cfg} {m : MemSys} (hwf : m.wf cfg) (pa : PhysAddr) :
    m.icacheFetch cfg pa = .ok ((m.icache.find Config.cacheSetBits cfg.icWays.count (lineOf pa)).map fun r =>
      (blockRead r.2.data (offsetOf pa / 4 * 4) .long).setWidth 32) := by
  have hlook : m.lookup cfg .icache (lineOf pa) =
      .ok (m.icache.find Config.cacheSetBits cfg.icWays.count (lineOf pa)) :=
    MemSys.lookup_eq_find hwf .icache (lineOf pa)
  rw [MemSys.icacheFetch, hlook]
  cases m.icache.find Config.cacheSetBits cfg.icWays.count (lineOf pa) <;> rfl

/-- The aligned longword of a block of the backing store, little-endian (20_memory R74). -/
theorem longword_readBlock (store : Memory) {pa : PhysAddr} (ha : pa.toNat % 4 = 0) :
    (blockRead (Memory.readBlock store (lineOf pa)) (offsetOf pa / 4 * 4) .long).setWidth 32 =
      Memory.read store (pa.toNat + 3) ++ Memory.read store (pa.toNat + 2) ++ Memory.read store (pa.toNat + 1) ++
        Memory.read store pa.toNat := by
  have hsplit := addr_split pa
  obtain ⟨hoff, hfit⟩ : offsetOf pa / 4 * 4 = offsetOf pa ∧ offsetOf pa + 3 < 64 := by unfold offsetOf; omega
  have hbyte : ∀ k < 4, blockByte (Memory.readBlock store (lineOf pa)) (offsetOf pa + k) =
      Memory.read store (pa.toNat + k) := fun k hk => by
    rw [Memory.blockByte_readBlock _ _ _ (by omega), hsplit, Nat.add_assoc]
  rw [hoff, blockRead, assemble_congr (w := .long) hbyte]
  exact setWidth_of_widened (n := 32) _ (by decide)

theorem toNat_fetchAddress_mod_four (pc : Word) : (fetchAddress pc).toNat % 4 = 0 := by
  have h := Nat.and_mod_two_pow (a := pc.toNat) (b := (~~~3#64).toNat) (n := 2)
  rw [fetchAddress, BitVec.toNat_and]
  simpa using h

/-- An instruction-side fetch that misses Icache and Bcache: the line is filled from the backing store (R461). -/
theorem fetchThroughIcache_of_miss {s : State} {pa : PhysAddr} (hwf : s.mem.wf s.cfg) (ha : pa.toNat % 4 = 0)
    (hi : s.mem.icache.find Config.cacheSetBits s.cfg.icWays.count (lineOf pa) = none)
    (hb : s.mem.bcache.find s.cfg.bcSetBits 1 (lineOf pa) = none) :
    ∃ m, s.mem.icacheFill s.cfg (lineOf pa) = .ok m ∧ fetchThroughIcache s pa = .ok (.word
      (Memory.read s.mem.store (pa.toNat + 3) ++ Memory.read s.mem.store (pa.toNat + 2) ++
        Memory.read s.mem.store (pa.toNat + 1) ++ Memory.read s.mem.store pa.toNat), s.withMem m) := by
  have hwfNote : (s.mem.noteRead (lineOf pa)).wf s.cfg := MemSys.wf_of_caches hwf rfl rfl rfl hwf.store
  obtain ⟨m, key, l, hfillI, hfound, hdata⟩ :=
    MemSys.fillI_finds hwfNote (lineOf_lt pa) (Memory.readBlock s.mem.store (lineOf pa)) hi
  have hfill : s.mem.icacheFill s.cfg (lineOf pa) = .ok m := (MemSys.icacheFill_of_bcache_absent hwf hb).trans hfillI
  have hmiss : s.mem.icacheFetch s.cfg pa = .ok none := by rw [MemSys.icacheFetch_eq hwf, hi]; rfl
  have hhit := MemSys.icacheFetch_eq (MemSys.icacheFill_spec hwf (lineOf_lt pa) hfill).1 pa
  rw [hfound, Option.map_some, hdata, longword_readBlock _ ha] at hhit
  refine ⟨m, hfill, ?_⟩
  simp only [fetchThroughIcache, hmiss, hfill, hhit, bind, Except.bind]

/-- Settles O6: the translated address is as aligned as the fetch address, and the two caches miss. -/
theorem fetchFromMemory : Obligations.FetchFromMemory := by
  intro s pa hwf hlist htrans hi hb
  have ha : pa.toNat % 4 = 0 := by
    have hlow := translateOn_low htrans
    have hfetch : (s.pc &&& ~~~3#64).toNat % 4 = 0 := toNat_fetchAddress_mod_four s.pc
    omega
  obtain ⟨m, hfill, hfetch⟩ := fetchThroughIcache_of_miss hwf ha ((Cache.find_eq_none hwf.icache).2 hi)
    ((Cache.find_eq_none hwf.bcache).2 hb)
  obtain ⟨hwf', hd, hbc, hst⟩ := MemSys.icacheFill_spec hwf (lineOf_lt pa) hfill
  refine ⟨m, ?_, hd, hbc, hst, hwf'⟩
  rw [← hfetch]
  simp only [fetchWord, fetchAddress, hlist, translate, htrans, bind, Except.bind]
  rfl

/-! ### The sequencer (70 R534, R540) -/

/-- BNE's opcode is in no row of the opcode map, so a word that decodes is not BNE. -/
theorem opcode_ne_bne_of_decodes {w : InstrWord} {i : Instr} (h : decodeWord w = .ok i) : opcodeField w ≠ bneOpcode := by
  intro hbne
  simp only [decodeWord, hbne, bneOpcode] at h
  cases h

theorem runWord_of_decodes {w : InstrWord} {i : Instr} (h : decodeBytes (bytesOfWord w) = .ok i) (s : State) :
    runWord w s = exec i s := by
  have hne : opcodeField w ≠ bneOpcode := opcode_ne_bne_of_decodes ((decodeBytes_bytesOfWord w).symm.trans h)
  simp only [runWord, hne, if_false, h]

theorem sequencerStep_of_word {s s1 : State} {w : InstrWord} (hrun : s.stopped = none)
    (hf : fetchWord s = .ok (.word w, s1)) : sequencerStep s = runWord w s1 := by
  simp only [sequencerStep, hrun, hf]

theorem sequencerStep_of_fault {s s1 : State} {o : ExceptionOutcome} (hrun : s.stopped = none)
    (hf : fetchWord s = .ok (.fault o, s1)) : sequencerStep s = .next (s1.withStopped (some o)) := by
  simp only [sequencerStep, hrun, hf]

theorem sequencerStep_of_stopped {s : State} {o : ExceptionOutcome} (h : s.stopped = some o) :
    sequencerStep s = stoppedStep s o := by
  simp only [sequencerStep, h]

theorem step_of_agenda_nil {s : State} (h : s.agenda = []) : step s = sequencerStep s := by
  simp only [step, h]

theorem step_of_sequence {s : State} {rest : List Transaction} (h : s.agenda = .sequence :: rest) :
    step s = sequencerStep (s.withAgenda rest) := by
  simp only [step, h]

theorem step_of_transaction {s : State} {τ : Transaction} {rest : List Transaction} (h : s.agenda = τ :: rest)
    (hne : τ ≠ .sequence) : step s = toOutcome (transact τ (s.withAgenda rest)) := by
  simp only [step, h]

theorem fetchWord_of_listed {s : State} {w : InstrWord}
    (h : Table.at? s.program (fetchAddress s.pc).toNat = some w) : fetchWord s = .ok (.word w, s) := by
  simp only [fetchWord, h]

/-- Settles O5: the head of the agenda decides whose step it is, and a word that decodes is run by `exec`. -/
theorem stepRunsInstruction : Obligations.StepRunsInstruction := by
  intro s s1 w i hrun hdec
  refine ⟨fun ha hf => ?_, fun rest ha hf => ?_, fun τ rest ha hne => step_of_transaction ha hne, fetchWord_of_listed⟩
  · rw [step_of_agenda_nil ha, sequencerStep_of_word hrun hf, runWord_of_decodes hdec]
  · rw [step_of_sequence ha, sequencerStep_of_word (s := s.withAgenda rest) hrun hf, runWord_of_decodes hdec]

section Stopped

variable {s : State} {o : ExceptionOutcome}

/-- Without an enabled completion the block has no step of its own (70 R534). -/
theorem mboxStep_of_none_enabled
    (h : ∀ e ∈ s.lq, e.2.state = .pending → lqCompletePort s e.1 = .error .completionNotEnabled) :
    mboxStep s s.lq = .ok none := by
  cases hm : mboxStep s s.lq with
  | error r =>
    obtain ⟨hr, e, he, hp, herr⟩ := mboxStep_error hm
    rw [h e he hp] at herr
    cases herr
    exact absurd rfl hr
  | ok u =>
    cases u with
    | none => rfl
    | some t =>
      obtain ⟨e, he, hp, ht⟩ := mboxStep_some hm
      rw [h e he hp] at ht
      cases ht

theorem stoppedStep_of_no_pending (h : ∀ e ∈ s.lq, e.2.state ≠ .pending) :
    stoppedStep s o = .fault (.sequencerStopped o) := by
  have hany : (s.lq.any fun e => e.2.state == .pending) = false := by
    rw [List.any_eq_false]
    exact fun e he => by simpa using h e he
  have hm : mboxStep s s.lq = .ok none := mboxStep_of_none_enabled fun e he hp => absurd hp (h e he)
  simp only [stoppedStep, hm, hany]
  rfl

/-- A slot whose completion is enabled is completed, if no other completion is refused under another name. -/
theorem stoppedStep_of_enabled
    (hall : ∀ e ∈ s.lq, e.2.state = .pending →
      (∃ t, lqCompletePort s e.1 = .ok t) ∨ lqCompletePort s e.1 = .error .completionNotEnabled)
    (hsome : ∃ e ∈ s.lq, e.2.state = .pending ∧ ∃ t, lqCompletePort s e.1 = .ok t) :
    ∃ e ∈ s.lq, e.2.state = .pending ∧ ∃ t, lqCompletePort s e.1 = .ok t ∧ stoppedStep s o = .next t := by
  cases hm : mboxStep s s.lq with
  | error r =>
    obtain ⟨hr, e, he, hp, herr⟩ := mboxStep_error hm
    rcases hall e he hp with ⟨t, ht⟩ | hne
    · rw [ht] at herr
      cases herr
    · rw [hne] at herr
      cases herr
      exact absurd rfl hr
  | ok u =>
    cases u with
    | none =>
      obtain ⟨e, he, hp, t, ht⟩ := hsome
      have hne := mboxStep_none hm e he hp
      rw [ht] at hne
      cases hne
    | some t =>
      obtain ⟨e, he, hp, ht⟩ := mboxStep_some hm
      exact ⟨e, he, hp, t, ht, by simp only [stoppedStep, hm]⟩

theorem stoppedStep_of_none_enabled (hsome : ∃ e ∈ s.lq, e.2.state = .pending)
    (hnone : ∀ e ∈ s.lq, e.2.state = .pending → lqCompletePort s e.1 = .error .completionNotEnabled) :
    stoppedStep s o = .fault (.loadsPending o) := by
  obtain ⟨e, he, hp⟩ := hsome
  have hany : (s.lq.any fun e => e.2.state == .pending) = true :=
    List.any_eq_true.2 ⟨e, he, by simpa using hp⟩
  simp only [stoppedStep, mboxStep_of_none_enabled hnone, hany, if_true]

end Stopped

/-- Settles O7: the step of a stopped sequencer by what the block's own step answers. -/
theorem sequencerStops : Obligations.SequencerStops := by
  intro s s1 o pc ha
  rw [step_of_agenda_nil ha]
  refine ⟨sequencerStep_of_fault, fun hstop hno => ?_, fun hstop hsome hall => ?_, rfl⟩
  · rw [sequencerStep_of_stopped hstop, stoppedStep_of_no_pending hno]
  · rw [sequencerStep_of_stopped hstop]
    exact ⟨stoppedStep_of_enabled hall, stoppedStep_of_none_enabled hsome⟩

/-! ### BNE (70 R540) -/

theorem fields_bne (op : BitVec 6) (ra : RegIdx) (d : BitVec 21) :
    opcodeField (op ++ ra ++ d) = op ∧ raField (op ++ ra ++ d) = ra ∧ (op ++ ra ++ d).extractLsb' 0 21 = d := by
  refine ⟨?_, ?_, ?_⟩
  · unfold opcodeField
    ext i hi; simp only [BitVec.getElem_extractLsb', BitVec.getLsbD_append]; grind
  · unfold raField
    ext i hi; simp only [BitVec.getElem_extractLsb', BitVec.getLsbD_append]; grind
  · ext i hi; simp only [BitVec.getElem_extractLsb', BitVec.getLsbD_append]; grind

theorem branchOffset_bne (op : BitVec 6) (ra : RegIdx) (d : BitVec 21) :
    branchOffset (op ++ ra ++ d) = 4 * d.signExtend 64 := by
  obtain ⟨-, -, hd⟩ := fields_bne op ra d
  rw [branchOffset, hd, BitVec.shiftLeft_eq_mul_twoPow, BitVec.mul_comm]
  rfl

/-- Settles O55: the trained predictor is the `train` transaction's, and the two targets are those of the branch. The
name `branchNotEqual` is the model's function. -/
theorem branchNotEqual_runs : Obligations.BranchNotEqual := by
  intro s ra d
  obtain ⟨hop, hra, -⟩ := fields_bne 0x3D#6 ra d
  refine ⟨_, ?_, rfl⟩
  rw [runWord, if_pos (show _ = bneOpcode from hop), branchNotEqual, hra, branchOffset_bne]
  by_cases h : s.readX ra = 0
  · simp only [h, bne_self_eq_false, Bool.false_eq_true, if_false, if_true]
  · have hne : (s.readX ra != 0) = true := bne_iff_ne.2 h
    simp only [h, hne, if_false, if_true]

/-! ### Reset and configuration (70 R520, 10_state R34, 49_cache R467) -/

theorem configAccepted_iff {s : State} {c : Cfg} : configAccepted s c = true ↔
    c.bcSetBits ≤ 38 ∧ (c.icWays = s.cfg.icWays ∨ s.mem.icache.lines = []) ∧
    (c.dcWays = s.cfg.dcWays ∨ s.mem.dcache.lines = []) ∧
    ((c.bcPresent = s.cfg.bcPresent ∧ c.bcSetBits = s.cfg.bcSetBits) ∨ s.mem.bcache.lines = []) ∧
    (c.mp = s.cfg.mp ∨ (s.mem.dcache.lines = [] ∧ s.mem.bcache.lines = [])) := by
  have hbits : (decide (c.bcSetBits ≤ Config.lineBits) = true) ↔ c.bcSetBits ≤ 38 := decide_eq_true_iff
  simp only [configAccepted, hbits, Bool.and_eq_true, Bool.or_eq_true, decide_eq_true_eq, List.isEmpty_iff, and_assoc]

/-- Settles O56: the reset event writes its values out field by field; the configuration input is accepted exactly
where it fits. -/
theorem resetAndConfiguration : Obligations.ResetAndConfiguration := by
  refine ⟨fun s => ⟨resetPort s, rfl, rfl, rfl, rfl, rfl, rfl, rfl, rfl, rfl, fun j => ⟨rfl, rfl, rfl, rfl⟩, rfl, rfl,
    rfl, rfl, rfl, rfl, rfl, fun c => ?_, rfl, rfl⟩, ?_⟩
  · cases c <;> exact ⟨rfl, rfl⟩
  · rintro s c fits rfl
    rw [← configAccepted_iff]
    exact ⟨fun hfits => if_pos hfits, fun hno => if_neg hno⟩

end Sys2Proof.Machine
end

section
/-!
O44 to O48: how an instruction of the `FPo` format ends, once for every such instruction; then the sign copies, the
longword conversions, the conditional moves, the FPCR moves and the two ends of the arithmetic (46_floating_point).
-/

namespace Sys2Proof.Machine

/-! ### An `FPo` instruction, from its word to its end state -/

/-- `i` is the `FPo` instruction of one row of the opcode map: its word and its record carry the row's opcode, its
eleven function bits and its format's tag (30_encoding R136, R137). -/
structure FpRow (i : Instr) (op : BitVec 6) (fn : BitVec 11) (tag : TypeTag) (fa fb fc : RegIdx) : Prop where
  opcode : op ∈ [0x15#6, 0x16#6, 0x17#6]
  tagged : tag ≠ .fpX
  wellFormed : i.wellFormed = true
  encode_eq : encode i = encodeFp op fn fa fb fc
  queue : queueOf i = .none
  form : ∀ s, formOf s i = fpRecord s op fn tag fa fb fc

theorem not_memory_of_fpOpcode : ∀ op ∈ [0x15#6, 0x16#6, 0x17#6],
    isLoadOpcode op = false ∧ isStoreOpcode op = false ∧ isCondStoreOpcode op = false := by
  decide

namespace FpRow

variable {i : Instr} {op : BitVec 6} {fn : BitVec 11} {tag : TypeTag} {fa fb fc : RegIdx} {s : State} {v : Word}
  {st en : TrapDetail}

/-- The rows of opcode 0x17 (30_encoding R141). -/
theorem op17 (hw : i.wellFormed = true) (he : encode i = encodeFp 0x17#6 fn fa fb fc) (hq : queueOf i = .none)
    (hf : ∀ s, formOf s i = fpRecord s 0x17#6 fn .fpT fa fb fc) : FpRow i 0x17#6 fn .fpT fa fb fc :=
  ⟨by decide, nofun, hw, he, hq, hf⟩

theorem decodes (h : FpRow i op fn tag fa fb fc) : decodeWord (encodeFp op fn fa fb fc) = .ok i :=
  h.encode_eq ▸ decodeWord_encode i h.wellFormed

theorem exec_eq (h : FpRow i op fn tag fa fb fc) :
    exec i s = runInstr .none (fpRecord s op fn tag fa fb fc) (executorOf i) s := by
  rw [Machine.exec_eq, h.queue, h.form]

theorem regForm (h : FpRow i op fn tag fa fb fc) : RegForm s (fpRecord s op fn tag fa fb fc) :=
  have ⟨hl, hs, hc⟩ := not_memory_of_fpOpcode op h.opcode
  fpRecord_form s fn fa fb fc h.tagged hl hs hc

/-- An executor that changes the CPU state to `c` and writes `v`. -/
theorem writesWith (h : FpRow i op fn tag fa fb fc) (hr : s.ready) {c : Cpu}
    (hx : executorOf i s.taken (fpRecord s op fn tag fa fb fc) =
      doneWith (s.taken.withCpu c) (fpRecord s op fn tag fa fb fc) v) :
    exec i s = .next ((s.withCpu c).afterF fc v) := by
  rw [h.exec_eq, runInstr_doneWith h.regForm hr hx]
  rfl

/-- An instruction computed from its operands alone decodes and writes its result. -/
theorem writes (h : FpRow i op fn tag fa fb fc) (hr : s.ready) {f : Word → Word → Word}
    (hx : executorOf i = pureExec f) (hv : v = f (s.readF fa) (s.readF fb)) :
    decodeWord (encodeFp op fn fa fb fc) = .ok i ∧ exec i s = .next (s.afterF fc v) := by
  obtain ⟨ha, hb, -⟩ := fpRecord_ports s op fn tag fa fb fc
  refine ⟨h.decodes, h.writesWith hr (c := s.cpu) ?_⟩
  rw [hx, pureExec, ha, hb, ← hv]
  rfl

/-- A conditional move decodes, and its end state is decided by what its test says of the first operand. -/
theorem moves (h : FpRow i op fn tag fa fb fc) (hr : s.ready) {test : Word → Bool} {p : Prop} [Decidable p]
    (hx : executorOf i = cmovExec test) (hp : test (s.readF fa) = true ↔ p) :
    decodeWord (encodeFp op fn fa fb fc) = .ok i ∧
    exec i s = .next (if p then s.afterF fc (s.readF fb) else s.spend.advance) := by
  obtain ⟨ha, hb, -⟩ := fpRecord_ports s op fn tag fa fb fc
  refine ⟨h.decodes, ?_⟩
  by_cases hc : p
  · rw [if_pos hc, h.writesWith hr (c := s.cpu) (v := s.readF fb)]
    · rfl
    · rw [hx, cmovExec, ha, hb, if_pos (hp.2 hc)]
      rfl
  · rw [if_neg hc, h.exec_eq, hx, runInstr_done h.regForm hr (c := s.cpu)]
    · rfl
    · rw [cmovExec, ha, if_neg (mt hp.1 hc)]
      rfl

/-- The common exit without an enabled condition (46 R372). -/
theorem exit_completes (h : FpRow i op fn tag fa fb fc) (hr : s.ready)
    (hx : executorOf i s.taken (fpRecord s op fn tag fa fb fc) =
      fpExit s.taken (fpRecord s op fn tag fa fb fc) (.exit st en v))
    (hen : en.any = false) : exec i s = .next ((s.setFpcr (fpcrWithStatus s.cpu.fpcr st)).afterF fc v) :=
  h.writesWith hr (c := { s.cpu with fpcr := fpcrWithStatus s.cpu.fpcr st }) <|
    hx.trans (if_neg (by rw [hen]; exact Bool.false_ne_true))

/-- The common exit with an enabled condition (46 R372). -/
theorem exit_traps (h : FpRow i op fn tag fa fb fc) (hr : s.ready)
    (hx : executorOf i s.taken (fpRecord s op fn tag fa fb fc) =
      fpExit s.taken (fpRecord s op fn tag fa fb fc) (.exit st en v))
    (hen : en.any = true) :
    exec i s = .next ((s.setFpcr (fpcrWithStatus s.cpu.fpcr st)).afterTrap (.arithmeticTraps en)) := by
  rw [h.exec_eq, runInstr_trap h.regForm hr (c := { s.cpu with fpcr := fpcrWithStatus s.cpu.fpcr st })
    (o := .arithmeticTraps en) nofun (hx.trans (if_pos hen))]
  rfl

/-- The exit of a reserved operand (46 R376, 60_exceptions R483). -/
theorem illegal_traps (h : FpRow i op fn tag fa fb fc) (hr : s.ready)
    (hx : executorOf i s.taken (fpRecord s op fn tag fa fb fc) =
      fpExit s.taken (fpRecord s op fn tag fa fb fc) .illegal) :
    exec i s = .next
      ((s.setFpcr (fpcrWithStatus s.cpu.fpcr { invalidOperation := true })).afterTrap .illegalOperand) := by
  rw [h.exec_eq, runInstr_trap h.regForm hr
    (c := { s.cpu with fpcr := fpcrWithStatus s.cpu.fpcr { invalidOperation := true } }) (o := .illegalOperand) nofun hx]
  rfl

end FpRow

/-! ### Sign copies and longword conversions (46 R390 to R396) -/

/-- The bits of CVTLQ's reading: bits 63:62, then bits 58:29, sign-extended. -/
theorem longwordOfLayout_eq (b : Word) :
    longwordOfLayout b = (b.extractLsb' 62 2 ++ b.extractLsb' 29 30).signExtend 64 := by
  unfold longwordOfLayout sext32
  congr 1
  rw [BitVec.setWidth_setWidth_of_le _ (by decide), BitVec.setWidth_eq]

/-- The bits of CVTQL's writing: bits 31:30 on top, bits 29:0 at 58:29, zero elsewhere. -/
theorem layoutOfLongword_eq (b : Word) :
    layoutOfLongword b = b.extractLsb' 30 2 ++ 0#3 ++ b.extractLsb' 0 30 ++ 0#29 := by
  apply BitVec.eq_of_getLsbD_eq
  intro i hi
  simp only [layoutOfLongword, BitVec.getLsbD_or, BitVec.getLsbD_shiftLeft, BitVec.getLsbD_setWidth,
    BitVec.getLsbD_extractLsb', BitVec.getLsbD_append, BitVec.getLsbD_zero]
  grind

theorem fpcrWithStatus_integerOverflow (fpcr : Word) :
    fpcrWithStatus fpcr { integerOverflow := true } = fpcr ||| 0x8200000000000000#64 :=
  BitVec.or_assoc ..

theorem fpcrWithStatus_invalidOperation (fpcr : Word) :
    fpcrWithStatus fpcr { invalidOperation := true } = fpcr ||| 0x8010000000000000#64 :=
  BitVec.or_assoc ..

/-- CVTQL/V and CVTQL/SV: they write if `B` is a sign-extended longword, and trap with IOV if not (46 R395, R396). -/
theorem FpRow.checkedConvert_ends {i : Instr} {op : BitVec 6} {fn : BitVec 11} {tag : TypeTag} {fa fb fc : RegIdx}
    {s : State} (h : FpRow i op fn tag fa fb fc) (hr : s.ready) (hx : executorOf i = checkedConvert) :
    decodeWord (encodeFp op fn fa fb fc) = .ok i ∧
    (sext32 (s.readF fb) = s.readF fb → exec i s = .next (s.afterF fc ((s.readF fb).extractLsb' 30 2 ++ 0#3 ++
      (s.readF fb).extractLsb' 0 30 ++ 0#29))) ∧
    (sext32 (s.readF fb) ≠ s.readF fb → exec i s =
      .next ((s.setFpcr (s.cpu.fpcr ||| 0x8200000000000000#64)).afterTrap
        (.arithmeticTraps { integerOverflow := true }))) := by
  obtain ⟨-, hb, -⟩ := fpRecord_ports s op fn tag fa fb fc
  have exit_eq : ∀ o, longOverflow (s.readF fb) = o → executorOf i s.taken (fpRecord s op fn tag fa fb fc) =
      fpExit s.taken (fpRecord s op fn tag fa fb fc)
        (.exit { integerOverflow := o } { integerOverflow := o } (layoutOfLongword (s.readF fb))) := by
    rintro _ rfl
    rw [hx, checkedConvert, hb]
  refine ⟨h.decodes, fun hfit => ?_, fun hno => ?_⟩
  · have hov : longOverflow (s.readF fb) = false := by rw [longOverflow, hfit, bne_self_eq_false]
    rw [h.exit_completes hr (exit_eq _ hov) rfl, layoutOfLongword_eq]
    rfl
  · rw [h.exit_traps hr (exit_eq _ (bne_iff_ne.2 (Ne.symm hno))) rfl, fpcrWithStatus_integerOverflow]

/-- Settles O44: five forms are computed from their operands, two are overflow-checked. -/
theorem fpSignAndConvert : Obligations.FpSignAndConvert := by
  rintro s fa fb fc hr A B rfl rfl
  have cpys : FpRow (.cpys fa fb fc) 0x17#6 0x020#11 .fpT fa fb fc := .op17 rfl rfl rfl fun _ => rfl
  have cpysn : FpRow (.cpysn fa fb fc) 0x17#6 0x021#11 .fpT fa fb fc := .op17 rfl rfl rfl fun _ => rfl
  have cpyse : FpRow (.cpyse fa fb fc) 0x17#6 0x022#11 .fpT fa fb fc := .op17 rfl rfl rfl fun _ => rfl
  have cvtlq : FpRow (.cvtlq fa fb fc) 0x17#6 0x010#11 .fpT fa fb fc := .op17 rfl rfl rfl fun _ => rfl
  have cvtql : FpRow (.cvtql fa fb fc) 0x17#6 0x030#11 .fpT fa fb fc := .op17 rfl rfl rfl fun _ => rfl
  have cvtql_v : FpRow (.cvtql_v fa fb fc) 0x17#6 0x130#11 .fpT fa fb fc := .op17 rfl rfl rfl fun _ => rfl
  have cvtql_sv : FpRow (.cvtql_sv fa fb fc) 0x17#6 0x530#11 .fpT fa fb fc := .op17 rfl rfl rfl fun _ => rfl
  exact ⟨cpys.writes (f := fun a b => (a &&& signBit) ||| (b &&& ~~~signBit)) hr rfl rfl,
    cpysn.writes (f := fun a b => (~~~a &&& signBit) ||| (b &&& ~~~signBit)) hr rfl rfl,
    cpyse.writes (f := fun a b => (a &&& 0xFFF0000000000000#64) ||| (b &&& 0x000FFFFFFFFFFFFF#64)) hr rfl rfl,
    cvtlq.writes (f := fun _ b => longwordOfLayout b) hr rfl (longwordOfLayout_eq _).symm,
    cvtql.writes (f := fun _ b => layoutOfLongword b) hr rfl (layoutOfLongword_eq _).symm,
    cvtql_v.checkedConvert_ends hr rfl, cvtql_sv.checkedConvert_ends hr rfl⟩

/-! ### Conditional moves (46 R397 to R403) -/

/-- `z(A)` as a mask. -/
theorem fpIsZero_iff (a : Word) : fpIsZero a = true ↔ a &&& 0x7FFFFFFFFFFFFFFF#64 = 0 := by
  have mask : a &&& 0x7FFFFFFFFFFFFFFF#64 = (a.extractLsb' 0 63).setWidth 64 := by
    rw [show (0x7FFFFFFFFFFFFFFF#64 : Word) = BitVec.setWidth 64 (BitVec.allOnes 63) by decide]
    ext i hi
    simp only [BitVec.getElem_and, BitVec.getElem_setWidth, BitVec.getLsbD_allOnes, BitVec.getLsbD_extractLsb']
    grind
  rw [mask, fpIsZero, beq_iff_eq, ← BitVec.toNat_inj, ← BitVec.toNat_inj, BitVec.toNat_setWidth]
  have := (a.extractLsb' 0 63).isLt
  rw [Nat.mod_eq_of_lt (by omega)]
  rfl

theorem not_fpIsZero_iff (a : Word) : (!fpIsZero a) = true ↔ ¬ a &&& 0x7FFFFFFFFFFFFFFF#64 = 0 := by
  rw [← fpIsZero_iff, Bool.not_eq_true', Bool.not_eq_true]

/-- Settles O45: each form is an `FPo` row whose test is made of `z(A)` and `n(A)`. -/
theorem floatConditionalMove : Obligations.FloatConditionalMove := by
  rintro s fa fb fc hr A B rfl rfl
  have fcmoveq : FpRow (.fcmoveq fa fb fc) 0x17#6 0x02A#11 .fpT fa fb fc := .op17 rfl rfl rfl fun _ => rfl
  have fcmovne : FpRow (.fcmovne fa fb fc) 0x17#6 0x02B#11 .fpT fa fb fc := .op17 rfl rfl rfl fun _ => rfl
  have fcmovlt : FpRow (.fcmovlt fa fb fc) 0x17#6 0x02C#11 .fpT fa fb fc := .op17 rfl rfl rfl fun _ => rfl
  have fcmovge : FpRow (.fcmovge fa fb fc) 0x17#6 0x02D#11 .fpT fa fb fc := .op17 rfl rfl rfl fun _ => rfl
  have fcmovle : FpRow (.fcmovle fa fb fc) 0x17#6 0x02E#11 .fpT fa fb fc := .op17 rfl rfl rfl fun _ => rfl
  have fcmovgt : FpRow (.fcmovgt fa fb fc) 0x17#6 0x02F#11 .fpT fa fb fc := .op17 rfl rfl rfl fun _ => rfl
  have hz := fpIsZero_iff (s.readF fa)
  have hnz := not_fpIsZero_iff (s.readF fa)
  exact ⟨fcmoveq.moves (test := fun a => fpIsZero a) hr rfl hz,
    fcmovne.moves (test := fun a => !fpIsZero a) hr rfl hnz,
    fcmovlt.moves (test := fun a => fpIsNegative a && !fpIsZero a) hr rfl
      (by rw [Bool.and_eq_true, hnz, fpIsNegative]),
    fcmovge.moves (test := fun a => !fpIsNegative a || fpIsZero a) hr rfl
      (by rw [Bool.or_eq_true, hz, fpIsNegative, Bool.not_eq_true']),
    fcmovle.moves (test := fun a => fpIsNegative a || fpIsZero a) hr rfl
      (by rw [Bool.or_eq_true, hz, fpIsNegative]),
    fcmovgt.moves (test := fun a => !fpIsNegative a && !fpIsZero a) hr rfl
      (by rw [Bool.and_eq_true, hnz, fpIsNegative, Bool.not_eq_true'])⟩

/-! ### FPCR moves (46 R404, R405) -/

/-- Settles O46: the one executor changes the FPCR and writes nothing, the other writes the FPCR. -/
theorem fpcrMoves : Obligations.FpcrMoves := by
  rintro s fa fb fc hr A B rfl rfl
  have mt : FpRow (.mt_fpcr fa fb fc) 0x17#6 0x024#11 .fpT fa fb fc := .op17 rfl rfl rfl fun _ => rfl
  have mf : FpRow (.mf_fpcr fa fb fc) 0x17#6 0x025#11 .fpT fa fb fc := .op17 rfl rfl rfl fun _ => rfl
  refine ⟨mt.decodes, ?_, mf.decodes, mf.writesWith hr (c := s.cpu) rfl⟩
  rw [mt.exec_eq, runInstr_done mt.regForm hr (c := { s.cpu with fpcr := s.readF fa &&& fpcrWritable }) rfl]
  rfl

/-! ### The two ends of the arithmetic (46 R372, R376, R380 to R387) -/

section Ends

variable {i : Instr} {op : BitVec 6} {fn : BitVec 11} {tag : TypeTag} {fa fb fc : RegIdx} {s : State}
  {fmt : FpFormat} {fop : FpOp}

theorem ieeeExec_fpRecord (hx : executorOf i = ieeeExec fmt fop) :
    executorOf i s.taken (fpRecord s op fn tag fa fb fc) = fpExit s.taken (fpRecord s op fn tag fa fb fc)
      (ieeeArith s.cpu.fpcr fn fmt fop (s.readF fa) (s.readF fb)) := by
  obtain ⟨ha, hb, -, -, hf⟩ := fpRecord_ports s op fn tag fa fb fc
  rw [hx, ieeeExec, ha, hb, hf]
  rfl

/-- With operands not tagged `FpD` the format is the instruction's (46 R388). -/
theorem vaxExec_fpRecord (hx : executorOf i = vaxExec fmt fop) (ht : tag ≠ .fpD) :
    executorOf i s.taken (fpRecord s op fn tag fa fb fc) = fpExit s.taken (fpRecord s op fn tag fa fb fc)
      (vaxArith s.cfg.vaxTie fn fmt fop (s.readF fa) (s.readF fb)) := by
  obtain ⟨ha, hb, -, -, hf⟩ := fpRecord_ports s op fn tag fa fb fc
  have hfmt : vaxFormat fmt (fpRecord s op fn tag fa fb fc) = fmt := if_neg fun hd => ht hd.1
  rw [hx, vaxExec, ha, hb, hf, hfmt]
  rfl

/-- Both ends of an instruction whose executor is the common exit of an answer. -/
theorem FpRow.exit_ends (h : FpRow i op fn tag fa fb fc) (hr : s.ready) {answer : FpAnswer}
    (hx : executorOf i s.taken (fpRecord s op fn tag fa fb fc) =
      fpExit s.taken (fpRecord s op fn tag fa fb fc) answer) :
    decodeWord (encodeFp op fn fa fb fc) = .ok i ∧ ∀ st en v, answer = .exit st en v →
      (en.any = false → exec i s = .next ((s.setFpcr (fpcrWithStatus s.cpu.fpcr st)).afterF fc v)) ∧
      (en.any = true → exec i s =
        .next ((s.setFpcr (fpcrWithStatus s.cpu.fpcr st)).afterTrap (.arithmeticTraps en))) := by
  refine ⟨h.decodes, ?_⟩
  rintro st en v rfl
  exact ⟨h.exit_completes hr hx, h.exit_traps hr hx⟩

theorem vaxIllegal_iff {fmt : FpFormat} {v : Word} :
    vaxIllegal fmt (fieldsOf fmt v) = true ↔ fpClass fmt v ∈ [.reserved, .dirtyZero] := by
  simp only [vaxIllegal, fpClass, Bool.or_eq_true, beq_iff_eq, List.mem_cons, List.not_mem_nil, or_false]

/-- A reserved operand, or a dirty zero, decides the answer before any arithmetic (46 R376). -/
theorem vaxArith_of_illegal {tie : VaxTie} {a b : Word}
    (h : fpClass fmt a ∈ [.reserved, .dirtyZero] ∨ fpClass fmt b ∈ [.reserved, .dirtyZero]) :
    vaxArith tie fn fmt fop a b = .illegal :=
  if_pos (by rwa [Bool.or_eq_true, vaxIllegal_iff, vaxIllegal_iff])

theorem FpRow.reserved_traps (h : FpRow i op fn tag fa fb fc) (hr : s.ready) (hx : executorOf i = vaxExec fmt fop)
    (ht : tag ≠ .fpD) (hc : fpClass fmt (s.readF fa) ∈ [.reserved, .dirtyZero] ∨
      fpClass fmt (s.readF fb) ∈ [.reserved, .dirtyZero]) :
    exec i s = .next ((s.setFpcr (s.cpu.fpcr ||| 0x8010000000000000#64)).afterTrap .illegalOperand) := by
  rw [h.illegal_traps hr ((vaxExec_fpRecord hx ht).trans (congrArg _ (vaxArith_of_illegal hc))),
    fpcrWithStatus_invalidOperation]

end Ends

section IeeeRows

variable {trp : BitVec 3} (htrp : ieeeTrpOk trp = true) (fa fb fc : RegIdx) (rnd : BitVec 2)
include htrp

theorem fpRow_adds : FpRow (.adds fa fb fc trp rnd) 0x16#6 (fpFunction trp rnd 0x00#6) .fpS fa fb fc :=
  ⟨by decide, nofun, htrp, rfl, rfl, fun _ => rfl⟩

theorem fpRow_addt : FpRow (.addt fa fb fc trp rnd) 0x16#6 (fpFunction trp rnd 0x20#6) .fpT fa fb fc :=
  ⟨by decide, nofun, htrp, rfl, rfl, fun _ => rfl⟩

theorem fpRow_muls : FpRow (.muls fa fb fc trp rnd) 0x16#6 (fpFunction trp rnd 0x02#6) .fpS fa fb fc :=
  ⟨by decide, nofun, htrp, rfl, rfl, fun _ => rfl⟩

theorem fpRow_mult : FpRow (.mult fa fb fc trp rnd) 0x16#6 (fpFunction trp rnd 0x22#6) .fpT fa fb fc :=
  ⟨by decide, nofun, htrp, rfl, rfl, fun _ => rfl⟩

end IeeeRows

/-- Settles O47: each form is an `FPo` row whose executor is the common exit of `ieee_arith`. -/
theorem ieeeEnds : Obligations.IeeeEnds := by
  rintro s fa fb fc trp rnd hr htrp A B rfl rfl
  exact ⟨(fpRow_adds htrp ..).exit_ends hr (ieeeExec_fpRecord rfl),
    (fpRow_addt htrp ..).exit_ends hr (ieeeExec_fpRecord rfl),
    (fpRow_muls htrp ..).exit_ends hr (ieeeExec_fpRecord rfl),
    (fpRow_mult htrp ..).exit_ends hr (ieeeExec_fpRecord rfl)⟩

/-- Settles O48: each form is an `FPo` row whose executor is the common exit of `vax_arith`. -/
theorem vaxEnds : Obligations.VaxEnds := by
  rintro s fa fb fc trp rnd hr htrp hrnd A B rfl rfl
  have hwf : (vaxTrpOk trp && vaxRndOk rnd) = true := Bool.and_eq_true_iff.2 ⟨htrp, hrnd⟩
  have addf : FpRow (.addf fa fb fc trp rnd) 0x15#6 (fpFunction trp rnd 0x00#6) .fpF fa fb fc :=
    ⟨by decide, nofun, hwf, rfl, rfl, fun _ => rfl⟩
  have addg : FpRow (.addg fa fb fc trp rnd) 0x15#6 (fpFunction trp rnd 0x20#6) .fpG fa fb fc :=
    ⟨by decide, nofun, hwf, rfl, rfl, fun _ => rfl⟩
  have mulf : FpRow (.mulf fa fb fc trp rnd) 0x15#6 (fpFunction trp rnd 0x02#6) .fpF fa fb fc :=
    ⟨by decide, nofun, hwf, rfl, rfl, fun _ => rfl⟩
  have mulg : FpRow (.mulg fa fb fc trp rnd) 0x15#6 (fpFunction trp rnd 0x22#6) .fpG fa fb fc :=
    ⟨by decide, nofun, hwf, rfl, rfl, fun _ => rfl⟩
  exact ⟨addf.exit_ends hr (vaxExec_fpRecord rfl nofun), addg.exit_ends hr (vaxExec_fpRecord rfl nofun),
    mulf.exit_ends hr (vaxExec_fpRecord rfl nofun), mulg.exit_ends hr (vaxExec_fpRecord rfl nofun),
    addf.reserved_traps hr rfl nofun, addg.reserved_traps hr rfl nofun,
    mulf.reserved_traps hr rfl nofun, mulg.reserved_traps hr rfl nofun⟩

end Sys2Proof.Machine
end

section
/-!
O51: rounding on rational numbers. What `rint` says of a non-negative rational (`IsRint`), that the model's rounding of
a dyadic number to a grid is one (`IsRounding`), and that the grid of `round` makes the number one of `p` bits
(46_floating_point R373).
-/

namespace Sys2Proof.Machine

/-! ### `rint` of a non-negative rational (46 R373) -/

/-- `k` is `rint(v, mode)` for the magnitude `v` of a number of the given sign. -/
def IsRint (mode : RoundMode) (negative : Bool) (v : ℚ) (k : ℕ) : Prop :=
  match mode with
  | .chop => (k : ℤ) = ⌊v⌋
  | .minf => (k : ℤ) = if negative then ⌈v⌉ else ⌊v⌋
  | .pinf => (k : ℤ) = if negative then ⌊v⌋ else ⌈v⌉
  | .near => |(k : ℚ) - v| ≤ 1 / 2 ∧ (|(k : ℚ) - v| = 1 / 2 → k % 2 = 0)
  | .vaxAway => |(k : ℚ) - v| ≤ 1 / 2 ∧ (|(k : ℚ) - v| = 1 / 2 → v < k)

theorem abs_sub_lt_one_of_eq_floor {v : ℚ} {k : ℕ} (h : (k : ℤ) = ⌊v⌋) : |(k : ℚ) - v| < 1 := by
  rw [← Int.cast_natCast k, h, abs_sub_lt_iff]
  constructor <;> linarith [Int.floor_le v, Int.lt_floor_add_one v]

theorem abs_sub_lt_one_of_eq_ceil {v : ℚ} {k : ℕ} (h : (k : ℤ) = ⌈v⌉) : |(k : ℚ) - v| < 1 := by
  rw [← Int.cast_natCast k, h, abs_sub_lt_iff]
  constructor <;> linarith [Int.le_ceil v, Int.ceil_lt_add_one v]

namespace IsRint

variable {mode : RoundMode} {negative : Bool} {v : ℚ} {k a : ℕ}

/-- Whatever the mode, rounding moves by less than one unit. -/
theorem abs_sub_lt_one (h : IsRint mode negative v k) : |(k : ℚ) - v| < 1 := by
  cases mode with
  | chop => exact abs_sub_lt_one_of_eq_floor h
  | minf =>
    cases negative with
    | true => exact abs_sub_lt_one_of_eq_ceil h
    | false => exact abs_sub_lt_one_of_eq_floor h
  | pinf =>
    cases negative with
    | true => exact abs_sub_lt_one_of_eq_floor h
    | false => exact abs_sub_lt_one_of_eq_ceil h
  | near => exact h.1.trans_lt (by norm_num)
  | vaxAway => exact h.1.trans_lt (by norm_num)

/-- An integer below the number stays below its rounding. -/
theorem le_of_natCast_le (h : IsRint mode negative v k) (ha : (a : ℚ) ≤ v) : a ≤ k := by
  have := (abs_sub_lt_iff.1 h.abs_sub_lt_one).2
  have : (a : ℚ) < (k + 1 : ℕ) := by push_cast; linarith
  exact Nat.lt_succ_iff.1 (Nat.cast_lt.1 this)

/-- An integer above the number stays above its rounding. -/
theorem le_of_le_natCast (h : IsRint mode negative v k) (ha : v ≤ (a : ℚ)) : k ≤ a := by
  have := (abs_sub_lt_iff.1 h.abs_sub_lt_one).1
  have : (k : ℚ) < (a + 1 : ℕ) := by push_cast; linarith
  exact Nat.lt_succ_iff.1 (Nat.cast_lt.1 this)

/-- An integer is rounded to itself. -/
theorem eq_of_natCast (h : IsRint mode negative (a : ℚ) k) : k = a :=
  le_antisymm (h.le_of_le_natCast le_rfl) (h.le_of_natCast_le le_rfl)

end IsRint

/-! ### The model's `rint` -/

/-- A quotient of naturals as quotient and remainder. -/
theorem natCast_div_eq {n d : ℕ} (hd : 0 < d) : (n : ℚ) / d = (n / d : ℕ) + ((n % d : ℕ) : ℚ) / d := by
  have hd' : (d : ℚ) ≠ 0 := by exact_mod_cast hd.ne'
  have h : (n : ℚ) = d * (n / d : ℕ) + (n % d : ℕ) := by exact_mod_cast (Nat.div_add_mod n d).symm
  rw [div_eq_iff hd', add_mul, div_mul_cancel₀ _ hd']
  linarith

theorem floor_natCast_add {k : ℕ} {t : ℚ} (h0 : 0 ≤ t) (h1 : t < 1) : ⌊(k : ℚ) + t⌋ = k := by
  rw [Int.floor_natCast_add, Int.floor_eq_zero_iff.2 ⟨h0, h1⟩, add_zero]

theorem ceil_natCast_add {k : ℕ} {t : ℚ} (h0 : 0 ≤ t) (h1 : t < 1) :
    ⌈(k : ℚ) + t⌉ = if t = 0 then (k : ℤ) else k + 1 := by
  split
  · next h => rw [h, add_zero, Int.ceil_natCast]
  · next h =>
    rw [Int.ceil_natCast_add, Int.ceil_eq_iff.2 (show _ ∧ _ from _)]
    exact ⟨by push_cast; linarith [lt_of_le_of_ne h0 (Ne.symm h)], by push_cast; linarith⟩

/-- The model's `rint` of `n / d` rounds that quotient. -/
theorem isRint_rint (mode : RoundMode) (negative : Bool) (n : ℕ) {d : ℕ} (hd : 0 < d) :
    IsRint mode negative ((n : ℚ) / d) (rint mode negative n d) := by
  have hd' : (0 : ℚ) < d := by exact_mod_cast hd
  rw [natCast_div_eq hd]
  unfold rint
  have hr : n % d < d := Nat.mod_lt n hd
  generalize n / d = k at *
  generalize n % d = r at *
  obtain ⟨t, ht⟩ : ∃ t : ℚ, t = (r : ℚ) / d := ⟨_, rfl⟩
  have ht' : t * d = r := by rw [ht, div_mul_cancel₀ _ hd'.ne']
  rw [← ht]
  have h0 : 0 ≤ t := by rw [ht]; positivity
  have h1 : t < 1 := by rw [ht, div_lt_one hd']; exact_mod_cast hr
  have hz : t = 0 ↔ r = 0 := by rw [ht, div_eq_zero_iff, Nat.cast_eq_zero]; simp [hd.ne']
  have hlt : 1 / 2 < t ↔ d < 2 * r := by
    rw [ht, lt_div_iff₀ hd', ← Nat.cast_lt (α := ℚ)]; push_cast
    constructor <;> intro h <;> linarith
  have heq : t = 1 / 2 ↔ 2 * r = d := by
    rw [ht, div_eq_iff hd'.ne', ← Nat.cast_inj (R := ℚ)]; push_cast
    constructor <;> intro h <;> linarith
  have floor : (k : ℤ) = ⌊(k : ℚ) + t⌋ := (floor_natCast_add h0 h1).symm
  have ceil : ((if r != 0 then k + 1 else k : ℕ) : ℤ) = ⌈(k : ℚ) + t⌉ := by
    rw [ceil_natCast_add h0 h1]
    by_cases h : r = 0
    · rw [if_pos (hz.2 h), h]; rfl
    · rw [if_neg (mt hz.1 h), if_pos (bne_iff_ne.2 h)]; push_cast; rfl
  have down : |(k : ℚ) - (k + t)| = t := by rw [sub_add_cancel_left, abs_neg, abs_of_nonneg h0]
  have up : |((k + 1 : ℕ) : ℚ) - (k + t)| = 1 - t := by
    push_cast; rw [add_sub_add_left_eq_sub, abs_of_nonneg (by linarith)]
  cases mode with
  | chop => exact floor
  | minf => cases negative <;> [exact floor; exact ceil]
  | pinf => cases negative <;> [exact ceil; exact floor]
  | near =>
    dsimp only [IsRint]
    split
    · next h =>
      rw [Bool.or_eq_true, Bool.and_eq_true, decide_eq_true_iff, decide_eq_true_iff, beq_iff_eq, ← hlt, ← heq] at h
      rw [up]
      refine ⟨by rcases h with h | h <;> linarith, fun e => ?_⟩
      rcases h with h | h
      · linarith
      · omega
    · next h =>
      rw [Bool.or_eq_true, Bool.and_eq_true, decide_eq_true_iff, decide_eq_true_iff, beq_iff_eq, ← hlt, ← heq,
        not_or, not_lt, not_and] at h
      rw [down]
      exact ⟨h.1, fun e => Nat.mod_two_ne_one.1 (h.2 e)⟩
  | vaxAway =>
    have hle : 1 / 2 ≤ t ↔ d ≤ 2 * r := by
      rw [le_iff_lt_or_eq, hlt, eq_comm, heq, Nat.le_iff_lt_or_eq, eq_comm (a := d)]
    dsimp only [IsRint]
    split
    · next h =>
      rw [decide_eq_true_iff, ← hle] at h
      rw [up]
      exact ⟨by linarith, fun e => by push_cast; linarith⟩
    · next h =>
      rw [decide_eq_true_iff, ← hle, not_le] at h
      rw [down]
      exact ⟨h.le, fun e => absurd e h.ne⟩

/-! ### Rounding a dyadic number to a grid (46 R373) -/

theorem Dyadic.abs_toRat (x : Dyadic) : |x.toRat| = x.m.natAbs * (2 : ℚ) ^ x.e := by
  rw [Dyadic.toRat, abs_mul, abs_of_pos (a := (2 : ℚ) ^ x.e) (by positivity), ← Int.cast_abs, Int.abs_eq_natAbs,
    Int.cast_natCast]

/-- `r` is the magnitude of `x` rounded to multiples of `2^q`. -/
structure IsRounding (mode : RoundMode) (x : Dyadic) (q : ℤ) (r : Rounded) : Prop where
  unit : r.q = q
  isRint : IsRint mode (decide (x.toRat < 0)) (|x.toRat| / (2 : ℚ) ^ q) r.n
  exact_iff : r.inexact = false ↔ (r.n : ℚ) = |x.toRat| / (2 : ℚ) ^ q

/-- Rounding to a grid is `rint` of a quotient of naturals; on a grid at least as fine as the number's own exponent
the divisor is 1. -/
theorem roundGrid_eq_rint (mode : RoundMode) (x : Dyadic) (q : ℤ) : ∃ n d : ℕ, 0 < d ∧
    |x.toRat| / (2 : ℚ) ^ q = (n : ℚ) / d ∧
    roundGrid mode x q = ⟨rint mode (decide (x.m < 0)) n d, q, n % d != 0⟩ := by
  rw [Dyadic.abs_toRat, mul_div_assoc, ← zpow_sub₀ (two_ne_zero : (2 : ℚ) ≠ 0)]
  unfold roundGrid
  split
  · next h =>
    refine ⟨x.m.natAbs * 2 ^ (x.e - q).toNat, 1, one_pos, ?_, ?_⟩
    · obtain ⟨k, hk⟩ := Int.eq_ofNat_of_zero_le (sub_nonneg.2 h)
      simp only [hk, Int.toNat_natCast, zpow_natCast]
      push_cast
      rw [div_one]
    · have : ∀ n, rint mode (decide (x.m < 0)) n 1 = n := fun n => by
        have := isRint_rint mode (decide (x.m < 0)) n one_pos
        rw [Nat.cast_one, div_one] at this
        exact this.eq_of_natCast
      rw [this, Nat.mod_one]
      rfl
  · next h =>
    refine ⟨x.m.natAbs, 2 ^ (q - x.e).toNat, by positivity, ?_, rfl⟩
    obtain ⟨k, hk⟩ := Int.eq_ofNat_of_zero_le (sub_nonneg.2 (not_le.1 h).le)
    rw [← neg_sub, zpow_neg, ← div_eq_mul_inv]
    simp only [hk, Int.toNat_natCast, zpow_natCast]
    push_cast
    rfl

theorem isRounding_roundGrid (mode : RoundMode) (x : Dyadic) (q : ℤ) : IsRounding mode x q (roundGrid mode x q) := by
  obtain ⟨n, d, hd, hq, hr⟩ := roundGrid_eq_rint mode x q
  have hrint := isRint_rint mode (decide (x.m < 0)) n hd
  rw [hr]
  refine ⟨rfl, by rwa [hq, decide_eq_decide.2 (Dyadic.toRat_neg_iff x)], ?_⟩
  rw [hq, bne_eq_false_iff_eq, ← Nat.dvd_iff_mod_eq_zero]
  constructor
  · rintro ⟨k, rfl⟩
    have hk : ((d * k : ℕ) : ℚ) / d = k := by
      push_cast; exact mul_div_cancel_left₀ _ (by exact_mod_cast hd.ne')
    rw [hk] at hrint ⊢
    exact congrArg _ hrint.eq_of_natCast
  · intro h
    rw [eq_div_iff (by exact_mod_cast hd.ne')] at h
    exact ⟨_, by rw [mul_comm]; exact_mod_cast h.symm⟩

/-! ### Rounding to `p` bits (46 R373) -/

/-- The grid of `round(x, p, mode)`. -/
def Dyadic.precGrid (x : Dyadic) (p : ℕ) : ℤ := x.exponent - (p - 1)

theorem isRounding_roundPrec (mode : RoundMode) (p : ℕ) (x : Dyadic) :
    IsRounding mode x (x.precGrid p) (roundPrec mode p x) :=
  isRounding_roundGrid mode x _

/-- `Dyadic.exponent` is the logarithm of the magnitude. -/
theorem Dyadic.exponent_spec {x : Dyadic} (hx : x.m ≠ 0) :
    (2 : ℚ) ^ x.exponent ≤ |x.toRat| ∧ |x.toRat| < (2 : ℚ) ^ (x.exponent + 1) := by
  have hm : x.m.natAbs ≠ 0 := Int.natAbs_ne_zero.2 hx
  have hpos : (0 : ℚ) < (2 : ℚ) ^ x.e := by positivity
  rw [Dyadic.abs_toRat, Dyadic.exponent, add_right_comm, zpow_add₀ two_ne_zero, zpow_add₀ two_ne_zero,
    mul_le_mul_iff_left₀ hpos, mul_lt_mul_iff_left₀ hpos, zpow_natCast, ← Nat.cast_succ, zpow_natCast]
  exact ⟨by exact_mod_cast Nat.log2_self_le hm, by exact_mod_cast Nat.lt_log2_self⟩

/-- On its grid the number has `p` bits. -/
theorem Dyadic.precGrid_spec {x : Dyadic} (hx : x.m ≠ 0) {p : ℕ} (hp : 1 ≤ p) :
    (2 : ℚ) ^ (p - 1) ≤ |x.toRat| / (2 : ℚ) ^ x.precGrid p ∧ |x.toRat| / (2 : ℚ) ^ x.precGrid p < (2 : ℚ) ^ p := by
  obtain ⟨hlo, hhi⟩ := Dyadic.exponent_spec hx
  have hpos : (0 : ℚ) < (2 : ℚ) ^ x.precGrid p := by positivity
  rw [le_div_iff₀ hpos, div_lt_iff₀ hpos, ← zpow_natCast, ← zpow_natCast, ← zpow_add₀ two_ne_zero,
    ← zpow_add₀ two_ne_zero, Dyadic.precGrid, Nat.cast_sub hp, Nat.cast_one, add_sub_cancel,
    show (p : ℤ) + (x.exponent - (p - 1)) = x.exponent + 1 by ring]
  exact ⟨hlo, hhi⟩

/-- Settles O51: the model's rounding is `rint` on the grid that gives the number `p` bits, and each clause is what
`rint` says in its modes. -/
theorem roundingIsCorrect : Obligations.RoundingIsCorrect := by
  rintro mode p x u n r hp hx rfl rfl rfl
  obtain ⟨hunit, hrint, hexact⟩ := isRounding_roundPrec mode p x
  rw [hunit]
  refine ⟨(Dyadic.precGrid_spec hx hp).1, (Dyadic.precGrid_spec hx hp).2, hexact, ?_, ?_, ?_, ?_⟩
  · rintro (rfl | ⟨rfl, h⟩ | ⟨rfl, h⟩)
    · exact hrint
    · rwa [decide_eq_false h.not_gt] at hrint
    · rwa [decide_eq_true h] at hrint
  · rintro (⟨rfl, h⟩ | ⟨rfl, h⟩)
    · rwa [decide_eq_true h] at hrint
    · rwa [decide_eq_false h.not_gt] at hrint
  · rintro rfl
    exact hrint
  · rintro rfl
    exact hrint

end Sys2Proof.Machine
end

section
/-!
O49: the operands of `ieee_arith` that decide its answer before any arithmetic: trapping denormals, NaNs and infinities
(46_floating_point R370, R374).
-/

namespace Sys2Proof.Machine

/-! ### The fields and the class of an S or T operand (46 R361, R362, 40_primitives R172) -/

section Fields

variable {fmt : FpFormat} {x : FpFields} {v : Word}

@[simp] theorem fieldsOf_sign (fmt : FpFormat) (v : Word) : (fieldsOf fmt v).sign = v.msb := by cases fmt <;> rfl

theorem isIeee_of_mem (h : fmt ∈ [.s, .t]) : fmt.isIeee = true := by
  revert fmt; decide

/-- The top fraction bit of S and of T is bit 51. -/
theorem testBit_frac_top (h : fmt ∈ [.s, .t]) (v : Word) :
    (fieldsOf fmt v).frac.testBit (fmt.fracBits - 1) = v.getLsbD 51 := by
  have : fmt = .s ∨ fmt = .t := by simpa using h
  rcases this with rfl | rfl
  · exact (BitVec.testBit_toNat (v.extractLsb' 29 23)).trans (BitVec.getLsbD_extractLsb' ..)
  · exact (BitVec.testBit_toNat (v.extractLsb' 0 52)).trans (BitVec.getLsbD_extractLsb' ..)

theorem isSignaling_fieldsOf (h : fmt ∈ [.s, .t]) (v : Word) :
    isSignaling fmt (fieldsOf fmt v) = (fpClass fmt v == .notANumber && !v.getLsbD 51) := by
  rw [isSignaling, testBit_frac_top h, fpClass]

/-- The classifier of S and T (40_primitives R172). -/
theorem classify_of_isIeee (h : fmt.isIeee = true) (x : FpFields) : classify fmt x =
    if x.exp = 0 then (if x.frac = 0 then .zero else .denormal)
    else if x.exp = fmt.maxField then (if x.frac = 0 then .infinity else .notANumber)
    else .finite :=
  if_pos h

theorem exp_of_classify_notANumber (h : fmt.isIeee = true) (hc : classify fmt x = .notANumber) :
    x.exp = fmt.maxField := by
  rw [classify_of_isIeee h] at hc
  grind

/-- The bits of a word in the S or F register layout. -/
theorem getLsbD_spread (sign : Bool) (g : BitVec 11) (f : BitVec 23) (i : ℕ) :
    BitVec.getLsbD (w := 64) (BitVec.ofBool sign ++ g ++ f ++ 0#29) i =
      if i < 29 then false else if i < 52 then f.getLsbD (i - 29) else if i < 63 then g.getLsbD (i - 52)
      else decide (i - 63 = 0) && sign := by
  show BitVec.getLsbD (w := 1 + 11 + 23 + 29) (BitVec.ofBool sign ++ g ++ f ++ 0#29) i = _
  simp only [BitVec.getLsbD_append, BitVec.getLsbD_ofBool, BitVec.getLsbD_zero]
  grind

/-- The quieted NaN in the S register layout: bits 28:0 clear, bits 62:51 set (log 17). -/
theorem quiet_s (hc : fpClass .s v = .notANumber) :
    quiet .s (fieldsOf .s v) = (v &&& 0xFFFFFFFFE0000000#64) ||| 0x7FF8000000000000#64 := by
  have hexp : BitVec.ofNat 8 (fieldsOf .s v).exp = 0xFF#8 := by rw [exp_of_classify_notANumber rfl hc]; rfl
  have hfrac : BitVec.ofNat 23 ((fieldsOf .s v).frac ||| 2 ^ 22) = v.extractLsb' 29 23 ||| 0x400000#23 := by
    rw [BitVec.ofNat_or]
    exact congrArg (· ||| _) (BitVec.ofNat_toNat _ _ |>.trans (BitVec.setWidth_eq _))
  show BitVec.ofBool _ ++ _ ++ BitVec.ofNat 23 ((fieldsOf .s v).frac ||| 2 ^ 22) ++ 0#29 = _
  rw [hexp, if_pos rfl, hfrac, fieldsOf_sign]
  apply BitVec.eq_of_getLsbD_eq
  intro i hi
  rw [getLsbD_spread]
  simp only [BitVec.getLsbD_or, BitVec.getLsbD_and, BitVec.getLsbD_extractLsb', BitVec.msb_eq_getLsbD_last]
  interval_cases i <;> simp

/-- The quieted NaN of T. -/
theorem quiet_t (v : Word) : quiet .t (fieldsOf .t v) = v ||| 0x0008000000000000#64 := by
  have hexp : BitVec.ofNat 11 (fieldsOf .t v).exp = v.extractLsb' 52 11 := by
    exact BitVec.ofNat_toNat _ _ |>.trans (BitVec.setWidth_eq _)
  have hfrac : BitVec.ofNat 52 ((fieldsOf .t v).frac ||| 2 ^ 51) = v.extractLsb' 0 52 ||| 0x8000000000000#52 := by
    rw [BitVec.ofNat_or]
    exact congrArg (· ||| _) (BitVec.ofNat_toNat _ _ |>.trans (BitVec.setWidth_eq _))
  show BitVec.ofBool _ ++ BitVec.ofNat 11 _ ++ BitVec.ofNat 52 ((fieldsOf .t v).frac ||| 2 ^ 51) = _
  rw [hexp, hfrac, fieldsOf_sign]
  apply BitVec.eq_of_getLsbD_eq
  intro i hi
  simp only [BitVec.getLsbD_append, BitVec.getLsbD_or, BitVec.getLsbD_extractLsb', BitVec.getLsbD_ofBool,
    BitVec.msb_eq_getLsbD_last]
  interval_cases i <;> simp

theorem signedInfinity_eq (h : fmt ∈ [.s, .t]) (sign : Bool) :
    signedInfinity fmt sign = if sign then 0xFFF0000000000000#64 else 0x7FF0000000000000#64 := by
  have : ∀ fmt ∈ [.s, .t], ∀ sign, signedInfinity fmt sign =
    if sign then 0xFFF0000000000000#64 else 0x7FF0000000000000#64 := by decide
  exact this fmt h sign

end Fields

/-! ### Denormal operands (46 R370) -/

section Denormal

variable {fpcr : Word} {fmt : FpFormat} {x : FpFields}

theorem denormalTraps_iff : denormalTraps fpcr fmt x = true ↔
    classify fmt x = .denormal ∧ fpcr.getLsbD 48 = false ∧ fpcr.getLsbD 47 = false := by
  simp [denormalTraps, fpcrBit, fpcrDNZ, fpcrDNOD, and_assoc]

/-- `DNZ` turns a denormal operand into a zero and leaves every other operand alone. -/
theorem classify_denormalFlushed (h : fmt.isIeee = true) : classify fmt (denormalFlushed fpcr fmt x) =
    if classify fmt x = .denormal ∧ fpcr.getLsbD 48 = true then .zero else classify fmt x := by
  have hcond : (classify fmt x == .denormal && fpcrBit fpcr fpcrDNZ) = true ↔
      classify fmt x = .denormal ∧ fpcr.getLsbD 48 = true := by
    simp [fpcrBit, fpcrDNZ]
  unfold denormalFlushed
  by_cases hc : classify fmt x = .denormal ∧ fpcr.getLsbD 48 = true
  · rw [if_pos hc, if_pos (hcond.2 hc)]
    have hexp : x.exp = 0 := by
      have := hc.1
      rw [classify_of_isIeee h] at this
      grind
    rw [classify_of_isIeee h, if_pos hexp, if_pos rfl]
  · rw [if_neg hc, if_neg (mt hcond.1 hc)]

theorem denormalFlushed_of_ne (h : classify fmt x ≠ .denormal) : denormalFlushed fpcr fmt x = x :=
  if_neg (by simp [h])

@[simp] theorem denormalFlushed_sign : (denormalFlushed fpcr fmt x).sign = x.sign := by
  unfold denormalFlushed; split <;> rfl

end Denormal

/-! ### Special operands (46 R374) -/

section Special

variable {fpcr : Word} {fn : BitVec 11} {fmt : FpFormat} {op : FpOp} {xa xb : FpFields} {a b : Word}

theorem ieeeArith_of_traps (h : fpClass fmt a = .denormal ∨ fpClass fmt b = .denormal)
    (hz : fpcr.getLsbD 48 = false) (hd : fpcr.getLsbD 47 = false) :
    ieeeArith fpcr fn fmt op a b = .exit { invalidOperation := true } { invalidOperation := true } 0 :=
  if_pos <| Bool.or_eq_true_iff.2 <| h.imp (fun h => denormalTraps_iff.2 ⟨h, hz, hd⟩)
    (fun h => denormalTraps_iff.2 ⟨h, hz, hd⟩)

theorem ieeeArith_of_passes (h : (fpClass fmt a ≠ .denormal ∧ fpClass fmt b ≠ .denormal) ∨
    fpcr.getLsbD 48 = true ∨ fpcr.getLsbD 47 = true) :
    ieeeArith fpcr fn fmt op a b = ieeeSpecial fpcr fn fmt op (denormalFlushed fpcr fmt (fieldsOf fmt a))
      (denormalFlushed fpcr fmt (fieldsOf fmt b)) := by
  refine if_neg fun ht => ?_
  rw [Bool.or_eq_true, denormalTraps_iff, denormalTraps_iff] at ht
  unfold fpClass at h
  grind

/-- Whether the two operands are let through is symmetric. -/
theorem passes_comm (h : (fpClass fmt a ≠ .denormal ∧ fpClass fmt b ≠ .denormal) ∨
    fpcr.getLsbD 48 = true ∨ fpcr.getLsbD 47 = true) : (fpClass fmt b ≠ .denormal ∧ fpClass fmt a ≠ .denormal) ∨
    fpcr.getLsbD 48 = true ∨ fpcr.getLsbD 47 = true :=
  h.imp_left And.symm

/-- The invalid condition of a NaN operand as a Boolean. -/
theorem ite_invalidExit (signaling : Bool) (dest : Word) :
    (if signaling then invalidExit fpcr dest else .exit {} {} dest) =
      FpAnswer.exit { invalidOperation := signaling }
        { invalidOperation := signaling && !fpcr.getLsbD 49 } dest := by
  cases signaling <;> rfl

/-- A NaN as second operand gives its quieted value, whatever the first operand is. -/
theorem ieeeSpecial_nan_right (hb : classify fmt xb = .notANumber) :
    ieeeSpecial fpcr fn fmt op xa xb =
      .exit { invalidOperation := isSignaling fmt xa || isSignaling fmt xb }
        { invalidOperation := (isSignaling fmt xa || isSignaling fmt xb) && !fpcr.getLsbD 49 } (quiet fmt xb) := by
  refine (if_pos (.inr hb)).trans ?_
  rw [if_pos hb]
  exact ite_invalidExit _ _

/-- A NaN as first operand gives its quieted value if the second is no NaN. -/
theorem ieeeSpecial_nan_left (ha : classify fmt xa = .notANumber) (hb : classify fmt xb ≠ .notANumber) :
    ieeeSpecial fpcr fn fmt op xa xb =
      .exit { invalidOperation := isSignaling fmt xa || isSignaling fmt xb }
        { invalidOperation := (isSignaling fmt xa || isSignaling fmt xb) && !fpcr.getLsbD 49 } (quiet fmt xa) := by
  refine (if_pos (.inl ha)).trans ?_
  rw [if_neg hb]
  exact ite_invalidExit _ _

variable (ha : classify fmt xa ≠ .notANumber) (hb : classify fmt xb ≠ .notANumber)
  (hinf : classify fmt xa = .infinity ∨ classify fmt xb = .infinity)
include ha hb hinf

/-- A sum with an infinity is invalid if the other operand is the opposite infinity, and else that infinity. -/
theorem ieeeSpecial_add_infinity : ieeeSpecial fpcr fn fmt .add xa xb =
    if classify fmt xa = .infinity ∧ classify fmt xb = .infinity ∧ xa.sign ≠ xb.sign
    then .exit { invalidOperation := true } { invalidOperation := !fpcr.getLsbD 49 } 0xFFF8000000000000#64
    else .exit {} {} (signedInfinity fmt (if classify fmt xa = .infinity then xa.sign else xb.sign)) := by
  rw [ieeeSpecial, if_neg (not_or.2 ⟨ha, hb⟩), if_pos hinf]
  rfl

/-- A product with an infinity is invalid if the other operand is a zero, and else an infinity of the product's sign. -/
theorem ieeeSpecial_mul_infinity : ieeeSpecial fpcr fn fmt .mul xa xb =
    if classify fmt xa = .zero ∨ classify fmt xb = .zero
    then .exit { invalidOperation := true } { invalidOperation := !fpcr.getLsbD 49 } 0xFFF8000000000000#64
    else .exit {} {} (signedInfinity fmt (xor xa.sign xb.sign)) := by
  rw [ieeeSpecial, if_neg (not_or.2 ⟨ha, hb⟩), if_pos hinf]
  rfl

end Special

/-- The class an operand of S or T arithmetic counts as, a denormal one as zero under `DNZ` (46 R370). -/
def operandClass (fpcr : Word) (fmt : FpFormat) (v : Word) : FpClass :=
  if fpClass fmt v = .denormal ∧ fpcr.getLsbD 48 = true then .zero else fpClass fmt v

theorem classify_operand {fmt : FpFormat} (h : fmt ∈ [.s, .t]) (fpcr v : Word) :
    classify fmt (denormalFlushed fpcr fmt (fieldsOf fmt v)) = operandClass fpcr fmt v :=
  classify_denormalFlushed (isIeee_of_mem h)

/-- Only a denormal operand may count as another class than its own. -/
theorem operandClass_of_ne {fpcr : Word} {fmt : FpFormat} {v : Word} (h : fpClass fmt v ≠ .denormal) :
    operandClass fpcr fmt v = fpClass fmt v :=
  if_neg fun hc => h hc.1

theorem operandClass_eq_infinity_iff {fpcr : Word} {fmt : FpFormat} {v : Word} :
    operandClass fpcr fmt v = .infinity ↔ fpClass fmt v = .infinity := by
  unfold operandClass; grind

theorem operandClass_eq_notANumber_iff {fpcr : Word} {fmt : FpFormat} {v : Word} :
    operandClass fpcr fmt v = .notANumber ↔ fpClass fmt v = .notANumber := by
  unfold operandClass; grind

/-- A flushed denormal operand is no signaling NaN. -/
theorem isSignaling_operand {fmt : FpFormat} (h : fmt ∈ [.s, .t]) (fpcr v : Word) :
    isSignaling fmt (denormalFlushed fpcr fmt (fieldsOf fmt v)) =
      (fpClass fmt v == .notANumber && !v.getLsbD 51) := by
  by_cases hd : fpClass fmt v = .denormal
  · rw [isSignaling, classify_operand h, hd,
      beq_eq_false_iff_ne.2 (mt operandClass_eq_notANumber_iff.1 (by rw [hd]; decide))]
    rfl
  · rw [denormalFlushed_of_ne hd, isSignaling_fieldsOf h]

section Operands

variable {fpcr : Word} {fn : BitVec 11} {fmt : FpFormat} {op : FpOp} {a b : Word} (hfmt : fmt ∈ [.s, .t])
  (hpass : (fpClass fmt a ≠ .denormal ∧ fpClass fmt b ≠ .denormal) ∨ fpcr.getLsbD 48 = true ∨ fpcr.getLsbD 47 = true)
include hfmt hpass

theorem ieeeArith_nan_right (hb : fpClass fmt b = .notANumber) {inv : Bool}
    (hinv : inv = ((fpClass fmt a == .notANumber && !a.getLsbD 51) ||
      (fpClass fmt b == .notANumber && !b.getLsbD 51))) :
    ieeeArith fpcr fn fmt op a b = .exit { invalidOperation := inv }
      { invalidOperation := inv && !fpcr.getLsbD 49 } (quiet fmt (fieldsOf fmt b)) := by
  rw [ieeeArith_of_passes hpass,
    ieeeSpecial_nan_right ((classify_operand hfmt ..).trans (operandClass_eq_notANumber_iff.2 hb)),
    isSignaling_operand hfmt, isSignaling_operand hfmt, ← hinv,
    denormalFlushed_of_ne (show fpClass fmt b ≠ .denormal by rw [hb]; decide)]

theorem ieeeArith_nan_left (ha : fpClass fmt a = .notANumber) (hb : fpClass fmt b ≠ .notANumber) {inv : Bool}
    (hinv : inv = ((fpClass fmt a == .notANumber && !a.getLsbD 51) ||
      (fpClass fmt b == .notANumber && !b.getLsbD 51))) :
    ieeeArith fpcr fn fmt op a b = .exit { invalidOperation := inv }
      { invalidOperation := inv && !fpcr.getLsbD 49 } (quiet fmt (fieldsOf fmt a)) := by
  rw [ieeeArith_of_passes hpass,
    ieeeSpecial_nan_left ((classify_operand hfmt ..).trans (operandClass_eq_notANumber_iff.2 ha))
      (by rw [classify_operand hfmt]; exact mt operandClass_eq_notANumber_iff.1 hb),
    isSignaling_operand hfmt, isSignaling_operand hfmt, ← hinv,
    denormalFlushed_of_ne (show fpClass fmt a ≠ .denormal by rw [ha]; decide)]

variable (ha : fpClass fmt a ≠ .notANumber) (hb : fpClass fmt b ≠ .notANumber)
  (hinf : fpClass fmt a = .infinity ∨ fpClass fmt b = .infinity)
include ha hb hinf

theorem ieeeArith_add_infinity : ieeeArith fpcr fn fmt .add a b =
    if fpClass fmt a = .infinity ∧ fpClass fmt b = .infinity ∧ a.msb ≠ b.msb
    then .exit { invalidOperation := true } { invalidOperation := !fpcr.getLsbD 49 } 0xFFF8000000000000#64
    else .exit {} {} (signedInfinity fmt (if fpClass fmt a = .infinity then a.msb else b.msb)) := by
  rw [ieeeArith_of_passes hpass, ieeeSpecial_add_infinity] <;>
    simp only [classify_operand hfmt, operandClass_eq_infinity_iff, operandClass_eq_notANumber_iff,
      denormalFlushed_sign, fieldsOf_sign, ne_eq] <;> assumption

theorem ieeeArith_mul_infinity : ieeeArith fpcr fn fmt .mul a b =
    if operandClass fpcr fmt a = .zero ∨ operandClass fpcr fmt b = .zero
    then .exit { invalidOperation := true } { invalidOperation := !fpcr.getLsbD 49 } 0xFFF8000000000000#64
    else .exit {} {} (signedInfinity fmt (xor a.msb b.msb)) := by
  rw [ieeeArith_of_passes hpass, ieeeSpecial_mul_infinity] <;>
    simp only [classify_operand hfmt, operandClass_eq_infinity_iff, operandClass_eq_notANumber_iff,
      denormalFlushed_sign, fieldsOf_sign, ne_eq] <;> assumption

end Operands

/-! ### An infinity beside another operand, in either order (46 R374) -/

section Infinity

variable {fpcr : Word} {fn : BitVec 11} {fmt : FpFormat} {a b : Word} (hfmt : fmt ∈ [.s, .t])
  (hpass : (fpClass fmt a ≠ .denormal ∧ fpClass fmt b ≠ .denormal) ∨ fpcr.getLsbD 48 = true ∨ fpcr.getLsbD 47 = true)
  (ha : fpClass fmt a = .infinity)
include hfmt hpass ha

theorem ieeeArith_infinity_add_number (hb : fpClass fmt b ∈ [.finite, .zero, .denormal]) :
    ieeeArith fpcr fn fmt .add a b = .exit {} {} (signedInfinity fmt a.msb) ∧
    ieeeArith fpcr fn fmt .add b a = .exit {} {} (signedInfinity fmt a.msb) := by
  have han : fpClass fmt a ≠ .notANumber := by rw [ha]; decide
  have hbn : fpClass fmt b ≠ .notANumber := fun e => by simp [e] at hb
  have hbi : fpClass fmt b ≠ .infinity := fun e => by simp [e] at hb
  constructor
  · rw [ieeeArith_add_infinity hfmt hpass han hbn (.inl ha), if_neg (fun h => hbi h.2.1), if_pos ha]
  · rw [ieeeArith_add_infinity hfmt (passes_comm hpass) hbn han (.inr ha), if_neg (fun h => hbi h.1), if_neg hbi]

theorem ieeeArith_infinity_mul_zero (hb : operandClass fpcr fmt b = .zero) :
    ieeeArith fpcr fn fmt .mul a b =
      .exit { invalidOperation := true } { invalidOperation := !fpcr.getLsbD 49 } 0xFFF8000000000000#64 ∧
    ieeeArith fpcr fn fmt .mul b a =
      .exit { invalidOperation := true } { invalidOperation := !fpcr.getLsbD 49 } 0xFFF8000000000000#64 := by
  have han : fpClass fmt a ≠ .notANumber := by rw [ha]; decide
  have hbn : fpClass fmt b ≠ .notANumber := fun e => by rw [operandClass_eq_notANumber_iff.2 e] at hb; cases hb
  constructor
  · rw [ieeeArith_mul_infinity hfmt hpass han hbn (.inl ha), if_pos (.inr hb)]
  · rw [ieeeArith_mul_infinity hfmt (passes_comm hpass) hbn han (.inr ha), if_pos (.inl hb)]

theorem ieeeArith_infinity_mul_number (hbn : fpClass fmt b ≠ .notANumber) (hbz : operandClass fpcr fmt b ≠ .zero) :
    ieeeArith fpcr fn fmt .mul a b = .exit {} {} (signedInfinity fmt (a ^^^ b).msb) ∧
    ieeeArith fpcr fn fmt .mul b a = .exit {} {} (signedInfinity fmt (a ^^^ b).msb) := by
  have han : fpClass fmt a ≠ .notANumber := by rw [ha]; decide
  have haz : operandClass fpcr fmt a ≠ .zero := by rw [operandClass_eq_infinity_iff.2 ha]; decide
  constructor
  · rw [ieeeArith_mul_infinity hfmt hpass han hbn (.inl ha), if_neg (not_or.2 ⟨haz, hbz⟩), BitVec.msb_xor]
  · rw [ieeeArith_mul_infinity hfmt (passes_comm hpass) hbn han (.inr ha), if_neg (not_or.2 ⟨hbz, haz⟩),
      BitVec.xor_comm, BitVec.msb_xor]

end Infinity

/-- Settles O49: denormals trap first; then the answers on a NaN and on an infinity, read in either order of the
operands. -/
theorem ieeeSpecialOperands : Obligations.IeeeSpecialOperands := by
  rintro fpcr fn fmt op a b _ _ _ inv quiet' inf hfmt rfl rfl rfl hinv hquiet hinf
  have hq : ∀ v, fpClass fmt v = .notANumber → quiet fmt (fieldsOf fmt v) = quiet' v := by
    intro v hv
    rw [hquiet]
    have : fmt = .s ∨ fmt = .t := by simpa using hfmt
    rcases this with rfl | rfl
    · exact quiet_s hv
    · exact quiet_t v
  have hi : ∀ v : Word, signedInfinity fmt v.msb = inf v := fun v => (signedInfinity_eq hfmt _).trans (hinf v).symm
  refine ⟨ieeeArith_of_traps, fun hpass => ⟨fun hb => ?_, fun ha hb => ?_, fun ha hb => ?_, fun ha hb => ?_,
    fun ha hb => ?_⟩, fun ha hb => ?_⟩
  · rw [← hq b hb]; exact ieeeArith_nan_right hfmt hpass hb hinv
  · rw [← hq a ha]; exact ieeeArith_nan_left hfmt hpass ha hb hinv
  · rw [← hi]; exact ieeeArith_infinity_add_number hfmt hpass ha hb
  · refine ieeeArith_infinity_mul_zero hfmt hpass ha ?_
    rcases hb with hb | hb
    · rw [operandClass_of_ne (by rw [hb]; decide), hb]
    · exact if_pos hb
  · rw [← hi]
    refine ieeeArith_infinity_mul_number hfmt hpass ha (fun e => by simp [e] at hb) fun e => ?_
    unfold operandClass at e
    grind
  · have han : fpClass fmt a ≠ .notANumber := by rw [ha]; decide
    have hbn : fpClass fmt b ≠ .notANumber := by rw [hb]; decide
    have hpass : fpClass fmt a ≠ .denormal ∧ fpClass fmt b ≠ .denormal := by rw [ha, hb]; decide
    rw [ieeeArith_add_infinity hfmt (.inl hpass) han hbn (.inl ha)]
    refine ⟨fun hs => ?_, fun hs => if_pos ⟨ha, hb, hs⟩⟩
    rw [if_neg (fun h => h.2.2 hs), if_pos ha, hi]

end Sys2Proof.Machine
end

section
/-!
The number a register value of class `Finite` holds: sign, significand and exponent, the same in the wider view of its
layout (S in T's, F in G's), and determined by the number (46_floating_point R361 to R365, R367).
-/

namespace Sys2Proof.Machine

/-! ### Signs -/

/-- A magnitude with a sign. -/
def signedBy (negative : Bool) (v : ℚ) : ℚ := if negative then -v else v

theorem abs_signedBy (negative : Bool) {v : ℚ} (hv : 0 ≤ v) : |signedBy negative v| = v := by
  cases negative
  · exact abs_of_nonneg hv
  · exact (abs_neg v).trans (abs_of_nonneg hv)

theorem signedBy_neg_iff {negative : Bool} {v : ℚ} (hv : 0 < v) : signedBy negative v < 0 ↔ negative = true := by
  cases negative
  · exact ⟨fun h => absurd h hv.not_gt, nofun⟩
  · exact ⟨fun _ => rfl, fun _ => neg_lt_zero.2 hv⟩

theorem signedBy_decide_neg (x : ℚ) : signedBy (decide (x < 0)) |x| = x := by
  unfold signedBy
  by_cases h : x < 0
  · rw [if_pos (decide_eq_true h), abs_of_neg h, neg_neg]
  · rw [if_neg (by simpa using h), abs_of_nonneg (not_lt.1 h)]

theorem signedBy_inj {negative : Bool} {v w : ℚ} : signedBy negative v = signedBy negative w ↔ v = w := by
  cases negative
  · exact Iff.rfl
  · exact neg_inj

/-! ### Numbers of `n + 1` bits -/

theorem pow_le_significand {n : ℕ} (f : ℕ) (e : ℤ) : (2 : ℚ) ^ (n + e) ≤ ((2 ^ n + f : ℕ) : ℚ) * (2 : ℚ) ^ e := by
  rw [zpow_add₀ two_ne_zero, zpow_natCast, mul_le_mul_iff_left₀ (by positivity)]
  push_cast
  exact le_add_of_nonneg_right (Nat.cast_nonneg f)

theorem significand_lt_pow {n f : ℕ} (hf : f < 2 ^ n) (e : ℤ) :
    ((2 ^ n + f : ℕ) : ℚ) * (2 : ℚ) ^ e < (2 : ℚ) ^ (n + e + 1) := by
  rw [add_right_comm, zpow_add₀ two_ne_zero, ← Nat.cast_succ, zpow_natCast, mul_lt_mul_iff_left₀ (by positivity)]
  have : 2 ^ n + f < 2 ^ (n + 1) := by rw [pow_succ]; omega
  exact_mod_cast this

/-- Powers of two are ordered as their exponents are. -/
theorem lt_of_two_zpow_lt {a b : ℤ} (h : (2 : ℚ) ^ a < (2 : ℚ) ^ b) : a < b :=
  (zpow_lt_zpow_iff_right₀ one_lt_two).1 h

/-- A number determines its exponent and its significand. -/
theorem significand_unique {n f g : ℕ} (hf : f < 2 ^ n) (hg : g < 2 ^ n) {d e : ℤ}
    (h : ((2 ^ n + f : ℕ) : ℚ) * (2 : ℚ) ^ d = ((2 ^ n + g : ℕ) : ℚ) * (2 : ℚ) ^ e) : d = e ∧ f = g := by
  have hde : d = e := by
    have h1 := lt_of_two_zpow_lt ((pow_le_significand f d).trans_lt (h ▸ significand_lt_pow hg e))
    have h2 := lt_of_two_zpow_lt ((pow_le_significand g e).trans_lt (h ▸ significand_lt_pow hf d))
    omega
  subst hde
  have := mul_right_cancel₀ (by positivity) h
  exact ⟨rfl, by exact_mod_cast add_left_cancel (Nat.cast_injective this)⟩

/-! ### The value of fields (46 R361 to R365, R367) -/

/-- The exponent field of the numbers from 1 on: the bias, or one more where the significand is below 1. -/
def FpFormat.expOne (fmt : FpFormat) : ℤ := fmt.bias + if fmt.isIeee then 0 else 1

/-- The largest exponent field of class `Finite`. -/
def FpFormat.lastExp (fmt : FpFormat) : ℕ := fmt.maxField - if fmt.isIeee then 1 else 0

theorem classify_eq_finite_iff {fmt : FpFormat} {x : FpFields} (he : x.exp ≤ fmt.maxField) :
    classify fmt x = .finite ↔ 1 ≤ x.exp ∧ x.exp ≤ fmt.lastExp := by
  unfold classify FpFormat.lastExp
  cases fmt <;> simp only [FpFormat.isIeee, FpFormat.maxField, FpFormat.expBits] at * <;> grind

/-- The VAX formats have no denormal numbers. -/
theorem isIeee_of_classify_denormal {fmt : FpFormat} {x : FpFields} (hc : classify fmt x = .denormal) :
    fmt.isIeee = true := by
  by_contra h
  rw [classify, if_neg h] at hc
  grind

theorem toRat_valueOf_finite {fmt : FpFormat} {x : FpFields} (hc : classify fmt x = .finite) :
    (valueOf fmt x).toRat =
      signedBy x.sign (((2 ^ fmt.fracBits + x.frac : ℕ) : ℚ) * (2 : ℚ) ^ (x.exp - fmt.expOne - fmt.fracBits)) := by
  have he : (x.exp - fmt.bias - fmt.fracBits - (if fmt.isIeee then 0 else 1) : ℤ) = x.exp - fmt.expOne - fmt.fracBits := by
    unfold FpFormat.expOne; ring
  unfold valueOf
  rw [hc]
  simp only [Dyadic.toRat, he, signedBy]
  split
  · rw [Int.cast_neg, neg_mul]; rfl
  · rfl

theorem toRat_valueOf_neg_iff {fmt : FpFormat} {x : FpFields} (hc : classify fmt x = .finite) :
    (valueOf fmt x).toRat < 0 ↔ x.sign = true := by
  rw [toRat_valueOf_finite hc, signedBy_neg_iff (by positivity)]

theorem toRat_valueOf_denormal {fmt : FpFormat} {x : FpFields} (hc : classify fmt x = .denormal) :
    (valueOf fmt x).toRat = signedBy x.sign ((x.frac : ℚ) * (2 : ℚ) ^ (1 - fmt.bias - fmt.fracBits)) := by
  unfold valueOf
  rw [hc]
  simp only [Dyadic.toRat, signedBy]
  split
  · rw [Int.cast_neg, neg_mul]; rfl
  · rfl

theorem toRat_valueOf_other {fmt : FpFormat} {x : FpFields} (hf : classify fmt x ≠ .finite)
    (hd : classify fmt x ≠ .denormal) : (valueOf fmt x).toRat = 0 := by
  have hv : valueOf fmt x = Dyadic.zero := by
    unfold valueOf
    revert hf hd
    generalize classify fmt x = c
    cases c <;> simp
  rw [hv, Dyadic.toRat_eq_zero]
  rfl

/-! ### Reading a register value -/

theorem fieldsOf_exp_le (fmt : FpFormat) (v : Word) : (fieldsOf fmt v).exp ≤ fmt.maxField := by
  refine Nat.le_sub_one_of_lt ?_
  cases fmt <;> exact BitVec.isLt _

theorem fieldsOf_frac_lt (fmt : FpFormat) (v : Word) : (fieldsOf fmt v).frac < 2 ^ fmt.fracBits := by
  cases fmt <;> exact BitVec.isLt _

/-- A word is the fields it is read as, in the formats that use all its bits. -/
theorem fieldsOf_injective {fmt : FpFormat} (h : fmt ∈ [.t, .g, .d]) {v w : Word} (he : fieldsOf fmt v = fieldsOf fmt w) :
    v = w := by
  have split : ∀ {p q : ℕ} (hpq : 1 + p + q = 64), v.msb = w.msb →
      (v.extractLsb' q p).toNat = (w.extractLsb' q p).toNat →
      (v.extractLsb' 0 q).toNat = (w.extractLsb' 0 q).toNat → v = w := by
    intro p q hpq hs hexp hfrac
    have hexp := BitVec.eq_of_toNat_eq hexp
    have hfrac := BitVec.eq_of_toNat_eq hfrac
    apply BitVec.eq_of_getLsbD_eq
    intro i hi
    by_cases h1 : i < q
    · have := congrArg (BitVec.getLsbD · i) hfrac
      simpa [h1] using this
    · by_cases h2 : i < q + p
      · have := congrArg (BitVec.getLsbD · (i - q)) hexp
        simpa [show i - q < p by omega, show q + (i - q) = i by omega] using this
      · have : i = 63 := by omega
        subst this
        simpa [BitVec.msb_eq_getLsbD_last] using hs
  have : fmt = .t ∨ fmt = .g ∨ fmt = .d := by simpa using h
  rcases this with rfl | rfl | rfl <;> injection he with hs hexp hfrac
  · exact split (p := 11) (q := 52) rfl hs hexp hfrac
  · exact split (p := 11) (q := 52) rfl hs hexp hfrac
  · exact split (p := 8) (q := 55) rfl hs hexp hfrac

/-- Two values of class `Finite` that stand for the same number have the same fields. -/
theorem fields_eq_of_toRat_eq {fmt : FpFormat} {x y : FpFields} (hx : classify fmt x = .finite)
    (hy : classify fmt y = .finite) (hfx : x.frac < 2 ^ fmt.fracBits) (hfy : y.frac < 2 ^ fmt.fracBits)
    (h : (valueOf fmt x).toRat = (valueOf fmt y).toRat) : x = y := by
  have hs : x.sign = y.sign := by
    rw [Bool.eq_iff_iff, ← toRat_valueOf_neg_iff hx, h, toRat_valueOf_neg_iff hy]
  rw [toRat_valueOf_finite hx, toRat_valueOf_finite hy, hs, signedBy_inj] at h
  obtain ⟨he, hf⟩ := significand_unique hfx hfy h
  obtain ⟨sx, ex, fx⟩ := x
  obtain ⟨sy, ey, fy⟩ := y
  simp only [FpFields.mk.injEq]
  exact ⟨hs, by simp only at he; omega, hf⟩

/-- A finite number is at least the smallest one of its format. -/
theorem pow_le_abs_fpValue {fmt : FpFormat} {v : Word} (hc : fpClass fmt v = .finite) :
    (2 : ℚ) ^ (1 - fmt.expOne) ≤ |fpValue fmt v| := by
  have he := ((classify_eq_finite_iff (fieldsOf_exp_le fmt v)).1 hc).1
  rw [fpValue, toRat_valueOf_finite hc, abs_signedBy _ (by positivity)]
  refine le_trans ?_ (pow_le_significand _ _)
  exact zpow_le_zpow_right₀ one_le_two (by omega)

/-- And below the power of two after the largest. -/
theorem abs_fpValue_lt_pow {fmt : FpFormat} {v : Word} (hc : fpClass fmt v = .finite) :
    |fpValue fmt v| < (2 : ℚ) ^ (fmt.lastExp + 1 - fmt.expOne) := by
  have he := ((classify_eq_finite_iff (fieldsOf_exp_le fmt v)).1 hc).2
  rw [fpValue, toRat_valueOf_finite hc, abs_signedBy _ (by positivity)]
  refine (significand_lt_pow (fieldsOf_frac_lt fmt v) _).trans_le ?_
  exact zpow_le_zpow_right₀ one_le_two (by omega)

/-- Only a finite value is as large as the smallest finite number. -/
theorem fpClass_finite_of_pow_le {fmt : FpFormat} {v : Word} (h : (2 : ℚ) ^ (1 - fmt.expOne) ≤ |fpValue fmt v|) :
    fpClass fmt v = .finite := by
  by_contra hf
  by_cases hd : fpClass fmt v = .denormal
  · have hi := isIeee_of_classify_denormal hd
    rw [fpValue, toRat_valueOf_denormal hd, abs_signedBy _ (by positivity), FpFormat.expOne, hi, if_pos rfl, add_zero,
      sub_eq_add_neg _ (fmt.fracBits : ℤ), zpow_add₀ two_ne_zero, mul_left_comm, zpow_neg, zpow_natCast] at h
    have hlt : ((fieldsOf fmt v).frac : ℚ) < 2 ^ fmt.fracBits := by exact_mod_cast fieldsOf_frac_lt fmt v
    have : ((fieldsOf fmt v).frac : ℚ) * ((2 : ℚ) ^ fmt.fracBits)⁻¹ < 1 := by
      rwa [← div_eq_mul_inv, div_lt_one (by positivity)]
    exact absurd h (not_le.2 (mul_lt_of_lt_one_right (by positivity) this))
  · rw [fpValue, toRat_valueOf_other hf hd, abs_zero] at h
    exact absurd h (not_le.2 (by positivity))

/-- In a format that uses all bits of the word a finite number has one register value. -/
theorem eq_of_fpValue_eq {fmt : FpFormat} (h : fmt ∈ [.t, .g, .d]) {v w : Word} (hv : fpClass fmt v = .finite)
    (he : fpValue fmt v = fpValue fmt w) : v = w :=
  have hw : fpClass fmt w = .finite := fpClass_finite_of_pow_le (he ▸ pow_le_abs_fpValue hv)
  fieldsOf_injective h (fields_eq_of_toRat_eq hv hw (fieldsOf_frac_lt fmt v) (fieldsOf_frac_lt fmt w) he)

end Sys2Proof.Machine
end

section
/-!
What is written for a rounded number: the encoding of a finite number in its own view and in the wider one, the number
a rounded magnitude stands for, and the bounds and the exactness of rounding to `p` bits and to a grid
(46_floating_point R361 to R365, R373).
-/

namespace Sys2Proof.Machine

/-! ### Encoded numbers (46 R361 to R365) -/

/-- The view a register value of the format is read in by the instructions of the longer format. -/
def FpFormat.wide : FpFormat → FpFormat
  | .s => .t
  | .f => .g
  | .t => .t
  | .g => .g
  | .d => .d

/-- Fields of class `Finite`. -/
structure FiniteFields (fmt : FpFormat) (x : FpFields) : Prop where
  exp_pos : 1 ≤ x.exp
  exp_le : x.exp ≤ fmt.lastExp
  frac_lt : x.frac < 2 ^ fmt.fracBits

theorem FpFormat.lastExp_le (fmt : FpFormat) : fmt.lastExp ≤ fmt.maxField := Nat.sub_le _ _

section Encoded

variable {fmt : FpFormat} {x : FpFields}

theorem fpClass_encodeFields (he : x.exp ≤ fmt.maxField) (hf : x.frac < 2 ^ fmt.fracBits) :
    fpClass fmt (encodeFields fmt x) = classify fmt x :=
  congrArg (classify fmt) (fieldsOf_encodeFields fmt x he hf)

theorem fpValue_encodeFields (he : x.exp ≤ fmt.maxField) (hf : x.frac < 2 ^ fmt.fracBits) :
    fpValue fmt (encodeFields fmt x) = (valueOf fmt x).toRat :=
  congrArg (fun x => (valueOf fmt x).toRat) (fieldsOf_encodeFields fmt x he hf)

theorem FiniteFields.classify_eq (h : FiniteFields fmt x) : classify fmt x = .finite :=
  (classify_eq_finite_iff (h.exp_le.trans fmt.lastExp_le)).2 ⟨h.exp_pos, h.exp_le⟩

/-- The fields in the T or G view of a word written in the S or F layout. -/
theorem fieldsOf_wide_spread (sign : Bool) (f : BitVec 23) (g : BitVec 11) (fmt : FpFormat) (hf : fmt = .t ∨ fmt = .g) :
    fieldsOf fmt (BitVec.ofBool sign ++ g ++ f ++ 0#29) = ⟨sign, g.toNat, f.toNat * 2 ^ 29⟩ := by
  have hsign : (BitVec.ofBool sign ++ g ++ f ++ 0#29 : BitVec (1 + 11 + 23 + 29)).msb = sign := by
    simp only [BitVec.msb_append]; simp
  have hexp : (BitVec.ofBool sign ++ g ++ f ++ 0#29 : BitVec (1 + 11 + 23 + 29)).extractLsb' 52 11 = g := by
    rw [extractLsb'_append_high _ _ _ (by decide), extractLsb'_append_high _ _ _ (by decide),
      extractLsb'_append_low _ _ _ _ (by decide)]
    exact BitVec.extractLsb'_eq_self
  have hfrac : ((BitVec.ofBool sign ++ g ++ f ++ 0#29 : BitVec (1 + 11 + 23 + 29)).extractLsb' 0 52).toNat =
      f.toNat * 2 ^ 29 := by
    rw [show (BitVec.ofBool sign ++ g ++ f ++ 0#29 : BitVec (1 + 11 + 23 + 29)).extractLsb' 0 52 = f ++ 0#29 by
      ext i hi; simp only [BitVec.getElem_extractLsb', BitVec.getLsbD_append]; grind]
    rw [BitVec.toNat_append, Nat.shiftLeft_eq]
    exact Nat.or_zero _
  have collect : ∀ a e n, a = sign → e = g → n = f.toNat * 2 ^ 29 →
      (⟨a, BitVec.toNat e, n⟩ : FpFields) = ⟨sign, g.toNat, f.toNat * 2 ^ 29⟩ := by
    rintro _ _ _ rfl rfl rfl; rfl
  rcases hf with rfl | rfl <;> exact collect _ _ _ hsign hexp hfrac

theorem spreadExponent_toNat : ∀ e : BitVec 8, e ≠ 0 → (spreadExponent e).toNat = e.toNat + 896 := by decide

/-- An S or F number in the T or G view: the exponent in the wider bias, the fraction at the top. -/
theorem fieldsOf_wide_encodeFields (hfmt : fmt = .s ∨ fmt = .f) (h : FiniteFields fmt x) :
    fieldsOf fmt.wide (encodeFields fmt x) = ⟨x.sign, x.exp + 896, x.frac * 2 ^ 29⟩ := by
  obtain ⟨hpos, hle, hlt⟩ := h
  have hle8 : x.exp < 2 ^ 8 := by
    rcases hfmt with rfl | rfl <;> exact Nat.lt_of_le_of_lt hle (by decide)
  have hexp : (BitVec.ofNat 8 x.exp).toNat = x.exp := by rw [BitVec.toNat_ofNat, Nat.mod_eq_of_lt hle8]
  have hne : ∀ e : BitVec 8, e.toNat ≠ x.exp → BitVec.ofNat 8 x.exp ≠ e := fun e he h => he (h ▸ hexp)
  have hzero : BitVec.ofNat 8 x.exp ≠ 0 := hne 0 (show 0 ≠ x.exp by omega)
  have hfrac : x.frac < 2 ^ 23 → (BitVec.ofNat 23 x.frac).toNat = x.frac := fun h1 => by
    rw [BitVec.toNat_ofNat, Nat.mod_eq_of_lt h1]
  rcases hfmt with rfl | rfl
  · have hinf : BitVec.ofNat 8 x.exp ≠ 0xFF#8 := hne _ fun e => absurd (e ▸ hle) (by decide)
    show fieldsOf .t (BitVec.ofBool _ ++ _ ++ _ ++ _) = _
    rw [fieldsOf_wide_spread _ _ _ _ (.inl rfl), if_neg hinf, if_neg hzero, spreadExponent_toNat _ hzero, hexp,
      hfrac hlt]
  · show fieldsOf .g (BitVec.ofBool _ ++ _ ++ _ ++ _) = _
    rw [fieldsOf_wide_spread _ _ _ _ (.inr rfl), if_neg hzero, spreadExponent_toNat _ hzero, hexp, hfrac hlt]

theorem FiniteFields.wide (hfmt : fmt = .s ∨ fmt = .f) (h : FiniteFields fmt x) :
    FiniteFields fmt.wide ⟨x.sign, x.exp + 896, x.frac * 2 ^ 29⟩ := by
  obtain ⟨hpos, hle, hlt⟩ := h
  rcases hfmt with rfl | rfl <;>
    refine ⟨Nat.le_add_left_of_le (by decide), le_trans (Nat.add_le_add_right hle _) (by decide), ?_⟩ <;>
    exact (Nat.mul_lt_mul_of_pos_right hlt (by decide)).trans_le (by decide)

/-- The wider fields stand for the same number. -/
theorem toRat_valueOf_wide (hfmt : fmt = .s ∨ fmt = .f) (h : FiniteFields fmt x) :
    (valueOf fmt.wide ⟨x.sign, x.exp + 896, x.frac * 2 ^ 29⟩).toRat = (valueOf fmt x).toRat := by
  have hfrac : (2 ^ fmt.wide.fracBits + x.frac * 2 ^ 29 : ℕ) = (2 ^ fmt.fracBits + x.frac) * 2 ^ 29 := by
    rcases hfmt with rfl | rfl <;> rw [Nat.add_mul] <;> rfl
  have hexp : ((x.exp + 896 : ℕ) - fmt.wide.expOne - fmt.wide.fracBits : ℤ) =
      (x.exp - fmt.expOne - fmt.fracBits) - (29 : ℕ) := by
    rcases hfmt with rfl | rfl <;>
      simp [FpFormat.expOne, FpFormat.wide, FpFormat.bias, FpFormat.fracBits, FpFormat.isIeee] <;> ring
  rw [toRat_valueOf_finite (h.wide hfmt).classify_eq, toRat_valueOf_finite h.classify_eq, hfrac, hexp,
    zpow_sub₀ two_ne_zero, zpow_natCast, Nat.cast_mul, Nat.cast_pow, Nat.cast_ofNat, mul_assoc,
    mul_div_cancel₀ _ (by positivity)]

/-- A finite number is the same in its own view and in the wider one (46 R362, R364). -/
theorem fpValue_wide_encodeFields (h : FiniteFields fmt x) :
    fpValue fmt.wide (encodeFields fmt x) = (valueOf fmt x).toRat := by
  have plain : fmt.wide = fmt → fpValue fmt.wide (encodeFields fmt x) = (valueOf fmt x).toRat := fun e => by
    rw [e, fpValue_encodeFields (h.exp_le.trans fmt.lastExp_le) h.frac_lt]
  have spread : (fmt = .s ∨ fmt = .f) → fpValue fmt.wide (encodeFields fmt x) = (valueOf fmt x).toRat := fun e => by
    rw [fpValue, fieldsOf_wide_encodeFields e h, toRat_valueOf_wide e h]
  cases fmt with
  | s => exact spread (.inl rfl)
  | t => exact plain rfl
  | f => exact spread (.inr rfl)
  | g => exact plain rfl
  | d => exact plain rfl

end Encoded

/-! ### The number a rounded magnitude stands for (46 R373) -/

/-- The rounded magnitude with the sign of the number. -/
def roundedValue (x : Dyadic) (r : Rounded) : ℚ := signedBy (decide (x.toRat < 0)) (r.n * (2 : ℚ) ^ r.q)

theorem abs_roundedValue (x : Dyadic) (r : Rounded) : |roundedValue x r| = r.n * (2 : ℚ) ^ r.q :=
  abs_signedBy _ (by positivity)

section Rounding

variable {mode : RoundMode} {x : Dyadic} {q k : ℤ} {r : Rounded}

theorem IsRounding.roundsOnGrid (h : IsRounding mode x q r) (hx : x.m ≠ 0) :
    RoundsOnGrid mode ((2 : ℚ) ^ q) x.toRat (roundedValue x r) := by
  obtain ⟨rfl, hrint, -⟩ := h
  refine ⟨r.n, by simp only [roundedValue, signedBy, decide_eq_true_eq], ?_⟩
  have hpos : 0 < x.toRat ↔ ¬ x.toRat < 0 :=
    ⟨fun h => h.not_gt, fun h => lt_of_le_of_ne (not_lt.1 h) (Ne.symm (mt (Dyadic.toRat_eq_zero x).1 hx))⟩
  cases mode with
  | chop => exact hrint
  | minf => 
    refine hrint.trans ?_
    simp only [decide_eq_true_eq, hpos, ite_not]
  | pinf =>
    refine hrint.trans ?_
    simp only [decide_eq_true_eq, hpos, ite_not]
  | near => exact hrint
  | vaxAway => exact hrint

/-- A rounding is marked inexact exactly if it is another number. -/
theorem IsRounding.inexact_eq (h : IsRounding mode x q r) : r.inexact = decide (roundedValue x r ≠ x.toRat) := by
  obtain ⟨rfl, -, hexact⟩ := h
  have hval : roundedValue x r = x.toRat ↔ (r.n : ℚ) = |x.toRat| / (2 : ℚ) ^ r.q := by
    rw [eq_div_iff (by positivity), ← signedBy_inj (negative := decide (x.toRat < 0)) (w := |x.toRat|),
      signedBy_decide_neg]
    rfl
  rw [Bool.eq_iff_iff, decide_eq_true_iff, ne_eq, hval, ← hexact, Bool.not_eq_false]

/-- A power of two from the unit on is a multiple of the unit. -/
theorem exists_two_zpow_eq_natCast_mul (hq : q ≤ k) : ∃ n : ℕ, (2 : ℚ) ^ k = n * (2 : ℚ) ^ q := by
  obtain ⟨n, hn⟩ := Int.eq_ofNat_of_zero_le (sub_nonneg.2 hq)
  refine ⟨2 ^ n, ?_⟩
  rw [← sub_add_cancel k q, hn, zpow_add₀ two_ne_zero, zpow_natCast, Nat.cast_pow, Nat.cast_ofNat]

/-- Rounding does not cross a power of two that lies on the grid, from above, -/
theorem IsRounding.pow_le (h : IsRounding mode x q r) (hq : q ≤ k) (hk : (2 : ℚ) ^ k ≤ |x.toRat|) :
    (2 : ℚ) ^ k ≤ |roundedValue x r| := by
  obtain ⟨rfl, hrint, -⟩ := h
  obtain ⟨n, hpow⟩ := exists_two_zpow_eq_natCast_mul hq
  rw [abs_roundedValue, hpow, mul_le_mul_iff_left₀ (by positivity), Nat.cast_le]
  exact hrint.le_of_natCast_le (by rwa [le_div_iff₀ (by positivity), ← hpow])

/-- and from below. -/
theorem IsRounding.le_pow (h : IsRounding mode x q r) (hq : q ≤ k) (hk : |x.toRat| ≤ (2 : ℚ) ^ k) :
    |roundedValue x r| ≤ (2 : ℚ) ^ k := by
  obtain ⟨rfl, hrint, -⟩ := h
  obtain ⟨n, hpow⟩ := exists_two_zpow_eq_natCast_mul hq
  rw [abs_roundedValue, hpow, mul_le_mul_iff_left₀ (by positivity), Nat.cast_le]
  exact hrint.le_of_le_natCast (by rwa [div_le_iff₀ (by positivity), ← hpow])

/-- A number on the grid is its own rounding. -/
theorem IsRounding.eq_of_natCast (h : IsRounding mode x q r) {n : ℕ} (hn : |x.toRat| = n * (2 : ℚ) ^ q) :
    roundedValue x r = x.toRat := by
  obtain ⟨rfl, hrint, -⟩ := h
  rw [hn, mul_div_cancel_right₀ _ (by positivity)] at hrint
  rw [roundedValue, hrint.eq_of_natCast, ← hn, signedBy_decide_neg]

end Rounding

/-! ### Rounding to the precision of a format (46 R373) -/

section Precision

variable {mode : RoundMode} {x : Dyadic} {k : ℤ} {fb : ℕ}

theorem Dyadic.precGrid_succ (x : Dyadic) (fb : ℕ) : x.precGrid (fb + 1) = x.exponent - fb := by
  simp [Dyadic.precGrid]

/-- The logarithm is the only integer whose powers of two enclose the magnitude. -/
theorem Dyadic.exponent_eq (hx : x.m ≠ 0) (h1 : (2 : ℚ) ^ k ≤ |x.toRat|) (h2 : |x.toRat| < (2 : ℚ) ^ (k + 1)) :
    x.exponent = k := by
  obtain ⟨hlo, hhi⟩ := Dyadic.exponent_spec hx
  have := lt_of_two_zpow_lt (h1.trans_lt hhi)
  have := lt_of_two_zpow_lt (hlo.trans_lt h2)
  omega

theorem roundsToPrec_roundPrec (hx : x.m ≠ 0) :
    RoundsToPrec mode (fb + 1) x.toRat (roundedValue x (roundPrec mode (fb + 1) x)) :=
  have ⟨hlo, hhi⟩ := Dyadic.precGrid_spec hx (Nat.le_add_left 1 fb)
  ⟨x.precGrid (fb + 1), hlo, hhi, (isRounding_roundPrec mode (fb + 1) x).roundsOnGrid hx⟩

/-- The rounded magnitude has `fb + 1` bits, or is the power of two above. -/
theorem roundPrec_n_bounds (hx : x.m ≠ 0) :
    2 ^ fb ≤ (roundPrec mode (fb + 1) x).n ∧ (roundPrec mode (fb + 1) x).n ≤ 2 ^ (fb + 1) := by
  obtain ⟨hlo, hhi⟩ := Dyadic.precGrid_spec hx (Nat.le_add_left 1 fb)
  have hrint := (isRounding_roundPrec mode (fb + 1) x).isRint
  exact ⟨hrint.le_of_natCast_le (by exact_mod_cast hlo), hrint.le_of_le_natCast (by exact_mod_cast hhi.le)⟩

theorem roundPrec_n_ne_zero (hx : x.m ≠ 0) : (roundPrec mode (fb + 1) x).n ≠ 0 :=
  (Nat.two_pow_pos fb).trans_le (roundPrec_n_bounds hx).1 |>.ne'

theorem pow_le_roundPrec (hx : x.m ≠ 0) (hk : (2 : ℚ) ^ k ≤ |x.toRat|) :
    (2 : ℚ) ^ k ≤ |roundedValue x (roundPrec mode (fb + 1) x)| := by
  obtain ⟨hlo, hhi⟩ := Dyadic.exponent_spec hx
  have hkE : k ≤ x.exponent := by have := lt_of_two_zpow_lt (hk.trans_lt hhi); omega
  refine (zpow_le_zpow_right₀ one_le_two hkE).trans ((isRounding_roundPrec mode (fb + 1) x).pow_le ?_ hlo)
  rw [Dyadic.precGrid_succ]; omega

theorem roundPrec_le_pow (hx : x.m ≠ 0) (hk : |x.toRat| < (2 : ℚ) ^ k) :
    |roundedValue x (roundPrec mode (fb + 1) x)| ≤ (2 : ℚ) ^ k := by
  obtain ⟨hlo, hhi⟩ := Dyadic.exponent_spec hx
  have hkE : x.exponent + 1 ≤ k := by have := lt_of_two_zpow_lt (hlo.trans_lt hk); omega
  refine ((isRounding_roundPrec mode (fb + 1) x).le_pow ?_ hhi.le).trans (zpow_le_zpow_right₀ one_le_two hkE)
  rw [Dyadic.precGrid_succ]; omega

/-- A number that a finite value of the format stands for is its own rounding. -/
theorem roundPrec_of_fpValue {fmt : FpFormat} {z : Word} (hz : fpClass fmt z = .finite) (hx : fpValue fmt z = x.toRat)
    (hm : x.m ≠ 0) : roundedValue x (roundPrec mode (fmt.fracBits + 1) x) = x.toRat := by
  have habs := congrArg abs hx
  rw [fpValue, toRat_valueOf_finite hz, abs_signedBy _ (by positivity)] at habs
  have hexp := Dyadic.exponent_eq hm (habs ▸ pow_le_significand _ _)
    (habs ▸ significand_lt_pow (fieldsOf_frac_lt fmt z) _)
  refine (isRounding_roundPrec mode (fmt.fracBits + 1) x).eq_of_natCast (n := 2 ^ fmt.fracBits + (fieldsOf fmt z).frac) ?_
  rw [← habs, Dyadic.precGrid_succ, hexp, add_sub_cancel_left]

end Precision

/-! ### Exponent and fraction of a rounded magnitude (46 R373) -/

section Magnitude

variable {x : Dyadic} {r : Rounded} {k : ℤ} {fb : ℕ}

theorem Rounded.exponent_spec (hn : r.n ≠ 0) :
    (2 : ℚ) ^ r.exponent ≤ r.n * (2 : ℚ) ^ r.q ∧ r.n * (2 : ℚ) ^ r.q < (2 : ℚ) ^ (r.exponent + 1) :=
  have h := Dyadic.exponent_spec (x := ⟨r.n, r.q⟩) (Int.natCast_ne_zero.2 hn)
  (Dyadic.abs_toRat ⟨r.n, r.q⟩) ▸ h

theorem pow_le_roundedValue_iff (hn : r.n ≠ 0) : (2 : ℚ) ^ k ≤ |roundedValue x r| ↔ k ≤ r.exponent := by
  obtain ⟨hlo, hhi⟩ := Rounded.exponent_spec hn
  rw [abs_roundedValue]
  refine ⟨fun h => ?_, fun h => (zpow_le_zpow_right₀ one_le_two h).trans hlo⟩
  have := lt_of_two_zpow_lt (h.trans_lt hhi)
  omega

theorem roundedValue_lt_pow_iff (hn : r.n ≠ 0) : |roundedValue x r| < (2 : ℚ) ^ k ↔ r.exponent < k := by
  rw [← not_le, pow_le_roundedValue_iff hn, not_le]

/-- The fraction completes the significand at the magnitude's exponent. -/
theorem Rounded.fraction_spec (hlo : 2 ^ fb ≤ r.n) (hhi : r.n ≤ 2 ^ (fb + 1)) : r.fraction fb < 2 ^ fb ∧
    ((2 ^ fb + r.fraction fb : ℕ) : ℚ) * (2 : ℚ) ^ (r.exponent - fb) = r.n * (2 : ℚ) ^ r.q := by
  have hpos : 0 < 2 ^ fb := by positivity
  rcases hhi.lt_or_eq with hlt | heq
  · have hlog : r.n.log2 = fb := (Nat.log2_eq_iff (by omega)).2 ⟨hlo, hlt⟩
    have hfrac : r.fraction fb = r.n - 2 ^ fb := by rw [Rounded.fraction, hlog, Nat.mul_div_cancel _ hpos]
    rw [hfrac, Rounded.exponent, hlog, Nat.add_sub_of_le hlo, add_sub_cancel_left]
    rw [pow_succ] at hlt
    exact ⟨by omega, rfl⟩
  · have hlog : r.n.log2 = fb + 1 := by rw [heq, Nat.log2_two_pow]
    have hfrac : r.fraction fb = 0 := by
      rw [Rounded.fraction, hlog, heq, Nat.mul_div_cancel_left _ (by positivity), Nat.sub_self]
    rw [hfrac, Rounded.exponent, hlog, add_zero, heq, Nat.cast_succ, add_assoc, add_sub_cancel_left,
      zpow_add₀ two_ne_zero, pow_succ]
    refine ⟨hpos, ?_⟩
    push_cast
    ring

end Magnitude

end Sys2Proof.Machine
end

section
/-!
O52: the finite part of `ieee_arith` and of `vax_arith` by the range the rounded result lies in, and from it the exact
results and the VAX results (46_floating_point R371, R375, R376).
-/

namespace Sys2Proof.Machine

/-! ### The register value of a rounded result (46 R373) -/

section Written

variable {mode : RoundMode} {fmt : FpFormat} {x : Dyadic} {e : ℕ}

/-- In the exponent range of the format the register value written stands for the rounded result, in both views. -/
theorem encode_rounded (hx : x.m ≠ 0) {r : Rounded} (hr : r = roundPrec mode (fmt.fracBits + 1) x)
    (he : (e : ℤ) = r.exponent + fmt.expOne) (hpos : 1 ≤ e) (hle : e ≤ fmt.lastExp) {v : Word}
    (hv : v = encodeFields fmt ⟨decide (x.m < 0), e, r.fraction fmt.fracBits⟩) :
    fpClass fmt v = .finite ∧ fpValue fmt v = roundedValue x r ∧ fpValue fmt.wide v = roundedValue x r := by
  subst hr hv
  rw [← decide_eq_decide.2 (Dyadic.toRat_neg_iff x)]
  obtain ⟨hlo, hhi⟩ := roundPrec_n_bounds (mode := mode) (fb := fmt.fracBits) hx
  obtain ⟨hfrac, hval⟩ := Rounded.fraction_spec hlo hhi
  have hfin : FiniteFields fmt ⟨decide (x.toRat < 0), e, Rounded.fraction _ _⟩ := ⟨hpos, hle, hfrac⟩
  have hmax := hle.trans fmt.lastExp_le
  have hvalue := toRat_valueOf_finite hfin.classify_eq
  rw [he, add_sub_cancel_right, hval] at hvalue
  rw [fpClass_encodeFields hmax hfrac, fpValue_encodeFields hmax hfrac, fpValue_wide_encodeFields hfin]
  exact ⟨hfin.classify_eq, hvalue, hvalue⟩

end Written

/-! ### VAX results (46 R376) -/

section Vax

variable {tie : VaxTie} {fn : BitVec 11} {fmt : FpFormat} {op : FpOp} {u v : Dyadic}

theorem vaxFinite_of_zero (h : (exactResult op u v).m = 0) : vaxFinite tie fn fmt op u v = .exit {} {} 0 :=
  if_pos h

/-- Beyond zero the exponent field of the rounded result decides. -/
theorem vaxFinite_of_ne_zero (hfmt : fmt.isIeee = false) {x : Dyadic} (hr : x = exactResult op u v) (hx : x.m ≠ 0)
    {r : Rounded} (hrd : r = roundPrec (vaxMode tie fn) (fmt.fracBits + 1) x) : vaxFinite tie fn fmt op u v =
      if (fmt.lastExp : ℤ) < r.exponent + fmt.expOne then .exit { overflow := true } { overflow := true } 0
      else if r.exponent + fmt.expOne < 1 then
        if fn.getLsbD 8 then .exit { underflow := true } { underflow := true } 0 else .exit {} {} 0
      else .exit {} {} (encodeFields fmt
        ⟨decide (x.m < 0), (r.exponent + fmt.expOne).toNat, r.fraction fmt.fracBits⟩) := by
  subst hr hrd
  have hlast : fmt.lastExp = fmt.maxField := by rw [FpFormat.lastExp, hfmt]; rfl
  have hone : ∀ k : ℤ, k + fmt.expOne = k + 1 + fmt.bias := fun k => by
    rw [FpFormat.expOne, hfmt]; exact (add_comm fmt.bias 1) ▸ (add_assoc k 1 fmt.bias).symm
  rw [hlast, hone]
  exact if_neg hx

variable (hfmt : fmt.isIeee = false) {x : Dyadic} (hr : x = exactResult op u v) (hx : x.m ≠ 0) {r : Rounded}
  (hrd : r = roundPrec (vaxMode tie fn) (fmt.fracBits + 1) x)
include hfmt hr hx hrd

theorem vaxFinite_overflow (h : (2 : ℚ) ^ (fmt.lastExp + 1 - fmt.expOne) ≤ |roundedValue x r|) :
    vaxFinite tie fn fmt op u v = .exit { overflow := true } { overflow := true } 0 := by
  rw [pow_le_roundedValue_iff (hrd ▸ roundPrec_n_ne_zero hx)] at h
  rw [vaxFinite_of_ne_zero hfmt hr hx hrd, if_pos (by omega)]

theorem vaxFinite_underflow (h : |roundedValue x r| < (2 : ℚ) ^ (1 - fmt.expOne)) : vaxFinite tie fn fmt op u v =
    if fn.getLsbD 8 then .exit { underflow := true } { underflow := true } 0 else .exit {} {} 0 := by
  rw [roundedValue_lt_pow_iff (hrd ▸ roundPrec_n_ne_zero hx)] at h
  rw [vaxFinite_of_ne_zero hfmt hr hx hrd, if_neg (by omega), if_pos (by omega)]

theorem vaxFinite_normal (hlo : (2 : ℚ) ^ (1 - fmt.expOne) ≤ |roundedValue x r|)
    (hhi : |roundedValue x r| < (2 : ℚ) ^ (fmt.lastExp + 1 - fmt.expOne)) :
    ∃ w, vaxFinite tie fn fmt op u v = .exit {} {} w ∧
      fpClass fmt w = .finite ∧ fpValue fmt w = roundedValue x r ∧ fpValue fmt.wide w = roundedValue x r := by
  rw [pow_le_roundedValue_iff (hrd ▸ roundPrec_n_ne_zero hx)] at hlo
  rw [roundedValue_lt_pow_iff (hrd ▸ roundPrec_n_ne_zero hx)] at hhi
  rw [vaxFinite_of_ne_zero hfmt hr hx hrd, if_neg (by omega), if_neg (by omega)]
  exact ⟨_, rfl, encode_rounded hx hrd (Int.toNat_of_nonneg (by omega)) (by omega) (by omega) rfl⟩

end Vax

/-! ### IEEE results (46 R371, R375) -/

section Ieee

variable {fpcr : Word} {fn : BitVec 11} {fmt : FpFormat} {op : FpOp} {sa sb : Bool} {u v : Dyadic}

/-- Whether an inexact result is enabled to trap (46 R369). -/
def inexactOn (fpcr : Word) (fn : BitVec 11) : Bool := inexactQualifier fn && !fpcr.getLsbD 62

/-- Beyond zero the exponent of the rounded result decides. -/
theorem ieeeFinite_of_ne_zero (hfmt : fmt ∈ [.s, .t]) {x : Dyadic} (hr : x = exactResult op u v) (hx : x.m ≠ 0)
    {r : Rounded} (hrd : r = roundPrec (ieeeMode fpcr fn) (fmt.fracBits + 1) x) : ieeeFinite fpcr fn fmt op sa sb u v =
      if (fmt.lastExp : ℤ) < r.exponent + fmt.expOne then
        .exit { overflow := true, inexact := true }
          { overflow := !fpcr.getLsbD 51, inexact := inexactOn fpcr fn }
          (overflowDefault fmt (ieeeMode fpcr fn) (decide (x.m < 0)))
      else if r.exponent + fmt.expOne < 1 then ieeeUnderflow fpcr fn fmt (ieeeMode fpcr fn) x r.inexact
      else .exit { inexact := r.inexact } { inexact := r.inexact && inexactOn fpcr fn } (encodeFields fmt
        ⟨decide (x.m < 0), (r.exponent + fmt.expOne).toNat, r.fraction fmt.fracBits⟩) := by
  subst hr hrd
  have hone : fmt.expOne = fmt.bias := by rw [FpFormat.expOne, if_pos (isIeee_of_mem hfmt), add_zero]
  have hlast : (fmt.lastExp : ℤ) = fmt.bias + fmt.bias := by revert fmt; decide
  have hover : ∀ k : ℤ, fmt.bias + 1 ≤ k ↔ (fmt.lastExp : ℤ) < k + fmt.expOne := fun k => by omega
  have hunder : ∀ k : ℤ, k < 1 - fmt.bias ↔ k + fmt.expOne < 1 := fun k => by omega
  refine (if_neg hx).trans ?_
  simp only [hover, hunder, hone]
  rfl

/-- The sign of the zero that operands of the given signs and values give (46 R375). -/
def zeroSign (mode : RoundMode) (op : FpOp) (sa sb : Bool) (u v : ℚ) : Bool :=
  match op with
  | .mul => sa != sb
  | .add => if u = 0 ∧ v = 0 ∧ sa = sb then sa else decide (mode = .minf)

theorem ieeeFinite_of_zero (h : (exactResult op u v).m = 0) : ieeeFinite fpcr fn fmt op sa sb u v =
    .exit {} {} (signedZero (zeroSign (ieeeMode fpcr fn) op sa sb u.toRat v.toRat)) := by
  refine (if_pos h).trans (congrArg (fun sign => FpAnswer.exit {} {} (signedZero sign)) ?_)
  cases op with
  | add => exact if_congr (by rw [Dyadic.toRat_eq_zero, Dyadic.toRat_eq_zero]) rfl rfl
  | mul => rfl

variable (hfmt : fmt ∈ [.s, .t]) {x : Dyadic} (hr : x = exactResult op u v) (hx : x.m ≠ 0) {r : Rounded}
  (hrd : r = roundPrec (ieeeMode fpcr fn) (fmt.fracBits + 1) x)
include hfmt hr hx hrd

theorem ieeeFinite_overflow (h : (2 : ℚ) ^ (fmt.lastExp + 1 - fmt.expOne) ≤ |roundedValue x r|) :
    ieeeFinite fpcr fn fmt op sa sb u v = .exit { overflow := true, inexact := true }
      { overflow := !fpcr.getLsbD 51, inexact := inexactOn fpcr fn }
      (overflowDefault fmt (ieeeMode fpcr fn) (decide (x.m < 0))) := by
  rw [pow_le_roundedValue_iff (hrd ▸ roundPrec_n_ne_zero hx)] at h
  rw [ieeeFinite_of_ne_zero hfmt hr hx hrd, if_pos (by omega)]

theorem ieeeFinite_underflow (h : |roundedValue x r| < (2 : ℚ) ^ (1 - fmt.expOne)) :
    ieeeFinite fpcr fn fmt op sa sb u v =
      ieeeUnderflow fpcr fn fmt (ieeeMode fpcr fn) x (decide (roundedValue x r ≠ x.toRat)) := by
  have hinexact := (isRounding_roundPrec (ieeeMode fpcr fn) (fmt.fracBits + 1) x).inexact_eq
  rw [roundedValue_lt_pow_iff (hrd ▸ roundPrec_n_ne_zero hx)] at h
  rw [ieeeFinite_of_ne_zero hfmt hr hx hrd, if_neg (by omega), if_pos (by omega), hrd, hinexact]

theorem ieeeFinite_normal (hlo : (2 : ℚ) ^ (1 - fmt.expOne) ≤ |roundedValue x r|)
    (hhi : |roundedValue x r| < (2 : ℚ) ^ (fmt.lastExp + 1 - fmt.expOne)) :
    ∃ w, ieeeFinite fpcr fn fmt op sa sb u v = .exit { inexact := decide (roundedValue x r ≠ x.toRat) }
        { inexact := decide (roundedValue x r ≠ x.toRat) && inexactOn fpcr fn } w ∧
      fpClass fmt w = .finite ∧ fpValue fmt w = roundedValue x r ∧ fpValue fmt.wide w = roundedValue x r := by
  have hinexact := (isRounding_roundPrec (ieeeMode fpcr fn) (fmt.fracBits + 1) x).inexact_eq
  rw [← hrd] at hinexact
  rw [pow_le_roundedValue_iff (hrd ▸ roundPrec_n_ne_zero hx)] at hlo
  rw [roundedValue_lt_pow_iff (hrd ▸ roundPrec_n_ne_zero hx)] at hhi
  rw [ieeeFinite_of_ne_zero hfmt hr hx hrd, if_neg (by omega), if_neg (by omega), ← hinexact]
  exact ⟨_, rfl, encode_rounded hx hrd (Int.toNat_of_nonneg (by omega)) (by omega) (by omega) rfl⟩

end Ieee

/-! ### Operands of the finite part (46 R370, R375, R376) -/

section Operands

variable {fpcr : Word} {fn : BitVec 11} {tie : VaxTie} {fmt : FpFormat} {op : FpOp} {a b : Word}

/-- The exact number an operand of IEEE arithmetic counts as. -/
def ieeeOperand (fpcr : Word) (fmt : FpFormat) (v : Word) : Dyadic :=
  valueOf fmt (denormalFlushed fpcr fmt (fieldsOf fmt v))

/-- An operand that reaches the finite part: a number, a denormal one only if `DNZ` or `DNOD` lets it through. -/
def IsNumberOperand (fpcr : Word) (fmt : FpFormat) (v : Word) : Prop :=
  fpClass fmt v ∈ [.finite, .zero] ∨ (fpClass fmt v = .denormal ∧ (fpcr.getLsbD 48 = true ∨ fpcr.getLsbD 47 = true))

theorem toRat_ieeeOperand (hfmt : fmt ∈ [.s, .t]) (v : Word) : (ieeeOperand fpcr fmt v).toRat =
    if fpClass fmt v = .denormal ∧ fpcr.getLsbD 48 = true then 0 else fpValue fmt v := by
  have hclass := classify_operand hfmt fpcr v
  unfold operandClass at hclass
  split
  · next h =>
    rw [if_pos h] at hclass
    exact toRat_valueOf_other (by rw [hclass]; decide) (by rw [hclass]; decide)
  · next h =>
    have hsame : denormalFlushed fpcr fmt (fieldsOf fmt v) = fieldsOf fmt v :=
      if_neg fun hc => h (by simpa [fpClass, fpcrBit, fpcrDNZ] using hc)
    rw [ieeeOperand, hsame, fpValue]

theorem ieeeArith_of_numbers (hfmt : fmt ∈ [.s, .t]) (ha : IsNumberOperand fpcr fmt a)
    (hb : IsNumberOperand fpcr fmt b) : ieeeArith fpcr fn fmt op a b =
      ieeeFinite fpcr fn fmt op a.msb b.msb (ieeeOperand fpcr fmt a) (ieeeOperand fpcr fmt b) := by
  have hpass : (fpClass fmt a ≠ .denormal ∧ fpClass fmt b ≠ .denormal) ∨
      fpcr.getLsbD 48 = true ∨ fpcr.getLsbD 47 = true := by
    rcases ha with ha | ha
    · rcases hb with hb | hb
      · exact .inl ⟨fun e => by simp [e] at ha, fun e => by simp [e] at hb⟩
      · exact .inr hb.2
    · exact .inr ha.2
  have number : ∀ {v}, IsNumberOperand fpcr fmt v →
      classify fmt (denormalFlushed fpcr fmt (fieldsOf fmt v)) ≠ .notANumber ∧
      classify fmt (denormalFlushed fpcr fmt (fieldsOf fmt v)) ≠ .infinity := by
    intro v hv
    rw [classify_operand hfmt, ne_eq, ne_eq, operandClass_eq_notANumber_iff, operandClass_eq_infinity_iff]
    rcases hv with hv | ⟨hv, -⟩
    · exact ⟨fun e => by simp [e] at hv, fun e => by simp [e] at hv⟩
    · rw [hv]; decide
  obtain ⟨han, hai⟩ := number ha
  obtain ⟨hbn, hbi⟩ := number hb
  rw [ieeeArith_of_passes hpass]
  refine (if_neg (not_or.2 ⟨han, hbn⟩)).trans ((if_neg (not_or.2 ⟨hai, hbi⟩)).trans ?_)
  rw [denormalFlushed_sign, denormalFlushed_sign, fieldsOf_sign, fieldsOf_sign]
  rfl

theorem vaxArith_of_numbers (ha : fpClass fmt a ∈ [.finite, .zero]) (hb : fpClass fmt b ∈ [.finite, .zero]) :
    vaxArith tie fn fmt op a b =
      vaxFinite tie fn fmt op (valueOf fmt (fieldsOf fmt a)) (valueOf fmt (fieldsOf fmt b)) := by
  have legal : ∀ {v}, fpClass fmt v ∈ [.finite, .zero] → fpClass fmt v ∉ [.reserved, .dirtyZero] := by
    intro v
    generalize fpClass fmt v = c
    revert c
    decide
  refine if_neg fun h => ?_
  rw [Bool.or_eq_true, vaxIllegal_iff, vaxIllegal_iff] at h
  exact h.elim (legal ha) (legal hb)

end Operands

/-! ### Exact results (46 R375, R376) -/

section Exact

variable {fmt : FpFormat} {z w : Word}

theorem FpFormat.wide_mem (fmt : FpFormat) : fmt.wide ∈ [.t, .g, .d] := by
  cases fmt <;> decide

theorem FpFormat.expOne_le_wide (fmt : FpFormat) : fmt.expOne ≤ fmt.wide.expOne := by
  cases fmt <;> decide

/-- A finite number in the register layout of the format's results has one register value. -/
theorem eq_of_fpValue_wide_eq (hz : fpClass fmt z = .finite) (hzw : fpValue fmt.wide z = fpValue fmt z)
    (h : fpValue fmt.wide w = fpValue fmt z) : w = z := by
  have hfin : fpClass fmt.wide z = .finite :=
    fpClass_finite_of_pow_le <| hzw ▸ (zpow_le_zpow_right₀ one_le_two (by have := fmt.expOne_le_wide; omega)).trans
      (pow_le_abs_fpValue hz)
  exact (eq_of_fpValue_eq fmt.wide_mem hfin (hzw.trans h.symm)).symm

variable {fn : BitVec 11} {op : FpOp} {u v x : Dyadic}

theorem ne_zero_of_fpValue (hz : fpClass fmt z = .finite) (hx : fpValue fmt z = x.toRat) : x.m ≠ 0 := by
  intro hm
  have := pow_le_abs_fpValue hz
  rw [hx, (Dyadic.toRat_eq_zero x).2 hm, abs_zero] at this
  exact absurd this (not_le.2 (by positivity))

theorem ieeeFinite_exact (hfmt : fmt ∈ [.s, .t]) (hr : x = exactResult op u v) (hz : fpClass fmt z = .finite)
    (hx : fpValue fmt z = x.toRat) (hzw : fpValue fmt.wide z = x.toRat) (fpcr : Word) (sa sb : Bool) :
    ieeeFinite fpcr fn fmt op sa sb u v = .exit {} {} z := by
  have hm := ne_zero_of_fpValue hz hx
  have hy := roundPrec_of_fpValue (mode := ieeeMode fpcr fn) hz hx hm
  obtain ⟨w, hw, -, -, hww⟩ := ieeeFinite_normal (sa := sa) (sb := sb) hfmt hr hm rfl
    (by rw [hy, ← hx]; exact pow_le_abs_fpValue hz) (by rw [hy, ← hx]; exact abs_fpValue_lt_pow hz)
  rw [hw, eq_of_fpValue_wide_eq hz (hzw.trans hx.symm) (hww.trans (hy.trans hx.symm)),
    decide_eq_false (not_not.2 hy)]
  rfl

theorem vaxFinite_exact (hfmt : fmt.isIeee = false) (hr : x = exactResult op u v) (hz : fpClass fmt z = .finite)
    (hx : fpValue fmt z = x.toRat) (hzw : fpValue fmt.wide z = x.toRat) (tie : VaxTie) :
    vaxFinite tie fn fmt op u v = .exit {} {} z := by
  have hm := ne_zero_of_fpValue hz hx
  have hy := roundPrec_of_fpValue (mode := vaxMode tie fn) hz hx hm
  obtain ⟨w, hw, -, -, hww⟩ := vaxFinite_normal hfmt hr hm rfl
    (by rw [hy, ← hx]; exact pow_le_abs_fpValue hz) (by rw [hy, ← hx]; exact abs_fpValue_lt_pow hz)
  rw [hw, eq_of_fpValue_wide_eq hz (hzw.trans hx.symm) (hww.trans (hy.trans hx.symm))]

end Exact

/-- The mode of a VAX instruction (46 R368, R376). -/
theorem vaxMode_eq (tie : VaxTie) (fn : BitVec 11) : vaxMode tie fn =
    if fn.extractLsb' 6 2 = 0b00#2 then .chop else if tie = .away then .vaxAway else .near := by
  cases tie <;> rfl

/-- What VAX sums and products give, by the range of the rounded result (46 R376). -/
theorem vaxFinite_ranges {fmt : FpFormat} (hfmt : fmt.isIeee = false) {op : FpOp} {u v x : Dyadic}
    (hr : x = exactResult op u v) (hx : x.m ≠ 0) (tie : VaxTie) (fn : BitVec 11) :
    ∃ y, RoundsToPrec (vaxMode tie fn) (fmt.fracBits + 1) x.toRat y ∧
      ((2 : ℚ) ^ (fmt.lastExp + 1 - fmt.expOne) ≤ |y| →
        ∃ w, vaxFinite tie fn fmt op u v = .exit { overflow := true } { overflow := true } w) ∧
      (|y| < (2 : ℚ) ^ (1 - fmt.expOne) →
        (fn.getLsbD 8 = true → ∃ w, vaxFinite tie fn fmt op u v =
          .exit { underflow := true } { underflow := true } w) ∧
        (fn.getLsbD 8 = false → vaxFinite tie fn fmt op u v = .exit {} {} 0)) ∧
      ((2 : ℚ) ^ (1 - fmt.expOne) ≤ |y| → |y| < (2 : ℚ) ^ (fmt.lastExp + 1 - fmt.expOne) →
        ∃ w, vaxFinite tie fn fmt op u v = .exit {} {} w ∧
          fpClass fmt w = .finite ∧ fpValue fmt w = y ∧ fpValue fmt.wide w = y) := by
  refine ⟨_, roundsToPrec_roundPrec hx, fun h => ⟨_, vaxFinite_overflow hfmt hr hx rfl h⟩, fun h => ?_,
    vaxFinite_normal hfmt hr hx rfl⟩
  rw [vaxFinite_underflow hfmt hr hx rfl h]
  exact ⟨fun hu => ⟨_, if_pos hu⟩, fun hu => if_neg (by rw [hu]; exact Bool.false_ne_true)⟩

theorem wide_of_mem {fmt : FpFormat} (h : fmt ∈ [.s, .t]) : fmt.wide = .t := by
  revert fmt; decide

theorem isIeee_of_mem_vax {fmt : FpFormat} (h : fmt ∈ [.f, .g, .d]) : fmt.isIeee = false := by
  revert fmt; decide

/-- Precision and exponent range of the VAX formats, written out (46 R363 to R365). -/
theorem vax_parameters {fmt : FpFormat} {p : ℕ} {hi lo : ℤ}
    (h : (fmt = .f ∧ p = 24 ∧ hi = 255 - 128 ∧ lo = -128) ∨ (fmt = .g ∧ p = 53 ∧ hi = 2047 - 1024 ∧ lo = -1024) ∨
      (fmt = .d ∧ p = 56 ∧ hi = 255 - 128 ∧ lo = -128)) :
    fmt.isIeee = false ∧ p = fmt.fracBits + 1 ∧ hi = fmt.lastExp + 1 - fmt.expOne ∧ lo = 1 - fmt.expOne ∧
      (fmt ≠ .d → fmt.wide = .g) := by
  rcases h with ⟨rfl, rfl, rfl, rfl⟩ | ⟨rfl, rfl, rfl, rfl⟩ | ⟨rfl, rfl, rfl, rfl⟩ <;> decide

/-- Settles O52: an exact result is its own rounding, and a finite number has one register value in the layout of the
results; the VAX answer goes by the range of the rounded result. -/
theorem exactAndVaxResults : Obligations.ExactAndVaxResults := by
  intro fmt op a b x fn ha hb hx
  obtain ⟨r, hr⟩ : ∃ r, r = exactResult op (valueOf fmt (fieldsOf fmt a)) (valueOf fmt (fieldsOf fmt b)) := ⟨_, rfl⟩
  have hrx : x = r.toRat := by rw [hr, exactResult_toRat]; exact hx
  subst hrx
  refine ⟨fun z hz hzx => ⟨fun hfmt hzt fpcr => ?_, fun hfmt hzg tie => ?_⟩, ?_⟩
  · have number : ∀ {v}, fpClass fmt v ∈ [.finite, .zero] → (ieeeOperand fpcr fmt v) = valueOf fmt (fieldsOf fmt v) :=
      fun {v} hv => congrArg (valueOf fmt) (denormalFlushed_of_ne fun e => by simp [fpClass, e] at hv)
    rw [ieeeArith_of_numbers hfmt (.inl ha) (.inl hb), number ha, number hb]
    exact ieeeFinite_exact hfmt hr hz hzx (wide_of_mem hfmt ▸ hzt) fpcr _ _
  · have hwide : fpValue fmt.wide z = r.toRat := by
      have : fmt = .f ∨ fmt = .g ∨ fmt = .d := by simpa using hfmt
      rcases this with rfl | rfl | rfl
      · exact hzg nofun
      · exact hzg nofun
      · exact hzx
    rw [vaxArith_of_numbers ha hb, vaxFinite_exact (isIeee_of_mem_vax hfmt) hr hz hzx hwide]
  · rintro tie mode p hi lo hfmt rfl
    obtain ⟨hvax, hp, hhi, hlo, hwide⟩ := vax_parameters hfmt
    rw [vaxArith_of_numbers ha hb, ← vaxMode_eq, hp, hhi, hlo, Dyadic.toRat_eq_zero, ne_eq, Dyadic.toRat_eq_zero]
    refine ⟨fun hx => vaxFinite_of_zero (hr ▸ hx), fun hx => ?_⟩
    obtain ⟨y, hround, hover, hunder, hnormal⟩ := vaxFinite_ranges hvax hr hx tie fn
    refine ⟨y, hround, hover, hunder, fun h1 h2 => ?_⟩
    obtain ⟨w, hw, hfin, hval, hvalw⟩ := hnormal h1 h2
    exact ⟨w, hw, hfin, hval, fun hd => hwide hd ▸ hvalw⟩

end Sys2Proof.Machine
end

section
/-!
O50: what `ieee_arith` answers on numbers, range by range: zeros, overflow, the normal range and the three rows of
underflow; and that without qualifiers and with the disable bits set the four instructions complete
(46_floating_point R368 to R375).
-/

namespace Sys2Proof.Machine

/-! ### Modes and default results (46 R368, R375) -/

theorem ieeeMode_eq (fpcr : Word) (fn : BitVec 11) : ieeeMode fpcr fn =
    (match (if fn.extractLsb' 6 2 = 0b11#2 then fpcr.extractLsb' 58 2 else fn.extractLsb' 6 2).toNat with
      | 0 => .chop
      | 1 => .minf
      | 2 => .near
      | _ => .pinf) := by
  have dyn : ∀ c : BitVec 2, dynMode c =
      (match c.toNat with
        | 0 => .chop
        | 1 => .minf
        | 2 => .near
        | _ => .pinf) := by decide
  exact (apply_ite dynMode _ _ _).symm.trans (dyn _)

section Defaults

variable {fmt : FpFormat} {mode : RoundMode} {x : ℚ}

theorem largestFinite_eq (hfmt : fmt ∈ [.s, .t]) (sign : Bool) : largestFinite fmt sign =
    (if sign then 0x8000000000000000#64 else 0) |||
      (if fmt = .s then 0x47EFFFFFE0000000#64 else 0x7FEFFFFFFFFFFFFF#64) := by
  have : ∀ fmt ∈ [.s, .t], ∀ sign, largestFinite fmt sign = (if sign then 0x8000000000000000#64 else 0) |||
      (if fmt = .s then 0x47EFFFFFE0000000#64 else 0x7FEFFFFFFFFFFFFF#64) := by decide
  exact this fmt hfmt sign

/-- The overflow default: an infinity where the mode rounds away on the side of the sign (46 R375). -/
theorem overflowDefault_eq (hfmt : fmt ∈ [.s, .t]) (hx : x ≠ 0) : overflowDefault fmt mode (decide (x < 0)) =
    (if x < 0 then 0x8000000000000000#64 else 0) |||
      (if mode = .near ∨ (mode = .pinf ∧ 0 < x) ∨ (mode = .minf ∧ x < 0) then 0x7FF0000000000000#64
        else if fmt = .s then 0x47EFFFFFE0000000#64 else 0x7FEFFFFFFFFFFFFF#64) := by
  have hpos : 0 < x ↔ decide (x < 0) = false := by
    rw [decide_eq_false_iff_not, not_lt]
    exact ⟨le_of_lt, fun h => lt_of_le_of_ne h hx.symm⟩
  have hneg : x < 0 ↔ decide (x < 0) = true := decide_eq_true_iff.symm
  rw [overflowDefault, signedInfinity_eq hfmt, largestFinite_eq hfmt]
  simp only [hpos]
  generalize decide (x < 0) = neg at *
  simp only [hneg]
  split
  · cases neg <;> rfl
  · rfl

end Defaults

/-! ### The three rows of underflow (46 R371) -/

section Underflow

variable {fpcr : Word} {fn : BitVec 11} {fmt : FpFormat} {mode : RoundMode} {x : Dyadic} {inexact : Bool}

theorem ieeeUnderflow_trap (hu : fn.getLsbD 8 = true) (hd : fpcr.getLsbD 61 = false) :
    ieeeUnderflow fpcr fn fmt mode x inexact = .exit { underflow := true, inexact := inexact }
      { underflow := true, inexact := inexact && inexactOn fpcr fn } 0 :=
  if_pos (by rw [underflowQualifier, hu, fpcrBit, fpcrUNFD, hd]; rfl)

theorem ieeeUnderflow_zero (h : fn.getLsbD 8 = false ∨ (fpcr.getLsbD 61 = true ∧ fpcr.getLsbD 60 = true)) :
    ieeeUnderflow fpcr fn fmt mode x inexact =
      .exit { underflow := true, inexact := true } { inexact := inexactOn fpcr fn } 0 := by
  have off : ∀ n, (fn.getLsbD 8 = false ∨ fpcr.getLsbD n = true) →
      ¬ (underflowQualifier fn && !fpcrBit fpcr n) = true := by
    rintro n (h | h)
    · rw [underflowQualifier, h]; exact Bool.false_ne_true
    · rw [fpcrBit, h, Bool.not_true, Bool.and_false]; exact Bool.false_ne_true
  exact (if_neg (off 61 (h.imp_right And.left))).trans (if_neg (off 60 (h.imp_right And.right)))

/-- The denormal grid of a format. -/
def FpFormat.denormalGrid (fmt : FpFormat) : ℤ := 1 - fmt.bias - fmt.fracBits

/-- The fields written for `n` units of the denormal grid. -/
def denormalFields (fmt : FpFormat) (sign : Bool) (n : ℕ) : FpFields :=
  ⟨sign, n / 2 ^ fmt.fracBits, n % 2 ^ fmt.fracBits⟩

theorem ieeeUnderflow_denormal (hu : fn.getLsbD 8 = true) (hd : fpcr.getLsbD 61 = true) (hz : fpcr.getLsbD 60 = false)
    {g : Rounded} (hg : g = roundGrid mode x fmt.denormalGrid) :
    ieeeUnderflow fpcr fn fmt mode x inexact = .exit { underflow := true, inexact := g.inexact }
      { inexact := g.inexact && inexactOn fpcr fn } (encodeFields fmt (denormalFields fmt (decide (x.m < 0)) g.n)) := by
  subst hg
  refine (if_neg ?_).trans (if_pos ?_)
  · rw [fpcrBit, fpcrUNFD, hd, Bool.not_true, Bool.and_false]; exact Bool.false_ne_true
  · rw [underflowQualifier, hu, fpcrBit, fpcrUNDZ, hz]; rfl

theorem signedBy_zero (sign : Bool) : signedBy sign 0 = 0 := by
  cases sign
  · rfl
  · exact neg_zero

theorem FpFormat.one_le_lastExp (fmt : FpFormat) : 1 ≤ fmt.lastExp := by
  cases fmt <;> decide

/-- Fewer than `2^fracBits` units are a denormal number or a zero. -/
theorem denormalFields_of_lt (sign : Bool) {n : ℕ} (hn : n < 2 ^ fmt.fracBits) :
    denormalFields fmt sign n = ⟨sign, 0, n⟩ := by
  rw [denormalFields, Nat.div_eq_of_lt hn, Nat.mod_eq_of_lt hn]

/-- `2^fracBits` units are the smallest finite number. -/
theorem denormalFields_of_eq (sign : Bool) : denormalFields fmt sign (2 ^ fmt.fracBits) = ⟨sign, 1, 0⟩ := by
  rw [denormalFields, Nat.div_self (by positivity), Nat.mod_self]

/-- Up to `2^fracBits` units the fields stand for that many units. -/
theorem toRat_valueOf_denormalFields (hieee : fmt.isIeee = true) (sign : Bool) {n : ℕ} (hn : n ≤ 2 ^ fmt.fracBits) :
    classify fmt (denormalFields fmt sign n) ∈ [.zero, .denormal, .finite] ∧
    (valueOf fmt (denormalFields fmt sign n)).toRat = signedBy sign (n * (2 : ℚ) ^ fmt.denormalGrid) := by
  rcases hn.lt_or_eq with hlt | rfl
  · rw [denormalFields_of_lt sign hlt]
    by_cases hz : n = 0
    · have hc : classify fmt ⟨sign, 0, n⟩ = .zero := by simp [classify, hieee, hz]
      rw [toRat_valueOf_other (by rw [hc]; decide) (by rw [hc]; decide), hc, hz, Nat.cast_zero, zero_mul, signedBy_zero]
      exact ⟨by decide, rfl⟩
    · have hc : classify fmt ⟨sign, 0, n⟩ = .denormal := by simp [classify, hieee, hz]
      rw [toRat_valueOf_denormal hc, hc]
      exact ⟨by decide, rfl⟩
  · have hfin : FiniteFields fmt ⟨sign, 1, 0⟩ := ⟨le_rfl, fmt.one_le_lastExp, by positivity⟩
    rw [denormalFields_of_eq, toRat_valueOf_finite hfin.classify_eq, hfin.classify_eq, FpFormat.expOne, if_pos hieee,
      add_zero, add_zero, FpFormat.denormalGrid, Nat.cast_one]
    exact ⟨by decide, rfl⟩

/-- Reading back what is written on the denormal grid. -/
theorem encode_denormalFields (hfmt : fmt ∈ [.s, .t]) (sign : Bool) {n : ℕ} (hn : n ≤ 2 ^ fmt.fracBits) {w : Word}
    (hw : w = encodeFields fmt (denormalFields fmt sign n)) :
    fpClass fmt w ∈ [.zero, .denormal, .finite] ∧ fpValue fmt w = signedBy sign (n * (2 : ℚ) ^ fmt.denormalGrid) ∧
      w.msb = sign := by
  subst hw
  have hmax : 1 ≤ fmt.maxField := by cases fmt <;> decide
  have hback := fieldsOf_encodeFields fmt (denormalFields fmt sign n)
    ((Nat.div_le_of_le_mul (by omega)).trans hmax) (Nat.mod_lt _ (by positivity))
  rw [fpClass, fpValue, ← fieldsOf_sign fmt, hback]
  exact ⟨(toRat_valueOf_denormalFields (isIeee_of_mem hfmt) sign hn).1,
    (toRat_valueOf_denormalFields (isIeee_of_mem hfmt) sign hn).2, rfl⟩

/-- A word in the S layout has bits 28:0 clear, and its bits 61:59 are those of the spread exponent. -/
theorem layout_of_spread (sign : Bool) (g : BitVec 11) (f : BitVec 23)
    (hg : g.extractLsb' 7 3 = if g.extractLsb' 0 7 = 0 then 0b000#3 else 0b111#3) {w : Word}
    (hw : w = (BitVec.ofBool sign ++ g ++ f ++ 0#29 : BitVec (1 + 11 + 23 + 29))) :
    w.extractLsb' 0 29 = 0 ∧ w.extractLsb' 59 3 = if w.extractLsb' 52 7 = 0 then 0b000#3 else 0b111#3 := by
  have field : ∀ i k, w.extractLsb' i k =
      (BitVec.ofBool sign ++ g ++ f ++ 0#29 : BitVec (1 + 11 + 23 + 29)).extractLsb' i k := fun _ _ => by rw [hw]
  rw [field, field, field, extractLsb'_append_low _ _ _ _ le_rfl, extractLsb'_append_high _ _ _ (by decide),
    extractLsb'_append_high _ _ _ (by decide), extractLsb'_append_low _ _ _ _ (by decide),
    extractLsb'_append_high _ _ _ (by decide), extractLsb'_append_high _ _ _ (by decide),
    extractLsb'_append_low _ _ _ _ (by decide)]
  exact ⟨BitVec.extractLsb'_eq_self, hg⟩

/-- An S result on the denormal grid is written in the register layout (46 R362). -/
theorem denormalFields_layout (sign : Bool) {n : ℕ} (hn : n ≤ 2 ^ FpFormat.s.fracBits) {w : Word}
    (hw : w = encodeFields .s (denormalFields .s sign n)) : w.extractLsb' 0 29 = 0 ∧
      w.extractLsb' 59 3 = if w.extractLsb' 52 7 = 0 then 0b000#3 else 0b111#3 := by
  rcases hn.lt_or_eq with hlt | rfl
  · rw [denormalFields_of_lt sign hlt] at hw
    exact layout_of_spread sign 0 _ (by decide) hw
  · rw [denormalFields_of_eq sign] at hw
    exact layout_of_spread sign (spreadExponent 1) _ (by decide) hw

end Underflow

/-! ### Results below the normal range (46 R371) -/

section Rows

variable {fpcr : Word} {fn : BitVec 11} {fmt : FpFormat} {mode : RoundMode} {x : Dyadic} {inexact : Bool}

/-- The smallest finite number is `2^fracBits` units of the denormal grid. -/
theorem pow_minNormal_eq (hieee : fmt.isIeee = true) :
    (2 : ℚ) ^ (1 - fmt.expOne) = ((2 ^ fmt.fracBits : ℕ) : ℚ) * (2 : ℚ) ^ fmt.denormalGrid := by
  rw [FpFormat.denormalGrid, FpFormat.expOne, if_pos hieee, Nat.cast_pow, Nat.cast_ofNat, ← zpow_natCast,
    ← zpow_add₀ two_ne_zero]
  congr 1
  ring

/-- A number below the normal range has at most `2^fracBits` units on the denormal grid. -/
theorem roundGrid_denormal_le (hieee : fmt.isIeee = true) (h : |x.toRat| ≤ (2 : ℚ) ^ (1 - fmt.expOne)) :
    (roundGrid mode x fmt.denormalGrid).n ≤ 2 ^ fmt.fracBits := by
  refine (isRounding_roundGrid mode x fmt.denormalGrid).isRint.le_of_le_natCast ?_
  rwa [div_le_iff₀ (by positivity), ← pow_minNormal_eq hieee]

/-- The second row of R371: the result is rounded to the denormal grid. -/
theorem ieeeUnderflow_rounds (hfmt : fmt ∈ [.s, .t]) (hx : x.m ≠ 0) (h : |x.toRat| ≤ (2 : ℚ) ^ (1 - fmt.expOne))
    (hu : fn.getLsbD 8 = true) (hd : fpcr.getLsbD 61 = true) (hz : fpcr.getLsbD 60 = false) :
    ∃ g w, RoundsOnGrid mode ((2 : ℚ) ^ fmt.denormalGrid) x.toRat g ∧
      ieeeUnderflow fpcr fn fmt mode x inexact = .exit { underflow := true, inexact := decide (g ≠ x.toRat) }
        { inexact := decide (g ≠ x.toRat) && inexactOn fpcr fn } w ∧
      fpClass fmt w ∈ [.zero, .denormal, .finite] ∧ fpValue fmt w = g ∧ w.msb = decide (x.toRat < 0) ∧
      (fmt = .s → w.extractLsb' 0 29 = 0 ∧
        w.extractLsb' 59 3 = if w.extractLsb' 52 7 = 0 then 0b000#3 else 0b111#3) := by
  have hround := isRounding_roundGrid mode x fmt.denormalGrid
  have hn := roundGrid_denormal_le (mode := mode) (isIeee_of_mem hfmt) h
  obtain ⟨hclass, hvalue, hsign⟩ := encode_denormalFields hfmt (decide (x.toRat < 0)) hn rfl
  refine ⟨_, _, hround.roundsOnGrid hx, ?_, hclass, ?_, hsign, ?_⟩
  · rw [ieeeUnderflow_denormal hu hd hz rfl, hround.inexact_eq, decide_eq_decide.2 (Dyadic.toRat_neg_iff x)]
  · rw [hvalue, roundedValue, hround.unit]
  · rintro rfl
    exact denormalFields_layout _ hn rfl

end Rows

/-! ### Numbers (46 R371, R373, R375) -/

/-- Precision and exponent range of S and T, written out (46 R361, R362). -/
theorem ieee_parameters {fmt : FpFormat} {p : ℕ} {emin emax : ℤ}
    (h : (fmt = .s ∧ p = 24 ∧ emin = -126 ∧ emax = 127) ∨ (fmt = .t ∧ p = 53 ∧ emin = -1022 ∧ emax = 1023)) :
    fmt ∈ [.s, .t] ∧ p = fmt.fracBits + 1 ∧ emin = 1 - fmt.expOne ∧ emax + 1 = fmt.lastExp + 1 - fmt.expOne ∧
      emin - p + 1 = fmt.denormalGrid := by
  rcases h with ⟨rfl, rfl, rfl, rfl⟩ | ⟨rfl, rfl, rfl, rfl⟩ <;> decide

/-! ### Instructions that complete on every operand (46 R368 to R375) -/

section Completes

variable {fpcr : Word} {fn : BitVec 11} {fmt : FpFormat} {op : FpOp} {a b : Word}

/-- The answer is the common exit with no enabled condition. -/
def FpAnswer.Completes (answer : FpAnswer) : Prop := ∃ st en v, answer = .exit st en v ∧ en.any = false

theorem classify_mem_of_ieee (h : fmt.isIeee = true) (x : FpFields) :
    classify fmt x ∈ [.finite, .zero, .denormal, .infinity, .notANumber] := by
  rw [classify_of_isIeee h]
  grind

/-- Without a qualifier the finite part traps on overflow at most, which `OVFD` disables. -/
theorem ieeeFinite_completes (hfmt : fmt ∈ [.s, .t]) (hu : fn.getLsbD 8 = false) (hi : inexactOn fpcr fn = false)
    (ho : fpcr.getLsbD 51 = true) {sa sb : Bool} {u v : Dyadic} :
    (ieeeFinite fpcr fn fmt op sa sb u v).Completes := by
  by_cases hm : (exactResult op u v).m = 0
  · exact ⟨_, _, _, ieeeFinite_of_zero hm, rfl⟩
  · rw [ieeeFinite_of_ne_zero hfmt rfl hm rfl, ieeeUnderflow_zero (.inl hu), hi, ho]
    split
    · exact ⟨_, _, _, rfl, rfl⟩
    split
    · exact ⟨_, _, _, rfl, rfl⟩
    · exact ⟨_, _, _, rfl, by rw [Bool.and_false]; rfl⟩

theorem completes_of_invalid_disabled (hv : fpcr.getLsbD 49 = true) (st : TrapDetail) (invalid : Bool) (v : Word) :
    (FpAnswer.exit st { invalidOperation := invalid && !fpcr.getLsbD 49 } v).Completes :=
  ⟨_, _, _, rfl, by rw [hv, Bool.not_true, Bool.and_false]; rfl⟩

/-- Without a qualifier, with `INVD` and `OVFD` set and denormal operands let through, no condition is enabled. -/
theorem ieeeArith_completes (hfmt : fmt ∈ [.s, .t]) (hu : fn.getLsbD 8 = false) (hi : inexactOn fpcr fn = false)
    (hv : fpcr.getLsbD 49 = true) (ho : fpcr.getLsbD 51 = true)
    (hd : fpcr.getLsbD 48 = true ∨ fpcr.getLsbD 47 = true) : (ieeeArith fpcr fn fmt op a b).Completes := by
  by_cases hbn : fpClass fmt b = .notANumber
  · rw [ieeeArith_nan_right hfmt (.inr hd) hbn rfl]
    exact completes_of_invalid_disabled hv ..
  by_cases han : fpClass fmt a = .notANumber
  · rw [ieeeArith_nan_left hfmt (.inr hd) han hbn rfl]
    exact completes_of_invalid_disabled hv ..
  by_cases hinf : fpClass fmt a = .infinity ∨ fpClass fmt b = .infinity
  · cases op with
    | add =>
      rw [ieeeArith_add_infinity hfmt (.inr hd) han hbn hinf]
      split
      · exact completes_of_invalid_disabled hv _ true _
      · exact ⟨_, _, _, rfl, rfl⟩
    | mul =>
      rw [ieeeArith_mul_infinity hfmt (.inr hd) han hbn hinf]
      split
      · exact completes_of_invalid_disabled hv _ true _
      · exact ⟨_, _, _, rfl, rfl⟩
  · have number : ∀ v, fpClass fmt v ≠ .notANumber → fpClass fmt v ≠ .infinity → IsNumberOperand fpcr fmt v := by
      intro v hn hi
      have := classify_mem_of_ieee (isIeee_of_mem hfmt) (fieldsOf fmt v)
      unfold IsNumberOperand fpClass at *
      grind
    rw [ieeeArith_of_numbers hfmt (number a han (not_or.1 hinf).1) (number b hbn (not_or.1 hinf).2)]
    exact ieeeFinite_completes hfmt hu hi ho

/-- A function field without a qualifier enables no trap on underflow or inexact. -/
theorem fpFunction_no_qualifier : ∀ (rnd : BitVec 2) (sf : BitVec 6),
    (fpFunction 0 rnd sf).getLsbD 8 = false ∧ inexactQualifier (fpFunction 0 rnd sf) = false := by
  decide

/-- An IEEE instruction without a qualifier completes under these bits of the FPCR. -/
theorem FpRow.ieee_completes {i : Instr} {o : BitVec 6} {rnd : BitVec 2} {sf : BitVec 6} {tag : TypeTag}
    {fa fb fc : RegIdx} {s : State} (h : FpRow i o (fpFunction 0 rnd sf) tag fa fb fc) (hr : s.ready)
    (hx : executorOf i = ieeeExec fmt op) (hfmt : fmt ∈ [.s, .t]) (hv : s.cpu.fpcr.getLsbD 49 = true)
    (ho : s.cpu.fpcr.getLsbD 51 = true) (hd : s.cpu.fpcr.getLsbD 48 = true ∨ s.cpu.fpcr.getLsbD 47 = true) :
    ∃ c v, exec i s = .next ((s.setFpcr c).afterF fc v) := by
  obtain ⟨hu, hq⟩ := fpFunction_no_qualifier rnd sf
  obtain ⟨st, en, v, heq, hen⟩ := ieeeArith_completes (op := op) (a := s.readF fa) (b := s.readF fb) hfmt hu
    (show inexactOn s.cpu.fpcr _ = false by rw [inexactOn, hq]; rfl) hv ho hd
  exact ⟨_, v, h.exit_completes hr ((ieeeExec_fpRecord hx).trans (congrArg _ heq)) hen⟩

/-- So do the four IEEE instructions. -/
theorem ieeeInstr_completes {s : State} (hr : s.ready) (fa fb fc : RegIdx) (rnd : BitVec 2)
    (hv : s.cpu.fpcr.getLsbD 49 = true) (ho : s.cpu.fpcr.getLsbD 51 = true)
    (hd : s.cpu.fpcr.getLsbD 48 = true ∨ s.cpu.fpcr.getLsbD 47 = true) :
    ∀ i ∈ [Instr.adds fa fb fc 0 rnd, .addt fa fb fc 0 rnd, .muls fa fb fc 0 rnd, .mult fa fb fc 0 rnd],
      ∃ c v, exec i s = .next ((s.setFpcr c).afterF fc v) := by
  intro i hi
  simp only [List.mem_cons, List.not_mem_nil, or_false] at hi
  rcases hi with rfl | rfl | rfl | rfl
  · exact (fpRow_adds rfl ..).ieee_completes (fmt := .s) (op := .add) hr rfl (by decide) hv ho hd
  · exact (fpRow_addt rfl ..).ieee_completes (fmt := .t) (op := .add) hr rfl (by decide) hv ho hd
  · exact (fpRow_muls rfl ..).ieee_completes (fmt := .s) (op := .mul) hr rfl (by decide) hv ho hd
  · exact (fpRow_mult rfl ..).ieee_completes (fmt := .t) (op := .mul) hr rfl (by decide) hv ho hd

end Completes

/-- Settles O50: the answer goes by the range of the rounded result; without qualifiers and with the disable bits set no
condition is enabled. -/
theorem ieeeFiniteResults : Obligations.IeeeFiniteResults := by
  refine ⟨?_, ?_⟩
  · intro fpcr fn fmt op a b va vb x mode p emin emax ineOn negative sign hfmt hnum hva hvb hx hmode hine hneg hsign
    obtain ⟨hfmt, hp, hemin, hemax, hgrid⟩ := ieee_parameters hfmt
    have hmode : mode = ieeeMode fpcr fn := hmode.trans (ieeeMode_eq fpcr fn).symm
    obtain ⟨ha, hb⟩ : IsNumberOperand fpcr fmt a ∧ IsNumberOperand fpcr fmt b :=
      ⟨hnum a (by simp), hnum b (by simp)⟩
    have hva : va = (ieeeOperand fpcr fmt a).toRat := hva.trans (toRat_ieeeOperand hfmt a).symm
    have hvb : vb = (ieeeOperand fpcr fmt b).toRat := hvb.trans (toRat_ieeeOperand hfmt b).symm
    obtain ⟨r, hr⟩ : ∃ r, r = exactResult op (ieeeOperand fpcr fmt a) (ieeeOperand fpcr fmt b) := ⟨_, rfl⟩
    have hxr : x = r.toRat := by rw [hr, exactResult_toRat, ← hva, ← hvb]; exact hx
    have hine : ineOn = inexactOn fpcr fn := hine
    rw [ieeeArith_of_numbers hfmt ha hb, hgrid, hemin, hemax, hp, hmode, hxr, hine]
    refine ⟨fun hzero => ?_, fun hne => ?_⟩
    · have hneg : negative = zeroSign mode op a.msb b.msb va vb := hneg
      rw [Dyadic.toRat_eq_zero, hr] at hzero
      rw [ieeeFinite_of_zero hzero, hneg, hmode, hva, hvb]
      rfl
    · have hm : r.m ≠ 0 := mt (Dyadic.toRat_eq_zero r).2 hne
      refine ⟨_, roundsToPrec_roundPrec hm, pow_le_roundPrec hm, fun h => ?_, fun h => ?_, fun h1 h2 => ?_, fun h => ?_⟩
      · exact (roundPrec_le_pow hm h).trans_lt (zpow_lt_zpow_right₀ one_lt_two (by omega))
      · rw [hsign, hxr, ← overflowDefault_eq hfmt hne, decide_eq_decide.2 (Dyadic.toRat_neg_iff r)]
        exact ieeeFinite_overflow hfmt hr hm rfl h
      · obtain ⟨w, hw, hfin, hval, hvalw⟩ := ieeeFinite_normal (sa := a.msb) (sb := b.msb) hfmt hr hm rfl h1 h2
        exact ⟨w, hw, hfin, hval, wide_of_mem hfmt ▸ hvalw⟩
      · have hsmall : |r.toRat| ≤ (2 : ℚ) ^ (1 - fmt.expOne) :=
          le_of_not_ge fun hge => absurd (pow_le_roundPrec hm hge) (not_le.2 h)
        rw [ieeeFinite_underflow hfmt hr hm rfl h]
        exact ⟨fun hu hd => ⟨0, ieeeUnderflow_trap hu hd⟩, fun hu hd hz => ieeeUnderflow_rounds hfmt hm hsmall hu hd hz,
          ieeeUnderflow_zero⟩
  · exact fun s fa fb fc rnd hr hv ho hd => ieeeInstr_completes hr fa fb fc rnd hv ho hd

end Sys2Proof.Machine
end
